-- ==== Sys2Proof/Word.lean ====
section
/-! DEFINITION. The data the machine handles: bytes and 32-bit words (00_scope.md R20; 20_memory.md R84). -/

namespace Sys2Proof

/-- A byte: the unit of QSM, of the buffers and of every data phase (20_memory.md R80, R85). -/
abbrev Byte := BitVec 8

/-- A command, extension, response or register word (30_encoding.md R111, R125; 10_state.md R54). -/
abbrev Word := BitVec 32

/-- `zeros(n)`: n bytes of 0x00 (00_scope.md R21). -/
abbrev zeros (n : Nat) : List Byte := List.replicate n 0

end Sys2Proof
end

