-- ==== Sys2Proof/Config.lean ====
section
/-! DEFINITION. The implementation parameters of 00_scope.md section 4, as a record that every state carries and no
step changes (10_state.md R32), and the two free values the flash collaborator supplies. -/

namespace Sys2Proof

/-- An urgency level of a context: 0 is the thread context (00_scope.md R14, R27). The bound 16 is the largest
`NPRIO`; a configuration uses the levels below its own `NPRIO`. -/
abbrev Level := Fin 16

/-- The parameters of rules R7 to R18. `CRC_WIDTH` = 2 (R8), `CRC_INIT` = 0 (R11) and `NQ` = 4 (R12) are fixed.
`SECTOR_OF` (R17) is `Config.sectorOf`. -/
structure Config where
  /-- `MAX_PACKET_SIZE` (R7). -/
  maxPacketSize : Nat
  /-- `START_CODE`; `START_CODE_LEN` is its length (R10). -/
  startCode : List Byte
  /-- `CRC_POLY` (R11). -/
  crcPoly : BitVec 16
  /-- `CRC_REFLECT` (R11). -/
  crcReflect : Bool
  /-- `CRC_XOROUT` (R11). -/
  crcXorOut : BitVec 16
  /-- `QSM_BYTES` (R13). -/
  qsmBytes : Nat
  /-- `NPRIO` (R14). -/
  nprio : Nat
  /-- `PRIO_UART` (R15). -/
  prioUart : Level
  /-- `PRIO_SPI` (R15). -/
  prioSpi : Level
  /-- `PRIO_GPIO` (R15). -/
  prioGpio : Level
  /-- `MAX_CHUNK_SIZE` (R16). -/
  maxChunkSize : Nat
  /-- `MAX_CHUNKS_PER_PAGE` (R16). -/
  maxChunksPerPage : Nat
  /-- `IMAGE_PAGE_COUNT` (R17). -/
  imagePageCount : Nat
  /-- `IMAGE_FLASH_BASE` (R17). -/
  imageFlashBase : BitVec 32
  /-- `SPI_SETTLE_US` (R18): timing only; no rule of the spec reads it (70_reset_and_hazards.md R471). -/
  spiSettleUs : Nat
  /-- `UART_RX_TIMEOUT` (R18): timing only; no rule of the spec reads it (70_reset_and_hazards.md R471). -/
  uartRxTimeout : Nat
  deriving DecidableEq, Repr

/-- `CRC_WIDTH` (R8). -/
abbrev crcWidth : Nat := 2

/-- `NQ`, the number of queue instances (R12). -/
abbrev nq : Nat := 4

/-- `MAX_MESSAGE_SIZE` = MAX_PACKET_SIZE − 1 − CRC_WIDTH (R9; 90_conflicts.md C1). -/
abbrev Config.maxMessageSize (c : Config) : Nat := c.maxPacketSize - 1 - crcWidth

/-- `START_CODE_LEN` (R10). -/
abbrev Config.startCodeLen (c : Config) : Nat := c.startCode.length

/-- `PAGE_SIZE` = MAX_CHUNK_SIZE × MAX_CHUNKS_PER_PAGE (R16). -/
abbrev Config.pageSize (c : Config) : Nat := c.maxChunkSize * c.maxChunksPerPage

/-- `ALL_PENDING` = 2^MAX_CHUNKS_PER_PAGE − 1 (10_state.md R47). The bitmap is at most 32 bits wide (R16). -/
abbrev Config.allPending (c : Config) : BitVec 32 := BitVec.ofNat 32 (2 ^ c.maxChunksPerPage - 1)

/-- A priority parameter is in 1..NPRIO−1 (R15). -/
abbrev Config.prioOk (c : Config) (u : Level) : Prop := 1 ≤ u.val ∧ u.val < c.nprio

/-- A configuration is well formed exactly when the constraints of rules R7 to R18 hold (R19). -/
abbrev Config.WF (c : Config) : Prop :=
  (4 ≤ c.maxPacketSize ∧ c.maxPacketSize ≤ 255) ∧
  (1 ≤ c.startCode.length ∧ c.startCode.length ≤ 2) ∧
  (1 ≤ c.qsmBytes ∧ c.qsmBytes ≤ 65536) ∧
  (2 ≤ c.nprio ∧ c.nprio ≤ 16) ∧
  c.prioOk c.prioUart ∧ c.prioOk c.prioSpi ∧ c.prioOk c.prioGpio ∧
  (1 ≤ c.maxChunkSize ∧ c.maxChunkSize ≤ 255) ∧
  (1 ≤ c.maxChunksPerPage ∧ c.maxChunksPerPage ≤ 32) ∧
  (1 ≤ c.imagePageCount ∧ c.imagePageCount ≤ 65536)

/-- The reference configuration of rules R7 to R18. The spec gives no reference lengths for the two timing
parameters; no rule reads them, and 0 stands in both (assumption 3). -/
def Config.reference : Config where
  maxPacketSize := 64
  startCode := [0xA5]
  crcPoly := 0x1021
  crcReflect := false
  crcXorOut := 0x0000
  qsmBytes := 4096
  nprio := 8
  prioUart := 3
  prioSpi := 3
  prioGpio := 3
  maxChunkSize := 32
  maxChunksPerPage := 8
  imagePageCount := 64
  imageFlashBase := 0x00000000
  spiSettleUs := 0
  uartRxTimeout := 0

/-- `SECTOR_OF` (R17): the sector that holds a flash address, supplied by the flash collaborator. A free value:
nothing is known of it (93_implementation_defined.md I7; assumption 6). -/
opaque Config.sectorOf : BitVec 32 → Nat

/-- The flash collaborator's answer to its n-th request when the environment has announced none: a free value
(00_scope.md R23; 93_implementation_defined.md U4; assumption 5). `true` is OK, `false` is FAIL. -/
opaque Config.flashAnswer : Nat → Bool

end Sys2Proof
end

