-- ==== Sys2Proof/Syntax.lean ====
section
/-! DEFINITION. The commands of FTC: one constructor per row of spec/opcode_table.json (30_encoding.md R127), with the
named fields of its format (R114 to R124) and its data phase. A length field (N, L, LEN) is the length of the data
phase (R133), so it is not a second operand. -/

namespace Sys2Proof

/-- The queue instances Q0..Q3 that the 2-bit field `Q` names (30_encoding.md R113). -/
inductive QId where
  | q0 | q1 | q2 | q3
  deriving DecidableEq, Repr

/-- The two request ports (30_encoding.md R110). -/
inductive Port where
  /-- Software contexts issue commands on it. -/
  | command
  /-- Only the environment drives it. -/
  | event
  deriving DecidableEq, Repr

/-- The twenty commands (30_encoding.md R127). -/
inductive Instr where
  /-- QINIT (40_queue.md R155; format FQI). -/
  | qinit (q : QId) (sp : Bool) (ceil : BitVec 4) (itemSize cap base : BitVec 16)
  /-- ENQ (40_queue.md R156; format FQN). -/
  | enq (q : QId) (data : List Byte)
  /-- DEQ (40_queue.md R157; format FQ). -/
  | deq (q : QId)
  /-- QCOUNT (40_queue.md R158; format FQ). -/
  | qcount (q : QId)
  /-- QFREE (40_queue.md R159; format FQ). -/
  | qfree (q : QId)
  /-- CRC_COMPUTE (41_crc.md R205; format FN). -/
  | crcCompute (data : List Byte)
  /-- CRC_APPEND (41_crc.md R206; format FL). -/
  | crcAppend (payload : List Byte)
  /-- CRC_VERIFY (41_crc.md R207; format FN). -/
  | crcVerify (data : List Byte)
  /-- LINK_INIT (44_comms.md R310; format FK). The field is kept as it is coded: 0 and 3 are answered BAD_ARG. -/
  | linkInit (link : BitVec 2)
  /-- SEND (44_comms.md R312; format FL). -/
  | send (payload : List Byte)
  /-- RECV (44_comms.md R313; format FZ). -/
  | recv
  /-- KICK (44_comms.md R311; format FZ). -/
  | kick
  /-- CHUNK (45_reassembly.md R345; format FC). -/
  | chunk (page : BitVec 16) (ci cc : BitVec 8) (payload : List Byte)
  /-- REG_READ (46_system.md R370; format FR). -/
  | regRead (reg : BitVec 8)
  /-- EV_UART_RX (42_uart_framer.md R238; format FB). -/
  | evUartRx (b : Byte)
  /-- EV_UART_ERR (42_uart_framer.md R239; format FE). The kind is kept as it is coded: 5 to 7 are answered BAD_ARG. -/
  | evUartErr (kind : BitVec 3)
  /-- EV_UART_TXDONE (42_uart_framer.md R242; format FZ). -/
  | evUartTxDone
  /-- EV_SPI_DONE (43_spi_transport.md R276; format FZ with a data phase of MAX_PACKET_SIZE bytes, R119). -/
  | evSpiDone (rx : List Byte)
  /-- EV_CTS_EDGE (43_spi_transport.md R277; format FZ). -/
  | evCtsEdge
  /-- EV_MW_EDGE (43_spi_transport.md R278; format FZ). -/
  | evMwEdge
  deriving DecidableEq, Repr

/-- The port that carries a command (30_encoding.md R110, R127). -/
def Instr.port : Instr → Port
  | .qinit .. | .enq .. | .deq _ | .qcount _ | .qfree _ => .command
  | .crcCompute _ | .crcAppend _ | .crcVerify _ => .command
  | .linkInit _ | .send _ | .recv | .kick | .chunk .. | .regRead _ => .command
  | .evUartRx _ | .evUartErr _ | .evUartTxDone | .evSpiDone _ | .evCtsEdge | .evMwEdge => .event

end Sys2Proof
end

