-- ==== Sys2Proof/WellFormed.lean ====
section
/-! DEFINITION. Well-formed commands: the data phase has a length that the command's length field can name
(30_encoding.md R115, R117, R118, R121, R133), and an SPI completion carries exactly MAX_PACKET_SIZE bytes (R119).
Every other field is as wide as its encoding, so nothing else can be ill formed (R128). -/

namespace Sys2Proof

/-- The command can be written in its format under configuration `c`. -/
def Instr.wellFormed (c : Config) : Instr → Bool
  | .enq _ data => decide (data.length < 2 ^ 16)
  | .crcCompute data => decide (data.length < 2 ^ 16)
  | .crcVerify data => decide (data.length < 2 ^ 16)
  | .crcAppend payload => decide (payload.length < 2 ^ 8)
  | .send payload => decide (payload.length < 2 ^ 8)
  | .chunk _ _ _ payload => decide (payload.length < 2 ^ 8)
  | .evSpiDone rx => decide (rx.length = c.maxPacketSize)
  | .qinit .. | .deq _ | .qcount _ | .qfree _ => true
  | .linkInit _ | .recv | .kick | .regRead _ => true
  | .evUartRx _ | .evUartErr _ | .evUartTxDone | .evCtsEdge | .evMwEdge => true

end Sys2Proof
end

