-- ==== Sys2Proof/Decode.lean ====
section
/-! DEFINITION. Command framing, decoding and encoding (30_encoding.md R110 to R134; 20_memory.md R84). `decode` is
total on any byte string: it reads one command off the front of a port's byte stream, or names why it does not. -/

namespace Sys2Proof

/-! ### Byte order -/

/-- A word from its four bytes, least-significant byte first (20_memory.md R84). -/
def wordOfBytes (b0 b1 b2 b3 : Byte) : Word := b3 ++ b2 ++ b1 ++ b0

/-- A word as the four bytes w[7:0], w[15:8], w[23:16], w[31:24] (20_memory.md R84). -/
def bytesOfWord (w : Word) : List Byte :=
  [w.extractLsb' 0 8, w.extractLsb' 8 8, w.extractLsb' 16 8, w.extractLsb' 24 8]

/-- `lo(v)` = v[7:0] (00_scope.md R21). -/
def lo (v : BitVec 16) : Byte := v.extractLsb' 0 8

/-- `hi(v)` = v[15:8] (00_scope.md R21). -/
def hi (v : BitVec 16) : Byte := v.extractLsb' 8 8

/-- `w[hi:lo]`, the field of `width` bits from bit `low` (00_scope.md R20; 30_encoding.md R112). -/
def field (w : Word) (low width : Nat) : BitVec width := w.extractLsb' low width

/-! ### Formats and the opcode map -/

/-- The formats of 30_encoding.md section 2. -/
inductive Format where
  | fqi | fqn | fq | fn | fl | fz | fk | fc | fr | fb | fe
  deriving DecidableEq, Repr

/-- The mask of a format: the opcode bits and the reserved bits of word0 (30_encoding.md R114 to R124). -/
def Format.mask : Format → Word
  | .fqi => 0xFCE0FFFF
  | .fqn => 0xFCFF0000
  | .fq => 0xFCFFFFFF
  | .fn => 0xFFFF0000
  | .fl => 0xFFFFFF00
  | .fz => 0xFFFFFFFF
  | .fk => 0xFFFFFFFC
  | .fc => 0xFF000000
  | .fr => 0xFFFFFF00
  | .fb => 0xFFFFFF00
  | .fe => 0xFFFFFFF8

/-- The reserved bits of each extension word of a format: one entry per extension word (30_encoding.md R114, R121). -/
def Format.extMasks : Format → List Word
  | .fqi => [0x00000000, 0xFFFF0000]
  | .fc => [0xFFFF0000]
  | _ => []

/-- The assigned opcodes, one per row of 30_encoding.md R127. -/
inductive Opcode where
  | qinit | enq | deq | qcount | qfree
  | crcCompute | crcAppend | crcVerify
  | linkInit | send | recv | kick
  | chunk | regRead
  | evUartRx | evUartErr | evUartTxDone
  | evSpiDone | evCtsEdge | evMwEdge
  deriving DecidableEq, Repr

/-- The value of `OP` (30_encoding.md R127). -/
def Opcode.code : Opcode → BitVec 6
  | .qinit => 0x01
  | .enq => 0x02
  | .deq => 0x03
  | .qcount => 0x04
  | .qfree => 0x05
  | .crcCompute => 0x08
  | .crcAppend => 0x09
  | .crcVerify => 0x0A
  | .linkInit => 0x10
  | .send => 0x11
  | .recv => 0x12
  | .kick => 0x13
  | .chunk => 0x18
  | .regRead => 0x20
  | .evUartRx => 0x30
  | .evUartErr => 0x31
  | .evUartTxDone => 0x32
  | .evSpiDone => 0x34
  | .evCtsEdge => 0x35
  | .evMwEdge => 0x36

/-- Every opcode of 30_encoding.md R127, in the table's order. -/
def Opcode.all : List Opcode :=
  [.qinit, .enq, .deq, .qcount, .qfree, .crcCompute, .crcAppend, .crcVerify, .linkInit, .send, .recv, .kick,
   .chunk, .regRead, .evUartRx, .evUartErr, .evUartTxDone, .evSpiDone, .evCtsEdge, .evMwEdge]

/-- The opcode a code is assigned to, or none (30_encoding.md R129(a)). -/
def Opcode.ofCode (c : BitVec 6) : Option Opcode :=
  Opcode.all.find? (fun o => o.code == c)

/-- The format of each opcode (30_encoding.md R127). -/
def Opcode.format : Opcode → Format
  | .qinit => .fqi
  | .enq => .fqn
  | .deq => .fq
  | .qcount => .fq
  | .qfree => .fq
  | .crcCompute => .fn
  | .crcAppend => .fl
  | .crcVerify => .fn
  | .linkInit => .fk
  | .send => .fl
  | .recv => .fz
  | .kick => .fz
  | .chunk => .fc
  | .regRead => .fr
  | .evUartRx => .fb
  | .evUartErr => .fe
  | .evUartTxDone => .fz
  | .evSpiDone => .fz
  | .evCtsEdge => .fz
  | .evMwEdge => .fz

/-- The port of each opcode: 0x01 to 0x2F command, 0x30 to 0x3F event (30_encoding.md R110, R127). -/
def Opcode.port : Opcode → Port
  | .qinit | .enq | .deq | .qcount | .qfree => .command
  | .crcCompute | .crcAppend | .crcVerify => .command
  | .linkInit | .send | .recv | .kick | .chunk | .regRead => .command
  | .evUartRx | .evUartErr | .evUartTxDone | .evSpiDone | .evCtsEdge | .evMwEdge => .event

/-- The `match` column of 30_encoding.md R127: the command word with every named field 0. -/
def Opcode.matchWord (o : Opcode) : Word := o.code ++ 0#26

/-- `word0[31:26]` (30_encoding.md R112). -/
def opField (w : Word) : BitVec 6 := field w 26 6

/-! ### Command length -/

/-- `EXT(op)`: how many extension words follow word0 (30_encoding.md R132). -/
def Opcode.extCount : Opcode → Nat
  | .qinit => 2
  | .chunk => 1
  | _ => 0

/-- `DATA_LEN(op, word0)`: the length of the data phase in bytes (30_encoding.md R133). -/
def Opcode.dataLen (c : Config) (w : Word) : Opcode → Nat
  | .enq | .crcCompute | .crcVerify => (field w 0 16).toNat
  | .crcAppend | .send | .chunk => (field w 0 8).toNat
  | .evSpiDone => c.maxPacketSize
  | _ => 0

/-- `length_of(port, word0)`: the extension words and data bytes that follow word0 (30_encoding.md R134). -/
def lengthOf (c : Config) (p : Port) (w : Word) : Nat × Nat :=
  match Opcode.ofCode (opField w) with
  | none => (0, 0)
  | some o => if o.port = p then (o.extCount, o.dataLen c w) else (0, 0)

/-! ### Decoding -/

/-- Why a command word is illegal: the three cases of 30_encoding.md R129. -/
inductive IllegalReason where
  /-- (a) its OP is assigned to no command. -/
  | unassignedOpcode
  /-- (b) its OP belongs to the other port. -/
  | wrongPort
  /-- (c) a reserved bit is 1, in word0 or in an extension word. -/
  | reservedBit
  deriving DecidableEq, Repr

/-- What the front of a port's byte stream holds. -/
inductive Decoded where
  /-- Not yet a whole command: more bytes must come before one can be read. -/
  | incomplete
  /-- A command, and the bytes after it. -/
  | command (i : Instr) (rest : List Byte)
  /-- An illegal command, its word0, and the bytes after it (30_encoding.md R129, R134). -/
  | illegal (why : IllegalReason) (word0 : Word) (rest : List Byte)
  deriving DecidableEq, Repr

/-- The next n words of a byte stream that holds at least 4·n bytes. -/
def takeWords : Nat → List Byte → List Word
  | n + 1, b0 :: b1 :: b2 :: b3 :: rest => wordOfBytes b0 b1 b2 b3 :: takeWords n rest
  | _, _ => []

/-- The queue instance of a 2-bit field (30_encoding.md R113). -/
def QId.ofCode (v : BitVec 2) : QId :=
  if v = 0 then .q0 else if v = 1 then .q1 else if v = 2 then .q2 else .q3

/-- The 2-bit field of a queue instance (30_encoding.md R113). -/
def QId.code : QId → BitVec 2
  | .q0 => 0
  | .q1 => 1
  | .q2 => 2
  | .q3 => 3

/-- The command of an opcode with the named fields of its format read out of its words (30_encoding.md R112, R114 to
R124), and its data phase. -/
def Opcode.build (w w1 w2 : Word) (data : List Byte) : Opcode → Instr
  | .qinit =>
    .qinit (.ofCode (field w 24 2)) (field w 20 1 == 1) (field w 16 4)
      (field w1 16 16) (field w1 0 16) (field w2 0 16)
  | .enq => .enq (.ofCode (field w 24 2)) data
  | .deq => .deq (.ofCode (field w 24 2))
  | .qcount => .qcount (.ofCode (field w 24 2))
  | .qfree => .qfree (.ofCode (field w 24 2))
  | .crcCompute => .crcCompute data
  | .crcAppend => .crcAppend data
  | .crcVerify => .crcVerify data
  | .linkInit => .linkInit (field w 0 2)
  | .send => .send data
  | .recv => .recv
  | .kick => .kick
  | .chunk => .chunk (field w1 0 16) (field w 16 8) (field w 8 8) data
  | .regRead => .regRead (field w 0 8)
  | .evUartRx => .evUartRx (field w 0 8)
  | .evUartErr => .evUartErr (field w 0 3)
  | .evUartTxDone => .evUartTxDone
  | .evSpiDone => .evSpiDone data
  | .evCtsEdge => .evCtsEdge
  | .evMwEdge => .evMwEdge

/-- No reserved bit of the command is 1: `(w AND mask) = match` in word0, and the same in every extension word
(30_encoding.md R129(c), R130). -/
def reservedClear (o : Opcode) (w : Word) (ext : List Word) : Bool :=
  (w &&& o.format.mask == o.matchWord) && (List.zipWith (fun m e => e &&& m == 0) o.format.extMasks ext).all id

/-- Reads one command off the front of the byte stream of port `p` (30_encoding.md R111, R129, R134). A word whose
opcode is unassigned or belongs to the other port consumes only itself; a command with a reserved bit set is consumed
whole. -/
def decode (c : Config) (p : Port) : List Byte → Decoded
  | b0 :: b1 :: b2 :: b3 :: rest =>
    let w := wordOfBytes b0 b1 b2 b3
    match Opcode.ofCode (opField w) with
    | none => .illegal .unassignedOpcode w rest
    | some o =>
      if o.port ≠ p then .illegal .wrongPort w rest
      else
        let e := o.extCount
        let n := o.dataLen c w
        if rest.length < 4 * e + n then .incomplete
        else
          let ext := takeWords e rest
          let body := rest.drop (4 * e)
          if reservedClear o w ext then
            .command (o.build w (ext.getD 0 0) (ext.getD 1 0) (body.take n)) (body.drop n)
          else .illegal .reservedBit w (body.drop n)
  | _ => .incomplete

/-! ### Encoding -/

/-- The opcode of a command (30_encoding.md R127). -/
def Instr.opcode : Instr → Opcode
  | .qinit .. => .qinit
  | .enq .. => .enq
  | .deq _ => .deq
  | .qcount _ => .qcount
  | .qfree _ => .qfree
  | .crcCompute _ => .crcCompute
  | .crcAppend _ => .crcAppend
  | .crcVerify _ => .crcVerify
  | .linkInit _ => .linkInit
  | .send _ => .send
  | .recv => .recv
  | .kick => .kick
  | .chunk .. => .chunk
  | .regRead _ => .regRead
  | .evUartRx _ => .evUartRx
  | .evUartErr _ => .evUartErr
  | .evUartTxDone => .evUartTxDone
  | .evSpiDone _ => .evSpiDone
  | .evCtsEdge => .evCtsEdge
  | .evMwEdge => .evMwEdge

/-- The data phase of a command (30_encoding.md R111, R133). -/
def Instr.data : Instr → List Byte
  | .enq _ data => data
  | .crcCompute data => data
  | .crcAppend payload => payload
  | .crcVerify data => data
  | .send payload => payload
  | .chunk _ _ _ payload => payload
  | .evSpiDone rx => rx
  | _ => []

/-- The fields of word0 below the opcode, written from the tables of 30_encoding.md R114 to R124. -/
def Instr.lowFields : Instr → BitVec 26
  | .qinit q sp ceil _ _ _ => q.code ++ 0#3 ++ BitVec.ofBool sp ++ ceil ++ 0#16
  | .enq q data => q.code ++ 0#8 ++ BitVec.ofNat 16 data.length
  | .deq q => q.code ++ 0#24
  | .qcount q => q.code ++ 0#24
  | .qfree q => q.code ++ 0#24
  | .crcCompute data => 0#10 ++ BitVec.ofNat 16 data.length
  | .crcAppend payload => 0#18 ++ BitVec.ofNat 8 payload.length
  | .crcVerify data => 0#10 ++ BitVec.ofNat 16 data.length
  | .linkInit link => 0#24 ++ link
  | .send payload => 0#18 ++ BitVec.ofNat 8 payload.length
  | .recv => 0#26
  | .kick => 0#26
  | .chunk _ ci cc payload => 0#2 ++ ci ++ cc ++ BitVec.ofNat 8 payload.length
  | .regRead reg => 0#18 ++ reg
  | .evUartRx b => 0#18 ++ b
  | .evUartErr kind => 0#23 ++ kind
  | .evUartTxDone => 0#26
  | .evSpiDone _ => 0#26
  | .evCtsEdge => 0#26
  | .evMwEdge => 0#26

/-- The command word (30_encoding.md R112). -/
def Instr.word0 (i : Instr) : Word := i.opcode.code ++ i.lowFields

/-- The extension words (30_encoding.md R114, R121). -/
def Instr.extWords : Instr → List Word
  | .qinit _ _ _ itemSize cap base => [itemSize ++ cap, 0#16 ++ base]
  | .chunk page _ _ _ => [0#16 ++ page]
  | _ => []

/-- The words of a command: word0, then its extension words (30_encoding.md R111). -/
def encodeWords (i : Instr) : List Word := i.word0 :: i.extWords

/-- A command as it is serialised on a port: its words, least-significant byte first, then its data phase
(30_encoding.md R111; 20_memory.md R84). -/
def encode (i : Instr) : List Byte := (encodeWords i).flatMap bytesOfWord ++ i.data

/-! ### The opcode table's words -/

/-- The port that the opcode of a word belongs to; an unassigned opcode is shown on the command port. -/
def portOfWord (w : Word) : Port :=
  match Opcode.ofCode (opField w) with
  | some o => o.port
  | none => .command

/-- The bytes of a command whose low `nbits` bits are `w` and whose other bits are 0: `w` least-significant byte first,
then as many zero bytes as the command's length asks for. -/
def tableBytes (c : Config) (nbits w : Nat) : List Byte :=
  let w0 := BitVec.ofNat 32 w
  let n := lengthOf c (portOfWord w0) w0
  let given := (List.range (nbits / 8)).map (fun k => BitVec.ofNat 8 (w >>> (8 * k)))
  given ++ zeros (4 + 4 * n.1 + n.2 - nbits / 8)

/-- The command that the decoder reads from a word of the opcode table, under the reference configuration and on the
port of its opcode. -/
def decodeTableWord (nbits w : Nat) : Option Instr :=
  match decode Config.reference (portOfWord (BitVec.ofNat 32 w)) (tableBytes Config.reference nbits w) with
  | .command i _ => some i
  | _ => none

end Sys2Proof
end

