-- ==== Sys2Proof/Machine/State.lean ====
section
/-! DEFINITION. The state of FTC, in the four parts of 10_state.md R32: FTC state (R33 to R48), scheduling state (R49,
R50), environment state (R46, R52; 60_exceptions.md R430) and the configuration, as plain data. Beside them stand the
model's own fields: the schedule that says which of the steps of 60_exceptions.md R417 comes next, the answers of the
flash collaborator, and the logs of what FTC answered and asked. -/

namespace Sys2Proof.Machine

/-- The status codes of a response (60_exceptions.md R400). -/
inductive Status where
  | ok | full | empty | initFail | notInit | oversize | badArg | illegal | faulted | denied
  deriving DecidableEq, Repr

/-- A response: STATUS, VALUE and DATA (30_encoding.md R125). -/
structure Response where
  status : Status
  value : BitVec 24
  data : List Byte
  deriving DecidableEq, Repr

/-- LINK_SEL, the selected transport (10_state.md R33); the code 3 is never stored. -/
inductive LinkSel where
  | none | spi | uart
  deriving DecidableEq, Repr

/-- UFR_STATE (10_state.md R41); the code 3 is never stored. -/
inductive UfrState where
  | awaitingStart | awaitingLength | awaitingPayload
  deriving DecidableEq, Repr

/-- ACC_STATUS, the status of the last CHUNK (10_state.md R47). -/
inductive AccStatus where
  | none | writeSuccess | writeFail | fatal
  deriving DecidableEq, Repr

/-- The queue storage memory as the cells that differ from `Memory.unlisted`, addresses strictly rising (10_state.md
R40; `Memory.WF`). -/
abbrev Memory := List Host.Cell

/-- One queue instance (10_state.md R38), with its FAULT.QINV bit (R33). -/
structure Queue where
  /-- INIT: set by a successful QINIT. -/
  init : Bool
  /-- SP: storage present. -/
  sp : Bool
  /-- CEIL: senderPriorityCeiling. -/
  ceil : BitVec 4
  /-- ITEM_SIZE: bytes per slot. -/
  itemSize : BitVec 16
  /-- CAP: number of slots. -/
  cap : BitVec 16
  /-- BASE: byte offset in QSM of slot 0. -/
  base : BitVec 16
  /-- FRONT: index of the oldest occupied slot. -/
  front : BitVec 16
  /-- CLAIMED: slots reserved by producers. -/
  claimed : BitVec 16
  /-- READY: slots visible to the consumer. -/
  ready : BitVec 16
  /-- FAULT.QINV[q]: the counter invariant was violated. -/
  qinv : Bool
  deriving DecidableEq, Repr

/-- The four queue instances (00_scope.md R12). -/
structure Queues where
  q0 : Queue
  q1 : Queue
  q2 : Queue
  q3 : Queue
  deriving DecidableEq, Repr

/-- The UART framer (10_state.md R41). -/
structure Framer where
  /-- UFR_STATE. -/
  state : UfrState
  /-- WIN[0]. -/
  win0 : Byte
  /-- WIN[1]. -/
  win1 : Byte
  /-- WIN_COUNT. -/
  winCount : BitVec 2
  /-- POS: bytes of the current packet stored in FBUF. -/
  pos : BitVec 8
  /-- NEED: total packet bytes expected. -/
  need : BitVec 8
  /-- FBUF: MAX_PACKET_SIZE bytes. -/
  fbuf : List Byte
  /-- UTX_BUSY: a UART transmission has not yet completed. -/
  utxBusy : Bool
  deriving DecidableEq, Repr

/-- The SPI transactor (10_state.md R43). -/
structure Spx where
  /-- BUSY: mid-transaction. -/
  busy : Bool
  /-- SELECTED: chip select asserted. -/
  selected : Bool
  /-- CTS_ARMED. -/
  ctsArmed : Bool
  /-- CTS_PEND. -/
  ctsPend : Bool
  /-- MW_ARMED. -/
  mwArmed : Bool
  /-- MW_PEND. -/
  mwPend : Bool
  /-- TXBUF: MAX_PACKET_SIZE bytes. -/
  txbuf : List Byte
  deriving DecidableEq, Repr

/-- The reassembly accumulator (10_state.md R47). -/
structure Acc where
  /-- ACTIVE_PAGE. -/
  activePage : BitVec 16
  /-- BITMAP, in the low MAX_CHUNKS_PER_PAGE bits; the bits above are 0. -/
  bitmap : BitVec 32
  /-- PAGE_BUF: PAGE_SIZE bytes. -/
  pageBuf : List Byte
  /-- ACC_STATUS. -/
  status : AccStatus
  deriving DecidableEq, Repr

/-- The local variables of an ENQUEUE in progress (10_state.md R49; 40_queue.md R152). -/
structure EnqLocals where
  q : QId
  item : List Byte
  c : BitVec 16
  f : BitVec 16
  idx : Nat
  base : Nat
  size : Nat
  saved : BitVec 4
  deriving DecidableEq, Repr

/-- The next micro-step of an ENQUEUE past E1 (40_queue.md R152). -/
inductive EnqPoint where
  | e2
  | e3 (j : Nat)
  | e4
  deriving DecidableEq, Repr

/-- The local variables of a DEQUEUE in progress (10_state.md R49; 40_queue.md R153). -/
structure DeqLocals where
  q : QId
  f : Nat
  base : Nat
  size : Nat
  out : List Byte
  deriving DecidableEq, Repr

/-- The next micro-step of a DEQUEUE past D1 (40_queue.md R153). -/
inductive DeqPoint where
  | d2 (j : Nat)
  | d3
  | d4
  deriving DecidableEq, Repr

/-- The phase of a command: its next micro-step (10_state.md R31, R49). -/
inductive Phase where
  /-- The command's first micro-step. -/
  | first
  /-- Inside ENQUEUE, past E1 (ENQ, SEND, and ACCEPT in EV_UART_RX and EV_SPI_DONE). -/
  | enqueue (l : EnqLocals) (p : EnqPoint)
  /-- Inside DEQUEUE, past D1 (DEQ, RECV). -/
  | dequeue (l : DeqLocals) (p : DeqPoint)
  /-- T2 of SEND or A2 of ACCEPT, with the status ENQUEUE returned (44_comms.md R312, R314). -/
  | afterEnqueue (st : Status)
  /-- S2 of EV_SPI_DONE, with the VALUE it will answer (43_spi_transport.md R276). -/
  | spiRearm (v : BitVec 24)
  deriving DecidableEq, Repr

/-- A context record (10_state.md R49). -/
inductive Record where
  /-- IDLE. -/
  | idle
  /-- IN_PROGRESS at its first micro-step, where ENTER leaves it (60_exceptions.md R415): the command is the first one
  on the context's stream, on port `p`, and is decoded in that micro-step (46_system.md R371). -/
  | start (p : Port)
  /-- IN_PROGRESS past its first micro-step. -/
  | busy (i : Instr) (ph : Phase)
  deriving DecidableEq, Repr

/-- One context: its flag and record (10_state.md R49, R50), and its side of the port. -/
structure Context where
  /-- ENTERED[u]; never set for context 0, which is always entered (10_state.md R50). -/
  entered : Bool
  /-- The context record. -/
  record : Record
  /-- The bytes the context's own program still has to send to its port, serialised (30_encoding.md R111). The program
  is outside FTC (10_state.md R31): environment state. -/
  stream : List Byte
  /-- The command-port responses delivered to the context, oldest first (30_encoding.md R110, R125). The model's log. -/
  responses : List Response
  deriving DecidableEq, Repr

/-- An event of the UART receive stream: bytes and line errors, in wire order (10_state.md R52). -/
inductive UartEvent where
  | byte (b : Byte)
  | error (kind : BitVec 3)
  deriving DecidableEq, Repr

/-- A handler the environment has made pending beside the five event sources of 60_exceptions.md R411: a software
handler (port `command`, R410) with its program, or an illegal command that the environment drives on the event port
(30_encoding.md R129). -/
structure Posted where
  level : Level
  port : Port
  stream : List Byte
  deriving DecidableEq, Repr

/-- A request to the flash collaborator (60_exceptions.md R430). -/
inductive FlashRequest where
  /-- FLASH_ERASE(sector). -/
  | erase (sector : Nat)
  /-- FLASH_WRITE(addr, data). -/
  | write (addr : BitVec 32) (data : List Byte)
  deriving DecidableEq, Repr

/-- Environment state: the pins (10_state.md R46), the event streams (R52) and the collaborators' request queues
(60_exceptions.md R430). -/
structure Env where
  /-- CTS_PIN. -/
  ctsPin : Bool
  /-- MW_PIN. -/
  mwPin : Bool
  /-- The UART receive stream, oldest first. -/
  uartRx : List UartEvent
  /-- The UART transmit-done stream: how many completions wait. -/
  uartTxDone : Nat
  /-- The SPI completion stream: the received buffers that wait, oldest first. -/
  spiDone : List (List Byte)
  /-- UART_TX requests the UART collaborator has not completed, oldest first. -/
  uartReq : List (List Byte)
  /-- SPI_START requests the SPI collaborator has not completed, oldest first. -/
  spiReq : List (List Byte)
  /-- Software handlers (and other event-port traffic) that are pending, oldest first. -/
  posted : List Posted
  /-- The event port's response sink, oldest first (60_exceptions.md R420). -/
  eventSink : List Response
  /-- The answers the environment has announced for the next flash requests (00_scope.md R23). -/
  flashAnswers : List Bool
  /-- How many flash requests were answered by the free value `Config.flashAnswer`. The model's own counter. -/
  flashAsks : Nat
  /-- Every flash request made, oldest first. The model's log. -/
  flashLog : List FlashRequest
  deriving DecidableEq, Repr

/-- What a reset draws: the values the spec leaves unspecified, and context 0's program from its start (70_reset_and_hazards.md
R450, R451). -/
structure ResetDraw where
  /-- QSM's bytes from address 0 on; bytes past its end stand for `Memory.unlisted`. -/
  qsm : List Byte
  /-- PAGE_BUF's bytes. -/
  pageBuf : List Byte
  /-- Context 0's program, serialised. -/
  program : List Byte
  deriving DecidableEq, Repr

/-- One choice of the scheduler and the environment: which step of 60_exceptions.md R417 comes next. -/
inductive Action where
  /-- The running context takes a micro-step, issues its next command, or exits. -/
  | run
  /-- The interrupt controller takes an entry step if a handler can be entered (R415, R418). -/
  | enter
  /-- CTS_PIN is driven to a level (43_spi_transport.md R271). -/
  | ctsPin (level : Bool)
  /-- MW_PIN is driven to a level (43_spi_transport.md R272). -/
  | mwPin (level : Bool)
  /-- The UART collaborator delivers a received byte. -/
  | uartByte (b : Byte)
  /-- The UART collaborator delivers a line error or receive timeout. -/
  | uartError (kind : BitVec 3)
  /-- The UART collaborator completes its oldest request (a surplus completion if it has none, 60_exceptions.md R431). -/
  | uartTxDone
  /-- The SPI collaborator completes its oldest request with a received buffer (surplus if it has none, R431). -/
  | spiDone (rx : List Byte)
  /-- A software handler, or other event-port traffic, becomes pending. -/
  | post (h : Posted)
  /-- Context u's program has more bytes for its port. -/
  | supply (u : Level) (bytes : List Byte)
  /-- The environment announces the flash collaborator's next answer. -/
  | flashAnswer (ok : Bool)
  /-- Reset (70_reset_and_hazards.md R450). -/
  | reset (d : ResetDraw)
  deriving DecidableEq, Repr

/-- The whole state (10_state.md R32). -/
structure State where
  /-- The configuration: not state of the hardware; no step changes it (10_state.md R32). -/
  cfg : Config
  /-- LINK_SEL (10_state.md R33). -/
  link : LinkSel
  /-- MASK (10_state.md R33). -/
  mask : BitVec 4
  /-- FAULT.ACC_FATAL (10_state.md R33). -/
  accFatal : Bool
  /-- TX_DROP (10_state.md R33). -/
  txDrop : BitVec 32
  /-- RX_DROP (10_state.md R33). -/
  rxDrop : BitVec 32
  /-- CRC_FAIL (10_state.md R33). -/
  crcFail : BitVec 32
  /-- A fault bit was ever set: the record of 10_state.md R36, which nothing clears. -/
  faultEver : Bool
  /-- The queue instances, with FAULT.QINV (10_state.md R38, R33). -/
  queues : Queues
  /-- QSM (10_state.md R40). -/
  qsm : Memory
  /-- The UART framer (10_state.md R41). -/
  ufr : Framer
  /-- The SPI transactor (10_state.md R43). -/
  spx : Spx
  /-- The reassembly accumulator (10_state.md R47). -/
  acc : Acc
  /-- The contexts; those at levels NPRIO and above are never entered (10_state.md R49, R50). -/
  ctxs : Vector Context 16
  /-- The environment (10_state.md R46, R52). -/
  env : Env
  /-- The choices still to come of the scheduler and the environment; when it is empty the running context runs. The
  model's own field. -/
  schedule : List Action
  deriving DecidableEq, Repr

/-- Why the machine stops. None of these is a fault of FTC, which has no traps (60_exceptions.md section 0): each marks
a state outside the invariants of the spec, and `Sys2Proof.Safety` says that no state inside them reaches one. -/
inductive Fault where
  /-- Raised by a queue micro-step that forms a QSM address at or above QSM_BYTES, which does not exist
  (00_scope.md R22; 40_queue.md R151). Safe: the machine stops where the spec says nothing. -/
  | qsmOutOfRange
  /-- Raised by the framer when POS lies outside FBUF (10_state.md R42). Safe, for the same reason. -/
  | fbufOutOfRange
  /-- Raised by a command whose context record holds a phase of another command (10_state.md R49). Safe, likewise. -/
  | phaseMismatch
  deriving DecidableEq, Repr

/-- Why the machine has no meaning for a step. -/
inductive Refusal where
  /-- Raised by `exec` for an instruction that has no meaning yet. Safe. -/
  | notModelled (mnemonic : String)
  /-- Raised by `step` when the configuration breaks a constraint of rules R7 to R18: a model must refuse it rather
  than give it a meaning (00_scope.md R19). Safe. -/
  | illFormedConfig
  deriving DecidableEq, Repr

/-- A queue instance after reset (10_state.md R38). -/
def Queue.reset : Queue where
  init := false
  sp := false
  ceil := 0
  itemSize := 0
  cap := 0
  base := 0
  front := 0
  claimed := 0
  ready := 0
  qinv := false

/-- A context after reset: IDLE, not entered (10_state.md R49, R50). -/
def Context.reset : Context where
  entered := false
  record := .idle
  stream := []
  responses := []

/-- The environment with no event, no request and both pins low. The pins are whatever the environment drives at reset
(10_state.md R46); low is the model's choice (assumption 2). -/
def Env.quiet : Env where
  ctsPin := false
  mwPin := false
  uartRx := []
  uartTxDone := 0
  spiDone := []
  uartReq := []
  spiReq := []
  posted := []
  eventSink := []
  flashAnswers := []
  flashAsks := 0
  flashLog := []

/-- The state after reset under configuration `c`, with the contents `qsm` and `pageBuf` that the spec leaves
unspecified (70_reset_and_hazards.md R450; the reset columns of 10_state.md). -/
def State.resetWith (c : Config) (qsm : Memory) (pageBuf : List Byte) : State where
  cfg := c
  link := .none
  mask := 0
  accFatal := false
  txDrop := 0
  rxDrop := 0
  crcFail := 0
  faultEver := false
  queues := ⟨.reset, .reset, .reset, .reset⟩
  qsm := qsm
  ufr := { state := .awaitingStart, win0 := 0, win1 := 0, winCount := 0, pos := 0, need := 0,
           fbuf := zeros c.maxPacketSize, utxBusy := false }
  spx := { busy := false, selected := false, ctsArmed := false, ctsPend := false, mwArmed := false, mwPend := false,
           txbuf := zeros c.maxPacketSize }
  acc := { activePage := 0, bitmap := c.allPending, pageBuf := pageBuf, status := .none }
  ctxs := Vector.replicate 16 .reset
  env := .quiet
  schedule := []

/-- The machine right after reset, under the reference configuration. QSM lists nothing and PAGE_BUF is all 0x00: the
spec leaves both unspecified (assumption 1). -/
def State.reset : State := State.resetWith Config.reference [] (zeros Config.reference.pageSize)

end Sys2Proof.Machine
end

