-- ==== Sys2Proof/Machine/Ops.lean ====
section
/-! DEFINITION. The named operations over the state: QSM, the queue registers, the contexts, the end of a command and
the entry and exit of a handler (FTC has no exception: ENTER and EXIT of 60_exceptions.md R415 and R420 are its only
transfers of control, 46_system.md R375), and the requests to the collaborators. -/

namespace Sys2Proof.Machine

/-! ### Updates, one field each -/

/-- LINK_SEL ← v. -/
def State.setLink (s : State) (v : LinkSel) : State := { s with link := v }
/-- MASK ← v. -/
def State.setMask (s : State) (v : BitVec 4) : State := { s with mask := v }
/-- FAULT.ACC_FATAL ← v. -/
def State.setAccFatal (s : State) (v : Bool) : State := { s with accFatal := v }
/-- TX_DROP ← v. -/
def State.setTxDrop (s : State) (v : BitVec 32) : State := { s with txDrop := v }
/-- RX_DROP ← v. -/
def State.setRxDrop (s : State) (v : BitVec 32) : State := { s with rxDrop := v }
/-- CRC_FAIL ← v. -/
def State.setCrcFail (s : State) (v : BitVec 32) : State := { s with crcFail := v }
/-- The record that a fault ever happened ← v. -/
def State.setFaultEver (s : State) (v : Bool) : State := { s with faultEver := v }
/-- All queue registers ← v. -/
def State.setQueues (s : State) (v : Queues) : State := { s with queues := v }
/-- QSM ← v. -/
def State.setQsm (s : State) (v : Memory) : State := { s with qsm := v }
/-- The framer's registers ← v. -/
def State.setUfr (s : State) (v : Framer) : State := { s with ufr := v }
/-- The SPI transactor's registers ← v. -/
def State.setSpx (s : State) (v : Spx) : State := { s with spx := v }
/-- The accumulator's registers ← v. -/
def State.setAcc (s : State) (v : Acc) : State := { s with acc := v }
/-- The contexts ← v. -/
def State.setCtxs (s : State) (v : Vector Context 16) : State := { s with ctxs := v }
/-- The environment ← v. -/
def State.setEnv (s : State) (v : Env) : State := { s with env := v }
/-- The choices still to come ← v. -/
def State.setSchedule (s : State) (v : List Action) : State := { s with schedule := v }

/-! ### The queue storage memory (10_state.md R40; 20_memory.md R80, R81) -/

/-- What a byte of QSM that nothing has written reads as: 0x00, the model's choice (assumption 1). -/
def Memory.unlisted : Byte := 0

/-- The canonical form: addresses strictly rising, and no cell holding what an unlisted address reads as. -/
abbrev Memory.WF (m : Memory) : Prop :=
  (m.map Prod.fst).Pairwise (· < ·) ∧ ∀ c ∈ m, c.2 ≠ Memory.unlisted

/-- `QSM[a]`. -/
def Memory.read : Memory → Nat → Byte
  | [], _ => Memory.unlisted
  | (k, b) :: rest, a => if k = a then b else Memory.read rest a

/-- `QSM[a] <- b`, keeping the canonical form. -/
def Memory.write : Memory → Nat → Byte → Memory
  | [], a, b => if b = Memory.unlisted then [] else [(a, b)]
  | (k, v) :: rest, a, b =>
    if a < k then (if b = Memory.unlisted then (k, v) :: rest else (a, b) :: (k, v) :: rest)
    else if a = k then (if b = Memory.unlisted then rest else (a, b) :: rest)
    else (k, v) :: Memory.write rest a b

/-- `MemRead(QSM, a, n)` (00_scope.md R22). -/
def Memory.readBytes (m : Memory) (a : Nat) : Nat → List Byte
  | 0 => []
  | n + 1 => m.read a :: Memory.readBytes m (a + 1) n

/-- `MemWrite(QSM, a, n, v)` (00_scope.md R22). -/
def Memory.writeBytes (m : Memory) (a : Nat) : List Byte → Memory
  | [] => m
  | b :: rest => Memory.writeBytes (m.write a b) (a + 1) rest

/-- Reads `QSM[a]`; an address outside 0..QSM_BYTES−1 does not exist (00_scope.md R22). -/
def State.qsmRead (s : State) (a : Nat) : Except Fault Byte :=
  if a < s.cfg.qsmBytes then .ok (s.qsm.read a) else .error .qsmOutOfRange

/-- Reads the n bytes from `QSM[a]`. -/
def State.qsmReadBytes (s : State) (a n : Nat) : Except Fault (List Byte) :=
  if n = 0 ∨ a + n ≤ s.cfg.qsmBytes then .ok (s.qsm.readBytes a n) else .error .qsmOutOfRange

/-- Writes `QSM[a]`. -/
def State.qsmWrite (s : State) (a : Nat) (b : Byte) : Except Fault State :=
  if a < s.cfg.qsmBytes then .ok (s.setQsm (s.qsm.write a b)) else .error .qsmOutOfRange

/-! ### Queue registers -/

/-- `Q[q]`. -/
def Queues.get (qs : Queues) : QId → Queue
  | .q0 => qs.q0
  | .q1 => qs.q1
  | .q2 => qs.q2
  | .q3 => qs.q3

/-- `Q[q] <- v`. -/
def Queues.set (qs : Queues) (q : QId) (v : Queue) : Queues :=
  match q with
  | .q0 => { qs with q0 := v }
  | .q1 => { qs with q1 := v }
  | .q2 => { qs with q2 := v }
  | .q3 => { qs with q3 := v }

/-- `Q[q]` (00_scope.md R22). -/
def State.queue (s : State) (q : QId) : Queue := s.queues.get q

/-- Writes the registers of queue q. -/
def State.setQueue (s : State) (q : QId) (v : Queue) : State := s.setQueues (s.queues.set q v)

/-! ### Contexts -/

/-- The context at level u. -/
def State.ctx (s : State) (u : Level) : Context := s.ctxs[u]

/-- Writes the context at level u. -/
def State.setCtx (s : State) (u : Level) (c : Context) : State := s.setCtxs (s.ctxs.set u c)

/-- The levels from the most urgent down. -/
def levelsDown : List Level := [15, 14, 13, 12, 11, 10, 9, 8, 7, 6, 5, 4, 3, 2, 1, 0]

/-- The running context: the entered context with the highest level; context 0 counts as entered at every moment
(60_exceptions.md R417). -/
def State.running (s : State) : Level := (levelsDown.find? (fun u => (s.ctx u).entered)).getD 0

/-- The running context's record. -/
def State.record (s : State) : Record := (s.ctx s.running).record

/-- The next micro-step of the command the running context is in; a context that is IDLE, or entered with a command
not yet begun, is at a first micro-step (10_state.md R31, R49; 60_exceptions.md R417). -/
def State.phase (s : State) : Phase :=
  match s.record with
  | .busy _ ph => ph
  | _ => .first

/-- The running context goes on with command i at micro-step `ph`. -/
def State.goOn (i : Instr) (ph : Phase) (s : State) : State :=
  s.setCtx s.running { s.ctx s.running with record := .busy i ph }

/-- The bytes the running context still sends to its port ← rest. -/
def State.setStream (s : State) (rest : List Byte) : State :=
  s.setCtx s.running { s.ctx s.running with stream := rest }

/-! ### Entry and exit of a handler -/

/-- Entry rule (a) to (c) for a context u ≥ 1 (60_exceptions.md R415); levels NPRIO and above are no contexts
(00_scope.md R14). -/
def State.canEnter (s : State) (u : Level) : Bool :=
  decide (1 ≤ u.val) && decide (u.val < s.cfg.nprio) && decide (s.mask.toNat < u.val)
    && levelsDown.all (fun v => !(s.ctx v).entered || decide (v < u))
    && decide ((s.ctx u).record = .idle)

/-- ENTER(u, cmd): the flag is set and the record is IN_PROGRESS at the first micro-step of the command at the front of
`stream`; nothing is saved (60_exceptions.md R415). -/
def State.enterContext (s : State) (u : Level) (p : Port) (stream : List Byte) : State :=
  s.setCtx u { s.ctx u with entered := true, record := .start p, stream := stream }

/-- EXIT(u): the flag is cleared and the record is IDLE; nothing is restored (60_exceptions.md R420). DESIGN CHOICE (log
entry 19): bytes that are still on the handler's stream are discarded. Such bytes stand behind an illegal word that was
posted on the event port, which consumes only itself (30_encoding.md R134) and ends its handler, or are the start of a
command that a software handler's program never finished; the spec says nothing of either. -/
def State.exitContext (s : State) (u : Level) : State :=
  s.setCtx u { s.ctx u with entered := false, record := .idle, stream := [] }

/-! ### Responses -/

/-- `return S` (30_encoding.md R125): VALUE 0 and an empty DATA. -/
def Response.plain (st : Status) : Response := ⟨st, 0, []⟩

/-- `return S(v)` (30_encoding.md R125): VALUE v and an empty DATA. -/
def Response.valued (st : Status) (v : BitVec 24) : Response := ⟨st, v, []⟩

/-- The end of a command on port `p`: its response is delivered and its record is IDLE (46_system.md R372). On the event
port the response goes to the sink and the handler exits in the same micro-step (60_exceptions.md R420), which discards
what is left on its stream (`State.exitContext`, log entry 19). -/
def State.reply (p : Port) (r : Response) (s : State) : State :=
  match p with
  | .command =>
    s.setCtx s.running
      { s.ctx s.running with record := .idle, responses := (s.ctx s.running).responses ++ [r] }
  | .event =>
    (s.exitContext s.running).setEnv { s.env with eventSink := s.env.eventSink ++ [r] }

/-! ### Requests to the collaborators (60_exceptions.md R430) -/

/-- `emit UART_TX(bytes)`: the request joins the UART collaborator's queue. -/
def State.emitUartTx (s : State) (bytes : List Byte) : State :=
  s.setEnv { s.env with uartReq := s.env.uartReq ++ [bytes] }

/-- `emit SPI_START(buf)`: the request joins the SPI collaborator's queue. -/
def State.emitSpiStart (s : State) (buf : List Byte) : State :=
  s.setEnv { s.env with spiReq := s.env.spiReq ++ [buf] }

/-- The flash collaborator's next answer: the first the environment announced, else a free value (00_scope.md R23;
93_implementation_defined.md U4). -/
def Env.nextAnswer (e : Env) : Bool :=
  match e.flashAnswers with
  | ok :: _ => ok
  | [] => Config.flashAnswer e.flashAsks

/-- The environment after the flash collaborator was asked `r`: the request is logged and the answer is used up. -/
def Env.asked (e : Env) (r : FlashRequest) : Env :=
  match e.flashAnswers with
  | _ :: rest => { e with flashAnswers := rest, flashLog := e.flashLog ++ [r] }
  | [] => { e with flashAsks := e.flashAsks + 1, flashLog := e.flashLog ++ [r] }

end Sys2Proof.Machine
end

