-- ==== Sys2Proof/Machine/Flags.lean ====
section
/-! DEFINITION. The status codes and the response word (60_exceptions.md R400; 30_encoding.md R125), the sticky fault
bits and the check that raises QINV (60_exceptions.md R405; 40_queue.md R150). FTC has no condition codes (10_state.md
R53). -/

namespace Sys2Proof.Machine

/-- The status codes (60_exceptions.md R400). -/
def Status.code : Status → BitVec 8
  | .ok => 0x00
  | .full => 0x01
  | .empty => 0x02
  | .initFail => 0x03
  | .notInit => 0x04
  | .oversize => 0x05
  | .badArg => 0x06
  | .illegal => 0x07
  | .faulted => 0x08
  | .denied => 0x09

/-- The response word `STATUS << 24 | VALUE` (30_encoding.md R125). -/
def Response.word (r : Response) : Word := r.status.code ++ r.value

/-- A response as it is serialised: its word, least-significant byte first, then DATA (30_encoding.md R125). -/
def Response.bytes (r : Response) : List Byte := bytesOfWord r.word ++ r.data

/-- READY ≤ CLAIMED ≤ CAP (10_state.md R39; 40_queue.md R150). -/
abbrev Queue.countersOk (r : Queue) : Prop := r.ready ≤ r.claimed ∧ r.claimed ≤ r.cap

/-- `raise FAULT_QINV(q)` (60_exceptions.md R405), and the record of 10_state.md R36. -/
def State.raiseQinv (s : State) (q : QId) : State :=
  (s.setQueue q { s.queue q with qinv := true }).setFaultEver true

/-- `raise FAULT_ACC` (60_exceptions.md R405), and the record of 10_state.md R36. -/
def State.raiseAcc (s : State) : State := (s.setAccFatal true).setFaultEver true

/-- `check_inv(q)` (40_queue.md R150). -/
def State.checkInv (s : State) (q : QId) : State :=
  if (s.queue q).countersOk then s else s.raiseQinv q

end Sys2Proof.Machine
end

