-- ==== Sys2Proof/Machine/Operands.lean ====
section
/-! DEFINITION. Byte-list operands (00_scope.md R21) and the register operand of REG_READ: the register index map of
10_state.md R54, with the numeric codes of the coded fields. -/

namespace Sys2Proof.Machine

/-- `fit(n, xs)`: xs cut or padded with zeros to exactly n bytes (00_scope.md R21). -/
def fit (n : Nat) (xs : List Byte) : List Byte := (xs ++ zeros n).take n

/-- `buf` with the bytes from offset `off` on replaced by `xs`. -/
def splice (buf : List Byte) (off : Nat) (xs : List Byte) : List Byte :=
  buf.take off ++ xs ++ buf.drop (off + xs.length)

/-- The code of LINK_SEL (10_state.md R33). -/
def LinkSel.code : LinkSel → BitVec 2
  | .none => 0
  | .spi => 1
  | .uart => 2

/-- The code of UFR_STATE (10_state.md R41). -/
def UfrState.code : UfrState → BitVec 2
  | .awaitingStart => 0
  | .awaitingLength => 1
  | .awaitingPayload => 2

/-- The code of ACC_STATUS (10_state.md R47). -/
def AccStatus.code : AccStatus → BitVec 2
  | .none => 0
  | .writeSuccess => 1
  | .writeFail => 2
  | .fatal => 3

/-- The status registers (10_state.md R54). -/
inductive Reg where
  | id | config | link | maskr | faultr | txdrop | rxdrop | crcfail
  | ufrstat | ufrwin | startcode | spxstat
  | accpage | accbitmap | accstat
  | qcfg (q : QId) | qgeom (q : QId) | qfront (q : QId) | qclaimed (q : QId) | qready (q : QId)
  deriving DecidableEq, Repr

/-- The index map (10_state.md R54). -/
def regMap : List (BitVec 8 × Reg) :=
  [(0x00, .id), (0x01, .config), (0x02, .link), (0x03, .maskr), (0x04, .faultr), (0x05, .txdrop), (0x06, .rxdrop),
   (0x07, .crcfail), (0x08, .ufrstat), (0x09, .ufrwin), (0x0A, .startcode), (0x0C, .spxstat),
   (0x10, .accpage), (0x11, .accbitmap), (0x12, .accstat)]
  ++ [(0x20, .qcfg .q0), (0x21, .qgeom .q0), (0x22, .qfront .q0), (0x23, .qclaimed .q0), (0x24, .qready .q0)]
  ++ [(0x28, .qcfg .q1), (0x29, .qgeom .q1), (0x2A, .qfront .q1), (0x2B, .qclaimed .q1), (0x2C, .qready .q1)]
  ++ [(0x30, .qcfg .q2), (0x31, .qgeom .q2), (0x32, .qfront .q2), (0x33, .qclaimed .q2), (0x34, .qready .q2)]
  ++ [(0x38, .qcfg .q3), (0x39, .qgeom .q3), (0x3A, .qfront .q3), (0x3B, .qclaimed .q3), (0x3C, .qready .q3)]

/-- The register of an index, or none for an index not in the map. -/
def Reg.ofIndex (r : BitVec 8) : Option Reg := regMap.lookup r

/-- One bit of a register. -/
def bit (b : Bool) : BitVec 1 := BitVec.ofBool b

/-- The 32-bit value of a register, with the bits its row does not list at 0 (10_state.md R54; 46_system.md R370). -/
def State.regValue (s : State) : Reg → Word
  | .id => 0x46544307
  | .config =>
    0#6 ++ BitVec.ofNat 2 s.cfg.startCodeLen ++ BitVec.ofNat 4 (nq - 1) ++ BitVec.ofNat 4 (s.cfg.nprio - 1)
      ++ BitVec.ofNat 8 s.cfg.maxMessageSize ++ BitVec.ofNat 8 s.cfg.maxPacketSize
  | .link => 0#30 ++ s.link.code
  | .maskr => 0#28 ++ s.mask
  | .faultr =>
    0#24 ++ bit (s.queue .q3).qinv ++ bit (s.queue .q2).qinv ++ bit (s.queue .q1).qinv ++ bit (s.queue .q0).qinv
      ++ 0#3 ++ bit s.accFatal
  | .txdrop => s.txDrop
  | .rxdrop => s.rxDrop
  | .crcfail => s.crcFail
  | .ufrstat => 0#8 ++ s.ufr.need ++ s.ufr.pos ++ 0#2 ++ s.ufr.winCount ++ 0#2 ++ s.ufr.state.code
  | .ufrwin => 0#16 ++ s.ufr.win1 ++ s.ufr.win0
  | .startcode => 0#16 ++ s.cfg.startCode.getD 1 0 ++ s.cfg.startCode.getD 0 0
  | .spxstat =>
    0#23 ++ bit s.ufr.utxBusy ++ bit s.env.mwPin ++ bit s.env.ctsPin ++ bit s.spx.mwPend ++ bit s.spx.mwArmed
      ++ bit s.spx.ctsPend ++ bit s.spx.ctsArmed ++ bit s.spx.selected ++ bit s.spx.busy
  | .accpage => 0#16 ++ s.acc.activePage
  | .accbitmap => s.acc.bitmap &&& s.cfg.allPending
  | .accstat => 0#30 ++ s.acc.status.code
  | .qcfg q => (s.queue q).itemSize ++ 0#8 ++ (s.queue q).ceil ++ 0#2 ++ bit (s.queue q).sp ++ bit (s.queue q).init
  | .qgeom q => (s.queue q).base ++ (s.queue q).cap
  | .qfront q => 0#16 ++ (s.queue q).front
  | .qclaimed q => 0#16 ++ (s.queue q).claimed
  | .qready q => 0#16 ++ (s.queue q).ready

end Sys2Proof.Machine
end

