-- ==== Sys2Proof/Machine/Crc.lean ====
section
/-! DEFINITION. The CRC unit: the packet CRC, the packet builder and checker, and the three CRC commands (41_crc.md). -/

namespace Sys2Proof.Machine

/-- Bit i of b moves to bit 7 − i (41_crc.md R200). -/
def reflect8 (b : Byte) : Byte := b.reverse

/-- Bit i of r moves to bit 15 − i (41_crc.md R200). -/
def reflect16 (r : BitVec 16) : BitVec 16 := r.reverse

/-- One shift of the CRC register (41_crc.md R200). -/
def crcShift (poly r : BitVec 16) : BitVec 16 := if r.msb then (r <<< 1) ^^^ poly else r <<< 1

/-- The shift, repeated n times. -/
def crcShifts (poly : BitVec 16) : Nat → BitVec 16 → BitVec 16
  | 0, r => r
  | n + 1, r => crcShifts poly n (crcShift poly r)

/-- One byte into the CRC register (41_crc.md R200). -/
def crcByte (c : Config) (r : BitVec 16) (b : Byte) : BitVec 16 :=
  crcShifts c.crcPoly 8 (r ^^^ ((if c.crcReflect then reflect8 b else b) ++ 0#8))

/-- `crc16(bytes)` (41_crc.md R200); CRC_INIT is 0x0000 (00_scope.md R11). -/
def crc16 (c : Config) (bytes : List Byte) : BitVec 16 :=
  let r := bytes.foldl (crcByte c) 0x0000
  (if c.crcReflect then reflect16 r else r) ^^^ c.crcXorOut

/-- `APPEND(L, payload)`, where L is the payload's length (41_crc.md R202). -/
def packet (c : Config) (payload : List Byte) : List Byte :=
  let body := BitVec.ofNat 8 payload.length :: payload
  body ++ [lo (crc16 c body), hi (crc16 c body)]

/-- `VERIFY(buf)` (41_crc.md R203). -/
def verify (c : Config) (buf : List Byte) : Bool :=
  match buf with
  | [] => false
  | b :: _ =>
    let n := b.toNat
    decide (n ≤ c.maxMessageSize) && decide (3 + n ≤ buf.length)
      && decide (crc16 c (buf.take (1 + n)) = buf.getD (2 + n) 0 ++ buf.getD (1 + n) 0)

/-- CRC_COMPUTE (41_crc.md R205). -/
def execCrcCompute (data : List Byte) (s : State) : Host.Outcome State Fault Refusal :=
  .next (s.reply .command (.valued .ok (0#8 ++ crc16 s.cfg data)))

/-- CRC_APPEND (41_crc.md R206). -/
def execCrcAppend (payload : List Byte) (s : State) : Host.Outcome State Fault Refusal :=
  if s.cfg.maxMessageSize < payload.length then
    .next (s.reply .command (.valued .oversize (BitVec.ofNat 24 payload.length)))
  else
    .next (s.reply .command ⟨.ok, BitVec.ofNat 24 (3 + payload.length), packet s.cfg payload⟩)

/-- CRC_VERIFY (41_crc.md R207). -/
def execCrcVerify (data : List Byte) (s : State) : Host.Outcome State Fault Refusal :=
  .next (s.reply .command (.valued .ok (if verify s.cfg data then 1 else 0)))

end Sys2Proof.Machine
end

