-- ==== Sys2Proof/Machine/QueueOps.lean ====
section
/-! DEFINITION. The internal procedures of the queue unit, ENQUEUE, DEQUEUE and DEQUEUE_ATOMIC, micro-step by
micro-step (40_queue.md R151 to R154), and how a command calls them (00_scope.md R24). -/

namespace Sys2Proof.Machine

/-! ### ENQUEUE (40_queue.md R152) -/

/-- `max(MASK, CEIL)`. -/
def raisedMask (mask ceil : BitVec 4) : BitVec 4 := if mask < ceil then ceil else mask

/-- E1, the claim-read: refused with a status and no state changed, or MASK raised to at least the ceiling and the
claim's locals read. -/
def enqueueE1 (q : QId) (item : List Byte) (s : State) : State × (Status ⊕ EnqLocals) :=
  let r := s.queue q
  if r.qinv then (s, .inl .faulted)
  else if !r.init then (s, .inl .notInit)
  else if r.cap ≤ r.claimed then (s, .inl .full)
  else
    (s.setMask (raisedMask s.mask r.ceil),
      .inr { q := q, item := item, c := r.claimed, f := r.front,
             idx := (r.front.toNat + r.claimed.toNat) % r.cap.toNat,
             base := r.base.toNat, size := r.itemSize.toNat, saved := s.mask })

/-- The micro-step after copied byte j − 1: E3.j, or E4 when the item is copied. -/
def EnqLocals.copyFrom (l : EnqLocals) (j : Nat) : EnqPoint := if j < l.size then .e3 j else .e4

/-- E2, the claim-write: CLAIMED ← c + 1 from the value read in E1, MASK restored. -/
def enqueueE2 (l : EnqLocals) (s : State) : State :=
  ((s.setQueue l.q { s.queue l.q with claimed := l.c + 1 }).setMask l.saved).checkInv l.q

/-- E3.j: the copy of one byte into the claimed slot (40_queue.md R151). -/
def enqueueE3 (l : EnqLocals) (j : Nat) (s : State) : Except Fault State :=
  s.qsmWrite (l.base + l.idx * l.size + j) (l.item.getD j 0)

/-- E4, the publish, and the status it returns. -/
def enqueueE4 (l : EnqLocals) (s : State) : State × Status :=
  let s1 := (s.setQueue l.q { s.queue l.q with ready := (s.queue l.q).ready + 1 }).checkInv l.q
  (s1, if (s1.queue l.q).qinv then .faulted else .ok)

/-- One micro-step of ENQUEUE past E1: the status it returns, or the micro-step that follows. -/
def enqueueMicro (l : EnqLocals) (p : EnqPoint) (s : State) : Except Fault (State × (Status ⊕ EnqPoint)) :=
  match p with
  | .e2 => .ok (enqueueE2 l s, .inr (l.copyFrom 0))
  | .e3 j =>
    match enqueueE3 l j s with
    | .ok s1 => .ok (s1, .inr (l.copyFrom (j + 1)))
    | .error f => .error f
  | .e4 => .ok ((enqueueE4 l s).1, .inl (enqueueE4 l s).2)

/-- `call ENQUEUE(q, item)` by command i: E1 joins the caller's micro-step (00_scope.md R24). If E1 returns a status the
caller goes on with `ret`. -/
def callEnqueue (i : Instr) (q : QId) (item : List Byte) (ret : Status → State → State) (s : State) : State :=
  match enqueueE1 q item s with
  | (s1, .inl st) => ret st s1
  | (s1, .inr l) => s1.goOn i (.enqueue l .e2)

/-- A later micro-step of the ENQUEUE that command i called; in the one that returns, the caller goes on with `ret`. -/
def resumeEnqueue (i : Instr) (l : EnqLocals) (p : EnqPoint) (ret : Status → State → State) (s : State) :
    Host.Outcome State Fault Refusal :=
  match enqueueMicro l p s with
  | .error f => .fault f
  | .ok (s1, .inl st) => .next (ret st s1)
  | .ok (s1, .inr p1) => .next (s1.goOn i (.enqueue l p1))

/-! ### DEQUEUE (40_queue.md R153) -/

/-- What a DEQUEUE returns: a status with no item, or OK with the item size and the item. -/
inductive DeqResult where
  | refused (st : Status)
  | item (size : Nat) (out : List Byte)
  deriving DecidableEq, Repr

/-- The micro-step after copied byte j − 1: D2.j, or D3 when the item is copied out. -/
def DeqLocals.copyFrom (l : DeqLocals) (j : Nat) : DeqPoint := if j < l.size then .d2 j else .d3

/-- D1: refused with a status, or the front slot's locals read; no state is changed. -/
def dequeueD1 (q : QId) (s : State) : Status ⊕ DeqLocals :=
  let r := s.queue q
  if r.qinv then .inl .faulted
  else if !r.init then .inl .notInit
  else if r.ready = 0 then .inl .empty
  else .inr { q := q, f := r.front.toNat, base := r.base.toNat, size := r.itemSize.toNat, out := [] }

/-- D2.j: the copy of one byte out of the front slot. -/
def dequeueD2 (l : DeqLocals) (j : Nat) (s : State) : Except Fault DeqLocals :=
  match s.qsmRead (l.base + l.f * l.size + j) with
  | .ok b => .ok { l with out := l.out ++ [b] }
  | .error f => .error f

/-- D3: READY ← READY − 1. -/
def dequeueD3 (q : QId) (s : State) : State :=
  (s.setQueue q { s.queue q with ready := (s.queue q).ready - 1 }).checkInv q

/-- D4, the release: FRONT and CLAIMED in one micro-step (90_conflicts.md C2). -/
def dequeueD4 (q : QId) (s : State) : State :=
  let r := s.queue q
  (s.setQueue q
    { r with front := BitVec.ofNat 16 ((r.front.toNat + 1) % r.cap.toNat), claimed := r.claimed - 1 }).checkInv q

/-- What DEQUEUE returns after D4, in state s. -/
def dequeueResult (l : DeqLocals) (s : State) : DeqResult :=
  if (s.queue l.q).qinv then .refused .faulted else .item l.size l.out

/-- One micro-step of DEQUEUE past D1: what it returns, or its locals and the micro-step that follows. -/
def dequeueMicro (l : DeqLocals) (p : DeqPoint) (s : State) :
    Except Fault (State × (DeqResult ⊕ DeqLocals × DeqPoint)) :=
  match p with
  | .d2 j =>
    match dequeueD2 l j s with
    | .ok l1 => .ok (s, .inr (l1, l1.copyFrom (j + 1)))
    | .error f => .error f
  | .d3 => .ok (dequeueD3 l.q s, .inr (l, .d4))
  | .d4 => .ok (dequeueD4 l.q s, .inl (dequeueResult l (dequeueD4 l.q s)))

/-- The response of a command that returns DEQUEUE's result unchanged (40_queue.md R157; 44_comms.md R313). -/
def DeqResult.response : DeqResult → Response
  | .refused st => .plain st
  | .item size out => ⟨.ok, BitVec.ofNat 24 size, out⟩

/-- `call DEQUEUE(q)` by command i: D1 joins the caller's micro-step. -/
def callDequeue (i : Instr) (q : QId) (s : State) : State :=
  match dequeueD1 q s with
  | .inl st => s.reply i.port (.plain st)
  | .inr l => s.goOn i (.dequeue l (l.copyFrom 0))

/-- A later micro-step of the DEQUEUE that command i called; the one that returns ends the command. -/
def resumeDequeue (i : Instr) (l : DeqLocals) (p : DeqPoint) (s : State) : Host.Outcome State Fault Refusal :=
  match dequeueMicro l p s with
  | .error f => .fault f
  | .ok (s1, .inl r) => .next (s1.reply i.port r.response)
  | .ok (s1, .inr (l1, p1)) => .next (s1.goOn i (.dequeue l1 p1))

/-- DEQUEUE_ATOMIC(q): D1, every D2.j, D3 and D4 in one micro-step (40_queue.md R154). -/
def dequeueAtomic (q : QId) (s : State) : Except Fault (State × DeqResult) :=
  match dequeueD1 q s with
  | .inl st => .ok (s, .refused st)
  | .inr l =>
    match s.qsmReadBytes (l.base + l.f * l.size) l.size with
    | .error f => .error f
    | .ok bytes =>
      let s1 := dequeueD4 q (dequeueD3 q s)
      .ok (s1, dequeueResult { l with out := bytes } s1)

end Sys2Proof.Machine
end

