-- ==== Sys2Proof/Machine/Admission.lean ====
section
/-! DEFINITION. ACCEPT, the procedure a transport calls with a received packet (44_comms.md R314, R315). Its callers are
EV_UART_RX and EV_SPI_DONE. -/

namespace Sys2Proof.Machine

/-- The Q1 item of a verified packet: its first 3 + L bytes, fitted to Q1's item size (44_comms.md R315). -/
def acceptItem (s : State) (pkt : List Byte) : List Byte :=
  fit (s.queue .q1).itemSize.toNat (pkt.take (3 + (pkt.headD 0).toNat))

/-- `call ACCEPT(pkt)` by command i: A1 joins the caller's micro-step. A probe or a packet that fails VERIFY returns its
admission code there, and the caller goes on with `ret`; else ENQUEUE(1, item) begins, and A2 follows it. -/
def callAccept (i : Instr) (pkt : List Byte) (ret : Nat → State → State) (s : State) : State :=
  if !pkt.isEmpty && pkt.headD 0 == 0 then ret 3 s
  else if !verify s.cfg pkt then ret 1 (s.setCrcFail (s.crcFail + 1))
  else callEnqueue i .q1 (acceptItem s pkt) (fun st => State.goOn i (.afterEnqueue st)) s

/-- A2: the admission code for the status that ENQUEUE returned, and the drop it counts. -/
def acceptA2 (st : Status) (ret : Nat → State → State) (s : State) : State :=
  if st = .ok then ret 0 s else ret 2 (s.setRxDrop (s.rxDrop + 1))

/-- `4 + 16·a`, the VALUE that reports admission code a (42_uart_framer.md R238; 43_spi_transport.md R276). -/
def admissionValue (a : Nat) : BitVec 24 := BitVec.ofNat 24 (4 + 16 * a)

end Sys2Proof.Machine
end

