-- ==== Sys2Proof/Machine/Spi.lean ====
section
/-! DEFINITION. The SPI transactor: the SPI kick and the commands EV_SPI_DONE, EV_CTS_EDGE and EV_MW_EDGE
(43_spi_transport.md). The pin latches are environment steps (R271, R272) and stand in Schedule.lean. -/

namespace Sys2Proof.Machine

/-- Step 4 of the kick: SELECTED and BUSY are set and the transfer of `buf` is requested (43_spi_transport.md R275). -/
def startTransfer (buf : List Byte) (s : State) : State :=
  (s.setSpx { s.spx with txbuf := buf, selected := true, busy := true }).emitSpiStart buf

/-- KICK_SPI, one micro-step; the flag says whether it emitted an SPI_START (43_spi_transport.md R275). -/
def kickSpi (s : State) : Except Fault (State × Bool) :=
  if s.spx.busy then .ok (s, false)
  else if !s.env.ctsPin then .ok (s.setSpx { s.spx with ctsArmed := true }, false)
  else
    match dequeueAtomic .q0 s with
    | .error f => .error f
    | .ok (s1, .item _ item) => .ok (startTransfer (fit s1.cfg.maxPacketSize item) s1, true)
    | .ok (s1, .refused _) =>
      if s1.env.mwPin then .ok (startTransfer (zeros s1.cfg.maxPacketSize) s1, true) else .ok (s1, false)

/-- The end of S1 of EV_SPI_DONE for a packet handed to ACCEPT with admission code a: S2 follows
(43_spi_transport.md R276). -/
def spiAdmitted (rx : List Byte) (a : Nat) : State → State :=
  State.goOn (.evSpiDone rx) (.spiRearm (admissionValue a))

/-- EV_SPI_DONE (43_spi_transport.md R276, R280). -/
def execEvSpiDone (rx : List Byte) (s : State) : Host.Outcome State Fault Refusal :=
  match s.phase with
  | .first =>
    if s.link ≠ .spi then .next (s.reply .event (.plain .badArg))
    else if !s.spx.busy then .next (s.reply .event (.plain .badArg))
    else
      let s1 := s.setSpx { s.spx with selected := false, busy := false }
      if rx.headD 0 = 0 then .next (s1.goOn (.evSpiDone rx) (.spiRearm 0))
      else .next (callAccept (.evSpiDone rx) rx (spiAdmitted rx) s1)
  | .enqueue l p =>
    resumeEnqueue (.evSpiDone rx) l p (fun st => State.goOn (.evSpiDone rx) (.afterEnqueue st)) s
  | .afterEnqueue st => .next (acceptA2 st (spiAdmitted rx) s)
  | .spiRearm v => .next ((s.setSpx { s.spx with ctsArmed := true }).reply .event (.valued .ok v))
  | .dequeue .. => .fault .phaseMismatch

/-- EV_CTS_EDGE (43_spi_transport.md R277, R280; 90_conflicts.md C14). -/
def execEvCtsEdge (s : State) : Host.Outcome State Fault Refusal :=
  if s.link ≠ .spi then .next (s.reply .event (.plain .badArg))
  else if !s.spx.ctsPend then .next (s.reply .event (.plain .badArg))
  else
    match kickSpi (s.setSpx { s.spx with ctsPend := false, ctsArmed := false }) with
    | .error f => .fault f
    | .ok (s1, _) => .next (s1.reply .event (.plain .ok))

/-- EV_MW_EDGE (43_spi_transport.md R278, R280). -/
def execEvMwEdge (s : State) : Host.Outcome State Fault Refusal :=
  if s.link ≠ .spi then .next (s.reply .event (.plain .badArg))
  else if !s.spx.mwPend then .next (s.reply .event (.plain .badArg))
  else
    match kickSpi (s.setSpx { s.spx with mwPend := false, mwArmed := true }) with
    | .error f => .fault f
    | .ok (s1, _) => .next (s1.reply .event (.plain .ok))

end Sys2Proof.Machine
end

