-- ==== Sys2Proof/Machine/UartFramer.lean ====
section
/-! DEFINITION. The UART framer and the UART transmit side: the framer procedures, the UART kick, and the commands
EV_UART_RX, EV_UART_ERR and EV_UART_TXDONE (42_uart_framer.md). -/

namespace Sys2Proof.Machine

/-- RESYNC (42_uart_framer.md R231). -/
def resync (f : Framer) : Framer :=
  { f with state := .awaitingStart, win0 := 0, win1 := 0, winCount := 0, pos := 0, need := 0 }

/-- START_BYTE(b) (42_uart_framer.md R232). -/
def startByte (c : Config) (b : Byte) (f : Framer) : Framer :=
  let cand := [f.win0, f.win1].take f.winCount.toNat ++ [b]
  if cand.length = c.startCodeLen ∧ cand = c.startCode then
    { f with state := .awaitingLength, win0 := 0, win1 := 0, winCount := 0 }
  else
    let n := min cand.length (c.startCodeLen - 1)
    let keep := cand.drop (cand.length - n)
    { f with win0 := (fit 2 keep).getD 0 0, win1 := (fit 2 keep).getD 1 0, winCount := BitVec.ofNat 2 keep.length }

/-- LENGTH_BYTE(b) (42_uart_framer.md R233). -/
def lengthByte (c : Config) (b : Byte) (f : Framer) : Framer :=
  if 0 < b.toNat ∧ b.toNat ≤ c.maxMessageSize then
    { f with state := .awaitingPayload, fbuf := f.fbuf.set 0 b, pos := 1,
             need := BitVec.ofNat 8 (1 + b.toNat + crcWidth) }
  else resync f

/-- PAYLOAD_BYTE(b): the framer after it, and the packet it hands on if the packet is complete (42_uart_framer.md
R234). -/
def payloadByte (b : Byte) (f : Framer) : Except Fault (Framer × Option (List Byte)) :=
  if f.pos.toNat < f.fbuf.length then
    let f1 := { f with fbuf := f.fbuf.set f.pos.toNat b, pos := f.pos + 1 }
    if f1.pos = f1.need then .ok (resync f1, some (f1.fbuf.take f1.need.toNat)) else .ok (f1, none)
  else .error .fbufOutOfRange

/-- The bytes of a UART transmission: the packet at the front of a Q0 item, cut to 3 + L bytes (42_uart_framer.md
R241). -/
def uartPacket (c : Config) (item : List Byte) : List Byte :=
  fit (min (3 + (item.headD 0).toNat) c.maxPacketSize) item

/-- KICK_UART, one micro-step; the flag says whether it emitted a UART_TX (42_uart_framer.md R241). -/
def kickUart (s : State) : Except Fault (State × Bool) :=
  if s.ufr.utxBusy then .ok (s, false)
  else
    match dequeueAtomic .q0 s with
    | .error f => .error f
    | .ok (s1, .refused _) => .ok (s1, false)
    | .ok (s1, .item _ item) =>
      .ok ((s1.emitUartTx (s1.cfg.startCode ++ uartPacket s1.cfg item)).setUfr { s1.ufr with utxBusy := true }, true)

/-- The response of EV_UART_RX for a packet handed to ACCEPT with admission code a (42_uart_framer.md R238). -/
def uartAdmitted (a : Nat) : State → State := State.reply .event (.valued .ok (admissionValue a))

/-- EV_UART_RX (42_uart_framer.md R238, R240). -/
def execEvUartRx (b : Byte) (s : State) : Host.Outcome State Fault Refusal :=
  match s.phase with
  | .first =>
    if s.link ≠ .uart then .next (s.reply .event (.plain .badArg))
    else
      match s.ufr.state with
      | .awaitingStart =>
        let f := startByte s.cfg b s.ufr
        .next ((s.setUfr f).reply .event (.valued .ok (if f.state = .awaitingLength then 1 else 0)))
      | .awaitingLength =>
        let f := lengthByte s.cfg b s.ufr
        .next ((s.setUfr f).reply .event (.valued .ok (if f.state = .awaitingPayload then 2 else 3)))
      | .awaitingPayload =>
        match payloadByte b s.ufr with
        | .error e => .fault e
        | .ok (f, none) => .next ((s.setUfr f).reply .event (.valued .ok 0))
        | .ok (f, some pkt) => .next (callAccept (.evUartRx b) pkt uartAdmitted (s.setUfr f))
  | .enqueue l p =>
    resumeEnqueue (.evUartRx b) l p (fun st => State.goOn (.evUartRx b) (.afterEnqueue st)) s
  | .afterEnqueue st => .next (acceptA2 st uartAdmitted s)
  | .dequeue .. | .spiRearm _ => .fault .phaseMismatch

/-- EV_UART_ERR (42_uart_framer.md R239, R235, R240). -/
def execEvUartErr (kind : BitVec 3) (s : State) : Host.Outcome State Fault Refusal :=
  if s.link ≠ .uart then .next (s.reply .event (.plain .badArg))
  else if 4 < kind.toNat then .next (s.reply .event (.plain .badArg))
  else .next ((s.setUfr (resync s.ufr)).reply .event (.valued .ok (0#21 ++ kind)))

/-- EV_UART_TXDONE (42_uart_framer.md R242, R240). -/
def execEvUartTxDone (s : State) : Host.Outcome State Fault Refusal :=
  if s.link ≠ .uart then .next (s.reply .event (.plain .badArg))
  else if !s.ufr.utxBusy then .next (s.reply .event (.plain .badArg))
  else
    match kickUart (s.setUfr { s.ufr with utxBusy := false }) with
    | .error f => .fault f
    | .ok (s1, _) => .next (s1.reply .event (.plain .ok))

end Sys2Proof.Machine
end

