-- ==== Sys2Proof/Machine/Link.lean ====
section
/-! DEFINITION. Link selection and the admission commands LINK_INIT, KICK, SEND and RECV (44_comms.md). -/

namespace Sys2Proof.Machine

/-- LINK_INIT (44_comms.md R310). -/
def execLinkInit (link : BitVec 2) (s : State) : Host.Outcome State Fault Refusal :=
  if link ≠ 1 ∧ link ≠ 2 then .next (s.reply .command (.plain .badArg))
  else if s.link ≠ .none then .next (s.reply .command (.plain .denied))
  else if link = 1 then
    .next (((s.setLink .spi).setSpx { s.spx with mwArmed := true }).reply .command (.plain .ok))
  else .next (((s.setLink .uart).setUfr (resync s.ufr)).reply .command (.plain .ok))

/-- KICK_LINK, one micro-step: the kick of the selected transport, and whether it started a transfer (44_comms.md
R311). -/
def kickLink (s : State) : Except Fault (State × Bool) :=
  match s.link with
  | .spi => kickSpi s
  | .uart => kickUart s
  | .none => .ok (s, false)

/-- KICK (44_comms.md R311). -/
def execKick (s : State) : Host.Outcome State Fault Refusal :=
  match kickLink s with
  | .error f => .fault f
  | .ok (s1, started) => .next (s1.reply .command (.valued .ok (if started then 1 else 0)))

/-- T2 of SEND, with the status that ENQUEUE returned (44_comms.md R312). -/
def sendT2 (st : Status) (s : State) : Host.Outcome State Fault Refusal :=
  match kickLink (if st = .ok then s else s.setTxDrop (s.txDrop + 1)) with
  | .error f => .fault f
  | .ok (s1, _) => .next (s1.reply .command (.plain st))

/-- SEND (44_comms.md R312): T1 with E1 in the first micro-step, the rest of ENQUEUE, then T2. -/
def execSend (payload : List Byte) (s : State) : Host.Outcome State Fault Refusal :=
  match s.phase with
  | .first =>
    if s.cfg.maxMessageSize < payload.length then
      .next ((s.setTxDrop (s.txDrop + 1)).reply .command (.valued .oversize (BitVec.ofNat 24 payload.length)))
    else
      .next (callEnqueue (.send payload) .q0 (fit (s.queue .q0).itemSize.toNat (packet s.cfg payload))
        (fun st => State.goOn (.send payload) (.afterEnqueue st)) s)
  | .enqueue l p =>
    resumeEnqueue (.send payload) l p (fun st => State.goOn (.send payload) (.afterEnqueue st)) s
  | .afterEnqueue st => sendT2 st s
  | .dequeue .. | .spiRearm _ => .fault .phaseMismatch

/-- RECV (44_comms.md R313). -/
def execRecv (s : State) : Host.Outcome State Fault Refusal :=
  match s.phase with
  | .first => .next (callDequeue .recv .q1 s)
  | .dequeue l p => resumeDequeue .recv l p s
  | .enqueue .. | .afterEnqueue _ | .spiRearm _ => .fault .phaseMismatch

end Sys2Proof.Machine
end

