-- ==== Sys2Proof/Machine/Queue.lean ====
section
/-! DEFINITION. The queue commands QINIT, ENQ, DEQ, QCOUNT and QFREE (40_queue.md section 2). -/

namespace Sys2Proof.Machine

/-- QINIT (40_queue.md R155). -/
def execQinit (q : QId) (sp : Bool) (ceil : BitVec 4) (itemSize cap base : BitVec 16) (s : State) :
    Host.Outcome State Fault Refusal :=
  if !sp || cap == 0 then .next (s.reply .command (.plain .initFail))
  else if s.cfg.nprio ≤ ceil.toNat then .next (s.reply .command (.plain .initFail))
  else if s.cfg.qsmBytes < base.toNat + cap.toNat * itemSize.toNat then
    .next (s.reply .command (.plain .initFail))
  else
    .next ((s.setQueue q
      { init := true, sp := true, ceil := ceil, itemSize := itemSize, cap := cap, base := base,
        front := 0, claimed := 0, ready := 0, qinv := false }).reply .command (.plain .ok))

/-- ENQ (40_queue.md R156): the checks and E1 in the first micro-step, then the rest of ENQUEUE. -/
def execEnq (q : QId) (data : List Byte) (s : State) : Host.Outcome State Fault Refusal :=
  match s.phase with
  | .first =>
    if (s.queue q).qinv then .next (s.reply .command (.plain .faulted))
    else if !(s.queue q).init then .next (s.reply .command (.plain .notInit))
    else if data.length ≠ (s.queue q).itemSize.toNat then .next (s.reply .command (.plain .badArg))
    else .next (callEnqueue (.enq q data) q data (fun st => State.reply .command (.plain st)) s)
  | .enqueue l p => resumeEnqueue (.enq q data) l p (fun st => State.reply .command (.plain st)) s
  | .dequeue .. | .afterEnqueue _ | .spiRearm _ => .fault .phaseMismatch

/-- DEQ (40_queue.md R157). -/
def execDeq (q : QId) (s : State) : Host.Outcome State Fault Refusal :=
  match s.phase with
  | .first => .next (callDequeue (.deq q) q s)
  | .dequeue l p => resumeDequeue (.deq q) l p s
  | .enqueue .. | .afterEnqueue _ | .spiRearm _ => .fault .phaseMismatch

/-- QCOUNT (40_queue.md R158). -/
def execQcount (q : QId) (s : State) : Host.Outcome State Fault Refusal :=
  if (s.queue q).qinv then .next (s.reply .command (.plain .faulted))
  else if !(s.queue q).init then .next (s.reply .command (.plain .notInit))
  else .next (s.reply .command (.valued .ok (0#8 ++ (s.queue q).ready)))

/-- QFREE (40_queue.md R159). The subtraction wraps only when CLAIMED > CAP, which QINV = 0 rules out. -/
def execQfree (q : QId) (s : State) : Host.Outcome State Fault Refusal :=
  if (s.queue q).qinv then .next (s.reply .command (.plain .faulted))
  else if !(s.queue q).init then .next (s.reply .command (.plain .notInit))
  else .next (s.reply .command (.valued .ok (0#8 ++ ((s.queue q).cap - (s.queue q).claimed))))

end Sys2Proof.Machine
end

