-- ==== Sys2Proof/Machine/Reassembly.lean ====
section
/-! DEFINITION. The frame reassembly accumulator and its command CHUNK (45_reassembly.md). -/

namespace Sys2Proof.Machine

/-- VALID, checks c1 to c3 (45_reassembly.md R341; 10_state.md R48). -/
def chunkValid (s : State) (page : BitVec 16) (ci cc : BitVec 8) (len : Nat) : Bool :=
  decide (ci.toNat < s.cfg.maxChunksPerPage)
    && (decide (len = s.cfg.maxChunkSize) || (decide (ci.toNat + 1 = cc.toNat) && decide (len ≤ s.cfg.maxChunkSize)))
    && (decide (page = s.acc.activePage) || decide (s.acc.bitmap = s.cfg.allPending))

/-- ABORT (45_reassembly.md R342). -/
def chunkAbort (s : State) : State :=
  s.setAcc { s.acc with bitmap := s.cfg.allPending, activePage := 0, status := .writeFail }

/-- The bitmap after chunk ci of a page of cc chunks (45_reassembly.md R344). -/
def bitmapAfter (c : Config) (bitmap : BitVec 32) (ci cc : BitVec 8) : BitVec 32 :=
  bitmap &&& ~~~(1#32 <<< ci.toNat) &&& BitVec.ofNat 32 (2 ^ min cc.toNat c.maxChunksPerPage - 1)

/-- ACCEPT_CHUNK and the bitmap update (45_reassembly.md R343, R344). -/
def chunkAccept (s : State) (page : BitVec 16) (ci cc : BitVec 8) (payload : List Byte) : State :=
  s.setAcc { s.acc with
    activePage := page
    pageBuf := splice s.acc.pageBuf (ci.toNat * s.cfg.maxChunkSize) payload
    bitmap := bitmapAfter s.cfg s.acc.bitmap ci cc }

/-- `ask` the flash collaborator: the state after the request, and its answer (00_scope.md R23). -/
def askFlash (r : FlashRequest) (s : State) : State × Bool :=
  (s.setEnv (s.env.asked r), s.env.nextAnswer)

/-- FLASH_FAILED (45_reassembly.md R348). -/
def flashFailed (s : State) : State × Response :=
  (s.raiseAcc.setAcc { s.acc with status := .fatal }, .valued .faulted 3)

/-- The flash address of page p (45_reassembly.md R346; 20_memory.md R89). -/
def pageAddress (c : Config) (p : BitVec 16) : BitVec 32 :=
  c.imageFlashBase + BitVec.ofNat 32 (p.toNat * c.pageSize)

/-- The write of the page buffer, and what follows its answer (45_reassembly.md R346). -/
def commitWrite (addr : BitVec 32) (s : State) : State × Response :=
  let (s1, ok) := askFlash (.write addr (s.acc.pageBuf.take s.cfg.pageSize)) s
  if ok then
    (s1.setAcc { s1.acc with
        status := .writeSuccess
        activePage := BitVec.ofNat 16 ((s1.acc.activePage.toNat + 1) % s1.cfg.imagePageCount)
        bitmap := s1.cfg.allPending },
      .valued .ok 1)
  else flashFailed s1

/-- COMMIT: an erase before the write exactly for page 0 (45_reassembly.md R346). -/
def chunkCommit (s : State) : State × Response :=
  let addr := pageAddress s.cfg s.acc.activePage
  if s.acc.activePage = 0 then
    let (s1, ok) := askFlash (.erase (Config.sectorOf addr)) s
    if ok then commitWrite addr s1 else flashFailed s1
  else commitWrite addr s

/-- What a CHUNK does to the machine, and its response (45_reassembly.md R345). -/
def chunkEffect (page : BitVec 16) (ci cc : BitVec 8) (payload : List Byte) (s : State) : State × Response :=
  if s.accFatal then (s, .valued .faulted 3)
  else if !chunkValid s page ci cc payload.length then (chunkAbort s, .valued .ok 2)
  else
    let s1 := chunkAccept s page ci cc payload
    if s1.acc.bitmap ≠ 0 then (s1.setAcc { s1.acc with status := .none }, .valued .ok 0)
    else chunkCommit s1

/-- CHUNK, one micro-step with its flash requests (45_reassembly.md R345). -/
def execChunk (page : BitVec 16) (ci cc : BitVec 8) (payload : List Byte) (s : State) :
    Host.Outcome State Fault Refusal :=
  .next ((chunkEffect page ci cc payload s).1.reply .command (chunkEffect page ci cc payload s).2)

end Sys2Proof.Machine
end

