-- ==== Sys2Proof/Machine/System.lean ====
section
/-! DEFINITION. The system command REG_READ (46_system.md R370) and the refusal of an illegal command (R371). -/

namespace Sys2Proof.Machine

/-- REG_READ (46_system.md R370). -/
def execRegRead (reg : BitVec 8) (s : State) : Host.Outcome State Fault Refusal :=
  match Reg.ofIndex reg with
  | none => .next (s.reply .command (.valued .badArg (0#16 ++ reg)))
  | some r => .next (s.reply .command ⟨.ok, 0, bytesOfWord (s.regValue r)⟩)

/-- The refusal of an illegal command on port p: ILLEGAL with word0[31:8], in one micro-step (30_encoding.md R129;
46_system.md R371). -/
def refuseIllegal (p : Port) (word0 : Word) (s : State) : State :=
  s.reply p (.valued .illegal (field word0 8 24))

end Sys2Proof.Machine
end

