-- ==== Sys2Proof/Machine/Dispatch.lean ====
section
/-! DEFINITION. The meaning of each command: the next micro-step that the running context takes in it. A command that
the running context has not begun is at its first micro-step (State.phase). -/

namespace Sys2Proof.Machine

def exec (i : Instr) (s : State) : Host.Outcome State Fault Refusal :=
  match i with
  | .qinit q sp ceil itemSize cap base => Sys2Proof.Machine.execQinit q sp ceil itemSize cap base s
  | .enq q data => Sys2Proof.Machine.execEnq q data s
  | .deq q => Sys2Proof.Machine.execDeq q s
  | .qcount q => Sys2Proof.Machine.execQcount q s
  | .qfree q => Sys2Proof.Machine.execQfree q s
  | .crcCompute data => Sys2Proof.Machine.execCrcCompute data s
  | .crcAppend payload => Sys2Proof.Machine.execCrcAppend payload s
  | .crcVerify data => Sys2Proof.Machine.execCrcVerify data s
  | .linkInit link => Sys2Proof.Machine.execLinkInit link s
  | .send payload => Sys2Proof.Machine.execSend payload s
  | .recv => Sys2Proof.Machine.execRecv s
  | .kick => Sys2Proof.Machine.execKick s
  | .chunk page ci cc payload => Sys2Proof.Machine.execChunk page ci cc payload s
  | .regRead reg => Sys2Proof.Machine.execRegRead reg s
  | .evUartRx b => Sys2Proof.Machine.execEvUartRx b s
  | .evUartErr kind => Sys2Proof.Machine.execEvUartErr kind s
  | .evUartTxDone => Sys2Proof.Machine.execEvUartTxDone s
  | .evSpiDone rx => Sys2Proof.Machine.execEvSpiDone rx s
  | .evCtsEdge => Sys2Proof.Machine.execEvCtsEdge s
  | .evMwEdge => Sys2Proof.Machine.execEvMwEdge s

end Sys2Proof.Machine
end

