-- ==== Sys2Proof/Machine/Schedule.lean ====
section
/-! DEFINITION. The steps of a run beside a command's meaning (60_exceptions.md R417): the running context's turn (its
next micro-step, the issue of its next command, or its exit), the entry of a handler (R411, R415, R418), the pin changes
(43_spi_transport.md R271, R272), the arrival of events (R430, R431) and reset (70_reset_and_hazards.md R450). -/

namespace Sys2Proof.Machine

/-! ### The running context's turn -/

/-- The port of the command that the running context begins next: the one its handler was entered with, else the
command port (30_encoding.md R110). -/
def Record.port : Record → Port
  | .start p => p
  | .busy i _ => i.port
  | .idle => .command

/-- The first command on the running context's stream (30_encoding.md R111, R134). -/
def State.nextCommand (s : State) : Decoded :=
  decode s.cfg s.record.port (s.ctx s.running).stream

/-- The running context begins its next command: decode and first micro-step in one (46_system.md R371). With no whole
command on its stream a handler exits (60_exceptions.md R420), and context 0 waits for its own program. -/
def beginCommand (s : State) : Host.Outcome State Fault Refusal :=
  match s.nextCommand with
  | .incomplete => .next (if s.running = 0 then s else s.exitContext s.running)
  | .illegal _ word0 rest => .next (refuseIllegal s.record.port word0 (s.setStream rest))
  | .command i rest => exec i (s.setStream rest)

/-- The running context's turn: the next micro-step of its command in progress, or the issue of its next command
(60_exceptions.md R417). -/
def runStep (s : State) : Host.Outcome State Fault Refusal :=
  match s.record with
  | .busy i _ => exec i s
  | .idle => beginCommand s
  | .start _ => beginCommand s

/-! ### Entry of a handler -/

/-- A pending handler: its level, its port, the commands it is entered with, and the environment without it. -/
structure Candidate where
  level : Level
  port : Port
  stream : List Byte
  env : Env
  deriving DecidableEq, Repr

/-- The command that an event of the UART receive stream is delivered with (60_exceptions.md R411). -/
def UartEvent.command : UartEvent → Instr
  | .byte b => .evUartRx b
  | .error kind => .evUartErr kind

/-- The UART receive source: pending when its stream is not empty; entry takes the head (60_exceptions.md R411). -/
def uartRxCandidate (s : State) : List Candidate :=
  match s.env.uartRx with
  | e :: rest => [⟨s.cfg.prioUart, .event, encode e.command, { s.env with uartRx := rest }⟩]
  | [] => []

/-- The UART transmit-done source (60_exceptions.md R411). -/
def uartTxDoneCandidate (s : State) : List Candidate :=
  match s.env.uartTxDone with
  | n + 1 => [⟨s.cfg.prioUart, .event, encode .evUartTxDone, { s.env with uartTxDone := n }⟩]
  | 0 => []

/-- The SPI completion source (60_exceptions.md R411). -/
def spiDoneCandidate (s : State) : List Candidate :=
  match s.env.spiDone with
  | rx :: rest => [⟨s.cfg.prioSpi, .event, encode (.evSpiDone rx), { s.env with spiDone := rest }⟩]
  | [] => []

/-- The clear-to-send latch: pending while CTS_PEND = 1; entry does not clear it (60_exceptions.md R411, R412). -/
def ctsCandidate (s : State) : List Candidate :=
  if s.spx.ctsPend then [⟨s.cfg.prioGpio, .event, encode .evCtsEdge, s.env⟩] else []

/-- The message-waiting latch (60_exceptions.md R411, R412). -/
def mwCandidate (s : State) : List Candidate :=
  if s.spx.mwPend then [⟨s.cfg.prioGpio, .event, encode .evMwEdge, s.env⟩] else []

/-- A posted handler can be entered: a software handler with a first command (60_exceptions.md R410, R415), or words on
the event port that are an illegal command there, since every legal event comes from a source of R411. -/
def Posted.deliverable (c : Config) (h : Posted) : Bool :=
  match h.port, decode c h.port h.stream with
  | _, .incomplete => false
  | .command, _ => true
  | .event, .illegal .. => true
  | .event, .command .. => false

/-- The posted handlers, oldest first. -/
def postedCandidates (s : State) : List Candidate :=
  s.env.posted.zipIdx.filterMap fun (h, k) =>
    if h.deliverable s.cfg then
      some ⟨h.level, h.port, h.stream, { s.env with posted := s.env.posted.eraseIdx k }⟩
    else none

/-- Every pending handler, in the fixed order that breaks ties (60_exceptions.md R418). -/
def candidates (s : State) : List Candidate :=
  uartRxCandidate s ++ uartTxDoneCandidate s ++ spiDoneCandidate s ++ ctsCandidate s ++ mwCandidate s
    ++ postedCandidates s

/-- The first handler of the highest level (60_exceptions.md R418). -/
def highest : List Candidate → Option Candidate
  | [] => none
  | c :: rest =>
    match highest rest with
    | none => some c
    | some d => if c.level < d.level then some d else some c

/-- One entry step: of the pending handlers that the entry rule admits, the one of R418 is entered; with none there is
nothing to enter, and nothing changes (60_exceptions.md R415, R418). -/
def enterStep (s : State) : State :=
  match highest ((candidates s).filter (fun c => s.canEnter c.level)) with
  | none => s
  | some c => (s.setEnv c.env).enterContext c.level c.port c.stream

/-! ### The environment's steps -/

/-- CTS_PIN changes: a rising edge is latched only while CTS_ARMED = 1 (43_spi_transport.md R271). -/
def driveCts (level : Bool) (s : State) : State :=
  let rising := !s.env.ctsPin && level
  (s.setEnv { s.env with ctsPin := level }).setSpx
    { s.spx with ctsPend := s.spx.ctsPend || (rising && s.spx.ctsArmed) }

/-- MW_PIN changes: a rising edge is latched only while MW_ARMED = 1 (43_spi_transport.md R272). -/
def driveMw (level : Bool) (s : State) : State :=
  let rising := !s.env.mwPin && level
  (s.setEnv { s.env with mwPin := level }).setSpx
    { s.spx with mwPend := s.spx.mwPend || (rising && s.spx.mwArmed) }

/-- RESET (70_reset_and_hazards.md R450, R451): FTC and scheduling state at their reset values, with what the spec leaves
unspecified drawn; streams, requests and pending handlers gone; the pins as they are driven. The record that a fault
ever happened is no FTC state and stays (10_state.md R36); so do the model's logs and announced answers. -/
def resetStep (d : ResetDraw) (s : State) : State :=
  let fresh := State.resetWith s.cfg (Memory.writeBytes [] 0 (d.qsm.take s.cfg.qsmBytes)) (fit s.cfg.pageSize d.pageBuf)
  { fresh with
    faultEver := s.faultEver
    ctxs := Vector.ofFn fun u : Level =>
      { Context.reset with
        stream := if u = 0 then d.program else []
        responses := (s.ctx u).responses }
    env := { s.env with uartRx := [], uartTxDone := 0, spiDone := [], uartReq := [], spiReq := [], posted := [] }
    schedule := s.schedule }

/-- One step of the environment, or one entry step. -/
def environmentStep (a : Action) (s : State) : State :=
  match a with
  | .run => s
  | .enter => enterStep s
  | .ctsPin level => driveCts level s
  | .mwPin level => driveMw level s
  | .uartByte b => s.setEnv { s.env with uartRx := s.env.uartRx ++ [.byte b] }
  | .uartError kind => s.setEnv { s.env with uartRx := s.env.uartRx ++ [.error kind] }
  | .uartTxDone => s.setEnv { s.env with uartReq := s.env.uartReq.tail, uartTxDone := s.env.uartTxDone + 1 }
  | .spiDone rx =>
    s.setEnv { s.env with
      spiReq := s.env.spiReq.tail, spiDone := s.env.spiDone ++ [fit s.cfg.maxPacketSize rx] }
  | .post h => s.setEnv { s.env with posted := s.env.posted ++ [h] }
  | .supply u bytes => s.setCtx u { s.ctx u with stream := (s.ctx u).stream ++ bytes }
  | .flashAnswer ok => s.setEnv { s.env with flashAnswers := s.env.flashAnswers ++ [ok] }
  | .reset d => resetStep d s

/-- One step of a run: what the schedule says comes next, and the running context's turn when it says nothing
(60_exceptions.md R417). -/
def scheduledStep (s : State) : Host.Outcome State Fault Refusal :=
  match s.schedule with
  | [] => runStep s
  | .run :: rest => runStep (s.setSchedule rest)
  | a :: rest => .next (environmentStep a (s.setSchedule rest))

/-! ### Placing a command where the next step begins it -/

/-- The level of the handler that delivers an event (60_exceptions.md R411); 0 for a command of the command port. -/
def eventLevel (c : Config) (w : Word) : Level :=
  match Opcode.ofCode (opField w) with
  | some .evUartRx | some .evUartErr | some .evUartTxDone => c.prioUart
  | some .evSpiDone => c.prioSpi
  | some .evCtsEdge | some .evMwEdge => c.prioGpio
  | _ => 0

/-- Context u stands at the first micro-step of the command at the front of `bytes`, on port p; a context above 0 is
entered for it (context 0 is never flagged as entered, 10_state.md R50). -/
def State.startCommand (s : State) (u : Level) (p : Port) (bytes : List Byte) : State :=
  if u = 0 then s.setCtx u { s.ctx u with record := .start p, stream := bytes } else s.enterContext u p bytes

/-- s with the bytes of a command on the stream of the running context, its record at that command's first micro-step on
port p, and nothing scheduled before it. An event is placed in the context of its handler's level u, entered for it,
unless a context above that level is running. -/
def placeCommand (p : Port) (u : Level) (bytes : List Byte) (s : State) : State :=
  (s.startCommand (max u s.running) p bytes).setSchedule []

end Sys2Proof.Machine
end

