-- ==== Sys2Proof/Machine/Step.lean ====
section
/-! DEFINITION. One step of the machine, and where a command stands for the next step to run it. -/

namespace Sys2Proof.Machine

/-- One step of a run. A configuration that breaks a constraint of rules R7 to R18 is refused (00_scope.md R19). -/
def step (s : State) : Host.Outcome State Fault Refusal :=
  if s.cfg.WF then scheduledStep s else .refused .illFormedConfig

/-- s with the command of an opcode-table word stored where the next step begins it: at the front of the running
context's stream, on the port of its opcode. -/
def State.withFetchWord (s : State) (nbits w : Nat) : State :=
  placeCommand (portOfWord (BitVec.ofNat 32 w)) (eventLevel s.cfg (BitVec.ofNat 32 w)) (tableBytes s.cfg nbits w) s

end Sys2Proof.Machine
end

