-- ==== Sys2Proof/Safety.lean ====
section
/-! DEFINITION. What counts as a safe state: the invariants that the spec gives the state, and the terms in which its
claims about queues, contexts and disciplined use are stated. -/

namespace Sys2Proof.Machine

/-! ### Queues -/

/-- The bytes of slot k of queue q (10_state.md R38; 40_queue.md R151). -/
def State.slot (s : State) (q : QId) (k : Nat) : List Byte :=
  s.qsm.readBytes ((s.queue q).base.toNat + k * (s.queue q).itemSize.toNat) (s.queue q).itemSize.toNat

/-- The READY items of queue q, oldest first: slots FRONT, FRONT+1, ..., modulo CAP (40_queue.md R160). -/
def State.items (s : State) (q : QId) : List (List Byte) :=
  (List.range (s.queue q).ready.toNat).map
    fun k => s.slot q (((s.queue q).front.toNat + k) % (s.queue q).cap.toNat)

/-- Queue q can be used: initialised and not faulted (40_queue.md R150, R152, R153). -/
abbrev State.usable (s : State) (q : QId) : Prop := (s.queue q).init = true ∧ (s.queue q).qinv = false

/-- The geometry that a successful QINIT leaves (40_queue.md R155, R167). -/
abbrev Queue.GeometryOk (c : Config) (r : Queue) : Prop :=
  r.sp = true ∧ 1 ≤ r.cap.toNat ∧ r.ceil.toNat < c.nprio ∧
    r.base.toNat + r.cap.toNat * r.itemSize.toNat ≤ c.qsmBytes ∧ r.front.toNat < r.cap.toNat

/-- A queue instance: its geometry when it is initialised, its reset value when it is not, and the counter invariant
while no breach is recorded (10_state.md R38, R39; 40_queue.md R155, R167). -/
abbrev Queue.Inv (c : Config) (r : Queue) : Prop :=
  (r.init = true → r.GeometryOk c) ∧ (r.init = false → r = Queue.reset) ∧ (r.qinv = false → r.countersOk)

/-! ### Procedures in progress -/

/-- An ENQUEUE in progress writes inside QSM (40_queue.md R151). -/
abbrev EnqLocals.Inv (s : State) (l : EnqLocals) : Prop :=
  (s.queue l.q).init = true ∧ l.item.length = l.size ∧ l.base + l.idx * l.size + l.size ≤ s.cfg.qsmBytes

/-- A copy micro-step copies a byte of the item. -/
abbrev EnqPoint.Inv (l : EnqLocals) : EnqPoint → Prop
  | .e3 j => j < l.size
  | .e2 | .e4 => True

/-- A DEQUEUE in progress reads inside QSM (40_queue.md R151). -/
abbrev DeqLocals.Inv (s : State) (l : DeqLocals) : Prop :=
  (s.queue l.q).init = true ∧ l.base + l.f * l.size + l.size ≤ s.cfg.qsmBytes

/-- A copy-out micro-step copies the next byte of the item. -/
abbrev DeqPoint.Inv (l : DeqLocals) : DeqPoint → Prop
  | .d2 j => j < l.size ∧ l.out.length = j
  | .d3 | .d4 => l.out.length = l.size

/-- The micro-steps that a command has beside its first one, and the queue its ENQUEUE or DEQUEUE works on
(10_state.md R49; 40_queue.md R156, R157; 44_comms.md R312 to R314; 43_spi_transport.md R276). -/
abbrev Phase.Fits : Instr → Phase → Prop
  | .enq q _, .enqueue l _ => l.q = q
  | .send _, .enqueue l _ => l.q = .q0
  | .send _, .afterEnqueue _ => True
  | .deq q, .dequeue l _ => l.q = q
  | .recv, .dequeue l _ => l.q = .q1
  | .evUartRx _, .enqueue l _ => l.q = .q1
  | .evUartRx _, .afterEnqueue _ => True
  | .evSpiDone _, .enqueue l _ => l.q = .q1
  | .evSpiDone _, .afterEnqueue _ => True
  | .evSpiDone _, .spiRearm _ => True
  | _, _ => False

/-- The local variables of a phase are in range. -/
abbrev Phase.LocalsInv (s : State) : Phase → Prop
  | .enqueue l p => l.Inv s ∧ p.Inv l
  | .dequeue l p => l.Inv s ∧ p.Inv l
  | .first | .afterEnqueue _ | .spiRearm _ => True

/-- A transport handler in progress belongs to the selected link (42_uart_framer.md R240; 43_spi_transport.md R280). -/
abbrev handlerOnLink (link : LinkSel) : Instr → Prop
  | .evUartRx _ => link = .uart
  | .evSpiDone _ => link = .spi
  | _ => True

/-- A context record (10_state.md R49). -/
abbrev Record.Inv (s : State) : Record → Prop
  | .busy i ph => ph.Fits i ∧ ph.LocalsInv s ∧ handlerOnLink s.link i
  | .idle | .start _ => True

/-- Context 0 issues command-port commands only (60_exceptions.md R410, R425). -/
abbrev Record.OnCommandPort : Record → Prop
  | .idle => True
  | .start _ => False
  | .busy i _ => i.port = .command

/-- The context at level u: only levels 1..NPRIO−1 are entered, and only an entered context, or context 0, has a command
in progress (10_state.md R50; 60_exceptions.md R415, R420). -/
abbrev Context.Inv (nprio : Nat) (u : Level) (c : Context) : Prop :=
  (c.entered = true → 1 ≤ u.val ∧ u.val < nprio) ∧ (c.record ≠ .idle → c.entered = true ∨ u = 0)

/-! ### The claim window and MASK -/

/-- The value of MASK that an ENQUEUE between E1 and E2 will restore; none outside the claim window (40_queue.md
R152). -/
def Record.windowSaved : Record → Option (BitVec 4)
  | .busy _ (.enqueue l .e2) => some l.saved
  | _ => none

/-- The queue that an ENQUEUE between E1 and E2 claims on; none outside the claim window (40_queue.md R152). -/
def Record.windowQueue : Record → Option QId
  | .busy _ (.enqueue l .e2) => some l.q
  | _ => none

/-- No ENQUEUE is in its claim window at a level below u. -/
abbrev State.noWindowBelow (s : State) (u : Level) : Prop :=
  ∀ v : Level, v < u → (s.ctx v).record.windowSaved = none

/-- MASK is 0 when no ENQUEUE is in its claim window, and the lowest ENQUEUE in its window restores 0: the saved values
nest (60_exceptions.md R419). -/
abbrev State.MaskNests (s : State) : Prop :=
  ((∀ u : Level, (s.ctx u).record.windowSaved = none) → s.mask = 0) ∧
  ∀ u : Level, s.noWindowBelow u →
    (s.ctx u).record.windowSaved = none ∨ (s.ctx u).record.windowSaved = some 0

/-- The claim windows are shut (20_memory.md R94(a)): while an ENQUEUE of queue q at level w is in its claim window, MASK
is at least CEIL of q, every context entered above w is above CEIL of q, and a higher ENQUEUE in its own window will
restore a MASK that is still at least CEIL of q. -/
abbrev State.WindowsShut (s : State) : Prop :=
  ∀ (w : Level) (q : QId), (s.ctx w).record.windowQueue = some q →
    (s.queue q).ceil ≤ s.mask ∧
    ∀ u : Level, w < u →
      ((s.ctx u).entered = true → (s.queue q).ceil.toNat < u.val) ∧
      (∀ m, (s.ctx u).record.windowSaved = some m → (s.queue q).ceil ≤ m)

/-! ### The units -/

/-- The framer (10_state.md R42), with FBUF as long as a packet (R41), and a packet being assembled that has 3 + length
bytes for a length of at least 1 (42_uart_framer.md R233, R246). -/
abbrev Framer.Inv (c : Config) (f : Framer) : Prop :=
  f.fbuf.length = c.maxPacketSize ∧
  (f.state = .awaitingStart → f.pos = 0) ∧
  (f.state = .awaitingLength → f.pos = 0 ∧ f.winCount = 0) ∧
  (f.state = .awaitingPayload →
    1 ≤ f.pos.toNat ∧ f.pos < f.need ∧ f.need.toNat ≤ c.maxPacketSize ∧ f.winCount = 0 ∧
      f.need.toNat = 3 + (f.fbuf.getD 0 0).toNat ∧ 1 ≤ (f.fbuf.getD 0 0).toNat) ∧
  f.winCount.toNat ≤ c.startCodeLen - 1 ∧
  f.win1 = 0 ∧ (f.winCount = 0 → f.win0 = 0)

/-- The SPI transactor: BUSY = SELECTED (43_spi_transport.md R281), TXBUF as long as a packet (10_state.md R43), and
nothing armed, latched or in flight unless SPI is the selected link (43_spi_transport.md R280). -/
abbrev Spx.Inv (c : Config) (link : LinkSel) (x : Spx) : Prop :=
  x.busy = x.selected ∧ x.txbuf.length = c.maxPacketSize ∧
  (link ≠ .spi → x.busy = false ∧ x.ctsArmed = false ∧ x.ctsPend = false ∧ x.mwArmed = false ∧ x.mwPend = false)

/-- The accumulator: PAGE_BUF is a page long, BITMAP has no bit above MAX_CHUNKS_PER_PAGE, and some chunk is pending
unless a flash failure stopped the unit with BITMAP = 0 (10_state.md R47; 45_reassembly.md R344, R346, R348). -/
abbrev Acc.Inv (c : Config) (fatal : Bool) (a : Acc) : Prop :=
  a.pageBuf.length = c.pageSize ∧ a.bitmap &&& c.allPending = a.bitmap ∧
  (fatal = true ↔ a.bitmap = 0) ∧ (fatal = true ↔ a.status = .fatal)

/-! ### The whole state -/

/-- The invariant of the machine. -/
structure Inv (s : State) : Prop where
  /-- The configuration is well formed (00_scope.md R19). -/
  config : s.cfg.WF
  /-- QSM is in canonical form and holds nothing outside 0..QSM_BYTES−1 (00_scope.md R22; 20_memory.md R81). -/
  qsm : s.qsm.WF ∧ ∀ c ∈ s.qsm, c.1 < s.cfg.qsmBytes
  /-- Every queue instance (10_state.md R38, R39). -/
  queues : ∀ q, (s.queue q).Inv s.cfg
  /-- A fault bit that is set is on record (10_state.md R36). -/
  faults : (s.accFatal = true → s.faultEver = true) ∧ ∀ q, (s.queue q).qinv = true → s.faultEver = true
  /-- The framer (10_state.md R42). -/
  ufr : s.ufr.Inv s.cfg
  /-- UTX_BUSY is set on the UART link only (42_uart_framer.md R241). -/
  utx : s.ufr.utxBusy = true → s.link = .uart
  /-- The SPI transactor (43_spi_transport.md R280, R281). -/
  spx : s.spx.Inv s.cfg s.link
  /-- The accumulator (10_state.md R47). -/
  acc : s.acc.Inv s.cfg s.accFatal
  /-- Every context (10_state.md R49, R50). -/
  contexts : ∀ u : Level, (s.ctx u).Inv s.cfg.nprio u
  /-- Every context record (10_state.md R49). -/
  records : ∀ u : Level, (s.ctx u).record.Inv s
  /-- Context 0 (60_exceptions.md R410). -/
  thread : (s.ctx 0).record.OnCommandPort
  /-- The nesting of the saved masks (60_exceptions.md R419). -/
  mask : s.MaskNests
  /-- Every received SPI buffer is as long as a packet (43_spi_transport.md R270, R279). -/
  buffers : ∀ rx ∈ s.env.spiDone, rx.length = s.cfg.maxPacketSize

/-! ### What a step leaves as it was -/

/-- Every byte of QSM reads the same. -/
abbrev State.SameMemory (s t : State) : Prop := ∀ a, t.qsm.read a = s.qsm.read a

/-- Every byte of QSM outside the `size` bytes from `addr` reads the same. -/
abbrev State.SameMemoryOutside (s : State) (addr size : Nat) (t : State) : Prop :=
  ∀ a, a < addr ∨ addr + size ≤ a → t.qsm.read a = s.qsm.read a

/-- Every register and buffer of FTC outside QSM and the queue registers is the same (10_state.md R33, R41, R43, R47),
and so is the record of faults (R36). -/
abbrev State.SameUnits (s t : State) : Prop :=
  t.link = s.link ∧ t.mask = s.mask ∧ t.accFatal = s.accFatal ∧ t.faultEver = s.faultEver ∧
  t.txDrop = s.txDrop ∧ t.rxDrop = s.rxDrop ∧ t.crcFail = s.crcFail ∧
  t.ufr = s.ufr ∧ t.spx = s.spx ∧ t.acc = s.acc

/-- Every register of every queue is the same, the fault bits included (10_state.md R38). -/
abbrev State.SameQueues (s t : State) : Prop := ∀ q, t.queue q = s.queue q

/-- The whole FTC state is the same (10_state.md R32, first part). -/
abbrev State.SameFtc (s t : State) : Prop := s.SameUnits t ∧ s.SameQueues t ∧ s.SameMemory t

/-- The environment is the same but for the response sink: no request was made and no event was taken. -/
abbrev State.SameEnv (s t : State) : Prop :=
  { t.env with eventSink := s.env.eventSink } = s.env

/-- From s to t a command on port p ended with response r: the response is delivered, the context is IDLE, on the event
port its handler has exited, with what was left on its stream discarded (log entry 19, DESIGN CHOICE), and no other context,
the configuration or the schedule changed (46_system.md R372; 60_exceptions.md R420). -/
abbrev State.Ended (s : State) (p : Port) (r : Response) (t : State) : Prop :=
  t.cfg = s.cfg ∧ t.schedule = s.schedule ∧ (∀ u, u ≠ s.running → t.ctx u = s.ctx u) ∧
  (p = .command →
    t.ctx s.running =
      { s.ctx s.running with record := .idle, responses := (s.ctx s.running).responses ++ [r] } ∧
    t.env.eventSink = s.env.eventSink) ∧
  (p = .event →
    t.ctx s.running = { s.ctx s.running with entered := false, record := .idle, stream := [] } ∧
    t.env.eventSink = s.env.eventSink ++ [r])

/-- From s to t the running context went on with command i, whose next micro-step is `ph`; no response is given, and no
other context, the configuration or the schedule changed. -/
abbrev State.WentOn (s : State) (i : Instr) (ph : Phase) (t : State) : Prop :=
  t.cfg = s.cfg ∧ t.schedule = s.schedule ∧ (∀ u, u ≠ s.running → t.ctx u = s.ctx u) ∧
  t.ctx s.running = { s.ctx s.running with record := .busy i ph } ∧ t.env.eventSink = s.env.eventSink

/-- A command on port p answered r and did nothing else: no FTC state changed (60_exceptions.md R401). -/
abbrev State.OnlyAnswered (s : State) (p : Port) (r : Response) (t : State) : Prop :=
  s.Ended p r t ∧ s.SameFtc t ∧ s.SameEnv t

/-! ### What a kick does -/

/-- Queue q has an item to take (40_queue.md R153). -/
abbrev State.hasItem (s : State) (q : QId) : Prop := s.usable q ∧ (s.queue q).ready ≠ 0

/-- The registers of a queue after its oldest item was taken (40_queue.md R153, D3 and D4). -/
abbrev Queue.popped (r : Queue) : Queue :=
  { r with front := BitVec.ofNat 16 ((r.front.toNat + 1) % r.cap.toNat), claimed := r.claimed - 1,
           ready := r.ready - 1 }

/-- Q0 was popped, the units of t are those of `s`, and QSM is unchanged. -/
abbrev State.PoppedQ0 (s t : State) : Prop :=
  t.queue .q0 = (s.queue .q0).popped ∧ (∀ p, p ≠ .q0 → t.queue p = s.queue p) ∧ s.SameUnits t ∧ s.SameMemory t

/-- From s to t the UART kick ran: nothing happened, or the item at the front of Q0 was taken and the packet in it handed
to the UART collaborator behind the start code (42_uart_framer.md R241). -/
abbrev State.UartKick (s : State) (started : Bool) (t : State) : Prop :=
  if s.ufr.utxBusy = true ∨ ¬ s.hasItem .q0 then started = false ∧ s.SameFtc t ∧ s.SameEnv t
  else
    let item := s.slot .q0 (s.queue .q0).front.toNat
    let n := min (3 + (item.headD 0).toNat) s.cfg.maxPacketSize
    started = true ∧ (s.setUfr { s.ufr with utxBusy := true }).PoppedQ0 t ∧
      (s.emitUartTx (s.cfg.startCode ++ (item ++ zeros n).take n)).SameEnv t

/-- From s to t the SPI kick ran: nothing, the arming of CTS, or the start of a transfer of the item at the front of Q0 or
of an all-zero keepalive (43_spi_transport.md R275). -/
abbrev State.SpiKick (s : State) (started : Bool) (t : State) : Prop :=
  let n := s.cfg.maxPacketSize
  if s.spx.busy = true then started = false ∧ s.SameFtc t ∧ s.SameEnv t
  else if s.env.ctsPin = false then
    started = false ∧ (s.setSpx { s.spx with ctsArmed := true }).SameFtc t ∧ s.SameEnv t
  else if s.hasItem .q0 then
    let buf := (s.slot .q0 (s.queue .q0).front.toNat ++ zeros n).take n
    started = true ∧ (s.setSpx { s.spx with txbuf := buf, selected := true, busy := true }).PoppedQ0 t ∧
      (s.emitSpiStart buf).SameEnv t
  else if s.env.mwPin = true then
    started = true ∧ (s.setSpx { s.spx with txbuf := zeros n, selected := true, busy := true }).SameFtc t ∧
      (s.emitSpiStart (zeros n)).SameEnv t
  else started = false ∧ s.SameFtc t ∧ s.SameEnv t

/-- From s to t the kick of the selected transport ran (44_comms.md R311). -/
abbrev State.LinkKick (s : State) (started : Bool) (t : State) : Prop :=
  match s.link with
  | .none => started = false ∧ s.SameFtc t ∧ s.SameEnv t
  | .spi => s.SpiKick started t
  | .uart => s.UartKick started t

/-- The locals of an ENQUEUE of `item` on queue q that E1 reads in state s (40_queue.md R152). -/
abbrev State.ClaimLocals (s : State) (q : QId) (item : List Byte) (l : EnqLocals) : Prop :=
  l.q = q ∧ l.item = item ∧ l.c = (s.queue q).claimed ∧ l.f = (s.queue q).front ∧ l.saved = s.mask ∧
    l.base = (s.queue q).base.toNat ∧ l.size = (s.queue q).itemSize.toNat ∧
    l.idx = ((s.queue q).front.toNat + (s.queue q).claimed.toNat) % (s.queue q).cap.toNat

/-- The status with which ENQUEUE on queue q is refused in state s: FAULTED, then NOT_INIT, then FULL; none when it claims
(40_queue.md R152). -/
def State.claimRefusal (s : State) (q : QId) : Option Status :=
  if (s.queue q).qinv then some .faulted
  else if !(s.queue q).init then some .notInit
  else if (s.queue q).cap ≤ (s.queue q).claimed then some .full
  else none

/-- From s to t the first micro-step of an ENQUEUE of `item` on queue q ran inside command i: E1 claimed, MASK is raised to
max(MASK, CEIL) and E2 follows, or E1 was refused and the command goes on at its micro-step after the ENQUEUE
(40_queue.md R152; 44_comms.md R312, R314). -/
abbrev State.EnqueueBegun (s : State) (i : Instr) (q : QId) (item : List Byte) (t : State) : Prop :=
  match s.claimRefusal q with
  | some st => s.WentOn i (.afterEnqueue st) t ∧ s.SameFtc t ∧ s.SameEnv t
  | none =>
    t.mask.toNat = max s.mask.toNat (s.queue q).ceil.toNat ∧ (s.setMask t.mask).SameFtc t ∧ s.SameEnv t ∧
      ∃ l, s.ClaimLocals q item l ∧ s.WentOn i (.enqueue l .e2) t

/-! ### How a command is encoded -/

/-- The "Encoding" line of a command's rule: its OP, its format, its match word and its port (30_encoding.md R127). -/
abbrev EncodedAs (i : Instr) (code : BitVec 6) (f : Format) (matchWord : Word) (p : Port) : Prop :=
  i.opcode.code = code ∧ i.opcode.format = f ∧ i.opcode.matchWord = matchWord ∧ i.opcode.port = p

/-! ### What a chunk does -/

/-- The three checks of a chunk (45_reassembly.md R341). -/
abbrev State.ChunkOk (s : State) (page : BitVec 16) (ci cc : BitVec 8) (len : Nat) : Prop :=
  ci.toNat < s.cfg.maxChunksPerPage ∧
  (len = s.cfg.maxChunkSize ∨ (ci.toNat + 1 = cc.toNat ∧ len ≤ s.cfg.maxChunkSize)) ∧
  (page = s.acc.activePage ∨ s.acc.bitmap = s.cfg.allPending)

/-- Chunk k is still pending after chunk ci of a page of cc chunks has arrived (45_reassembly.md R344). -/
abbrev State.pendingAfter (s : State) (ci cc : BitVec 8) (k : Nat) : Bool :=
  s.acc.bitmap.getLsbD k && decide (k ≠ ci.toNat) && decide (k < cc.toNat) && decide (k < s.cfg.maxChunksPerPage)

/-- `buf` is the page buffer of s with the payload of chunk ci at ci · MAX_CHUNK_SIZE (45_reassembly.md R343). -/
abbrev State.ChunkCopied (s : State) (ci : BitVec 8) (payload buf : List Byte) : Prop :=
  buf.length = s.acc.pageBuf.length ∧
  ∀ k, buf.getD k 0 =
    if ci.toNat * s.cfg.maxChunkSize ≤ k ∧ k < ci.toNat * s.cfg.maxChunkSize + payload.length then
      payload.getD (k - ci.toNat * s.cfg.maxChunkSize) 0
    else s.acc.pageBuf.getD k 0

/-! ### Sequences of micro-steps and of commands -/

/-- The micro-steps of a DEQUEUE from `p` on, at most `n` of them, with nothing in between: what it returns. -/
def dequeueRun : Nat → DeqLocals → DeqPoint → State → Except Fault (Option (State × DeqResult))
  | 0, _, _, _ => .ok none
  | n + 1, l, p, s =>
    match dequeueMicro l p s with
    | .error f => .error f
    | .ok (s1, .inl r) => .ok (some (s1, r))
    | .ok (s1, .inr (l1, p1)) => dequeueRun n l1 p1 s1

/-- `n` steps of the machine; it stops at the first that gives no next state. -/
def steps : Nat → State → Host.Outcome State Fault Refusal
  | 0, s => .next s
  | n + 1, s =>
    match step s with
    | .next t => steps n t
    | .fault f => .fault f
    | .refused r => .refused r

/-- Commands one after another, each run by its next micro-step; it stops at the first that gives no next state. -/
def execAll : List Instr → State → Host.Outcome State Fault Refusal
  | [], s => .next s
  | i :: rest, s =>
    match exec i s with
    | .next t => execAll rest t
    | .fault f => .fault f
    | .refused r => .refused r

/-! ### Disciplined use of a queue (40_queue.md R161) -/

/-- The ENQUEUE that a context has in progress: its locals and its next micro-step. -/
def Record.enqueue? : Record → Option (EnqLocals × EnqPoint)
  | .busy _ (.enqueue l p) => some (l, p)
  | _ => none

/-- The DEQUEUE that a context has in progress: its locals and its next micro-step. -/
def Record.dequeue? : Record → Option (DeqLocals × DeqPoint)
  | .busy _ (.dequeue l p) => some (l, p)
  | _ => none

/-- Context u has an ENQUEUE on queue q in progress, at micro-step p. -/
abbrev State.Enqueuing (s : State) (u : Level) (q : QId) (l : EnqLocals) (p : EnqPoint) : Prop :=
  (s.ctx u).record.enqueue? = some (l, p) ∧ l.q = q

/-- Context u has a DEQUEUE on queue q in progress, at micro-step p. -/
abbrev State.Dequeuing (s : State) (u : Level) (q : QId) (l : DeqLocals) (p : DeqPoint) : Prop :=
  (s.ctx u).record.dequeue? = some (l, p) ∧ l.q = q

/-- The levels that run ENQUEUE on a queue, and those that run DEQUEUE or DEQUEUE_ATOMIC on it. -/
structure Usage where
  producer : Level → Prop
  consumer : Level → Prop

/-- The conditions on a usage under the ceiling `ceil`: (a) and (b), no producer and no consumer above the ceiling; (f), one
producer only, or every producer above every consumer (40_queue.md R161). -/
abbrev Usage.Ok (U : Usage) (ceil : BitVec 4) : Prop :=
  (∀ u, U.producer u → u.val ≤ ceil.toNat) ∧ (∀ u, U.consumer u → u.val ≤ ceil.toNat) ∧
  ((∃ v, ∀ u, U.producer u → u = v) ∨ ∀ u v, U.producer u → U.consumer v → v < u)

/-- The procedures in progress use queue q as U says: (a), (b) and (f); (c), at most one DEQUEUE on q is in progress; (e), no
ENQUEUE in progress on another queue writes into the region of q (40_queue.md R161). -/
abbrev State.Disciplined (s : State) (U : Usage) (q : QId) : Prop :=
  (s.queue q).init = true →
    U.Ok (s.queue q).ceil ∧
    (∀ u l p, s.Enqueuing u q l p → U.producer u) ∧ (∀ u l p, s.Dequeuing u q l p → U.consumer u) ∧
    (∀ u v l m p n, s.Dequeuing u q l p → s.Dequeuing v q m n → u = v) ∧
    ∀ u l p, (s.ctx u).record.enqueue? = some (l, p) → l.q ≠ q →
      l.base + l.idx * l.size + l.size ≤ (s.queue q).base.toNat ∨
      (s.queue q).base.toNat + (s.queue q).cap.toNat * (s.queue q).itemSize.toNat ≤ l.base + l.idx * l.size

/-- The command that the next step takes a micro-step of, where the next step is a turn of the running context
(60_exceptions.md R417). -/
def State.turn (s : State) : Option Instr :=
  match s.schedule with
  | [] | .run :: _ =>
    match s.record with
    | .busy i _ => some i
    | .idle | .start _ =>
      match s.nextCommand with
      | .command i _ => some i
      | .incomplete | .illegal .. => none
  | _ => none

/-- The next micro-step of command i runs the kick of the selected transport, which takes from Q0 by DEQUEUE_ATOMIC
(44_comms.md R311, R312; 42_uart_framer.md R242; 43_spi_transport.md R277, R278). -/
def State.kicks (s : State) : Instr → Prop
  | .kick | .evUartTxDone | .evCtsEdge | .evMwEdge => True
  | .send _ => ∃ st, s.phase = .afterEnqueue st
  | _ => False

/-- The next step uses queue q as U says where no record shows it: a kick takes from Q0 in a consumer's context and with no
DEQUEUE on Q0 in progress (b, c; 70_reset_and_hazards.md R464), and a QINIT finds no procedure on its queue in progress (d)
(40_queue.md R161). -/
abbrev State.StepDisciplined (s : State) (U : Usage) (q : QId) : Prop :=
  ∀ i, s.turn = some i →
    (s.kicks i → q = .q0 → U.consumer s.running ∧ ∀ u l p, ¬ s.Dequeuing u q l p) ∧
    (∀ sp ceil itemSize cap base, i = .qinit q sp ceil itemSize cap base →
      (∀ u l p, ¬ s.Enqueuing u q l p) ∧ ∀ u l p, ¬ s.Dequeuing u q l p)

/-- How many bytes of its item an ENQUEUE has copied when p is its next micro-step (40_queue.md R152). -/
def EnqPoint.copied (l : EnqLocals) : EnqPoint → Nat
  | .e2 => 0
  | .e3 j => j
  | .e4 => l.size

/-- The ENQUEUE on queue q that a context has in progress past E2: it has claimed its slot and not yet published it. -/
def Record.claimed? (q : QId) (r : Record) : Option EnqLocals :=
  match r.enqueue? with
  | some (l, p) => if l.q = q ∧ p ≠ .e2 then some l else none
  | none => none

/-- The context has a DEQUEUE on queue q in progress past D3: its item is no longer ready and its slot not yet free. -/
def Record.releases (q : QId) (r : Record) : Bool :=
  match r.dequeue? with
  | some (l, p) => decide (l.q = q ∧ p = .d4)
  | none => false

/-- The item that slot k of queue q is claimed for: that of the ENQUEUE in progress that holds the slot, else the slot's
bytes. -/
def State.claimedItem (s : State) (q : QId) (k : Nat) : List Byte :=
  match levelsDown.filterMap (fun u => ((s.ctx u).record.claimed? q).filter fun l => l.idx == k) with
  | l :: _ => l.item
  | [] => s.slot q k

/-- The items of the claimed slots of queue q, in the order in which they were claimed (40_queue.md R163). -/
def State.claims (s : State) (q : QId) : List (List Byte) :=
  (List.range (s.queue q).claimed.toNat).map
    fun k => s.claimedItem q (((s.queue q).front.toNat + k) % (s.queue q).cap.toNat)

/-- What disciplined use by U keeps true of queue q, with any procedures in progress (40_queue.md R162, R165, R166). -/
structure QueueTidy (s : State) (U : Usage) (q : QId) : Prop where
  /-- No check has raised (R162). -/
  sound : (s.queue q).qinv = false
  /-- A claimed slot is ready, or being filled, or about to be released (R162). -/
  counts : (s.queue q).claimed.toNat =
    (s.queue q).ready.toNat + levelsDown.countP (fun u => ((s.ctx u).record.claimed? q).isSome) +
      levelsDown.countP (fun u => (s.ctx u).record.releases q)
  /-- Between E1 and E2 nothing changed what E1 read (R162). -/
  window : ∀ u l, s.Enqueuing u q l .e2 →
    l.c = (s.queue q).claimed ∧ (s.queue q).claimed < (s.queue q).cap ∧
    l.idx = ((s.queue q).front.toNat + (s.queue q).claimed.toNat) % (s.queue q).cap.toNat
  /-- An ENQUEUE past E2 holds a claimed slot, the last one if it is the only producer, and has copied the bytes before its
  next micro-step (R165). -/
  copies : ∀ u l p, s.Enqueuing u q l p → p ≠ .e2 →
    (∃ k, k < (s.queue q).claimed.toNat ∧
      l.idx = ((s.queue q).front.toNat + k) % (s.queue q).cap.toNat ∧
      ((∀ v, U.producer v → v = u) → k + 1 = (s.queue q).claimed.toNat)) ∧
    ∀ j, j < p.copied l → s.qsm.read (l.base + l.idx * l.size + j) = l.item.getD j 0
  /-- An ENQUEUE in progress works on the geometry that the queue has (40_queue.md R151, R161(d)). -/
  geometry : ∀ u l p, s.Enqueuing u q l p →
    l.base = (s.queue q).base.toNat ∧ l.size = (s.queue q).itemSize.toNat
  /-- No two ENQUEUEs in progress hold the same slot (R166). -/
  distinct : ∀ u v l m p n, s.Enqueuing u q l p → s.Enqueuing v q m n → u ≠ v → l.idx ≠ m.idx
  /-- A DEQUEUE in progress reads the front slot, which is ready and which no ENQUEUE in progress holds (R165, R166). -/
  reads : ∀ u l p, s.Dequeuing u q l p →
    l.f = (s.queue q).front.toNat ∧ l.base = (s.queue q).base.toNat ∧ l.size = (s.queue q).itemSize.toNat ∧
    (p ≠ .d4 → (s.queue q).ready ≠ 0) ∧
    l.out = (s.slot q (s.queue q).front.toNat).take l.out.length ∧
    ∀ v m n, s.Enqueuing v q m n → m.idx ≠ (s.queue q).front.toNat

/-! ### Boot -/

/-- The QSM regions of two queues share no byte (40_queue.md R161(e)). -/
abbrev Queue.Apart (a b : Queue) : Prop :=
  a.base.toNat + a.cap.toNat * a.itemSize.toNat ≤ b.base.toNat ∨
  b.base.toNat + b.cap.toNat * b.itemSize.toNat ≤ a.base.toNat

/-- The boot requirements of the send and receive queues that the parameters and the QINIT operands decide, for the
highest levels `sender` and `receiver` that issue SEND and RECV (70_reset_and_hazards.md R453, R455). -/
abbrev State.BootOk (s : State) (sender receiver : Level) : Prop :=
  s.usable .q0 ∧ s.usable .q1 ∧
  s.cfg.maxPacketSize ≤ (s.queue .q0).itemSize.toNat ∧ s.cfg.maxPacketSize ≤ (s.queue .q1).itemSize.toNat ∧
  (sender.val ≤ (s.queue .q0).ceil.toNat ∧
    (s.link = .spi → s.cfg.prioGpio.val ≤ (s.queue .q0).ceil.toNat) ∧
    (s.link = .uart → s.cfg.prioUart.val ≤ (s.queue .q0).ceil.toNat)) ∧
  (receiver.val ≤ (s.queue .q1).ceil.toNat ∧
    (s.link = .spi → s.cfg.prioSpi.val ≤ (s.queue .q1).ceil.toNat) ∧
    (s.link = .uart → s.cfg.prioUart.val ≤ (s.queue .q1).ceil.toNat)) ∧
  (s.queue .q0).Apart (s.queue .q1)

/-- The usage of the send queue that the boot requirements ask for: one context issues SEND, and every kick runs at or below
the ceiling (70_reset_and_hazards.md R453(b), R473). -/
def State.sendUsage (s : State) (sender : Level) : Usage where
  producer u := u = sender
  consumer u := u = sender ∨ (s.link = .spi ∧ u = s.cfg.prioGpio) ∨ (s.link = .uart ∧ u = s.cfg.prioUart)

/-- The usage of the receive queue that the boot requirements ask for: the handler of the selected transport enqueues, and
one context issues RECV (70_reset_and_hazards.md R453(c), R473). -/
def State.receiveUsage (s : State) (receiver : Level) : Usage where
  producer u := (s.link = .spi ∧ u = s.cfg.prioSpi) ∨ (s.link = .uart ∧ u = s.cfg.prioUart)
  consumer u := u = receiver

end Sys2Proof.Machine
end

