-- ==== Sys2Proof/Certificates/Slice0/Obligations.lean ====
section
/-! DEFINITION. The statements for the provers. Each docstring says which rule of the spec the statement formalises. -/

open Sys2Proof Sys2Proof.Machine

/-! ### Encoding -/

/-- Decoding an encoded well-formed command gives it back, whatever follows it on the stream (30_encoding.md sections 1, 2
and 6): no bit of any operand is dropped. -/
def Obligations.DecodeOfEncodeIsTheCommand : Prop :=
  ∀ (c : Config) (i : Instr) (rest : List Byte), i.wellFormed c = true →
    decode c i.port (encode i ++ rest) = .command i rest

/-- A command that decodes has one encoding: the bytes that were consumed are its encoding, it is well formed, and it
belongs to the port it was read on (30_encoding.md sections 1, 2, 5 and 6). -/
def Obligations.EncodeOfDecodeIsTheBytes : Prop :=
  ∀ (c : Config) (p : Port) (bytes : List Byte) (i : Instr) (rest : List Byte),
    decode c p bytes = .command i rest →
      encode i ++ rest = bytes ∧ i.wellFormed c = true ∧ i.port = p

/-- The worked encodings of 30_encoding.md R137. -/
def Obligations.WorkedEncodings : Prop :=
  encodeWords (.qinit .q2 true 0 4 3 0x200) = [0x06100000, 0x00040003, 0x00000200] ∧
  encodeWords (.enq .q2 [0xC0, 0xFF, 0xEE, 0x00]) = [0x0A000004] ∧
  (Instr.enq .q2 [0xC0, 0xFF, 0xEE, 0x00]).data = [0xC0, 0xFF, 0xEE, 0x00] ∧
  encodeWords (.deq .q2) = [0x0E000000] ∧
  encodeWords (.send [0x64]) = [0x44000001] ∧ (Instr.send [0x64]).data = [0x64] ∧
  encodeWords (.chunk 0 1 2 [0xAA, 0xBB]) = [0x60010202, 0x00000000] ∧
  (Instr.chunk 0 1 2 [0xAA, 0xBB]).data = [0xAA, 0xBB] ∧
  encodeWords (.regRead 0x05) = [0x80000005] ∧
  encodeWords (.evUartRx 0xA5) = [0xC00000A5] ∧
  encodeWords (.evUartErr 4) = [0xC4000004] ∧
  encode (.deq .q2) = [0x00, 0x00, 0x00, 0x0E] ∧
  (∀ i ∈ [Instr.qinit .q2 true 0 4 3 0x200, .enq .q2 [0xC0, 0xFF, 0xEE, 0x00], .deq .q2, .send [0x64],
      .chunk 0 1 2 [0xAA, 0xBB], .regRead 0x05, .evUartRx 0xA5, .evUartErr 4],
    decode Config.reference i.port (encode i) = .command i [])

/-- A whole command at the front of a port's stream is illegal exactly in the three cases of 30_encoding.md R129: its OP
is in no row of the table (a), belongs to the other port (b), or a reserved bit of word0 or of an extension word is 1 (c);
what is consumed is as in R134. -/
def Obligations.IllegalExactlyInTheThreeCases : Prop :=
  ∀ (c : Config) (p : Port) (b0 b1 b2 b3 : Byte) (rest : List Byte),
    let w := wordOfBytes b0 b1 b2 b3
    let stream := b0 :: b1 :: b2 :: b3 :: rest
    (∀ code : BitVec 6, Opcode.ofCode code = none ↔
      code.toNat ∈ [0x00, 0x06, 0x07, 0x0B, 0x0C, 0x0D, 0x0E, 0x0F, 0x14, 0x15, 0x16, 0x17, 0x19, 0x1A, 0x1B, 0x1C,
        0x1D, 0x1E, 0x1F, 0x21, 0x22, 0x23, 0x24, 0x25, 0x26, 0x27, 0x28, 0x29, 0x2A, 0x2B, 0x2C, 0x2D, 0x2E, 0x2F,
        0x33, 0x37, 0x38, 0x39, 0x3A, 0x3B, 0x3C, 0x3D, 0x3E, 0x3F]) ∧
    (Opcode.ofCode (w.extractLsb' 26 6) = none → decode c p stream = .illegal .unassignedOpcode w rest) ∧
    (∀ o, Opcode.ofCode (w.extractLsb' 26 6) = some o →
      (o.port ≠ p → decode c p stream = .illegal .wrongPort w rest) ∧
      (o.port = p → 4 * o.extCount + o.dataLen c w ≤ rest.length →
        let ext := takeWords o.extCount rest
        let after := rest.drop (4 * o.extCount + o.dataLen c w)
        ext.length = o.extCount ∧ o.format.extMasks.length = o.extCount ∧
        ((w &&& o.format.mask ≠ o.matchWord ∨
            ∃ k : Nat, k < o.extCount ∧ ext.getD k 0 &&& o.format.extMasks.getD k 0 ≠ 0) →
          decode c p stream = .illegal .reservedBit w after) ∧
        (w &&& o.format.mask = o.matchWord →
          (∀ k : Nat, k < o.extCount → ext.getD k 0 &&& o.format.extMasks.getD k 0 = 0) →
          ∃ i, decode c p stream = .command i after ∧ i.opcode = o)))

/-! ### Steps -/

/-- A step runs the decoded command: where the running context has no command in progress and a whole well-formed
command stands at the front of its stream, the step is that command's meaning on the state with the command taken off the
stream (and off the schedule, where the schedule says that the context runs). That the running context issues its next
command, decoded in its first micro-step, is 46_system.md section 1 and 60_exceptions.md section 3; the form is the model's
own: a byte stream per context (log entry 9), a schedule whose end or `run` is that context's turn (log entry 8), and bytes
that are taken in the first micro-step (log entry 17). -/
def Obligations.StepRunsTheDecodedCommand : Prop :=
  ∀ (s : State) (i : Instr) (rest : List Byte), s.cfg.WF → (∀ j ph, s.record ≠ .busy j ph) →
    decode s.cfg s.record.port (s.ctx s.running).stream = .command i rest →
      i.wellFormed s.cfg = true ∧
      (s.schedule = [] → step s = exec i (s.setStream rest)) ∧
      (∀ tail, s.schedule = .run :: tail → step s = exec i ((s.setSchedule tail).setStream rest)) ∧
      (s.setStream rest).phase = .first

/-- A step goes on with the command in progress: the next micro-step of a busy context is taken from the same command's
meaning (10_state.md section 8, 60_exceptions.md section 3). The schedule is the model's form (log entry 8). -/
def Obligations.StepGoesOnWithTheCommandInProgress : Prop :=
  ∀ (s : State) (i : Instr) (ph : Phase), s.cfg.WF → s.record = .busy i ph →
    (s.schedule = [] → step s = exec i s) ∧
    (∀ tail, s.schedule = .run :: tail → step s = exec i (s.setSchedule tail)) ∧ s.phase = ph

/-- An illegal command is refused in one micro-step with ILLEGAL and word0[31:8], and changes no FTC state
(30_encoding.md section 5). The stream and the empty schedule are the model's form (log entries 8, 9 and 17); on the event
port the handler exits with its answer, and the bytes behind the word go with it (log entry 19). -/
def Obligations.IllegalCommandIsRefused : Prop :=
  ∀ (s : State) (why : IllegalReason) (w : Word) (rest : List Byte), s.cfg.WF → s.schedule = [] →
    (∀ j ph, s.record ≠ .busy j ph) →
    decode s.cfg s.record.port (s.ctx s.running).stream = .illegal why w rest →
      ∃ t, step s = .next t ∧
        (s.setStream rest).OnlyAnswered s.record.port ⟨.illegal, w.extractLsb' 8 24, []⟩ t

/-- A configuration is well formed exactly when every constraint of rules R7 to R18 holds, an ill-formed one is refused,
and no step changes the configuration (00_scope.md R19; 10_state.md section 2). -/
def Obligations.ConfigurationIsCheckedAndKept : Prop :=
  ∀ s : State,
    (s.cfg.WF ↔
      4 ≤ s.cfg.maxPacketSize ∧ s.cfg.maxPacketSize ≤ 255 ∧
      (s.cfg.startCode.length = 1 ∨ s.cfg.startCode.length = 2) ∧
      1 ≤ s.cfg.qsmBytes ∧ s.cfg.qsmBytes ≤ 65536 ∧ 2 ≤ s.cfg.nprio ∧ s.cfg.nprio ≤ 16 ∧
      (∀ u ∈ [s.cfg.prioUart, s.cfg.prioSpi, s.cfg.prioGpio], 1 ≤ u.val ∧ u.val < s.cfg.nprio) ∧
      1 ≤ s.cfg.maxChunkSize ∧ s.cfg.maxChunkSize ≤ 255 ∧
      1 ≤ s.cfg.maxChunksPerPage ∧ s.cfg.maxChunksPerPage ≤ 32 ∧
      1 ≤ s.cfg.imagePageCount ∧ s.cfg.imagePageCount ≤ 65536) ∧
    (¬ s.cfg.WF → step s = .refused .illFormedConfig) ∧
    (∀ t, step s = .next t → t.cfg = s.cfg)

/-- Only the running context steps: no other context's record or flag changes, except that an entry sets the entered
context's and a reset clears them all (60_exceptions.md section 3). -/
def Obligations.OtherContextsKeepTheirRecords : Prop :=
  ∀ (s t : State) (u : Level), step s = .next t → u ≠ s.running →
    (∀ d tail, s.schedule ≠ .reset d :: tail) →
    ((t.ctx u).record = (s.ctx u).record ∧ (t.ctx u).entered = (s.ctx u).entered) ∨
    ((∃ tail, s.schedule = .enter :: tail) ∧ s.canEnter u = true ∧ (t.ctx u).entered = true ∧
      ∃ p, (t.ctx u).record = .start p)

/-! ### Invariants -/

/-- The invariant of the machine holds after every reset, whatever contents the reset draws, and at the model's own
reset state. -/
def Obligations.InvariantHoldsAfterReset : Prop :=
  Inv State.reset ∧ State.reset.WindowsShut ∧
  ∀ (s : State) (d : ResetDraw), s.cfg.WF → Inv (resetStep d s) ∧ (resetStep d s).WindowsShut

/-- Every step keeps the invariant of the machine, from every state that meets it. -/
def Obligations.EveryStepKeepsTheInvariant : Prop :=
  ∀ s t : State, Inv s → step s = .next t → Inv t

/-- No step faults or is refused: a state that meets the invariant has a next state (20_memory.md section 8; 40_queue.md
section 1: no QSM access can fail). The next state may be the same one: a turn of context 0 with no whole command on its
stream, and a scheduled choice that is not allowed at its point, change nothing (the model's own, log entries 8 and 9). -/
def Obligations.NoStepStops : Prop :=
  ∀ s : State, Inv s → ∃ t, step s = .next t

/-- The claim windows stay shut: while an ENQUEUE stands between E1 and E2, MASK is at least the CEIL of its queue, so no
context at or below that ceiling can be entered (20_memory.md section 8), as long as the step does not change the CEIL of a
queue whose window is open. -/
def Obligations.ClaimWindowsStayShut : Prop :=
  (∀ s t : State, Inv s → s.WindowsShut → step s = .next t →
    (∀ (w : Level) (q : QId), (s.ctx w).record.windowQueue = some q → (t.queue q).ceil = (s.queue q).ceil) →
    t.WindowsShut) ∧
  (∀ (s : State) (w u : Level) (q : QId), s.WindowsShut → (s.ctx w).record.windowQueue = some q →
    s.canEnter u = true → (s.queue q).ceil.toNat < u.val)

/-- Every step that writes FRONT, CLAIMED or READY of a queue leaves READY ≤ CLAIMED ≤ CAP or QINV set (10_state.md section
4; 40_queue.md section 1). -/
def Obligations.CountersAreCheckedWhenWritten : Prop :=
  ∀ (s t : State) (q : QId), step s = .next t →
    ((t.queue q).front ≠ (s.queue q).front ∨ (t.queue q).claimed ≠ (s.queue q).claimed ∨
      (t.queue q).ready ≠ (s.queue q).ready) →
    ((t.queue q).ready ≤ (t.queue q).claimed ∧ (t.queue q).claimed ≤ (t.queue q).cap) ∨ (t.queue q).qinv = true

/-- The fault bits are sticky: a command never clears ACC_FATAL or the record that a fault happened, only a QINIT of the
queue clears its QINV, and the environment clears none of them but by reset (10_state.md section 3). That a reset keeps the
record that a fault happened is the model's choice (log entry 11). -/
def Obligations.FaultBitsAreSticky : Prop :=
  (∀ (i : Instr) (s t : State), exec i s = .next t →
    (s.accFatal = true → t.accFatal = true) ∧ (s.faultEver = true → t.faultEver = true) ∧
    (∀ q, (s.queue q).qinv = true → (t.queue q).qinv = true ∨
      ∃ sp ceil itemSize cap base, i = .qinit q sp ceil itemSize cap base)) ∧
  (∀ (a : Action) (s : State), (∀ d, a ≠ .reset d) →
    (environmentStep a s).accFatal = s.accFatal ∧ (environmentStep a s).faultEver = s.faultEver ∧
    ∀ q, ((environmentStep a s).queue q).qinv = (s.queue q).qinv) ∧
  (∀ (d : ResetDraw) (s : State),
    (resetStep d s).accFatal = false ∧ (∀ q, ((resetStep d s).queue q).qinv = false) ∧
    (resetStep d s).faultEver = s.faultEver)

/-- Which bytes of QSM a command's micro-step stores to: only the copy micro-step E3.j of an ENQUEUE stores, one byte, at
BASE + idx·ITEM_SIZE + j from its own locals; every other byte, and every byte in every other micro-step, reads as before
(10_state.md section 4; 40_queue.md section 1). -/
def Obligations.OnlyTheCopyMicroStepStores : Prop :=
  ∀ (i : Instr) (s t : State), s.qsm.WF → exec i s = .next t → ∀ a : Nat,
    ((i.opcode ≠ .enq ∧ i.opcode ≠ .send ∧ i.opcode ≠ .evUartRx ∧ i.opcode ≠ .evSpiDone) ∨
      ∀ (l : EnqLocals) (j : Nat), s.phase = .enqueue l (.e3 j) → a ≠ l.base + l.idx * l.size + j) →
    t.qsm.read a = s.qsm.read a

/-! ### The queue unit -/

/-- QINIT (40_queue.md R155): INIT_FAIL and no change when storage is absent, the capacity is 0, CEIL is NPRIO or more, or
the region is outside QSM; else OK, the geometry as given, every counter 0, INIT set and QINV cleared, QSM not written. -/
def Obligations.QinitSetsTheQueueOrChangesNothing : Prop :=
  ∀ (s : State) (q : QId) (sp : Bool) (ceil : BitVec 4) (itemSize cap base : BitVec 16),
    EncodedAs (.qinit q sp ceil itemSize cap base) 0x01 .fqi 0x04000000 .command ∧
    ((sp = false ∨ cap = 0 ∨ s.cfg.nprio ≤ ceil.toNat ∨
        s.cfg.qsmBytes < base.toNat + cap.toNat * itemSize.toNat) →
      ∃ t, exec (.qinit q sp ceil itemSize cap base) s = .next t ∧ s.OnlyAnswered .command ⟨.initFail, 0, []⟩ t) ∧
    (sp = true → cap ≠ 0 → ceil.toNat < s.cfg.nprio → base.toNat + cap.toNat * itemSize.toNat ≤ s.cfg.qsmBytes →
      ∃ t, exec (.qinit q sp ceil itemSize cap base) s = .next t ∧ s.Ended .command ⟨.ok, 0, []⟩ t ∧
        t.queue q = { init := true, sp := true, ceil := ceil, itemSize := itemSize, cap := cap, base := base,
                      front := 0, claimed := 0, ready := 0, qinv := false } ∧
        (∀ p, p ≠ q → t.queue p = s.queue p) ∧ s.SameUnits t ∧ s.SameMemory t ∧ s.SameEnv t)

/-- The first micro-step of ENQ, in the order of its tests: FAULTED, NOT_INIT, BAD_ARG for a length that is not ITEM_SIZE,
and FULL answer at once and change no state (40_queue.md section 2 and R168; 46_system.md section 1); else E1 claims: MASK
becomes max(MASK, CEIL), the claim's locals are read, nothing else changes, and E2 follows (40_queue.md section 1). -/
def Obligations.EnqIsRefusedOrClaims : Prop :=
  ∀ (s : State) (q : QId) (data : List Byte), s.phase = .first →
    ((s.queue q).qinv = true →
      ∃ t, exec (.enq q data) s = .next t ∧ s.OnlyAnswered .command ⟨.faulted, 0, []⟩ t) ∧
    ((s.queue q).qinv = false → (s.queue q).init = false →
      ∃ t, exec (.enq q data) s = .next t ∧ s.OnlyAnswered .command ⟨.notInit, 0, []⟩ t) ∧
    (s.usable q → data.length ≠ (s.queue q).itemSize.toNat →
      ∃ t, exec (.enq q data) s = .next t ∧ s.OnlyAnswered .command ⟨.badArg, 0, []⟩ t) ∧
    (s.usable q → data.length = (s.queue q).itemSize.toNat → (s.queue q).cap ≤ (s.queue q).claimed →
      ∃ t, exec (.enq q data) s = .next t ∧ s.OnlyAnswered .command ⟨.full, 0, []⟩ t) ∧
    (s.usable q → data.length = (s.queue q).itemSize.toNat → (s.queue q).claimed < (s.queue q).cap →
      ∃ t l, exec (.enq q data) s = .next t ∧ s.WentOn (.enq q data) (.enqueue l .e2) t ∧ s.ClaimLocals q data l ∧
        t.mask.toNat = max s.mask.toNat (s.queue q).ceil.toNat ∧
        (s.setMask t.mask).SameFtc t ∧ s.SameEnv t)

/-- E2, the claim-write, in whichever command called ENQUEUE: CLAIMED becomes the value read in E1 plus one, MASK is put
back, QINV is set when the counters are out of order, nothing else changes, and the copy follows (or E4, for an empty
item) (40_queue.md section 1). -/
def Obligations.ClaimWriteUsesTheValueReadInE1 : Prop :=
  ∀ (s : State) (i : Instr) (l : EnqLocals),
    ((∃ data, i = .enq l.q data) ∨ (∃ payload, i = .send payload) ∨ (∃ b, i = .evUartRx b) ∨ (∃ rx, i = .evSpiDone rx)) →
    s.phase = .enqueue l .e2 →
    ∃ t, exec i s = .next t ∧ s.WentOn i (.enqueue l (if 0 < l.size then .e3 0 else .e4)) t ∧
      (t.queue l.q).claimed = l.c + 1 ∧ t.mask = l.saved ∧
      ((t.queue l.q).qinv = true ↔ (s.queue l.q).qinv = true ∨
        ¬ ((s.queue l.q).ready ≤ l.c + 1 ∧ l.c + 1 ≤ (s.queue l.q).cap)) ∧
      t.queue l.q = { s.queue l.q with claimed := l.c + 1, qinv := (t.queue l.q).qinv } ∧
      (∀ p, p ≠ l.q → t.queue p = s.queue p) ∧ s.SameMemory t ∧ s.SameEnv t ∧
      ((s.setMask l.saved).setFaultEver t.faultEver).SameUnits t

/-- From E2 on, an ENQUEUE that no other step interrupts takes one step for E2 and one for each byte of its item, and
stands before E4 with its item in its slot, CLAIMED one up from the value it read, MASK put back, and every other byte of
QSM as it was (40_queue.md section 1). -/
def Obligations.UninterruptedCopyFillsTheSlot : Prop :=
  ∀ (s : State) (i : Instr) (l : EnqLocals), Inv s → s.schedule = [] → s.record = .busy i (.enqueue l .e2) →
    s.usable l.q → (s.queue l.q).ready ≤ l.c → l.c < (s.queue l.q).cap →
    ∃ t, steps (l.size + 1) s = .next t ∧ s.WentOn i (.enqueue l .e4) t ∧
      t.qsm.readBytes (l.base + l.idx * l.size) l.size = l.item ∧
      s.SameMemoryOutside (l.base + l.idx * l.size) l.size t ∧
      t.queue l.q = { s.queue l.q with claimed := l.c + 1 } ∧ (∀ p, p ≠ l.q → t.queue p = s.queue p) ∧
      (s.setMask l.saved).SameUnits t ∧ s.SameEnv t

/-- A whole ENQ that no other step interrupts: on a usable queue with a free slot it answers OK after ITEM_SIZE + 3
micro-steps, with the item in slot (FRONT + CLAIMED) mod CAP, CLAIMED and READY one up, MASK as it was, and every other
register and every other byte of QSM unchanged (40_queue.md sections 1 and 2). E4, the publish, in whichever command called
ENQUEUE and whatever ran before it: READY goes one up, QINV and the record of faults are set when that leaves the counters out
of order, nothing else changes, and ENQUEUE returns FAULTED if QINV is set, else OK: ENQ answers it, the other callers go on
with it. -/
def Obligations.EnqStoresTheItemAndPublishesIt : Prop :=
  (∀ (s : State) (q : QId) (data : List Byte), Inv s → s.schedule = [] → s.phase = .first → s.usable q →
    data.length = (s.queue q).itemSize.toNat → (s.queue q).claimed < (s.queue q).cap →
    let r := s.queue q
    let slot := (r.front.toNat + r.claimed.toNat) % r.cap.toNat
    ∃ t u, exec (.enq q data) s = .next t ∧ steps (r.itemSize.toNat + 2) t = .next u ∧
      s.Ended .command ⟨.ok, 0, []⟩ u ∧
      u.qsm.readBytes (r.base.toNat + slot * r.itemSize.toNat) r.itemSize.toNat = data ∧
      s.SameMemoryOutside (r.base.toNat + slot * r.itemSize.toNat) r.itemSize.toNat u ∧
      u.queue q = { r with claimed := r.claimed + 1, ready := r.ready + 1 } ∧
      (∀ p, p ≠ q → u.queue p = s.queue p) ∧ s.SameUnits u ∧ s.SameEnv u) ∧
  ∀ (s : State) (i : Instr) (l : EnqLocals), s.phase = .enqueue l .e4 →
    ((∃ data, i = .enq l.q data) ∨ (∃ payload, i = .send payload) ∨ (∃ b, i = .evUartRx b) ∨ (∃ rx, i = .evSpiDone rx)) →
    let r := s.queue l.q
    let breach := ¬ (r.ready + 1 ≤ r.claimed ∧ r.claimed ≤ r.cap)
    ∃ t, exec i s = .next t ∧
      t.queue l.q = { r with ready := r.ready + 1, qinv := (t.queue l.q).qinv } ∧
      ((t.queue l.q).qinv = true ↔ r.qinv = true ∨ breach) ∧ (t.faultEver = true ↔ s.faultEver = true ∨ breach) ∧
      (∀ p, p ≠ l.q → t.queue p = s.queue p) ∧ s.SameMemory t ∧ s.SameEnv t ∧
      (s.setFaultEver t.faultEver).SameUnits t ∧
      (let st : Status := if (t.queue l.q).qinv = true then .faulted else .ok
       if i.opcode = .enq then s.Ended .command ⟨st, 0, []⟩ t else s.WentOn i (.afterEnqueue st) t)

/-- What a micro-step of ENQ leaves as it was, whatever the interleaving: every register but MASK, the record of faults and
CLAIMED, READY and QINV of its own queue, and every byte of QSM but the one byte a copy micro-step stores to. -/
def Obligations.EnqFrame : Prop :=
  ∀ (s t : State) (q : QId) (data : List Byte), s.qsm.WF → exec (.enq q data) s = .next t →
    (∀ l p, s.phase = .enqueue l p → l.q = q) →
    ((s.setMask t.mask).setFaultEver t.faultEver).SameUnits t ∧ s.SameEnv t ∧ t.cfg = s.cfg ∧
    t.schedule = s.schedule ∧ (∀ u, u ≠ s.running → t.ctx u = s.ctx u) ∧
    (∀ p, p ≠ q → t.queue p = s.queue p) ∧
    t.queue q = { s.queue q with claimed := (t.queue q).claimed, ready := (t.queue q).ready,
                                 qinv := (t.queue q).qinv } ∧
    (∀ a, (∀ l j, s.phase = .enqueue l (.e3 j) → a ≠ l.base + l.idx * l.size + j) → t.qsm.read a = s.qsm.read a)

/-- The refusals of DEQ and RECV, in the order of their tests: FAULTED, NOT_INIT, EMPTY; each answers in the first
micro-step and changes no state (40_queue.md R168 and section 1; 44_comms.md section 2). -/
def Obligations.DeqAndRecvRefusalsChangeNothing : Prop :=
  ∀ (s : State) (i : Instr) (q : QId), (i = .deq q ∨ (i = .recv ∧ q = .q1)) → s.phase = .first →
    ((s.queue q).qinv = true → ∃ t, exec i s = .next t ∧ s.OnlyAnswered .command ⟨.faulted, 0, []⟩ t) ∧
    ((s.queue q).qinv = false → (s.queue q).init = false →
      ∃ t, exec i s = .next t ∧ s.OnlyAnswered .command ⟨.notInit, 0, []⟩ t) ∧
    (s.usable q → (s.queue q).ready = 0 →
      ∃ t, exec i s = .next t ∧ s.OnlyAnswered .command ⟨.empty, 0, []⟩ t)

/-- A whole DEQ or RECV that no other step interrupts: on a usable queue with a ready item it answers OK after
ITEM_SIZE + 3 micro-steps, with VALUE ITEM_SIZE and the bytes of slot FRONT; FRONT moves on modulo CAP, CLAIMED and READY go
one down, and every other register and every byte of QSM is unchanged (40_queue.md section 1; 44_comms.md section 2). D3 and
D4, whatever ran before them: D3 takes one off READY and D4 follows; D4 moves FRONT on and takes one off CLAIMED, and the
command answers FAULTED if QINV is set then, else the item copied out; each sets QINV and the record of faults when it leaves
the counters out of order, and changes nothing else. -/
def Obligations.DeqAndRecvReturnTheFrontSlot : Prop :=
  (∀ (s : State) (i : Instr) (q : QId), (i = .deq q ∨ (i = .recv ∧ q = .q1)) → Inv s → s.schedule = [] →
    s.phase = .first → s.usable q → (s.queue q).ready ≠ 0 →
    let r := s.queue q
    ∃ t u, exec i s = .next t ∧ steps (r.itemSize.toNat + 2) t = .next u ∧
      s.Ended .command
        ⟨.ok, BitVec.ofNat 24 r.itemSize.toNat,
          s.qsm.readBytes (r.base.toNat + r.front.toNat * r.itemSize.toNat) r.itemSize.toNat⟩ u ∧
      (u.queue q).front.toNat = (r.front.toNat + 1) % r.cap.toNat ∧
      u.queue q = { r with front := (u.queue q).front, claimed := r.claimed - 1, ready := r.ready - 1 } ∧
      (∀ p, p ≠ q → u.queue p = s.queue p) ∧ s.SameUnits u ∧ s.SameMemory u ∧ s.SameEnv u) ∧
  ∀ (s : State) (i : Instr) (l : DeqLocals), (i = .deq l.q ∨ (i = .recv ∧ l.q = .q1)) →
    let r := s.queue l.q
    (s.phase = .dequeue l .d3 →
      let breach := ¬ (r.ready - 1 ≤ r.claimed ∧ r.claimed ≤ r.cap)
      ∃ t, exec i s = .next t ∧ s.WentOn i (.dequeue l .d4) t ∧
        t.queue l.q = { r with ready := r.ready - 1, qinv := (t.queue l.q).qinv } ∧
        ((t.queue l.q).qinv = true ↔ r.qinv = true ∨ breach) ∧ (t.faultEver = true ↔ s.faultEver = true ∨ breach) ∧
        (∀ p, p ≠ l.q → t.queue p = s.queue p) ∧ s.SameMemory t ∧ s.SameEnv t ∧
        (s.setFaultEver t.faultEver).SameUnits t) ∧
    (s.phase = .dequeue l .d4 →
      let breach := ¬ (r.ready ≤ r.claimed - 1 ∧ r.claimed - 1 ≤ r.cap)
      ∃ t, exec i s = .next t ∧
        s.Ended .command
          (if (t.queue l.q).qinv = true then ⟨.faulted, 0, []⟩ else ⟨.ok, BitVec.ofNat 24 l.size, l.out⟩) t ∧
        t.queue l.q = { r with front := BitVec.ofNat 16 ((r.front.toNat + 1) % r.cap.toNat), claimed := r.claimed - 1,
                               qinv := (t.queue l.q).qinv } ∧
        ((t.queue l.q).qinv = true ↔ r.qinv = true ∨ breach) ∧ (t.faultEver = true ↔ s.faultEver = true ∨ breach) ∧
        (∀ p, p ≠ l.q → t.queue p = s.queue p) ∧ s.SameMemory t ∧ s.SameEnv t ∧
        (s.setFaultEver t.faultEver).SameUnits t)

/-- What a micro-step of DEQ or RECV leaves as it was, whatever the interleaving: every register but the record of faults
and FRONT, CLAIMED, READY and QINV of the queue, and every byte of QSM. -/
def Obligations.DeqAndRecvFrame : Prop :=
  ∀ (s t : State) (i : Instr) (q : QId), (i = .deq q ∨ (i = .recv ∧ q = .q1)) → exec i s = .next t →
    (∀ l p, s.phase = .dequeue l p → l.q = q) →
    (s.setFaultEver t.faultEver).SameUnits t ∧ s.SameMemory t ∧ s.SameEnv t ∧ t.cfg = s.cfg ∧
    t.schedule = s.schedule ∧ (∀ u, u ≠ s.running → t.ctx u = s.ctx u) ∧
    (∀ p, p ≠ q → t.queue p = s.queue p) ∧
    t.queue q = { s.queue q with front := (t.queue q).front, claimed := (t.queue q).claimed,
                                 ready := (t.queue q).ready, qinv := (t.queue q).qinv }

/-- QCOUNT and QFREE: FAULTED, then NOT_INIT, else OK with READY, or with CAP − CLAIMED; they change no state (40_queue.md
R158, R159). In a state that meets the invariant CLAIMED ≤ CAP holds of a usable queue, so the subtraction does not wrap. -/
def Obligations.QcountAndQfreeReadTheCounters : Prop :=
  ∀ (s : State) (q : QId),
    EncodedAs (.qcount q) 0x04 .fq 0x10000000 .command ∧ EncodedAs (.qfree q) 0x05 .fq 0x14000000 .command ∧
    ((s.queue q).qinv = true → ∀ i ∈ [Instr.qcount q, .qfree q],
      ∃ t, exec i s = .next t ∧ s.OnlyAnswered .command ⟨.faulted, 0, []⟩ t) ∧
    ((s.queue q).qinv = false → (s.queue q).init = false → ∀ i ∈ [Instr.qcount q, .qfree q],
      ∃ t, exec i s = .next t ∧ s.OnlyAnswered .command ⟨.notInit, 0, []⟩ t) ∧
    (s.usable q → ∃ t v, exec (.qcount q) s = .next t ∧ s.OnlyAnswered .command ⟨.ok, v, []⟩ t ∧
      v.toNat = (s.queue q).ready.toNat) ∧
    (s.usable q → Inv s → (s.queue q).claimed ≤ (s.queue q).cap ∧
      ∃ t v, exec (.qfree q) s = .next t ∧ s.OnlyAnswered .command ⟨.ok, v, []⟩ t ∧
        v.toNat = (s.queue q).cap.toNat - (s.queue q).claimed.toNat)

/-- DEQUEUE_ATOMIC does exactly what D1 and the micro-steps after it do with nothing in between (40_queue.md R154): the
front item is taken off, and what it returns is FAULTED if D3 or D4 broke the counters, else ITEM_SIZE and the bytes of the
front slot. -/
def Obligations.AtomicDequeueIsTheMicroSteps : Prop :=
  ∀ (s : State) (q : QId), ((s.queue q).init = true → (s.queue q).GeometryOk s.cfg) →
    (∀ st, dequeueD1 q s = .inl st → dequeueAtomic q s = .ok (s, .refused st)) ∧
    (∀ l, dequeueD1 q s = .inr l →
      ∃ t r, dequeueAtomic q s = .ok (t, r) ∧ dequeueRun (l.size + 2) l (l.copyFrom 0) s = .ok (some (t, r)) ∧
        t.queue q = { (s.queue q).popped with qinv := (t.queue q).qinv } ∧
        ((t.queue q).qinv = true ↔
          ¬ ((s.queue q).ready - 1 ≤ (s.queue q).claimed ∧ (s.queue q).claimed ≤ (s.queue q).cap) ∨
          ¬ ((s.queue q).ready - 1 ≤ (s.queue q).claimed - 1 ∧ (s.queue q).claimed - 1 ≤ (s.queue q).cap)) ∧
        r = if (t.queue q).qinv = true then .refused .faulted
            else .item (s.queue q).itemSize.toNat (s.slot q (s.queue q).front.toNat))

/-- First in, first out: a whole ENQ on a queue with no procedure in progress (READY = CLAIMED) appends its item to the
queue's items, and leaves the items of every initialised queue whose region is apart; so does a whole SEND with its packet
on Q0, up to its kick, which takes the first item of Q0 off or none; a whole DEQ or RECV takes the first item off and returns
it, and leaves the others (40_queue.md section 3). No other step runs in between; what holds when one does is
DisciplinedUseKeepsEveryItemInOrder. -/
def Obligations.ItemsLeaveInTheOrderTheyCame : Prop :=
  (∀ (s t u : State) (q : QId) (data : List Byte), Inv s → s.schedule = [] → s.phase = .first → s.usable q →
    data.length = (s.queue q).itemSize.toNat → (s.queue q).ready = (s.queue q).claimed →
    (s.queue q).claimed < (s.queue q).cap →
    exec (.enq q data) s = .next t → steps ((s.queue q).itemSize.toNat + 2) t = .next u →
    u.items q = s.items q ++ [data] ∧
    ∀ p, p ≠ q → (s.queue p).init = true → (s.queue p).Apart (s.queue q) → u.items p = s.items p) ∧
  (∀ (s t m u : State) (payload : List Byte), Inv s → s.schedule = [] → s.phase = .first → s.usable .q0 →
    payload.length ≤ s.cfg.maxMessageSize → (s.queue .q0).ready = (s.queue .q0).claimed →
    (s.queue .q0).claimed < (s.queue .q0).cap → exec (.send payload) s = .next t →
    steps ((s.queue .q0).itemSize.toNat + 2) t = .next m → step m = .next u →
    m.items .q0 = s.items .q0 ++
      [(packet s.cfg payload ++ zeros (s.queue .q0).itemSize.toNat).take (s.queue .q0).itemSize.toNat] ∧
    (u.items .q0 = m.items .q0 ∨ ∃ item, m.items .q0 = item :: u.items .q0) ∧
    ∀ p, p ≠ .q0 → (s.queue p).init = true → (s.queue p).Apart (s.queue .q0) →
      m.items p = s.items p ∧ u.items p = s.items p) ∧
  (∀ (s t u : State) (i : Instr) (q : QId), (i = .deq q ∨ (i = .recv ∧ q = .q1)) → Inv s → s.schedule = [] →
    s.phase = .first → s.usable q → (s.queue q).ready ≠ 0 →
    exec i s = .next t → steps ((s.queue q).itemSize.toNat + 2) t = .next u →
    ∃ item rest, s.items q = item :: rest ∧ u.items q = rest ∧
      (u.ctx s.running).responses =
        (s.ctx s.running).responses ++ [⟨.ok, BitVec.ofNat 24 (s.queue q).itemSize.toNat, item⟩] ∧
      ∀ p, p ≠ q → u.items p = s.items p)

/-! ### The CRC unit -/

/-- The three CRC commands answer from their operands alone and change no state: CRC_COMPUTE the CRC in VALUE[15:0],
CRC_APPEND the packet or OVERSIZE with L, CRC_VERIFY 1 or 0 (41_crc.md R205, R206, R207). -/
def Obligations.CrcCommandsAnswerAndChangeNothing : Prop :=
  (∀ bytes : List Byte, EncodedAs (.crcCompute bytes) 0x08 .fn 0x20000000 .command ∧
    EncodedAs (.crcAppend bytes) 0x09 .fl 0x24000000 .command ∧
    EncodedAs (.crcVerify bytes) 0x0A .fn 0x28000000 .command) ∧
  crc16 Config.reference [0x01, 0x64] = 0x1F13 ∧ verify Config.reference [0x01, 0x64, 0x13, 0x1F] = true ∧
  verify Config.reference [0x01, 0x64, 0x13, 0x1E] = false ∧ crc16 Config.reference [] = 0 ∧
  crc16 Config.reference [0x00] = 0 ∧
  ∀ (s : State) (bytes : List Byte),
    (∃ t v, exec (.crcCompute bytes) s = .next t ∧ s.OnlyAnswered .command ⟨.ok, v, []⟩ t ∧
      v.toNat = (crc16 s.cfg bytes).toNat) ∧
    (s.cfg.maxMessageSize < bytes.length →
      ∃ t, exec (.crcAppend bytes) s = .next t ∧
        s.OnlyAnswered .command ⟨.oversize, BitVec.ofNat 24 bytes.length, []⟩ t) ∧
    (bytes.length ≤ s.cfg.maxMessageSize →
      ∃ t, exec (.crcAppend bytes) s = .next t ∧
        s.OnlyAnswered .command
          ⟨.ok, BitVec.ofNat 24 (3 + bytes.length),
            BitVec.ofNat 8 bytes.length :: bytes ++
              [(crc16 s.cfg (BitVec.ofNat 8 bytes.length :: bytes)).extractLsb' 0 8,
                (crc16 s.cfg (BitVec.ofNat 8 bytes.length :: bytes)).extractLsb' 8 8]⟩ t) ∧
    (∃ t, exec (.crcVerify bytes) s = .next t ∧
      s.OnlyAnswered .command ⟨.ok, if verify s.cfg bytes then 1 else 0, []⟩ t)

/-- VERIFY accepts exactly the buffers that start with a length byte of at most MAX_MESSAGE_SIZE, hold 3 + length bytes,
and carry the CRC of their first 1 + length bytes, low byte first (41_crc.md R203; 20_memory.md R83). -/
def Obligations.VerifyChecksLengthAndCrc : Prop :=
  ∀ (c : Config) (buf : List Byte),
    verify c buf = true ↔
      ∃ len rest, buf = len :: rest ∧ len.toNat ≤ c.maxMessageSize ∧ 3 + len.toNat ≤ buf.length ∧
        (crc16 c (len :: rest.take len.toNat)).toNat =
          (rest.getD len.toNat 0).toNat + 256 * (rest.getD (len.toNat + 1) 0).toNat

/-- The packet CRC, bit by bit: the empty list gives CRC_INIT XOR CRC_XOROUT, and one more byte shifts its eight bits,
reflected where CRC_REFLECT says so, through the register (41_crc.md section 1); under the reference parameters the check
value of "123456789" is 0x31C3. -/
def Obligations.CrcOfOneMoreByte : Prop :=
  (∀ c : Config, crc16 c [] = c.crcXorOut) ∧
  (∀ (c : Config) (bytes : List Byte) (b : Byte), c.crcReflect = false →
    crc16 c (bytes ++ [b]) ^^^ c.crcXorOut =
      (List.range 8).foldl
        (fun r _ => if r.getLsbD 15 then BitVec.ofNat 16 (r.toNat * 2) ^^^ c.crcPoly else BitVec.ofNat 16 (r.toNat * 2))
        ((crc16 c bytes ^^^ c.crcXorOut) ^^^ BitVec.ofNat 16 (b.toNat * 256))) ∧
  (∀ (c : Config) (bytes : List Byte) (b : Byte), c.crcReflect = true →
    (crc16 c (bytes ++ [b]) ^^^ c.crcXorOut).reverse =
      (List.range 8).foldl
        (fun r _ => if r.getLsbD 15 then BitVec.ofNat 16 (r.toNat * 2) ^^^ c.crcPoly else BitVec.ofNat 16 (r.toNat * 2))
        ((crc16 c bytes ^^^ c.crcXorOut).reverse ^^^ BitVec.ofNat 16 (b.reverse.toNat * 256))) ∧
  crc16 Config.reference [0x31, 0x32, 0x33, 0x34, 0x35, 0x36, 0x37, 0x38, 0x39] = 0x31C3

/-- Round trip: a packet built with its CRC verifies, whatever follows it (41_crc.md R208). -/
def Obligations.BuiltPacketsVerify : Prop :=
  ∀ (c : Config) (payload pad : List Byte), c.WF → payload.length ≤ c.maxMessageSize →
    verify c (packet c payload ++ pad) = true

/-- Error detection in the fixed region: flipping one bit of the payload or of the CRC bytes of a built packet makes
VERIFY false, for every CRC polynomial of more than one term, x^16 + CRC_POLY with CRC_POLY not 0, the reference polynomial
among them (41_crc.md R209). -/
def Obligations.SingleBitErrorsAreDetected : Prop :=
  Config.reference.crcPoly ≠ 0 ∧
  ∀ (c : Config) (payload : List Byte) (k b : Nat), c.WF → c.crcPoly ≠ 0 →
    payload.length ≤ c.maxMessageSize → 1 ≤ k → k < 3 + payload.length → b < 8 →
    verify c ((packet c payload).set k ((packet c payload).getD k 0 ^^^ (1#8 <<< b))) = false

/-! ### The UART framer -/

/-- While LINK_SEL is not UART, EV_UART_RX, EV_UART_ERR and EV_UART_TXDONE are refused with BAD_ARG and change no state
(42_uart_framer.md R240); while it is not SPI, EV_SPI_DONE, EV_CTS_EDGE and EV_MW_EDGE are, and in a state that meets the
invariant no latch is set (43_spi_transport.md R280). EV_UART_RX and EV_SPI_DONE are at their first micro-steps. -/
def Obligations.EventsOfTheOtherLinkAreRefused : Prop :=
  ∀ s : State,
    (s.link ≠ .uart →
      (∀ b, s.phase = .first →
        ∃ t, exec (.evUartRx b) s = .next t ∧ s.OnlyAnswered .event ⟨.badArg, 0, []⟩ t) ∧
      (∀ kind, ∃ t, exec (.evUartErr kind) s = .next t ∧ s.OnlyAnswered .event ⟨.badArg, 0, []⟩ t) ∧
      (∃ t, exec .evUartTxDone s = .next t ∧ s.OnlyAnswered .event ⟨.badArg, 0, []⟩ t)) ∧
    (s.link ≠ .spi →
      (∀ rx, s.phase = .first →
        ∃ t, exec (.evSpiDone rx) s = .next t ∧ s.OnlyAnswered .event ⟨.badArg, 0, []⟩ t) ∧
      (∃ t, exec .evCtsEdge s = .next t ∧ s.OnlyAnswered .event ⟨.badArg, 0, []⟩ t) ∧
      (∃ t, exec .evMwEdge s = .next t ∧ s.OnlyAnswered .event ⟨.badArg, 0, []⟩ t) ∧
      (Inv s → s.spx.ctsPend = false ∧ s.spx.mwPend = false))

/-- EV_UART_ERR: on another link, and for kinds 5 to 7, it is refused with BAD_ARG and changes nothing; on the UART link
kinds 0 to 4 resync the framer from any state and answer OK with the kind; FBUF, UTX_BUSY and everything else are unchanged (42_uart_framer.md R239). -/
def Obligations.LineErrorsResyncTheFramer : Prop :=
  ∀ (s : State) (kind : BitVec 3),
    EncodedAs (.evUartErr kind) 0x31 .fe 0xC4000000 .event ∧
    (s.link ≠ .uart ∨ 5 ≤ kind.toNat →
      ∃ t, exec (.evUartErr kind) s = .next t ∧ s.OnlyAnswered .event ⟨.badArg, 0, []⟩ t) ∧
    (s.link = .uart → kind.toNat ≤ 4 → ∃ t v, exec (.evUartErr kind) s = .next t ∧ s.Ended .event ⟨.ok, v, []⟩ t ∧
      v.toNat = kind.toNat ∧
      (s.setUfr { s.ufr with state := .awaitingStart, win0 := 0, win1 := 0, winCount := 0, pos := 0,
                             need := 0 }).SameFtc t ∧ s.SameEnv t)

/-- EV_UART_RX before a payload. In AWAITING_START: when the window and the byte are the start code, the framer awaits a
length and the VALUE is 1; else the byte is dropped (a start code of one byte) or becomes the window (two bytes), and the
VALUE is 0. In AWAITING_LENGTH: a length of 1 to MAX_MESSAGE_SIZE is stored and the framer awaits length + 2 more bytes
(VALUE 2); any other resyncs it (VALUE 3) (42_uart_framer.md sections 1 and 2). -/
def Obligations.StartCodeAndLengthAreRead : Prop :=
  ∀ (s : State) (b : Byte), Inv s → s.link = .uart → s.phase = .first →
    let seen := (if s.ufr.winCount = 0 then [] else [s.ufr.win0]) ++ [b]
    (s.ufr.state = .awaitingStart → seen = s.cfg.startCode →
      ∃ t, exec (.evUartRx b) s = .next t ∧ s.Ended .event ⟨.ok, 1, []⟩ t ∧
        (s.setUfr { s.ufr with state := .awaitingLength, win0 := 0, winCount := 0 }).SameFtc t ∧ s.SameEnv t) ∧
    (s.ufr.state = .awaitingStart → seen ≠ s.cfg.startCode → s.cfg.startCode.length = 1 →
      ∃ t, exec (.evUartRx b) s = .next t ∧ s.OnlyAnswered .event ⟨.ok, 0, []⟩ t) ∧
    (s.ufr.state = .awaitingStart → seen ≠ s.cfg.startCode → s.cfg.startCode.length = 2 →
      ∃ t, exec (.evUartRx b) s = .next t ∧ s.Ended .event ⟨.ok, 0, []⟩ t ∧
        (s.setUfr { s.ufr with win0 := b, winCount := 1 }).SameFtc t ∧ s.SameEnv t) ∧
    (s.ufr.state = .awaitingLength → 1 ≤ b.toNat → b.toNat ≤ s.cfg.maxMessageSize →
      ∃ t, exec (.evUartRx b) s = .next t ∧ s.Ended .event ⟨.ok, 2, []⟩ t ∧ t.ufr.need.toNat = 3 + b.toNat ∧
        (s.setUfr { s.ufr with state := .awaitingPayload, fbuf := s.ufr.fbuf.set 0 b, pos := 1,
                               need := t.ufr.need }).SameFtc t ∧ s.SameEnv t) ∧
    (s.ufr.state = .awaitingLength → b = 0 ∨ s.cfg.maxMessageSize < b.toNat →
      ∃ t, exec (.evUartRx b) s = .next t ∧ s.Ended .event ⟨.ok, 3, []⟩ t ∧
        (s.setUfr { s.ufr with state := .awaitingStart, win0 := 0, win1 := 0, winCount := 0, pos := 0,
                               need := 0 }).SameFtc t ∧ s.SameEnv t)

/-- EV_UART_RX in AWAITING_PAYLOAD: the byte is stored at POS; before the last byte the VALUE is 0; with the last byte the
framer resyncs in the same micro-step and the packet of NEED bytes goes to ACCEPT, which counts a CRC failure (VALUE 20) and
leaves Q1 and QSM alone, or begins to enqueue the packet, fitted to the item size, on Q1 (42_uart_framer.md section 1;
44_comms.md section 3). -/
def Obligations.PayloadByteCompletesAPacket : Prop :=
  ∀ (s : State) (b : Byte), Inv s → s.link = .uart → s.phase = .first → s.ufr.state = .awaitingPayload →
    let fbuf := s.ufr.fbuf.set s.ufr.pos.toNat b
    let pkt := fbuf.take s.ufr.need.toNat
    let s1 := s.setUfr { s.ufr with state := .awaitingStart, win0 := 0, win1 := 0, winCount := 0, pos := 0,
                                    need := 0, fbuf := fbuf }
    (s.ufr.pos.toNat + 1 < s.ufr.need.toNat → ∃ t, exec (.evUartRx b) s = .next t ∧
      s.Ended .event ⟨.ok, 0, []⟩ t ∧
      (s.setUfr { s.ufr with fbuf := fbuf, pos := s.ufr.pos + 1 }).SameFtc t ∧ s.SameEnv t) ∧
    (s.ufr.pos.toNat + 1 = s.ufr.need.toNat →
      pkt.length = 3 + (pkt.headD 0).toNat ∧ 1 ≤ (pkt.headD 0).toNat ∧
      (pkt.headD 0).toNat ≤ s.cfg.maxMessageSize ∧
      (verify s.cfg pkt = false → ∃ t, exec (.evUartRx b) s = .next t ∧ s.Ended .event ⟨.ok, 20, []⟩ t ∧
        (s1.setCrcFail (s.crcFail + 1)).SameFtc t ∧ s.SameEnv t) ∧
      (verify s.cfg pkt = true → ∃ t, exec (.evUartRx b) s = .next t ∧
        s1.EnqueueBegun (.evUartRx b) .q1
          ((pkt ++ zeros (s.queue .q1).itemSize.toNat).take (s.queue .q1).itemSize.toNat) t))

/-- A2 of ACCEPT, in either caller: OK from ENQUEUE is admission code 0 and changes no counter, any other status adds one to
RX_DROP and is code 2; EV_UART_RX ends there with VALUE 4 + 16·a, EV_SPI_DONE goes on to its re-arm with that VALUE
(44_comms.md section 3). -/
def Obligations.AcceptCountsADropOnce : Prop :=
  ∀ (s : State) (st : Status), s.phase = .afterEnqueue st →
    let s1 := if st = .ok then s else s.setRxDrop (s.rxDrop + 1)
    let v : BitVec 24 := if st = .ok then 4 else 36
    (∀ b, ∃ t, exec (.evUartRx b) s = .next t ∧ s.Ended .event ⟨.ok, v, []⟩ t ∧ s1.SameFtc t ∧ s.SameEnv t) ∧
    (∀ rx, ∃ t, exec (.evSpiDone rx) s = .next t ∧ s.WentOn (.evSpiDone rx) (.spiRearm v) t ∧ s1.SameFtc t ∧
      s.SameEnv t)

/-- A single frame: with no command in progress and the framer at its start, the bytes START_CODE ++ packet, delivered one
EV_UART_RX each, leave queues, QSM, counters and link alone until the last byte, which hands exactly that packet to ACCEPT:
the packet verifies, the framer is back at its start, and its enqueue on Q1 begins (42_uart_framer.md section 4). Each command
is run by its meaning in the running context, with every context idle; how an event's handler is entered for it is
EntryTakesTheHighestAdmittedHandler and EachSourceDeliversItsEvent. -/
def Obligations.OneFrameDeliversOnePacket : Prop :=
  ∀ (s : State) (payload : List Byte), Inv s → s.link = .uart → s.ufr.state = .awaitingStart →
    s.ufr.winCount = 0 → (∀ u, (s.ctx u).record = .idle) → 1 ≤ payload.length →
    payload.length ≤ s.cfg.maxMessageSize →
    ∃ (first : List Byte) (last : Byte) (t u : State),
      s.cfg.startCode ++ packet s.cfg payload = first ++ [last] ∧
      execAll (first.map Instr.evUartRx) s = .next t ∧
      (s.setUfr t.ufr).SameFtc t ∧ t.ufr.state = .awaitingPayload ∧
      exec (.evUartRx last) t = .next u ∧
      u.ufr.state = .awaitingStart ∧ u.ufr.winCount = 0 ∧
      (t.setUfr u.ufr).EnqueueBegun (.evUartRx last) .q1
        ((packet s.cfg payload ++ zeros (s.queue .q1).itemSize.toNat).take (s.queue .q1).itemSize.toNat) u

/-- EV_UART_TXDONE: BAD_ARG and no change on another link, or when no transmission is in flight; else UTX_BUSY is cleared, the
UART kick runs in the same micro-step, and the answer is OK (42_uart_framer.md R242). -/
def Obligations.TransmitDoneSendsTheNextPacket : Prop :=
  EncodedAs .evUartTxDone 0x32 .fz 0xC8000000 .event ∧
  ∀ s : State,
    (s.link ≠ .uart ∨ s.ufr.utxBusy = false →
      ∃ t, exec .evUartTxDone s = .next t ∧ s.OnlyAnswered .event ⟨.badArg, 0, []⟩ t) ∧
    (s.link = .uart → s.ufr.utxBusy = true → Inv s → ∃ t started, exec .evUartTxDone s = .next t ∧
      s.Ended .event ⟨.ok, 0, []⟩ t ∧ (s.setUfr { s.ufr with utxBusy := false }).UartKick started t)

/-! ### The SPI transactor -/

/-- EV_SPI_DONE on the SPI link. S1: BAD_ARG and no change when no transfer is in flight; else BUSY and SELECTED are
cleared; a zero length goes straight to the re-arm with VALUE 0; a packet that fails VERIFY is counted in CRC_FAIL and goes
on with VALUE 20; one that verifies begins its enqueue on Q1, cut to 3 + length bytes and padded. S2: CTS is re-armed and the
handler exits with OK and the VALUE of S1 (43_spi_transport.md section 4; 44_comms.md section 3). -/
def Obligations.SpiCompletionAcceptsAndRearms : Prop :=
  ∀ (s : State) (rx : List Byte),
    let s1 := s.setSpx { s.spx with busy := false, selected := false }
    (s.link = .spi → s.phase = .first → s.spx.busy = false →
      ∃ t, exec (.evSpiDone rx) s = .next t ∧ s.OnlyAnswered .event ⟨.badArg, 0, []⟩ t) ∧
    (s.link = .spi → s.phase = .first → s.spx.busy = true → rx.headD 0 = 0 →
      ∃ t, exec (.evSpiDone rx) s = .next t ∧ s.WentOn (.evSpiDone rx) (.spiRearm 0) t ∧ s1.SameFtc t ∧
        s.SameEnv t) ∧
    (s.link = .spi → s.phase = .first → s.spx.busy = true → rx.headD 0 ≠ 0 → verify s.cfg rx = false →
      ∃ t, exec (.evSpiDone rx) s = .next t ∧ s.WentOn (.evSpiDone rx) (.spiRearm 20) t ∧
        (s1.setCrcFail (s.crcFail + 1)).SameFtc t ∧ s.SameEnv t) ∧
    (s.link = .spi → s.phase = .first → s.spx.busy = true → rx.headD 0 ≠ 0 → verify s.cfg rx = true →
      ∃ t, exec (.evSpiDone rx) s = .next t ∧
        s1.EnqueueBegun (.evSpiDone rx) .q1
          ((rx.take (3 + (rx.headD 0).toNat) ++ zeros (s.queue .q1).itemSize.toNat).take
            (s.queue .q1).itemSize.toNat) t) ∧
    (∀ v, s.phase = .spiRearm v →
      ∃ t, exec (.evSpiDone rx) s = .next t ∧ s.Ended .event ⟨.ok, v, []⟩ t ∧
        (s.setSpx { s.spx with ctsArmed := true }).SameFtc t ∧ s.SameEnv t)

/-- EV_CTS_EDGE and EV_MW_EDGE: BAD_ARG and no change on another link, or when their latch is clear; else the latch is cleared,
CTS is disarmed (or MW armed) before the SPI kick runs in the same micro-step, and the answer is OK (43_spi_transport.md
R277, R278). -/
def Obligations.EdgeHandlersKick : Prop :=
  EncodedAs .evCtsEdge 0x35 .fz 0xD4000000 .event ∧ EncodedAs .evMwEdge 0x36 .fz 0xD8000000 .event ∧
  ∀ s : State,
    (s.link ≠ .spi ∨ s.spx.ctsPend = false →
      ∃ t, exec .evCtsEdge s = .next t ∧ s.OnlyAnswered .event ⟨.badArg, 0, []⟩ t) ∧
    (s.link ≠ .spi ∨ s.spx.mwPend = false →
      ∃ t, exec .evMwEdge s = .next t ∧ s.OnlyAnswered .event ⟨.badArg, 0, []⟩ t) ∧
    (s.link = .spi → s.spx.ctsPend = true → Inv s → ∃ t started, exec .evCtsEdge s = .next t ∧ s.Ended .event ⟨.ok, 0, []⟩ t ∧
      (s.setSpx { s.spx with ctsPend := false, ctsArmed := false }).SpiKick started t) ∧
    (s.link = .spi → s.spx.mwPend = true → Inv s → ∃ t started, exec .evMwEdge s = .next t ∧ s.Ended .event ⟨.ok, 0, []⟩ t ∧
      (s.setSpx { s.spx with mwPend := false, mwArmed := true }).SpiKick started t)

/-- The edge latches: a pin that rises while its ARMED bit is 1 sets its PEND bit, no other change of a pin latches
anything, and the pin takes its level (43_spi_transport.md R271, R272). -/
def Obligations.RisingEdgesAreLatchedWhileArmed : Prop :=
  ∀ (s : State) (level : Bool) (tail : List Action), s.cfg.WF →
    (s.schedule = .ctsPin level :: tail → ∃ t, step s = .next t ∧ t.env = { s.env with ctsPin := level } ∧
      t.spx = { s.spx with ctsPend :=
        if s.env.ctsPin = false ∧ level = true ∧ s.spx.ctsArmed = true then true else s.spx.ctsPend } ∧
      (s.setSpx t.spx).SameFtc t ∧ (∀ u, t.ctx u = s.ctx u) ∧ t.cfg = s.cfg ∧ t.schedule = tail) ∧
    (s.schedule = .mwPin level :: tail → ∃ t, step s = .next t ∧ t.env = { s.env with mwPin := level } ∧
      t.spx = { s.spx with mwPend :=
        if s.env.mwPin = false ∧ level = true ∧ s.spx.mwArmed = true then true else s.spx.mwPend } ∧
      (s.setSpx t.spx).SameFtc t ∧ (∀ u, t.ctx u = s.ctx u) ∧ t.cfg = s.cfg ∧ t.schedule = tail)

/-! ### Link selection, admission and the counters -/

/-- LINK_INIT: BAD_ARG for links 0 and 3, DENIED once a link is selected, else the link is selected: MW is armed for SPI,
the framer is resynced for UART; no step but a reset unselects or changes it (44_comms.md R310). -/
def Obligations.LinkIsSelectedOnce : Prop :=
  ∀ s : State,
    (∀ link, EncodedAs (.linkInit link) 0x10 .fk 0x40000000 .command) ∧
    (∀ t, step s = .next t → s.link ≠ .none → (∀ d tail, s.schedule ≠ .reset d :: tail) → t.link = s.link) ∧
    (∀ link : BitVec 2, link.toNat = 0 ∨ link.toNat = 3 →
      ∃ t, exec (.linkInit link) s = .next t ∧ s.OnlyAnswered .command ⟨.badArg, 0, []⟩ t) ∧
    (∀ link : BitVec 2, link.toNat = 1 ∨ link.toNat = 2 → s.link ≠ .none →
      ∃ t, exec (.linkInit link) s = .next t ∧ s.OnlyAnswered .command ⟨.denied, 0, []⟩ t) ∧
    (s.link = .none → ∃ t, exec (.linkInit 1) s = .next t ∧ s.Ended .command ⟨.ok, 0, []⟩ t ∧
      ((s.setLink .spi).setSpx { s.spx with mwArmed := true }).SameFtc t ∧ s.SameEnv t) ∧
    (s.link = .none → ∃ t, exec (.linkInit 2) s = .next t ∧ s.Ended .command ⟨.ok, 0, []⟩ t ∧
      ((s.setLink .uart).setUfr { s.ufr with state := .awaitingStart, win0 := 0, win1 := 0, winCount := 0, pos := 0,
                                             need := 0 }).SameFtc t ∧ s.SameEnv t)

/-- KICK never fails: it runs the kick of the selected transport in one micro-step and answers OK with 1 if a transfer was
started, else 0 (44_comms.md R311; 42_uart_framer.md R241; 43_spi_transport.md R275). -/
def Obligations.KickRunsTheSelectedTransport : Prop :=
  EncodedAs .kick 0x13 .fz 0x4C000000 .command ∧
  ∀ s : State, Inv s → ∃ t started, exec .kick s = .next t ∧
    s.Ended .command ⟨.ok, if started then 1 else 0, []⟩ t ∧ s.LinkKick started t

/-- SEND. T1: a payload longer than MAX_MESSAGE_SIZE is answered OVERSIZE with its length and counted as a drop, with no
enqueue and no kick; any other begins the enqueue of its packet, fitted to the item size, on Q0. T2: the drop is counted when
the enqueue was refused, the kick runs in either case, and the answer is ENQUEUE's status (44_comms.md section 2). -/
def Obligations.SendBeginsAndEnds : Prop :=
  ∀ (s : State) (payload : List Byte),
    (s.phase = .first → s.cfg.maxMessageSize < payload.length → ∃ t, exec (.send payload) s = .next t ∧
      s.Ended .command ⟨.oversize, BitVec.ofNat 24 payload.length, []⟩ t ∧
      (s.setTxDrop (s.txDrop + 1)).SameFtc t ∧ s.SameEnv t) ∧
    (s.phase = .first → payload.length ≤ s.cfg.maxMessageSize → ∃ t, exec (.send payload) s = .next t ∧
      s.EnqueueBegun (.send payload) .q0
        ((packet s.cfg payload ++ zeros (s.queue .q0).itemSize.toNat).take (s.queue .q0).itemSize.toNat) t) ∧
    (∀ st, s.phase = .afterEnqueue st → Inv s →
      ∃ t started, exec (.send payload) s = .next t ∧ s.Ended .command ⟨st, 0, []⟩ t ∧
        (if st = .ok then s else s.setTxDrop (s.txDrop + 1)).LinkKick started t)

/-- A whole SEND that no other step interrupts: on a usable Q0 with a free slot it answers OK after ITEM_SIZE + 4
micro-steps; before its kick, the packet with its CRC, fitted to the item size, stands in slot (FRONT + CLAIMED) mod CAP of
Q0, with CLAIMED and READY one up and nothing else changed (44_comms.md section 2). -/
def Obligations.SendEnqueuesThePacketAndKicks : Prop :=
  ∀ (s : State) (payload : List Byte), Inv s → s.schedule = [] → s.phase = .first → s.usable .q0 →
    payload.length ≤ s.cfg.maxMessageSize → (s.queue .q0).claimed < (s.queue .q0).cap →
    let r := s.queue .q0
    let addr := r.base.toNat + (r.front.toNat + r.claimed.toNat) % r.cap.toNat * r.itemSize.toNat
    ∃ t m u started, exec (.send payload) s = .next t ∧ steps (r.itemSize.toNat + 2) t = .next m ∧
      m.qsm.readBytes addr r.itemSize.toNat =
        (packet s.cfg payload ++ zeros r.itemSize.toNat).take r.itemSize.toNat ∧
      s.SameMemoryOutside addr r.itemSize.toNat m ∧
      m.queue .q0 = { r with claimed := r.claimed + 1, ready := r.ready + 1 } ∧
      (∀ p, p ≠ .q0 → m.queue p = s.queue p) ∧ s.SameUnits m ∧ s.SameEnv m ∧
      step m = .next u ∧ s.Ended .command ⟨.ok, 0, []⟩ u ∧ m.LinkKick started u

/-- The counters: TX_DROP goes up by one exactly when a SEND ends with a status other than OK, and no other command writes
it; RX_DROP and CRC_FAIL are written by EV_UART_RX and EV_SPI_DONE only, at most one of them, by one; and the micro-step that
counts a CRC failure leaves every queue and every byte of QSM as it was (44_comms.md section 4). -/
def Obligations.EachDropIsCountedOnce : Prop :=
  ∀ (s t : State) (i : Instr), exec i s = .next t →
    (i.opcode ≠ .send → t.txDrop = s.txDrop) ∧
    (i.opcode = .send →
      (∃ r, s.Ended .command r t ∧ t.txDrop = if r.status = .ok then s.txDrop else s.txDrop + 1) ∨
      (∃ ph, s.WentOn i ph t ∧ t.txDrop = s.txDrop)) ∧
    (i.opcode ≠ .evUartRx → i.opcode ≠ .evSpiDone → t.rxDrop = s.rxDrop ∧ t.crcFail = s.crcFail) ∧
    ((t.rxDrop = s.rxDrop ∧ t.crcFail = s.crcFail) ∨ (t.rxDrop = s.rxDrop + 1 ∧ t.crcFail = s.crcFail) ∨
      (t.rxDrop = s.rxDrop ∧ t.crcFail = s.crcFail + 1 ∧ s.SameQueues t ∧ s.SameMemory t))

/-! ### The reassembly accumulator -/

/-- While ACC_FATAL is set, every CHUNK answers FAULTED with VALUE 3 and changes no state; else a chunk that fails a check
of R341 aborts the page: BITMAP is all pending, ACTIVE_PAGE is 0, ACC_STATUS is WRITE_FAIL, the answer is OK with VALUE 2, no
flash request is made, and nothing else changes; a chunk of another page, while chunks of the active page are pending, is
such a chunk (45_reassembly.md R340, R342, R350). -/
def Obligations.FatalAndInvalidChunksWriteNothing : Prop :=
  ∀ (s : State) (page : BitVec 16) (ci cc : BitVec 8) (payload : List Byte),
    (s.accFatal = true →
      ∃ t, exec (.chunk page ci cc payload) s = .next t ∧ s.OnlyAnswered .command ⟨.faulted, 3, []⟩ t) ∧
    (s.accFatal = false → ¬ s.ChunkOk page ci cc payload.length →
      ∃ t, exec (.chunk page ci cc payload) s = .next t ∧ s.Ended .command ⟨.ok, 2, []⟩ t ∧
        (s.setAcc { s.acc with bitmap := s.cfg.allPending, activePage := 0, status := .writeFail }).SameFtc t ∧
        s.SameEnv t) ∧
    (s.accFatal = false → s.acc.bitmap ≠ s.cfg.allPending → page ≠ s.acc.activePage →
      ∃ t, exec (.chunk page ci cc payload) s = .next t ∧ s.Ended .command ⟨.ok, 2, []⟩ t ∧
        t.acc.activePage = 0 ∧ t.acc.bitmap = s.cfg.allPending)

/-- A valid chunk that leaves some chunk of its page pending is copied into the page buffer at ci · MAX_CHUNK_SIZE, its bit
and the bits at and above the declared count are cleared, its page becomes the active page, and the answer is OK with VALUE
0; no flash request is made and nothing else changes (45_reassembly.md sections 1 and 2). -/
def Obligations.ValidChunksAreCopied : Prop :=
  ∀ (s : State) (page : BitVec 16) (ci cc : BitVec 8) (payload : List Byte), Inv s → s.accFatal = false →
    s.ChunkOk page ci cc payload.length → (∃ k, s.pendingAfter ci cc k = true) →
    ∃ t, exec (.chunk page ci cc payload) s = .next t ∧ s.Ended .command ⟨.ok, 0, []⟩ t ∧
      t.acc.activePage = page ∧ t.acc.status = .none ∧ s.ChunkCopied ci payload t.acc.pageBuf ∧
      (∀ k, t.acc.bitmap.getLsbD k = s.pendingAfter ci cc k) ∧
      (s.setAcc t.acc).SameFtc t ∧ s.SameEnv t

/-- A valid chunk that leaves no chunk pending commits the page: for page 0 the sector that holds its address is erased
first; the page buffer is written at IMAGE_FLASH_BASE + page · PAGE_SIZE modulo 2^32; if the flash answers OK to each, the
answer is OK with VALUE 1, ACTIVE_PAGE moves on modulo IMAGE_PAGE_COUNT and all chunks are pending again; at the first FAIL
ACC_FATAL is set, ACC_STATUS is FATAL, the page, the empty bitmap and the buffer are kept, and the answer is FAULTED with
VALUE 3 (45_reassembly.md sections 1 and 2). The answers may be any. -/
def Obligations.CompletePagesAreCommitted : Prop :=
  ∀ (s : State) (page : BitVec 16) (ci cc : BitVec 8) (payload : List Byte), Inv s → s.accFatal = false →
    s.ChunkOk page ci cc payload.length → (∀ k, s.pendingAfter ci cc k = false) →
    let addr := BitVec.ofNat 32 (s.cfg.imageFlashBase.toNat + page.toNat * s.cfg.pageSize)
    let eraseReq := FlashRequest.erase (Config.sectorOf addr)
    let erased := if page = 0 then s.env.asked eraseReq else s.env
    ∃ t buf, exec (.chunk page ci cc payload) s = .next t ∧ s.ChunkCopied ci payload buf ∧
      (page = 0 → s.env.nextAnswer = false →
        s.Ended .command ⟨.faulted, 3, []⟩ t ∧ t.env = s.env.asked eraseReq ∧
        (((s.setAccFatal true).setFaultEver true).setAcc
          { activePage := page, bitmap := 0, pageBuf := buf, status := .fatal }).SameFtc t) ∧
      ((page = 0 → s.env.nextAnswer = true) → erased.nextAnswer = false →
        s.Ended .command ⟨.faulted, 3, []⟩ t ∧ t.env = erased.asked (.write addr buf) ∧
        (((s.setAccFatal true).setFaultEver true).setAcc
          { activePage := page, bitmap := 0, pageBuf := buf, status := .fatal }).SameFtc t) ∧
      ((page = 0 → s.env.nextAnswer = true) → erased.nextAnswer = true →
        s.Ended .command ⟨.ok, 1, []⟩ t ∧ t.env = erased.asked (.write addr buf) ∧
        (s.setAcc
          { activePage := BitVec.ofNat 16 ((page.toNat + 1) % s.cfg.imagePageCount), bitmap := s.cfg.allPending,
            pageBuf := buf, status := .writeSuccess }).SameFtc t)

/-- Determinism of reassembly: from a clean boundary, the n chunks of a page delivered once each in any order, with no
flash failure, are answered NONE but for the last to arrive, which is answered WRITE_SUCCESS; the last flash request
writes the page buffer at IMAGE_FLASH_BASE + page · PAGE_SIZE modulo 2^32 (R346), and the buffer begins with the payloads in
index order, its other bytes as they were (45_reassembly.md R349). -/
def Obligations.ChunksInAnyOrderMakeThePage : Prop :=
  ∀ (s : State) (page : BitVec 16) (n : Nat) (payload : Nat → List Byte) (order : List Nat), Inv s →
    s.accFatal = false → s.acc.bitmap = s.cfg.allPending → 1 ≤ n → n ≤ s.cfg.maxChunksPerPage →
    order.Perm (List.range n) → (∀ k, k + 1 < n → (payload k).length = s.cfg.maxChunkSize) →
    (payload (n - 1)).length ≤ s.cfg.maxChunkSize → (∃ rest, s.env.flashAnswers = true :: true :: rest) →
    ∃ t, execAll (order.map fun k => .chunk page (BitVec.ofNat 8 k) (BitVec.ofNat 8 n) (payload k)) s = .next t ∧
      (t.ctx s.running).responses =
        (s.ctx s.running).responses ++ List.replicate (n - 1) ⟨.ok, 0, []⟩ ++ [⟨.ok, 1, []⟩] ∧
      t.env.flashLog.getLast? =
        some (.write (BitVec.ofNat 32 (s.cfg.imageFlashBase.toNat + page.toNat * s.cfg.pageSize)) t.acc.pageBuf) ∧
      t.acc.pageBuf.take ((n - 1) * s.cfg.maxChunkSize + (payload (n - 1)).length) =
        (List.range n).flatMap payload ∧
      t.acc.pageBuf.drop ((n - 1) * s.cfg.maxChunkSize + (payload (n - 1)).length) =
        s.acc.pageBuf.drop ((n - 1) * s.cfg.maxChunkSize + (payload (n - 1)).length)

/-- At a clean boundary the value of ACTIVE_PAGE has no effect: two states that differ only in it take the same CHUNK to
the same response and the same next state (45_reassembly.md section 3). -/
def Obligations.ActivePageIsUnobservableAtACleanBoundary : Prop :=
  ∀ (s : State) (other page : BitVec 16) (ci cc : BitVec 8) (payload : List Byte), s.accFatal = false →
    s.acc.bitmap = s.cfg.allPending →
    exec (.chunk page ci cc payload) (s.setAcc { s.acc with activePage := other }) =
      exec (.chunk page ci cc payload) s

/-! ### Registers -/

/-- REG_READ: an index of the map is answered OK with VALUE 0 and the register's four bytes, any other BAD_ARG with the
index; no state changes (46_system.md R370). -/
def Obligations.RegReadAnswersTheMappedIndices : Prop :=
  ∀ (s : State) (reg : BitVec 8),
    EncodedAs (.regRead reg) 0x20 .fr 0x80000000 .command ∧
    let mapped := reg.toNat ≤ 0x0A ∨ reg.toNat = 0x0C ∨ (0x10 ≤ reg.toNat ∧ reg.toNat ≤ 0x12) ∨
      (0x20 ≤ reg.toNat ∧ reg.toNat < 0x40 ∧ reg.toNat % 8 ≤ 4)
    (mapped → ∃ t r, exec (.regRead reg) s = .next t ∧ Reg.ofIndex reg = some r ∧
      s.OnlyAnswered .command
        ⟨.ok, 0, [(s.regValue r).extractLsb' 0 8, (s.regValue r).extractLsb' 8 8, (s.regValue r).extractLsb' 16 8,
          (s.regValue r).extractLsb' 24 8]⟩ t) ∧
    (¬ mapped → ∃ t v, exec (.regRead reg) s = .next t ∧ s.OnlyAnswered .command ⟨.badArg, v, []⟩ t ∧
      v.toNat = reg.toNat)

/-- The registers of the index map, each as the number its fields make (10_state.md section 10). -/
def Obligations.RegistersHoldTheirFields : Prop :=
  ∀ s : State, Inv s →
    (∀ e ∈ ([(0x00, 0x46544307),
        (0x01, s.cfg.maxPacketSize + 2 ^ 8 * (s.cfg.maxPacketSize - 3) + 2 ^ 16 * (s.cfg.nprio - 1) + 2 ^ 20 * 3 +
          2 ^ 24 * s.cfg.startCode.length),
        (0x02, match s.link with | .none => 0 | .spi => 1 | .uart => 2),
        (0x03, s.mask.toNat),
        (0x04, s.accFatal.toNat + 2 ^ 4 * (s.queue .q0).qinv.toNat + 2 ^ 5 * (s.queue .q1).qinv.toNat +
          2 ^ 6 * (s.queue .q2).qinv.toNat + 2 ^ 7 * (s.queue .q3).qinv.toNat),
        (0x05, s.txDrop.toNat), (0x06, s.rxDrop.toNat), (0x07, s.crcFail.toNat),
        (0x08, (match s.ufr.state with | .awaitingStart => 0 | .awaitingLength => 1 | .awaitingPayload => 2) +
          2 ^ 4 * s.ufr.winCount.toNat + 2 ^ 8 * s.ufr.pos.toNat + 2 ^ 16 * s.ufr.need.toNat),
        (0x09, s.ufr.win0.toNat + 2 ^ 8 * s.ufr.win1.toNat),
        (0x0A, (s.cfg.startCode.getD 0 0).toNat + 2 ^ 8 * (s.cfg.startCode.getD 1 0).toNat),
        (0x0C, s.spx.busy.toNat + 2 * s.spx.selected.toNat + 2 ^ 2 * s.spx.ctsArmed.toNat +
          2 ^ 3 * s.spx.ctsPend.toNat + 2 ^ 4 * s.spx.mwArmed.toNat + 2 ^ 5 * s.spx.mwPend.toNat +
          2 ^ 6 * s.env.ctsPin.toNat + 2 ^ 7 * s.env.mwPin.toNat + 2 ^ 8 * s.ufr.utxBusy.toNat),
        (0x10, s.acc.activePage.toNat), (0x11, s.acc.bitmap.toNat),
        (0x12, match s.acc.status with | .none => 0 | .writeSuccess => 1 | .writeFail => 2 | .fatal => 3)] :
          List (BitVec 8 × Nat)),
      ∃ r, Reg.ofIndex e.1 = some r ∧ (s.regValue r).toNat = e.2) ∧
    (∀ q : QId, ∀ e ∈ ([(0x20,
          (s.queue q).init.toNat + 2 * (s.queue q).sp.toNat + 2 ^ 4 * (s.queue q).ceil.toNat +
            2 ^ 16 * (s.queue q).itemSize.toNat),
        (0x21, (s.queue q).cap.toNat + 2 ^ 16 * (s.queue q).base.toNat), (0x22, (s.queue q).front.toNat),
        (0x23, (s.queue q).claimed.toNat), (0x24, (s.queue q).ready.toNat)] : List (Nat × Nat)),
      ∃ r, Reg.ofIndex (BitVec.ofNat 8 (e.1 + 8 * q.code.toNat)) = some r ∧ (s.regValue r).toNat = e.2)

/-! ### Entry of a handler, and reset -/

/-- An entry step: of the pending handlers whose level is above MASK, above every entered context, below NPRIO and IDLE,
the one of the highest level, the first of them in the fixed order, is entered and becomes the running context at the first
micro-step of its command; FTC state never changes (60_exceptions.md section 3). Two points are the model's choice: among
posted software handlers of one level the fixed order, which R418 does not extend to them, takes the oldest (log entry 10), and
an entry step with no handler that can be entered changes nothing (log entry 8). -/
def Obligations.EntryTakesTheHighestAdmittedHandler : Prop :=
  ∀ (s : State) (tail : List Action), s.cfg.WF → s.schedule = .enter :: tail →
    let s1 := s.setSchedule tail
    let admitted : Candidate → Prop := fun c => 1 ≤ c.level.val ∧ c.level.val < s.cfg.nprio ∧
      s.mask.toNat < c.level.val ∧ (∀ v, (s.ctx v).entered = true → v < c.level) ∧ (s.ctx c.level).record = .idle
    ((∀ c ∈ candidates s1, ¬ admitted c) → step s = .next s1) ∧
    (∀ (before : List Candidate) (c : Candidate) (after : List Candidate), candidates s1 = before ++ c :: after →
      admitted c → (∀ d ∈ before, admitted d → d.level < c.level) → (∀ d ∈ after, admitted d → d.level ≤ c.level) →
      ∃ t, step s = .next t ∧ t.running = c.level ∧ t.env = c.env ∧ s.SameFtc t ∧ t.cfg = s.cfg ∧ t.schedule = tail ∧
        t.ctx c.level = { s.ctx c.level with entered := true, record := .start c.port, stream := c.stream } ∧
        ∀ u, u ≠ c.level → t.ctx u = s.ctx u)

/-- Each event source is pending as the table of handlers says, at its level, in the fixed order, with a stream that holds
exactly its event command: the head of the UART receive stream, EV_UART_TXDONE, EV_SPI_DONE with the head of the completion
stream, EV_CTS_EDGE while CTS_PEND is set, EV_MW_EDGE while MW_PEND is set; entry takes the head of a stream and leaves a latch
(60_exceptions.md section 3). Then come the posted handlers, the model's form of software handlers and of illegal words on the
event port, oldest first (log entry 10): pending are those for the command port with a first command, legal or not, and those
for the event port whose first command is illegal there; entry takes the handler that is entered, and no other, off the
list. -/
def Obligations.EachSourceDeliversItsEvent : Prop :=
  ∀ s : State, Inv s → ∃ uartRx uartTx spi cts mw software : List Candidate,
    candidates s = uartRx ++ uartTx ++ spi ++ cts ++ mw ++ software ∧
    (let pending : Posted → Bool := fun h =>
        match h.port, decode s.cfg h.port h.stream with
        | .command, .incomplete => false
        | .command, .illegal .. => true
        | .command, .command .. => true
        | .event, .incomplete => false
        | .event, .illegal .. => true
        | .event, .command .. => false
     software.length = (s.env.posted.filter pending).length ∧
      ∀ (before : List Posted) (h : Posted) (after : List Posted), s.env.posted = before ++ h :: after →
        pending h = true →
        software[(before.filter pending).length]? =
          some ⟨h.level, h.port, h.stream, { s.env with posted := before ++ after }⟩) ∧
    (match s.env.uartRx with
      | [] => uartRx = []
      | e :: rest => ∃ c, uartRx = [c] ∧ c.level = s.cfg.prioUart ∧ c.port = .event ∧
          c.env = { s.env with uartRx := rest } ∧
          decode s.cfg .event c.stream =
            .command (match e with | .byte b => .evUartRx b | .error kind => .evUartErr kind) []) ∧
    (match s.env.uartTxDone with
      | 0 => uartTx = []
      | n + 1 => ∃ c, uartTx = [c] ∧ c.level = s.cfg.prioUart ∧ c.port = .event ∧
          c.env = { s.env with uartTxDone := n } ∧ decode s.cfg .event c.stream = .command .evUartTxDone []) ∧
    (match s.env.spiDone with
      | [] => spi = []
      | rx :: rest => ∃ c, spi = [c] ∧ c.level = s.cfg.prioSpi ∧ c.port = .event ∧
          c.env = { s.env with spiDone := rest } ∧ decode s.cfg .event c.stream = .command (.evSpiDone rx) []) ∧
    (if s.spx.ctsPend = true then
      ∃ c, cts = [c] ∧ c.level = s.cfg.prioGpio ∧ c.port = .event ∧ c.env = s.env ∧
        decode s.cfg .event c.stream = .command .evCtsEdge []
    else cts = []) ∧
    (if s.spx.mwPend = true then
      ∃ c, mw = [c] ∧ c.level = s.cfg.prioGpio ∧ c.port = .event ∧ c.env = s.env ∧
        decode s.cfg .event c.stream = .command .evMwEdge []
    else mw = [])

/-- Reset is one step: every element of FTC and scheduling state takes its reset value, the event streams and request
queues empty, the pins and the configuration keep theirs; QSM and PAGE_BUF may hold anything (70_reset_and_hazards.md
section 1). -/
def Obligations.ResetSetsEveryElement : Prop :=
  ∀ (s : State) (d : ResetDraw) (tail : List Action), s.cfg.WF → s.schedule = .reset d :: tail →
    ∃ t, step s = .next t ∧ t.cfg = s.cfg ∧
      t.link = .none ∧ t.mask = 0 ∧ t.accFatal = false ∧ t.txDrop = 0 ∧ t.rxDrop = 0 ∧ t.crcFail = 0 ∧
      (∀ q, t.queue q = { init := false, sp := false, ceil := 0, itemSize := 0, cap := 0, base := 0, front := 0,
                          claimed := 0, ready := 0, qinv := false }) ∧
      t.ufr = { state := .awaitingStart, win0 := 0, win1 := 0, winCount := 0, pos := 0, need := 0,
                fbuf := List.replicate s.cfg.maxPacketSize 0, utxBusy := false } ∧
      t.spx = { busy := false, selected := false, ctsArmed := false, ctsPend := false, mwArmed := false,
                mwPend := false, txbuf := List.replicate s.cfg.maxPacketSize 0 } ∧
      t.acc.activePage = 0 ∧ (∀ k, t.acc.bitmap.getLsbD k = decide (k < s.cfg.maxChunksPerPage)) ∧
      t.acc.status = .none ∧ t.acc.pageBuf.length = s.cfg.pageSize ∧
      (∀ u, (t.ctx u).record = .idle ∧ (t.ctx u).entered = false) ∧ t.running = 0 ∧ (t.ctx 0).stream = d.program ∧
      t.env.uartRx = [] ∧ t.env.uartTxDone = 0 ∧ t.env.spiDone = [] ∧ t.env.uartReq = [] ∧ t.env.spiReq = [] ∧
      t.env.posted = [] ∧ t.env.ctsPin = s.env.ctsPin ∧ t.env.mwPin = s.env.mwPin ∧
      (d.qsm.length = s.cfg.qsmBytes → ∀ a, a < s.cfg.qsmBytes → t.qsm.read a = d.qsm.getD a 0) ∧
      (d.pageBuf.length = s.cfg.pageSize → t.acc.pageBuf = d.pageBuf)

/-- After a reset and before any set-up: every queue command answers NOT_INIT, a SEND that fits is counted as a drop,
KICK answers OK with 0, and every event command is refused with BAD_ARG (70_reset_and_hazards.md section 1). -/
def Obligations.NothingIsSetUpAfterReset : Prop :=
  ∀ (s0 : State) (d : ResetDraw),
    let s := resetStep d s0
    (∀ (q : QId) (data : List Byte), ∀ i ∈ [Instr.enq q data, .deq q, .qcount q, .qfree q, .recv],
      ∃ t, exec i s = .next t ∧ s.OnlyAnswered .command ⟨.notInit, 0, []⟩ t) ∧
    (∀ payload : List Byte, payload.length ≤ s.cfg.maxMessageSize → ∃ t u, exec (.send payload) s = .next t ∧
      exec (.send payload) t = .next u ∧ s.Ended .command ⟨.notInit, 0, []⟩ u ∧
      (s.setTxDrop 1).SameFtc u ∧ s.SameEnv u) ∧
    (∃ t, exec .kick s = .next t ∧ s.OnlyAnswered .command ⟨.ok, 0, []⟩ t) ∧
    (∀ i : Instr, i.port = .event → ∃ t, exec i s = .next t ∧ s.OnlyAnswered .event ⟨.badArg, 0, []⟩ t)

/-! ### Disciplined use of a queue -/

/-- Disciplined use of a queue, under every interleaving (40_queue.md section 3; 70_reset_and_hazards.md section 2). While
the procedures in progress use queue q as U says, before and after a step, and the step itself does, the step keeps: no check
raises, so the counters stay in order (R162); the claimed slots are those that are ready, being filled or about to be released;
no two ENQUEUEs in progress hold one slot, and none holds the slot that a DEQUEUE in progress reads (R166); an ENQUEUE's copied
bytes and a DEQUEUE's read bytes are the item's and the front slot's (R165). And the list of claimed items, in the order in
which they were claimed, changes in these ways only: E2 appends its item; D4 of a DEQUEUE, and a kick, take the first off, which
is what the DEQUEUE answers with OK; reset and QINIT empty it. So items come out in the order in which they were claimed, each
once and whole (R163, R165). R166 names (a), (b) and (e) alone; without (f) a slot can be released while its ENQUEUE still holds
it (R462), so the statement rests on all of R161. The boot requirements give Q0 and Q1 such a usage (R453, R473). -/
def Obligations.DisciplinedUseKeepsEveryItemInOrder : Prop :=
  (∀ (s t : State) (q : QId) (U : Usage), Inv s → s.WindowsShut → s.Disciplined U q → t.Disciplined U q →
    s.StepDisciplined U q → ((s.queue q).init = true → QueueTidy s U q) → step s = .next t →
    ((t.queue q).init = true → QueueTidy t U q) ∧
    (t.claims q = s.claims q ∨
      (∃ i l, s.turn = some i ∧ s.record = .busy i (.enqueue l .e2) ∧ l.q = q ∧ t.claims q = s.claims q ++ [l.item]) ∨
      (∃ i l, s.turn = some i ∧ s.record = .busy i (.dequeue l .d4) ∧ l.q = q ∧ s.claims q = l.out :: t.claims q ∧
        (t.ctx s.running).responses = (s.ctx s.running).responses ++ [⟨.ok, BitVec.ofNat 24 l.size, l.out⟩]) ∨
      (∃ i, s.turn = some i ∧ s.kicks i ∧ q = .q0 ∧ s.claims q = s.slot q (s.queue q).front.toNat :: t.claims q) ∨
      (t.claims q = [] ∧ ((∃ d tail, s.schedule = .reset d :: tail) ∨
        ∃ sp ceil itemSize cap base, s.turn = some (.qinit q sp ceil itemSize cap base))))) ∧
  ∀ (s : State) (sender receiver : Level), s.BootOk sender receiver →
    (s.sendUsage sender).Ok (s.queue .q0).ceil ∧ (s.receiveUsage receiver).Ok (s.queue .q1).ceil
end

