-- ==== Sys2Proof/Laws/State.lean ====
section
/-! SUPPORT. One lemma per field per update of the state, so that no proof unfolds a record update; what the queue and
context accessors read after each update; and reading a queue or a context after writing one. -/

namespace Sys2Proof.Machine

variable (s : State)

/-! ### setLink -/

@[simp] theorem State.setLink_cfg (v : LinkSel) : (s.setLink v).cfg = s.cfg := rfl
@[simp] theorem State.setLink_link (v : LinkSel) : (s.setLink v).link = v := rfl
@[simp] theorem State.setLink_mask (v : LinkSel) : (s.setLink v).mask = s.mask := rfl
@[simp] theorem State.setLink_accFatal (v : LinkSel) : (s.setLink v).accFatal = s.accFatal := rfl
@[simp] theorem State.setLink_txDrop (v : LinkSel) : (s.setLink v).txDrop = s.txDrop := rfl
@[simp] theorem State.setLink_rxDrop (v : LinkSel) : (s.setLink v).rxDrop = s.rxDrop := rfl
@[simp] theorem State.setLink_crcFail (v : LinkSel) : (s.setLink v).crcFail = s.crcFail := rfl
@[simp] theorem State.setLink_faultEver (v : LinkSel) : (s.setLink v).faultEver = s.faultEver := rfl
@[simp] theorem State.setLink_queues (v : LinkSel) : (s.setLink v).queues = s.queues := rfl
@[simp] theorem State.setLink_qsm (v : LinkSel) : (s.setLink v).qsm = s.qsm := rfl
@[simp] theorem State.setLink_ufr (v : LinkSel) : (s.setLink v).ufr = s.ufr := rfl
@[simp] theorem State.setLink_spx (v : LinkSel) : (s.setLink v).spx = s.spx := rfl
@[simp] theorem State.setLink_acc (v : LinkSel) : (s.setLink v).acc = s.acc := rfl
@[simp] theorem State.setLink_ctxs (v : LinkSel) : (s.setLink v).ctxs = s.ctxs := rfl
@[simp] theorem State.setLink_env (v : LinkSel) : (s.setLink v).env = s.env := rfl
@[simp] theorem State.setLink_schedule (v : LinkSel) : (s.setLink v).schedule = s.schedule := rfl
@[simp] theorem State.setLink_queue (v : LinkSel) (q : QId) : (s.setLink v).queue q = s.queue q := rfl
@[simp] theorem State.setLink_ctx (v : LinkSel) (u : Level) : (s.setLink v).ctx u = s.ctx u := rfl
@[simp] theorem State.setLink_running (v : LinkSel) : (s.setLink v).running = s.running := rfl
@[simp] theorem State.setLink_record (v : LinkSel) : (s.setLink v).record = s.record := rfl
@[simp] theorem State.setLink_phase (v : LinkSel) : (s.setLink v).phase = s.phase := rfl

/-! ### setMask -/

@[simp] theorem State.setMask_cfg (v : BitVec 4) : (s.setMask v).cfg = s.cfg := rfl
@[simp] theorem State.setMask_link (v : BitVec 4) : (s.setMask v).link = s.link := rfl
@[simp] theorem State.setMask_mask (v : BitVec 4) : (s.setMask v).mask = v := rfl
@[simp] theorem State.setMask_accFatal (v : BitVec 4) : (s.setMask v).accFatal = s.accFatal := rfl
@[simp] theorem State.setMask_txDrop (v : BitVec 4) : (s.setMask v).txDrop = s.txDrop := rfl
@[simp] theorem State.setMask_rxDrop (v : BitVec 4) : (s.setMask v).rxDrop = s.rxDrop := rfl
@[simp] theorem State.setMask_crcFail (v : BitVec 4) : (s.setMask v).crcFail = s.crcFail := rfl
@[simp] theorem State.setMask_faultEver (v : BitVec 4) : (s.setMask v).faultEver = s.faultEver := rfl
@[simp] theorem State.setMask_queues (v : BitVec 4) : (s.setMask v).queues = s.queues := rfl
@[simp] theorem State.setMask_qsm (v : BitVec 4) : (s.setMask v).qsm = s.qsm := rfl
@[simp] theorem State.setMask_ufr (v : BitVec 4) : (s.setMask v).ufr = s.ufr := rfl
@[simp] theorem State.setMask_spx (v : BitVec 4) : (s.setMask v).spx = s.spx := rfl
@[simp] theorem State.setMask_acc (v : BitVec 4) : (s.setMask v).acc = s.acc := rfl
@[simp] theorem State.setMask_ctxs (v : BitVec 4) : (s.setMask v).ctxs = s.ctxs := rfl
@[simp] theorem State.setMask_env (v : BitVec 4) : (s.setMask v).env = s.env := rfl
@[simp] theorem State.setMask_schedule (v : BitVec 4) : (s.setMask v).schedule = s.schedule := rfl
@[simp] theorem State.setMask_queue (v : BitVec 4) (q : QId) : (s.setMask v).queue q = s.queue q := rfl
@[simp] theorem State.setMask_ctx (v : BitVec 4) (u : Level) : (s.setMask v).ctx u = s.ctx u := rfl
@[simp] theorem State.setMask_running (v : BitVec 4) : (s.setMask v).running = s.running := rfl
@[simp] theorem State.setMask_record (v : BitVec 4) : (s.setMask v).record = s.record := rfl
@[simp] theorem State.setMask_phase (v : BitVec 4) : (s.setMask v).phase = s.phase := rfl

/-! ### setAccFatal -/

@[simp] theorem State.setAccFatal_cfg (v : Bool) : (s.setAccFatal v).cfg = s.cfg := rfl
@[simp] theorem State.setAccFatal_link (v : Bool) : (s.setAccFatal v).link = s.link := rfl
@[simp] theorem State.setAccFatal_mask (v : Bool) : (s.setAccFatal v).mask = s.mask := rfl
@[simp] theorem State.setAccFatal_accFatal (v : Bool) : (s.setAccFatal v).accFatal = v := rfl
@[simp] theorem State.setAccFatal_txDrop (v : Bool) : (s.setAccFatal v).txDrop = s.txDrop := rfl
@[simp] theorem State.setAccFatal_rxDrop (v : Bool) : (s.setAccFatal v).rxDrop = s.rxDrop := rfl
@[simp] theorem State.setAccFatal_crcFail (v : Bool) : (s.setAccFatal v).crcFail = s.crcFail := rfl
@[simp] theorem State.setAccFatal_faultEver (v : Bool) : (s.setAccFatal v).faultEver = s.faultEver := rfl
@[simp] theorem State.setAccFatal_queues (v : Bool) : (s.setAccFatal v).queues = s.queues := rfl
@[simp] theorem State.setAccFatal_qsm (v : Bool) : (s.setAccFatal v).qsm = s.qsm := rfl
@[simp] theorem State.setAccFatal_ufr (v : Bool) : (s.setAccFatal v).ufr = s.ufr := rfl
@[simp] theorem State.setAccFatal_spx (v : Bool) : (s.setAccFatal v).spx = s.spx := rfl
@[simp] theorem State.setAccFatal_acc (v : Bool) : (s.setAccFatal v).acc = s.acc := rfl
@[simp] theorem State.setAccFatal_ctxs (v : Bool) : (s.setAccFatal v).ctxs = s.ctxs := rfl
@[simp] theorem State.setAccFatal_env (v : Bool) : (s.setAccFatal v).env = s.env := rfl
@[simp] theorem State.setAccFatal_schedule (v : Bool) : (s.setAccFatal v).schedule = s.schedule := rfl
@[simp] theorem State.setAccFatal_queue (v : Bool) (q : QId) : (s.setAccFatal v).queue q = s.queue q := rfl
@[simp] theorem State.setAccFatal_ctx (v : Bool) (u : Level) : (s.setAccFatal v).ctx u = s.ctx u := rfl
@[simp] theorem State.setAccFatal_running (v : Bool) : (s.setAccFatal v).running = s.running := rfl
@[simp] theorem State.setAccFatal_record (v : Bool) : (s.setAccFatal v).record = s.record := rfl
@[simp] theorem State.setAccFatal_phase (v : Bool) : (s.setAccFatal v).phase = s.phase := rfl

/-! ### setTxDrop -/

@[simp] theorem State.setTxDrop_cfg (v : BitVec 32) : (s.setTxDrop v).cfg = s.cfg := rfl
@[simp] theorem State.setTxDrop_link (v : BitVec 32) : (s.setTxDrop v).link = s.link := rfl
@[simp] theorem State.setTxDrop_mask (v : BitVec 32) : (s.setTxDrop v).mask = s.mask := rfl
@[simp] theorem State.setTxDrop_accFatal (v : BitVec 32) : (s.setTxDrop v).accFatal = s.accFatal := rfl
@[simp] theorem State.setTxDrop_txDrop (v : BitVec 32) : (s.setTxDrop v).txDrop = v := rfl
@[simp] theorem State.setTxDrop_rxDrop (v : BitVec 32) : (s.setTxDrop v).rxDrop = s.rxDrop := rfl
@[simp] theorem State.setTxDrop_crcFail (v : BitVec 32) : (s.setTxDrop v).crcFail = s.crcFail := rfl
@[simp] theorem State.setTxDrop_faultEver (v : BitVec 32) : (s.setTxDrop v).faultEver = s.faultEver := rfl
@[simp] theorem State.setTxDrop_queues (v : BitVec 32) : (s.setTxDrop v).queues = s.queues := rfl
@[simp] theorem State.setTxDrop_qsm (v : BitVec 32) : (s.setTxDrop v).qsm = s.qsm := rfl
@[simp] theorem State.setTxDrop_ufr (v : BitVec 32) : (s.setTxDrop v).ufr = s.ufr := rfl
@[simp] theorem State.setTxDrop_spx (v : BitVec 32) : (s.setTxDrop v).spx = s.spx := rfl
@[simp] theorem State.setTxDrop_acc (v : BitVec 32) : (s.setTxDrop v).acc = s.acc := rfl
@[simp] theorem State.setTxDrop_ctxs (v : BitVec 32) : (s.setTxDrop v).ctxs = s.ctxs := rfl
@[simp] theorem State.setTxDrop_env (v : BitVec 32) : (s.setTxDrop v).env = s.env := rfl
@[simp] theorem State.setTxDrop_schedule (v : BitVec 32) : (s.setTxDrop v).schedule = s.schedule := rfl
@[simp] theorem State.setTxDrop_queue (v : BitVec 32) (q : QId) : (s.setTxDrop v).queue q = s.queue q := rfl
@[simp] theorem State.setTxDrop_ctx (v : BitVec 32) (u : Level) : (s.setTxDrop v).ctx u = s.ctx u := rfl
@[simp] theorem State.setTxDrop_running (v : BitVec 32) : (s.setTxDrop v).running = s.running := rfl
@[simp] theorem State.setTxDrop_record (v : BitVec 32) : (s.setTxDrop v).record = s.record := rfl
@[simp] theorem State.setTxDrop_phase (v : BitVec 32) : (s.setTxDrop v).phase = s.phase := rfl

/-! ### setRxDrop -/

@[simp] theorem State.setRxDrop_cfg (v : BitVec 32) : (s.setRxDrop v).cfg = s.cfg := rfl
@[simp] theorem State.setRxDrop_link (v : BitVec 32) : (s.setRxDrop v).link = s.link := rfl
@[simp] theorem State.setRxDrop_mask (v : BitVec 32) : (s.setRxDrop v).mask = s.mask := rfl
@[simp] theorem State.setRxDrop_accFatal (v : BitVec 32) : (s.setRxDrop v).accFatal = s.accFatal := rfl
@[simp] theorem State.setRxDrop_txDrop (v : BitVec 32) : (s.setRxDrop v).txDrop = s.txDrop := rfl
@[simp] theorem State.setRxDrop_rxDrop (v : BitVec 32) : (s.setRxDrop v).rxDrop = v := rfl
@[simp] theorem State.setRxDrop_crcFail (v : BitVec 32) : (s.setRxDrop v).crcFail = s.crcFail := rfl
@[simp] theorem State.setRxDrop_faultEver (v : BitVec 32) : (s.setRxDrop v).faultEver = s.faultEver := rfl
@[simp] theorem State.setRxDrop_queues (v : BitVec 32) : (s.setRxDrop v).queues = s.queues := rfl
@[simp] theorem State.setRxDrop_qsm (v : BitVec 32) : (s.setRxDrop v).qsm = s.qsm := rfl
@[simp] theorem State.setRxDrop_ufr (v : BitVec 32) : (s.setRxDrop v).ufr = s.ufr := rfl
@[simp] theorem State.setRxDrop_spx (v : BitVec 32) : (s.setRxDrop v).spx = s.spx := rfl
@[simp] theorem State.setRxDrop_acc (v : BitVec 32) : (s.setRxDrop v).acc = s.acc := rfl
@[simp] theorem State.setRxDrop_ctxs (v : BitVec 32) : (s.setRxDrop v).ctxs = s.ctxs := rfl
@[simp] theorem State.setRxDrop_env (v : BitVec 32) : (s.setRxDrop v).env = s.env := rfl
@[simp] theorem State.setRxDrop_schedule (v : BitVec 32) : (s.setRxDrop v).schedule = s.schedule := rfl
@[simp] theorem State.setRxDrop_queue (v : BitVec 32) (q : QId) : (s.setRxDrop v).queue q = s.queue q := rfl
@[simp] theorem State.setRxDrop_ctx (v : BitVec 32) (u : Level) : (s.setRxDrop v).ctx u = s.ctx u := rfl
@[simp] theorem State.setRxDrop_running (v : BitVec 32) : (s.setRxDrop v).running = s.running := rfl
@[simp] theorem State.setRxDrop_record (v : BitVec 32) : (s.setRxDrop v).record = s.record := rfl
@[simp] theorem State.setRxDrop_phase (v : BitVec 32) : (s.setRxDrop v).phase = s.phase := rfl

/-! ### setCrcFail -/

@[simp] theorem State.setCrcFail_cfg (v : BitVec 32) : (s.setCrcFail v).cfg = s.cfg := rfl
@[simp] theorem State.setCrcFail_link (v : BitVec 32) : (s.setCrcFail v).link = s.link := rfl
@[simp] theorem State.setCrcFail_mask (v : BitVec 32) : (s.setCrcFail v).mask = s.mask := rfl
@[simp] theorem State.setCrcFail_accFatal (v : BitVec 32) : (s.setCrcFail v).accFatal = s.accFatal := rfl
@[simp] theorem State.setCrcFail_txDrop (v : BitVec 32) : (s.setCrcFail v).txDrop = s.txDrop := rfl
@[simp] theorem State.setCrcFail_rxDrop (v : BitVec 32) : (s.setCrcFail v).rxDrop = s.rxDrop := rfl
@[simp] theorem State.setCrcFail_crcFail (v : BitVec 32) : (s.setCrcFail v).crcFail = v := rfl
@[simp] theorem State.setCrcFail_faultEver (v : BitVec 32) : (s.setCrcFail v).faultEver = s.faultEver := rfl
@[simp] theorem State.setCrcFail_queues (v : BitVec 32) : (s.setCrcFail v).queues = s.queues := rfl
@[simp] theorem State.setCrcFail_qsm (v : BitVec 32) : (s.setCrcFail v).qsm = s.qsm := rfl
@[simp] theorem State.setCrcFail_ufr (v : BitVec 32) : (s.setCrcFail v).ufr = s.ufr := rfl
@[simp] theorem State.setCrcFail_spx (v : BitVec 32) : (s.setCrcFail v).spx = s.spx := rfl
@[simp] theorem State.setCrcFail_acc (v : BitVec 32) : (s.setCrcFail v).acc = s.acc := rfl
@[simp] theorem State.setCrcFail_ctxs (v : BitVec 32) : (s.setCrcFail v).ctxs = s.ctxs := rfl
@[simp] theorem State.setCrcFail_env (v : BitVec 32) : (s.setCrcFail v).env = s.env := rfl
@[simp] theorem State.setCrcFail_schedule (v : BitVec 32) : (s.setCrcFail v).schedule = s.schedule := rfl
@[simp] theorem State.setCrcFail_queue (v : BitVec 32) (q : QId) : (s.setCrcFail v).queue q = s.queue q := rfl
@[simp] theorem State.setCrcFail_ctx (v : BitVec 32) (u : Level) : (s.setCrcFail v).ctx u = s.ctx u := rfl
@[simp] theorem State.setCrcFail_running (v : BitVec 32) : (s.setCrcFail v).running = s.running := rfl
@[simp] theorem State.setCrcFail_record (v : BitVec 32) : (s.setCrcFail v).record = s.record := rfl
@[simp] theorem State.setCrcFail_phase (v : BitVec 32) : (s.setCrcFail v).phase = s.phase := rfl

/-! ### setFaultEver -/

@[simp] theorem State.setFaultEver_cfg (v : Bool) : (s.setFaultEver v).cfg = s.cfg := rfl
@[simp] theorem State.setFaultEver_link (v : Bool) : (s.setFaultEver v).link = s.link := rfl
@[simp] theorem State.setFaultEver_mask (v : Bool) : (s.setFaultEver v).mask = s.mask := rfl
@[simp] theorem State.setFaultEver_accFatal (v : Bool) : (s.setFaultEver v).accFatal = s.accFatal := rfl
@[simp] theorem State.setFaultEver_txDrop (v : Bool) : (s.setFaultEver v).txDrop = s.txDrop := rfl
@[simp] theorem State.setFaultEver_rxDrop (v : Bool) : (s.setFaultEver v).rxDrop = s.rxDrop := rfl
@[simp] theorem State.setFaultEver_crcFail (v : Bool) : (s.setFaultEver v).crcFail = s.crcFail := rfl
@[simp] theorem State.setFaultEver_faultEver (v : Bool) : (s.setFaultEver v).faultEver = v := rfl
@[simp] theorem State.setFaultEver_queues (v : Bool) : (s.setFaultEver v).queues = s.queues := rfl
@[simp] theorem State.setFaultEver_qsm (v : Bool) : (s.setFaultEver v).qsm = s.qsm := rfl
@[simp] theorem State.setFaultEver_ufr (v : Bool) : (s.setFaultEver v).ufr = s.ufr := rfl
@[simp] theorem State.setFaultEver_spx (v : Bool) : (s.setFaultEver v).spx = s.spx := rfl
@[simp] theorem State.setFaultEver_acc (v : Bool) : (s.setFaultEver v).acc = s.acc := rfl
@[simp] theorem State.setFaultEver_ctxs (v : Bool) : (s.setFaultEver v).ctxs = s.ctxs := rfl
@[simp] theorem State.setFaultEver_env (v : Bool) : (s.setFaultEver v).env = s.env := rfl
@[simp] theorem State.setFaultEver_schedule (v : Bool) : (s.setFaultEver v).schedule = s.schedule := rfl
@[simp] theorem State.setFaultEver_queue (v : Bool) (q : QId) : (s.setFaultEver v).queue q = s.queue q := rfl
@[simp] theorem State.setFaultEver_ctx (v : Bool) (u : Level) : (s.setFaultEver v).ctx u = s.ctx u := rfl
@[simp] theorem State.setFaultEver_running (v : Bool) : (s.setFaultEver v).running = s.running := rfl
@[simp] theorem State.setFaultEver_record (v : Bool) : (s.setFaultEver v).record = s.record := rfl
@[simp] theorem State.setFaultEver_phase (v : Bool) : (s.setFaultEver v).phase = s.phase := rfl

/-! ### setQueues -/

@[simp] theorem State.setQueues_cfg (v : Queues) : (s.setQueues v).cfg = s.cfg := rfl
@[simp] theorem State.setQueues_link (v : Queues) : (s.setQueues v).link = s.link := rfl
@[simp] theorem State.setQueues_mask (v : Queues) : (s.setQueues v).mask = s.mask := rfl
@[simp] theorem State.setQueues_accFatal (v : Queues) : (s.setQueues v).accFatal = s.accFatal := rfl
@[simp] theorem State.setQueues_txDrop (v : Queues) : (s.setQueues v).txDrop = s.txDrop := rfl
@[simp] theorem State.setQueues_rxDrop (v : Queues) : (s.setQueues v).rxDrop = s.rxDrop := rfl
@[simp] theorem State.setQueues_crcFail (v : Queues) : (s.setQueues v).crcFail = s.crcFail := rfl
@[simp] theorem State.setQueues_faultEver (v : Queues) : (s.setQueues v).faultEver = s.faultEver := rfl
@[simp] theorem State.setQueues_queues (v : Queues) : (s.setQueues v).queues = v := rfl
@[simp] theorem State.setQueues_qsm (v : Queues) : (s.setQueues v).qsm = s.qsm := rfl
@[simp] theorem State.setQueues_ufr (v : Queues) : (s.setQueues v).ufr = s.ufr := rfl
@[simp] theorem State.setQueues_spx (v : Queues) : (s.setQueues v).spx = s.spx := rfl
@[simp] theorem State.setQueues_acc (v : Queues) : (s.setQueues v).acc = s.acc := rfl
@[simp] theorem State.setQueues_ctxs (v : Queues) : (s.setQueues v).ctxs = s.ctxs := rfl
@[simp] theorem State.setQueues_env (v : Queues) : (s.setQueues v).env = s.env := rfl
@[simp] theorem State.setQueues_schedule (v : Queues) : (s.setQueues v).schedule = s.schedule := rfl
@[simp] theorem State.setQueues_ctx (v : Queues) (u : Level) : (s.setQueues v).ctx u = s.ctx u := rfl
@[simp] theorem State.setQueues_running (v : Queues) : (s.setQueues v).running = s.running := rfl
@[simp] theorem State.setQueues_record (v : Queues) : (s.setQueues v).record = s.record := rfl
@[simp] theorem State.setQueues_phase (v : Queues) : (s.setQueues v).phase = s.phase := rfl

/-! ### setQsm -/

@[simp] theorem State.setQsm_cfg (v : Memory) : (s.setQsm v).cfg = s.cfg := rfl
@[simp] theorem State.setQsm_link (v : Memory) : (s.setQsm v).link = s.link := rfl
@[simp] theorem State.setQsm_mask (v : Memory) : (s.setQsm v).mask = s.mask := rfl
@[simp] theorem State.setQsm_accFatal (v : Memory) : (s.setQsm v).accFatal = s.accFatal := rfl
@[simp] theorem State.setQsm_txDrop (v : Memory) : (s.setQsm v).txDrop = s.txDrop := rfl
@[simp] theorem State.setQsm_rxDrop (v : Memory) : (s.setQsm v).rxDrop = s.rxDrop := rfl
@[simp] theorem State.setQsm_crcFail (v : Memory) : (s.setQsm v).crcFail = s.crcFail := rfl
@[simp] theorem State.setQsm_faultEver (v : Memory) : (s.setQsm v).faultEver = s.faultEver := rfl
@[simp] theorem State.setQsm_queues (v : Memory) : (s.setQsm v).queues = s.queues := rfl
@[simp] theorem State.setQsm_qsm (v : Memory) : (s.setQsm v).qsm = v := rfl
@[simp] theorem State.setQsm_ufr (v : Memory) : (s.setQsm v).ufr = s.ufr := rfl
@[simp] theorem State.setQsm_spx (v : Memory) : (s.setQsm v).spx = s.spx := rfl
@[simp] theorem State.setQsm_acc (v : Memory) : (s.setQsm v).acc = s.acc := rfl
@[simp] theorem State.setQsm_ctxs (v : Memory) : (s.setQsm v).ctxs = s.ctxs := rfl
@[simp] theorem State.setQsm_env (v : Memory) : (s.setQsm v).env = s.env := rfl
@[simp] theorem State.setQsm_schedule (v : Memory) : (s.setQsm v).schedule = s.schedule := rfl
@[simp] theorem State.setQsm_queue (v : Memory) (q : QId) : (s.setQsm v).queue q = s.queue q := rfl
@[simp] theorem State.setQsm_ctx (v : Memory) (u : Level) : (s.setQsm v).ctx u = s.ctx u := rfl
@[simp] theorem State.setQsm_running (v : Memory) : (s.setQsm v).running = s.running := rfl
@[simp] theorem State.setQsm_record (v : Memory) : (s.setQsm v).record = s.record := rfl
@[simp] theorem State.setQsm_phase (v : Memory) : (s.setQsm v).phase = s.phase := rfl

/-! ### setUfr -/

@[simp] theorem State.setUfr_cfg (v : Framer) : (s.setUfr v).cfg = s.cfg := rfl
@[simp] theorem State.setUfr_link (v : Framer) : (s.setUfr v).link = s.link := rfl
@[simp] theorem State.setUfr_mask (v : Framer) : (s.setUfr v).mask = s.mask := rfl
@[simp] theorem State.setUfr_accFatal (v : Framer) : (s.setUfr v).accFatal = s.accFatal := rfl
@[simp] theorem State.setUfr_txDrop (v : Framer) : (s.setUfr v).txDrop = s.txDrop := rfl
@[simp] theorem State.setUfr_rxDrop (v : Framer) : (s.setUfr v).rxDrop = s.rxDrop := rfl
@[simp] theorem State.setUfr_crcFail (v : Framer) : (s.setUfr v).crcFail = s.crcFail := rfl
@[simp] theorem State.setUfr_faultEver (v : Framer) : (s.setUfr v).faultEver = s.faultEver := rfl
@[simp] theorem State.setUfr_queues (v : Framer) : (s.setUfr v).queues = s.queues := rfl
@[simp] theorem State.setUfr_qsm (v : Framer) : (s.setUfr v).qsm = s.qsm := rfl
@[simp] theorem State.setUfr_ufr (v : Framer) : (s.setUfr v).ufr = v := rfl
@[simp] theorem State.setUfr_spx (v : Framer) : (s.setUfr v).spx = s.spx := rfl
@[simp] theorem State.setUfr_acc (v : Framer) : (s.setUfr v).acc = s.acc := rfl
@[simp] theorem State.setUfr_ctxs (v : Framer) : (s.setUfr v).ctxs = s.ctxs := rfl
@[simp] theorem State.setUfr_env (v : Framer) : (s.setUfr v).env = s.env := rfl
@[simp] theorem State.setUfr_schedule (v : Framer) : (s.setUfr v).schedule = s.schedule := rfl
@[simp] theorem State.setUfr_queue (v : Framer) (q : QId) : (s.setUfr v).queue q = s.queue q := rfl
@[simp] theorem State.setUfr_ctx (v : Framer) (u : Level) : (s.setUfr v).ctx u = s.ctx u := rfl
@[simp] theorem State.setUfr_running (v : Framer) : (s.setUfr v).running = s.running := rfl
@[simp] theorem State.setUfr_record (v : Framer) : (s.setUfr v).record = s.record := rfl
@[simp] theorem State.setUfr_phase (v : Framer) : (s.setUfr v).phase = s.phase := rfl

/-! ### setSpx -/

@[simp] theorem State.setSpx_cfg (v : Spx) : (s.setSpx v).cfg = s.cfg := rfl
@[simp] theorem State.setSpx_link (v : Spx) : (s.setSpx v).link = s.link := rfl
@[simp] theorem State.setSpx_mask (v : Spx) : (s.setSpx v).mask = s.mask := rfl
@[simp] theorem State.setSpx_accFatal (v : Spx) : (s.setSpx v).accFatal = s.accFatal := rfl
@[simp] theorem State.setSpx_txDrop (v : Spx) : (s.setSpx v).txDrop = s.txDrop := rfl
@[simp] theorem State.setSpx_rxDrop (v : Spx) : (s.setSpx v).rxDrop = s.rxDrop := rfl
@[simp] theorem State.setSpx_crcFail (v : Spx) : (s.setSpx v).crcFail = s.crcFail := rfl
@[simp] theorem State.setSpx_faultEver (v : Spx) : (s.setSpx v).faultEver = s.faultEver := rfl
@[simp] theorem State.setSpx_queues (v : Spx) : (s.setSpx v).queues = s.queues := rfl
@[simp] theorem State.setSpx_qsm (v : Spx) : (s.setSpx v).qsm = s.qsm := rfl
@[simp] theorem State.setSpx_ufr (v : Spx) : (s.setSpx v).ufr = s.ufr := rfl
@[simp] theorem State.setSpx_spx (v : Spx) : (s.setSpx v).spx = v := rfl
@[simp] theorem State.setSpx_acc (v : Spx) : (s.setSpx v).acc = s.acc := rfl
@[simp] theorem State.setSpx_ctxs (v : Spx) : (s.setSpx v).ctxs = s.ctxs := rfl
@[simp] theorem State.setSpx_env (v : Spx) : (s.setSpx v).env = s.env := rfl
@[simp] theorem State.setSpx_schedule (v : Spx) : (s.setSpx v).schedule = s.schedule := rfl
@[simp] theorem State.setSpx_queue (v : Spx) (q : QId) : (s.setSpx v).queue q = s.queue q := rfl
@[simp] theorem State.setSpx_ctx (v : Spx) (u : Level) : (s.setSpx v).ctx u = s.ctx u := rfl
@[simp] theorem State.setSpx_running (v : Spx) : (s.setSpx v).running = s.running := rfl
@[simp] theorem State.setSpx_record (v : Spx) : (s.setSpx v).record = s.record := rfl
@[simp] theorem State.setSpx_phase (v : Spx) : (s.setSpx v).phase = s.phase := rfl

/-! ### setAcc -/

@[simp] theorem State.setAcc_cfg (v : Acc) : (s.setAcc v).cfg = s.cfg := rfl
@[simp] theorem State.setAcc_link (v : Acc) : (s.setAcc v).link = s.link := rfl
@[simp] theorem State.setAcc_mask (v : Acc) : (s.setAcc v).mask = s.mask := rfl
@[simp] theorem State.setAcc_accFatal (v : Acc) : (s.setAcc v).accFatal = s.accFatal := rfl
@[simp] theorem State.setAcc_txDrop (v : Acc) : (s.setAcc v).txDrop = s.txDrop := rfl
@[simp] theorem State.setAcc_rxDrop (v : Acc) : (s.setAcc v).rxDrop = s.rxDrop := rfl
@[simp] theorem State.setAcc_crcFail (v : Acc) : (s.setAcc v).crcFail = s.crcFail := rfl
@[simp] theorem State.setAcc_faultEver (v : Acc) : (s.setAcc v).faultEver = s.faultEver := rfl
@[simp] theorem State.setAcc_queues (v : Acc) : (s.setAcc v).queues = s.queues := rfl
@[simp] theorem State.setAcc_qsm (v : Acc) : (s.setAcc v).qsm = s.qsm := rfl
@[simp] theorem State.setAcc_ufr (v : Acc) : (s.setAcc v).ufr = s.ufr := rfl
@[simp] theorem State.setAcc_spx (v : Acc) : (s.setAcc v).spx = s.spx := rfl
@[simp] theorem State.setAcc_acc (v : Acc) : (s.setAcc v).acc = v := rfl
@[simp] theorem State.setAcc_ctxs (v : Acc) : (s.setAcc v).ctxs = s.ctxs := rfl
@[simp] theorem State.setAcc_env (v : Acc) : (s.setAcc v).env = s.env := rfl
@[simp] theorem State.setAcc_schedule (v : Acc) : (s.setAcc v).schedule = s.schedule := rfl
@[simp] theorem State.setAcc_queue (v : Acc) (q : QId) : (s.setAcc v).queue q = s.queue q := rfl
@[simp] theorem State.setAcc_ctx (v : Acc) (u : Level) : (s.setAcc v).ctx u = s.ctx u := rfl
@[simp] theorem State.setAcc_running (v : Acc) : (s.setAcc v).running = s.running := rfl
@[simp] theorem State.setAcc_record (v : Acc) : (s.setAcc v).record = s.record := rfl
@[simp] theorem State.setAcc_phase (v : Acc) : (s.setAcc v).phase = s.phase := rfl

/-! ### setCtxs -/

@[simp] theorem State.setCtxs_cfg (v : Vector Context 16) : (s.setCtxs v).cfg = s.cfg := rfl
@[simp] theorem State.setCtxs_link (v : Vector Context 16) : (s.setCtxs v).link = s.link := rfl
@[simp] theorem State.setCtxs_mask (v : Vector Context 16) : (s.setCtxs v).mask = s.mask := rfl
@[simp] theorem State.setCtxs_accFatal (v : Vector Context 16) : (s.setCtxs v).accFatal = s.accFatal := rfl
@[simp] theorem State.setCtxs_txDrop (v : Vector Context 16) : (s.setCtxs v).txDrop = s.txDrop := rfl
@[simp] theorem State.setCtxs_rxDrop (v : Vector Context 16) : (s.setCtxs v).rxDrop = s.rxDrop := rfl
@[simp] theorem State.setCtxs_crcFail (v : Vector Context 16) : (s.setCtxs v).crcFail = s.crcFail := rfl
@[simp] theorem State.setCtxs_faultEver (v : Vector Context 16) : (s.setCtxs v).faultEver = s.faultEver := rfl
@[simp] theorem State.setCtxs_queues (v : Vector Context 16) : (s.setCtxs v).queues = s.queues := rfl
@[simp] theorem State.setCtxs_qsm (v : Vector Context 16) : (s.setCtxs v).qsm = s.qsm := rfl
@[simp] theorem State.setCtxs_ufr (v : Vector Context 16) : (s.setCtxs v).ufr = s.ufr := rfl
@[simp] theorem State.setCtxs_spx (v : Vector Context 16) : (s.setCtxs v).spx = s.spx := rfl
@[simp] theorem State.setCtxs_acc (v : Vector Context 16) : (s.setCtxs v).acc = s.acc := rfl
@[simp] theorem State.setCtxs_ctxs (v : Vector Context 16) : (s.setCtxs v).ctxs = v := rfl
@[simp] theorem State.setCtxs_env (v : Vector Context 16) : (s.setCtxs v).env = s.env := rfl
@[simp] theorem State.setCtxs_schedule (v : Vector Context 16) : (s.setCtxs v).schedule = s.schedule := rfl
@[simp] theorem State.setCtxs_queue (v : Vector Context 16) (q : QId) : (s.setCtxs v).queue q = s.queue q := rfl

/-! ### setEnv -/

@[simp] theorem State.setEnv_cfg (v : Env) : (s.setEnv v).cfg = s.cfg := rfl
@[simp] theorem State.setEnv_link (v : Env) : (s.setEnv v).link = s.link := rfl
@[simp] theorem State.setEnv_mask (v : Env) : (s.setEnv v).mask = s.mask := rfl
@[simp] theorem State.setEnv_accFatal (v : Env) : (s.setEnv v).accFatal = s.accFatal := rfl
@[simp] theorem State.setEnv_txDrop (v : Env) : (s.setEnv v).txDrop = s.txDrop := rfl
@[simp] theorem State.setEnv_rxDrop (v : Env) : (s.setEnv v).rxDrop = s.rxDrop := rfl
@[simp] theorem State.setEnv_crcFail (v : Env) : (s.setEnv v).crcFail = s.crcFail := rfl
@[simp] theorem State.setEnv_faultEver (v : Env) : (s.setEnv v).faultEver = s.faultEver := rfl
@[simp] theorem State.setEnv_queues (v : Env) : (s.setEnv v).queues = s.queues := rfl
@[simp] theorem State.setEnv_qsm (v : Env) : (s.setEnv v).qsm = s.qsm := rfl
@[simp] theorem State.setEnv_ufr (v : Env) : (s.setEnv v).ufr = s.ufr := rfl
@[simp] theorem State.setEnv_spx (v : Env) : (s.setEnv v).spx = s.spx := rfl
@[simp] theorem State.setEnv_acc (v : Env) : (s.setEnv v).acc = s.acc := rfl
@[simp] theorem State.setEnv_ctxs (v : Env) : (s.setEnv v).ctxs = s.ctxs := rfl
@[simp] theorem State.setEnv_env (v : Env) : (s.setEnv v).env = v := rfl
@[simp] theorem State.setEnv_schedule (v : Env) : (s.setEnv v).schedule = s.schedule := rfl
@[simp] theorem State.setEnv_queue (v : Env) (q : QId) : (s.setEnv v).queue q = s.queue q := rfl
@[simp] theorem State.setEnv_ctx (v : Env) (u : Level) : (s.setEnv v).ctx u = s.ctx u := rfl
@[simp] theorem State.setEnv_running (v : Env) : (s.setEnv v).running = s.running := rfl
@[simp] theorem State.setEnv_record (v : Env) : (s.setEnv v).record = s.record := rfl
@[simp] theorem State.setEnv_phase (v : Env) : (s.setEnv v).phase = s.phase := rfl

/-! ### setSchedule -/

@[simp] theorem State.setSchedule_cfg (v : List Action) : (s.setSchedule v).cfg = s.cfg := rfl
@[simp] theorem State.setSchedule_link (v : List Action) : (s.setSchedule v).link = s.link := rfl
@[simp] theorem State.setSchedule_mask (v : List Action) : (s.setSchedule v).mask = s.mask := rfl
@[simp] theorem State.setSchedule_accFatal (v : List Action) : (s.setSchedule v).accFatal = s.accFatal := rfl
@[simp] theorem State.setSchedule_txDrop (v : List Action) : (s.setSchedule v).txDrop = s.txDrop := rfl
@[simp] theorem State.setSchedule_rxDrop (v : List Action) : (s.setSchedule v).rxDrop = s.rxDrop := rfl
@[simp] theorem State.setSchedule_crcFail (v : List Action) : (s.setSchedule v).crcFail = s.crcFail := rfl
@[simp] theorem State.setSchedule_faultEver (v : List Action) : (s.setSchedule v).faultEver = s.faultEver := rfl
@[simp] theorem State.setSchedule_queues (v : List Action) : (s.setSchedule v).queues = s.queues := rfl
@[simp] theorem State.setSchedule_qsm (v : List Action) : (s.setSchedule v).qsm = s.qsm := rfl
@[simp] theorem State.setSchedule_ufr (v : List Action) : (s.setSchedule v).ufr = s.ufr := rfl
@[simp] theorem State.setSchedule_spx (v : List Action) : (s.setSchedule v).spx = s.spx := rfl
@[simp] theorem State.setSchedule_acc (v : List Action) : (s.setSchedule v).acc = s.acc := rfl
@[simp] theorem State.setSchedule_ctxs (v : List Action) : (s.setSchedule v).ctxs = s.ctxs := rfl
@[simp] theorem State.setSchedule_env (v : List Action) : (s.setSchedule v).env = s.env := rfl
@[simp] theorem State.setSchedule_schedule (v : List Action) : (s.setSchedule v).schedule = v := rfl
@[simp] theorem State.setSchedule_queue (v : List Action) (q : QId) : (s.setSchedule v).queue q = s.queue q := rfl
@[simp] theorem State.setSchedule_ctx (v : List Action) (u : Level) : (s.setSchedule v).ctx u = s.ctx u := rfl
@[simp] theorem State.setSchedule_running (v : List Action) : (s.setSchedule v).running = s.running := rfl
@[simp] theorem State.setSchedule_record (v : List Action) : (s.setSchedule v).record = s.record := rfl
@[simp] theorem State.setSchedule_phase (v : List Action) : (s.setSchedule v).phase = s.phase := rfl

/-! ### setQueue -/

@[simp] theorem State.setQueue_cfg (q : QId) (r : Queue) : (s.setQueue q r).cfg = s.cfg := rfl
@[simp] theorem State.setQueue_link (q : QId) (r : Queue) : (s.setQueue q r).link = s.link := rfl
@[simp] theorem State.setQueue_mask (q : QId) (r : Queue) : (s.setQueue q r).mask = s.mask := rfl
@[simp] theorem State.setQueue_accFatal (q : QId) (r : Queue) : (s.setQueue q r).accFatal = s.accFatal := rfl
@[simp] theorem State.setQueue_txDrop (q : QId) (r : Queue) : (s.setQueue q r).txDrop = s.txDrop := rfl
@[simp] theorem State.setQueue_rxDrop (q : QId) (r : Queue) : (s.setQueue q r).rxDrop = s.rxDrop := rfl
@[simp] theorem State.setQueue_crcFail (q : QId) (r : Queue) : (s.setQueue q r).crcFail = s.crcFail := rfl
@[simp] theorem State.setQueue_faultEver (q : QId) (r : Queue) : (s.setQueue q r).faultEver = s.faultEver := rfl
@[simp] theorem State.setQueue_qsm (q : QId) (r : Queue) : (s.setQueue q r).qsm = s.qsm := rfl
@[simp] theorem State.setQueue_ufr (q : QId) (r : Queue) : (s.setQueue q r).ufr = s.ufr := rfl
@[simp] theorem State.setQueue_spx (q : QId) (r : Queue) : (s.setQueue q r).spx = s.spx := rfl
@[simp] theorem State.setQueue_acc (q : QId) (r : Queue) : (s.setQueue q r).acc = s.acc := rfl
@[simp] theorem State.setQueue_ctxs (q : QId) (r : Queue) : (s.setQueue q r).ctxs = s.ctxs := rfl
@[simp] theorem State.setQueue_env (q : QId) (r : Queue) : (s.setQueue q r).env = s.env := rfl
@[simp] theorem State.setQueue_schedule (q : QId) (r : Queue) : (s.setQueue q r).schedule = s.schedule := rfl
@[simp] theorem State.setQueue_ctx (q : QId) (r : Queue) (u : Level) : (s.setQueue q r).ctx u = s.ctx u := rfl
@[simp] theorem State.setQueue_running (q : QId) (r : Queue) : (s.setQueue q r).running = s.running := rfl
@[simp] theorem State.setQueue_record (q : QId) (r : Queue) : (s.setQueue q r).record = s.record := rfl
@[simp] theorem State.setQueue_phase (q : QId) (r : Queue) : (s.setQueue q r).phase = s.phase := rfl

/-! ### setCtx -/

@[simp] theorem State.setCtx_cfg (u : Level) (c : Context) : (s.setCtx u c).cfg = s.cfg := rfl
@[simp] theorem State.setCtx_link (u : Level) (c : Context) : (s.setCtx u c).link = s.link := rfl
@[simp] theorem State.setCtx_mask (u : Level) (c : Context) : (s.setCtx u c).mask = s.mask := rfl
@[simp] theorem State.setCtx_accFatal (u : Level) (c : Context) : (s.setCtx u c).accFatal = s.accFatal := rfl
@[simp] theorem State.setCtx_txDrop (u : Level) (c : Context) : (s.setCtx u c).txDrop = s.txDrop := rfl
@[simp] theorem State.setCtx_rxDrop (u : Level) (c : Context) : (s.setCtx u c).rxDrop = s.rxDrop := rfl
@[simp] theorem State.setCtx_crcFail (u : Level) (c : Context) : (s.setCtx u c).crcFail = s.crcFail := rfl
@[simp] theorem State.setCtx_faultEver (u : Level) (c : Context) : (s.setCtx u c).faultEver = s.faultEver := rfl
@[simp] theorem State.setCtx_queues (u : Level) (c : Context) : (s.setCtx u c).queues = s.queues := rfl
@[simp] theorem State.setCtx_qsm (u : Level) (c : Context) : (s.setCtx u c).qsm = s.qsm := rfl
@[simp] theorem State.setCtx_ufr (u : Level) (c : Context) : (s.setCtx u c).ufr = s.ufr := rfl
@[simp] theorem State.setCtx_spx (u : Level) (c : Context) : (s.setCtx u c).spx = s.spx := rfl
@[simp] theorem State.setCtx_acc (u : Level) (c : Context) : (s.setCtx u c).acc = s.acc := rfl
@[simp] theorem State.setCtx_env (u : Level) (c : Context) : (s.setCtx u c).env = s.env := rfl
@[simp] theorem State.setCtx_schedule (u : Level) (c : Context) : (s.setCtx u c).schedule = s.schedule := rfl
@[simp] theorem State.setCtx_queue (u : Level) (c : Context) (q : QId) : (s.setCtx u c).queue q = s.queue q := rfl

/-! ### Reading after writing -/

@[simp] theorem Queues.get_set_self (qs : Queues) (q : QId) (r : Queue) : (qs.set q r).get q = r := by
  cases q <;> rfl

theorem Queues.get_set_of_ne (qs : Queues) (r : Queue) {q p : QId} (h : p ≠ q) :
    (qs.set q r).get p = qs.get p := by
  cases q <;> cases p <;> first | rfl | exact absurd rfl h

/-- The last write of a queue's registers stands. -/
@[simp] theorem State.setQueue_setQueue (q : QId) (a b : Queue) :
    (s.setQueue q a).setQueue q b = s.setQueue q b := by
  cases q <;> rfl

@[simp] theorem State.setQueue_queue_self (q : QId) (r : Queue) : (s.setQueue q r).queue q = r :=
  Queues.get_set_self _ _ _

theorem State.setQueue_queue_of_ne (r : Queue) {q p : QId} (h : p ≠ q) :
    (s.setQueue q r).queue p = s.queue p :=
  Queues.get_set_of_ne _ _ h

theorem State.setQueue_queue (q p : QId) (r : Queue) :
    (s.setQueue q r).queue p = if p = q then r else s.queue p := by
  split
  next h => subst h; simp
  next h => exact s.setQueue_queue_of_ne r h

@[simp] theorem State.setCtx_ctx_self (u : Level) (c : Context) : (s.setCtx u c).ctx u = c := by
  simp [State.ctx, State.setCtx]

theorem State.setCtx_ctx_of_ne (c : Context) {u v : Level} (h : v ≠ u) : (s.setCtx u c).ctx v = s.ctx v := by
  have : (u : Nat) ≠ v := fun e => h (Fin.ext e.symm)
  simp [State.ctx, State.setCtx, this]

theorem State.setCtx_ctx (u v : Level) (c : Context) :
    (s.setCtx u c).ctx v = if v = u then c else s.ctx v := by
  split
  next h => subst h; simp
  next h => exact s.setCtx_ctx_of_ne c h

/-- Two states that agree on every queue have the same queue registers. -/
theorem Queues.ext_get {a b : Queues} (h : ∀ q, a.get q = b.get q) : a = b := by
  cases a; cases b
  have h0 := h .q0; have h1 := h .q1; have h2 := h .q2; have h3 := h .q3
  simp only [Queues.get] at h0 h1 h2 h3
  simp [h0, h1, h2, h3]

end Sys2Proof.Machine
end

