-- ==== Sys2Proof/Laws/Contexts.lean ====
section
/-! SUPPORT. The running context, and what going on with a command, ending one, entering a handler and exiting one do to
the contexts. -/

namespace Sys2Proof.Machine

theorem mem_levelsDown (u : Level) : u ∈ levelsDown := by
  revert u; decide

theorem levelsDown_sorted : levelsDown.Pairwise (· > ·) := by decide

/-- The first element of a descending list that passes is above every other that passes. -/
theorem find?_le_of_pairwise {l : List Level} (hl : l.Pairwise (· > ·)) {p : Level → Bool} {u v : Level}
    (h : l.find? p = some u) (hv : v ∈ l) (hp : p v = true) : v ≤ u := by
  induction l with
  | nil => simp at h
  | cons a l ih =>
    rw [List.pairwise_cons] at hl
    rw [List.find?_cons] at h
    split at h
    · injection h with h; subst h
      rcases List.mem_cons.1 hv with rfl | hv
      · exact le_refl _
      · exact le_of_lt (hl.1 v hv)
    next hpa =>
      rcases List.mem_cons.1 hv with rfl | hv
      · exact absurd hp (by simp [hpa])
      · exact ih hl.2 h hv

variable (s : State)

/-- Every entered context is at or below the running one (60_exceptions.md R417). -/
theorem State.le_running {v : Level} (h : (s.ctx v).entered = true) : v ≤ s.running := by
  unfold State.running
  cases hf : levelsDown.find? (fun u => (s.ctx u).entered) with
  | none => exact absurd h (by simpa using List.find?_eq_none.1 hf v (mem_levelsDown v))
  | some u => exact find?_le_of_pairwise levelsDown_sorted hf (mem_levelsDown v) h

/-- The running context is context 0 or an entered one (60_exceptions.md R417). -/
theorem State.running_entered : s.running = 0 ∨ (s.ctx s.running).entered = true := by
  unfold State.running
  cases hf : levelsDown.find? (fun u => (s.ctx u).entered) with
  | none => exact .inl rfl
  | some u => exact .inr (by simpa using List.find?_some hf)

/-- The running context is the one at or above every entered context that is entered itself, or context 0. -/
theorem State.running_eq {u : Level} (hu : u = 0 ∨ (s.ctx u).entered = true)
    (h : ∀ v, (s.ctx v).entered = true → v ≤ u) : s.running = u := by
  apply le_antisymm
  · rcases s.running_entered with h0 | h0
    · rw [h0]; exact Fin.zero_le _
    · exact h _ h0
  · rcases hu with rfl | hu
    · exact Fin.zero_le _
    · exact s.le_running hu

/-- States whose contexts are entered alike run the same context. -/
theorem State.running_congr {s t : State} (h : ∀ u, (t.ctx u).entered = (s.ctx u).entered) : t.running = s.running := by
  apply t.running_eq
  · rcases s.running_entered with h0 | h0
    · exact .inl h0
    · exact .inr (by rw [h, h0])
  · intro v hv
    exact s.le_running (by rw [← h, hv])

/-- Writing a context without its flag keeps the running context. -/
theorem State.running_setCtx {u : Level} {c : Context} (h : c.entered = (s.ctx u).entered) :
    (s.setCtx u c).running = s.running := by
  apply State.running_congr
  intro v
  rw [State.setCtx_ctx]
  split
  next e => rw [e, h]
  · rfl

/-! ### Going on with a command -/

variable (i : Instr) (ph : Phase)

theorem State.goOn_ctx (u : Level) :
    (s.goOn i ph).ctx u = if u = s.running then { s.ctx s.running with record := .busy i ph } else s.ctx u :=
  s.setCtx_ctx _ _ _

@[simp] theorem State.goOn_running : (s.goOn i ph).running = s.running := s.running_setCtx rfl

@[simp] theorem State.goOn_record : (s.goOn i ph).record = .busy i ph := by
  rw [State.record, State.goOn_running, State.goOn_ctx, if_pos rfl]

@[simp] theorem State.goOn_phase : (s.goOn i ph).phase = ph := by
  rw [State.phase, State.goOn_record]

@[simp] theorem State.goOn_queue (q : QId) : (s.goOn i ph).queue q = s.queue q := rfl
@[simp] theorem State.goOn_cfg : (s.goOn i ph).cfg = s.cfg := rfl
@[simp] theorem State.goOn_link : (s.goOn i ph).link = s.link := rfl
@[simp] theorem State.goOn_mask : (s.goOn i ph).mask = s.mask := rfl
@[simp] theorem State.goOn_accFatal : (s.goOn i ph).accFatal = s.accFatal := rfl
@[simp] theorem State.goOn_txDrop : (s.goOn i ph).txDrop = s.txDrop := rfl
@[simp] theorem State.goOn_rxDrop : (s.goOn i ph).rxDrop = s.rxDrop := rfl
@[simp] theorem State.goOn_crcFail : (s.goOn i ph).crcFail = s.crcFail := rfl
@[simp] theorem State.goOn_faultEver : (s.goOn i ph).faultEver = s.faultEver := rfl
@[simp] theorem State.goOn_queues : (s.goOn i ph).queues = s.queues := rfl
@[simp] theorem State.goOn_qsm : (s.goOn i ph).qsm = s.qsm := rfl
@[simp] theorem State.goOn_ufr : (s.goOn i ph).ufr = s.ufr := rfl
@[simp] theorem State.goOn_spx : (s.goOn i ph).spx = s.spx := rfl
@[simp] theorem State.goOn_acc : (s.goOn i ph).acc = s.acc := rfl
@[simp] theorem State.goOn_env : (s.goOn i ph).env = s.env := rfl
@[simp] theorem State.goOn_schedule : (s.goOn i ph).schedule = s.schedule := rfl

/-! ### The stream -/

variable (rest : List Byte)

theorem State.setStream_ctx (u : Level) :
    (s.setStream rest).ctx u = if u = s.running then { s.ctx s.running with stream := rest } else s.ctx u :=
  s.setCtx_ctx _ _ _

@[simp] theorem State.setStream_running : (s.setStream rest).running = s.running := s.running_setCtx rfl

@[simp] theorem State.setStream_record : (s.setStream rest).record = s.record := by
  rw [State.record, State.setStream_running, State.setStream_ctx, if_pos rfl]; rfl

@[simp] theorem State.setStream_phase : (s.setStream rest).phase = s.phase := by
  rw [State.phase, State.setStream_record]; rfl

@[simp] theorem State.setStream_cfg : (s.setStream rest).cfg = s.cfg := rfl
@[simp] theorem State.setStream_queue (q : QId) : (s.setStream rest).queue q = s.queue q := rfl

/-! ### Ending a command -/

variable (r : Response)

/-- The context a command on the command port leaves behind (46_system.md R372). -/
theorem State.reply_command_ctx (u : Level) :
    (s.reply .command r).ctx u =
      if u = s.running then { s.ctx s.running with record := .idle, responses := (s.ctx s.running).responses ++ [r] }
      else s.ctx u :=
  s.setCtx_ctx _ _ _

/-- The context a command on the event port leaves behind: its handler has exited (60_exceptions.md R420). -/
theorem State.reply_event_ctx (u : Level) :
    (s.reply .event r).ctx u =
      if u = s.running then { s.ctx s.running with entered := false, record := .idle, stream := [] } else s.ctx u :=
  s.setCtx_ctx _ _ _

@[simp] theorem State.reply_command_running : (s.reply .command r).running = s.running := s.running_setCtx rfl

@[simp] theorem State.reply_command_env : (s.reply .command r).env = s.env := rfl

@[simp] theorem State.reply_event_env :
    (s.reply .event r).env = { s.env with eventSink := s.env.eventSink ++ [r] } := rfl

variable (p : Port)

@[simp] theorem State.reply_queue (q : QId) : (s.reply p r).queue q = s.queue q := by cases p <;> rfl
@[simp] theorem State.reply_cfg : (s.reply p r).cfg = s.cfg := by cases p <;> rfl
@[simp] theorem State.reply_link : (s.reply p r).link = s.link := by cases p <;> rfl
@[simp] theorem State.reply_mask : (s.reply p r).mask = s.mask := by cases p <;> rfl
@[simp] theorem State.reply_accFatal : (s.reply p r).accFatal = s.accFatal := by cases p <;> rfl
@[simp] theorem State.reply_txDrop : (s.reply p r).txDrop = s.txDrop := by cases p <;> rfl
@[simp] theorem State.reply_rxDrop : (s.reply p r).rxDrop = s.rxDrop := by cases p <;> rfl
@[simp] theorem State.reply_crcFail : (s.reply p r).crcFail = s.crcFail := by cases p <;> rfl
@[simp] theorem State.reply_faultEver : (s.reply p r).faultEver = s.faultEver := by cases p <;> rfl
@[simp] theorem State.reply_queues : (s.reply p r).queues = s.queues := by cases p <;> rfl
@[simp] theorem State.reply_qsm : (s.reply p r).qsm = s.qsm := by cases p <;> rfl
@[simp] theorem State.reply_ufr : (s.reply p r).ufr = s.ufr := by cases p <;> rfl
@[simp] theorem State.reply_spx : (s.reply p r).spx = s.spx := by cases p <;> rfl
@[simp] theorem State.reply_acc : (s.reply p r).acc = s.acc := by cases p <;> rfl
@[simp] theorem State.reply_schedule : (s.reply p r).schedule = s.schedule := by cases p <;> rfl

/-- The context a command leaves behind on either port: IDLE, and entered only if it was. -/
theorem State.reply_ctx (u : Level) :
    ((s.reply p r).ctx u).record = (if u = s.running then .idle else (s.ctx u).record) ∧
      (((s.reply p r).ctx u).entered = true → (s.ctx u).entered = true) := by
  cases p
  · rw [State.reply_command_ctx]; split
    next h => subst h; exact ⟨rfl, id⟩
    · exact ⟨rfl, id⟩
  · rw [State.reply_event_ctx]; split
    next h => subst h; exact ⟨rfl, fun h => absurd h (by simp)⟩
    · exact ⟨rfl, id⟩

/-! ### Entry and exit -/

theorem State.enterContext_ctx (u v : Level) (st : List Byte) :
    (s.enterContext u p st).ctx v =
      if v = u then { s.ctx u with entered := true, record := .start p, stream := st } else s.ctx v :=
  s.setCtx_ctx _ _ _

theorem State.exitContext_ctx (u v : Level) :
    (s.exitContext u).ctx v =
      if v = u then { s.ctx u with entered := false, record := .idle, stream := [] } else s.ctx v :=
  s.setCtx_ctx _ _ _

/-- The entry rule (60_exceptions.md R415), as the conditions it stands for. -/
theorem State.canEnter_iff (u : Level) :
    s.canEnter u = true ↔
      (1 ≤ u.val ∧ u.val < s.cfg.nprio) ∧ s.mask.toNat < u.val ∧
        (∀ v : Level, (s.ctx v).entered = true → v < u) ∧ (s.ctx u).record = .idle := by
  unfold State.canEnter
  have : (levelsDown.all fun v => !(s.ctx v).entered || decide (v < u)) = true ↔
      ∀ v : Level, (s.ctx v).entered = true → v < u := by
    rw [List.all_eq_true]
    constructor
    · intro h v hv
      have := h v (mem_levelsDown v)
      rw [Bool.or_eq_true, Bool.not_eq_true', decide_eq_true_eq] at this
      rcases this with h | h
      · exact absurd hv (by simp [h])
      · exact h
    · intro h v _
      rw [Bool.or_eq_true, Bool.not_eq_true', decide_eq_true_eq]
      by_cases hv : (s.ctx v).entered = true
      · exact .inr (h v hv)
      · exact .inl (by simpa using hv)
  simp only [Bool.and_eq_true, decide_eq_true_eq, this, and_assoc]

/-- An entered handler is the running context. -/
theorem State.running_enterContext {u : Level} {st : List Byte} (h : ∀ v, (s.ctx v).entered = true → v < u) :
    (s.enterContext u p st).running = u := by
  apply State.running_eq
  · right; rw [State.enterContext_ctx, if_pos rfl]
  · intro v hv
    rw [State.enterContext_ctx] at hv
    split at hv
    next e => exact le_of_eq e
    · exact le_of_lt (h v hv)

end Sys2Proof.Machine
end

