-- ==== Sys2Proof/Laws/Memory.lean ====
section
/-! SUPPORT. The laws of QSM: a read after a write gives what was written, a write leaves every other byte alone, and
every memory operation keeps the canonical form. -/

namespace Sys2Proof.Machine

@[simp] theorem Memory.read_nil (a : Nat) : Memory.read [] a = Memory.unlisted := rfl

theorem Memory.read_cons (k : Nat) (b : Byte) (m : Memory) (a : Nat) :
    Memory.read ((k, b) :: m) a = if k = a then b else m.read a := rfl

/-- Below every listed address a memory reads as unlisted. -/
theorem Memory.read_of_lt {m : Memory} {a : Nat} (h : ∀ c ∈ m, a < c.1) : m.read a = Memory.unlisted := by
  induction m with
  | nil => rfl
  | cons c m ih =>
    have hc : a < c.1 := h c (by simp)
    rw [Memory.read_cons, if_neg (by omega)]
    exact ih fun d hd => h d (by simp [hd])

theorem Memory.WF.tail {c : Host.Cell} {m : Memory} (h : Memory.WF (c :: m)) : m.WF := by
  obtain ⟨h1, h2⟩ := h
  simp only [List.map_cons, List.pairwise_cons] at h1
  exact ⟨h1.2, fun d hd => h2 d (by simp [hd])⟩

theorem Memory.WF.lt_of_mem {c d : Host.Cell} {m : Memory} (h : Memory.WF (c :: m)) (hd : d ∈ m) : c.1 < d.1 := by
  have h1 := h.1
  simp only [List.map_cons, List.pairwise_cons, List.mem_map, forall_exists_index, and_imp] at h1
  exact h1.1 d.1 d hd rfl

/-- Reading after writing, at any two addresses. -/
theorem Memory.read_write {m : Memory} (h : m.WF) (a : Nat) (b : Byte) (x : Nat) :
    (m.write a b).read x = if x = a then b else m.read x := by
  induction m with
  | nil =>
    by_cases hb : b = Memory.unlisted
    · simp [Memory.write, hb]
    · simp only [Memory.write, if_neg hb, Memory.read_cons, Memory.read_nil]
      by_cases hx : x = a
      · simp [hx]
      · rw [if_neg (fun e => hx e.symm), if_neg hx]
  | cons c m ih =>
    obtain ⟨k, v⟩ := c
    have hlt : ∀ d ∈ m, k < d.1 := fun d hd => h.lt_of_mem hd
    simp only [Memory.write]
    split
    next hak =>
      have hread : x = a → Memory.read ((k, v) :: m) x = Memory.unlisted := by
        rintro rfl
        refine Memory.read_of_lt fun d hd => ?_
        rcases List.mem_cons.1 hd with rfl | hd
        · exact hak
        · exact hak.trans (hlt d hd)
      split
      next hb => split <;> simp_all
      next hb =>
        rw [Memory.read_cons]
        by_cases hx : a = x
        · simp [hx]
        · rw [if_neg hx, if_neg (fun e => hx e.symm)]
    next hak =>
      split
      next hk =>
        subst hk
        split
        next hb =>
          by_cases hx : x = a
          · subst hx; rw [if_pos rfl, hb]; exact Memory.read_of_lt hlt
          · rw [if_neg hx, Memory.read_cons, if_neg (fun e => hx e.symm)]
        next hb =>
          simp only [Memory.read_cons]
          by_cases hx : a = x
          · simp [hx]
          · rw [if_neg hx, if_neg hx, if_neg (fun e => hx e.symm)]
      next hk =>
        simp only [Memory.read_cons, ih h.tail]
        by_cases hx : k = x
        · subst hx; simp [show ¬k = a from fun e => hk e.symm]
        · simp [hx]

/-- The cells of a memory after a write are the written one and old ones. -/
theorem Memory.mem_write {m : Memory} {a : Nat} {b : Byte} {c : Host.Cell} (h : c ∈ m.write a b) :
    (c = (a, b) ∧ b ≠ Memory.unlisted) ∨ c ∈ m := by
  induction m with
  | nil =>
    simp only [Memory.write] at h
    split at h <;> simp_all
  | cons d m ih =>
    obtain ⟨k, v⟩ := d
    simp only [Memory.write] at h
    split at h
    · split at h
      · exact .inr h
      · rcases List.mem_cons.1 h with rfl | h
        · exact .inl ⟨rfl, ‹_›⟩
        · exact .inr h
    · split at h
      · split at h
        · exact .inr (List.mem_cons_of_mem _ h)
        · rcases List.mem_cons.1 h with rfl | h
          · exact .inl ⟨rfl, ‹_›⟩
          · exact .inr (List.mem_cons_of_mem _ h)
      · rcases List.mem_cons.1 h with rfl | h
        · exact .inr (by simp)
        · rcases ih h with h | h
          · exact .inl h
          · exact .inr (List.mem_cons_of_mem _ h)

theorem Memory.WF.cons {k : Nat} {b : Byte} {m : Memory} (hb : b ≠ Memory.unlisted) (hk : ∀ c ∈ m, k < c.1)
    (h : m.WF) : Memory.WF ((k, b) :: m) := by
  refine ⟨?_, ?_⟩
  · simp only [List.map_cons, List.pairwise_cons, List.mem_map, forall_exists_index, and_imp]
    exact ⟨fun _ d hd e => e ▸ hk d hd, h.1⟩
  · intro c hc
    rcases List.mem_cons.1 hc with rfl | hc
    · exact hb
    · exact h.2 c hc

/-- A write keeps the canonical form. -/
theorem Memory.WF.write {m : Memory} (h : m.WF) (a : Nat) (b : Byte) : (m.write a b).WF := by
  induction m with
  | nil =>
    simp only [Memory.write]
    split
    · exact h
    next hb => exact Memory.WF.cons hb (by simp) h
  | cons c m ih =>
    obtain ⟨k, v⟩ := c
    have hlt : ∀ d ∈ m, k < d.1 := fun d hd => h.lt_of_mem hd
    have hv : v ≠ Memory.unlisted := h.2 (k, v) (by simp)
    simp only [Memory.write]
    split
    next hak =>
      split
      · exact h
      next hb =>
        refine Memory.WF.cons hb (fun d hd => ?_) h
        rcases List.mem_cons.1 hd with rfl | hd
        · exact hak
        · exact hak.trans (hlt d hd)
    next hak =>
      split
      next hk =>
        split
        · exact h.tail
        next hb => exact Memory.WF.cons hb (hk ▸ hlt) h.tail
      next hk =>
        refine Memory.WF.cons hv (fun d hd => ?_) (ih h.tail)
        rcases Memory.mem_write hd with ⟨rfl, -⟩ | hd
        · show k < a; omega
        · exact hlt d hd

/-- A write of many bytes keeps the canonical form. -/
theorem Memory.WF.writeBytes {m : Memory} (h : m.WF) (a : Nat) (bs : List Byte) : (m.writeBytes a bs).WF := by
  induction bs generalizing m a with
  | nil => exact h
  | cons b bs ih => exact ih (h.write a b) (a + 1)

/-- Reading after a write of many bytes. -/
theorem Memory.read_writeBytes {m : Memory} (h : m.WF) (a : Nat) (bs : List Byte) (x : Nat) :
    (m.writeBytes a bs).read x = if a ≤ x ∧ x < a + bs.length then bs.getD (x - a) 0 else m.read x := by
  induction bs generalizing m a with
  | nil => simp [Memory.writeBytes]
  | cons b bs ih =>
    rw [Memory.writeBytes, ih (h.write a b) (a + 1), Memory.read_write h]
    by_cases h1 : a + 1 ≤ x ∧ x < a + 1 + bs.length
    · rw [if_pos h1, if_pos (by simp only [List.length_cons]; omega)]
      obtain ⟨n, rfl⟩ : ∃ n, x = a + 1 + n := ⟨x - (a + 1), by omega⟩
      rw [show a + 1 + n - a = n + 1 by omega, show a + 1 + n - (a + 1) = n by omega]
      rfl
    · rw [if_neg h1]
      by_cases h2 : x = a
      · subst h2
        rw [if_pos rfl, if_pos (by simp only [List.length_cons]; omega), Nat.sub_self]; rfl
      · rw [if_neg h2, if_neg (by simp only [List.length_cons]; omega)]

/-- The cells of a memory after a write of many bytes are in the written range or old. -/
theorem Memory.mem_writeBytes {m : Memory} {a : Nat} {bs : List Byte} {c : Host.Cell} (h : c ∈ m.writeBytes a bs) :
    (a ≤ c.1 ∧ c.1 < a + bs.length) ∨ c ∈ m := by
  induction bs generalizing m a with
  | nil => exact .inr h
  | cons b bs ih =>
    rcases ih h with h | h
    · left; simp only [List.length_cons]; omega
    · rcases Memory.mem_write h with ⟨rfl, -⟩ | h
      · left; simp
      · exact .inr h

@[simp] theorem Memory.length_readBytes (m : Memory) (a n : Nat) : (m.readBytes a n).length = n := by
  induction n generalizing a with
  | zero => rfl
  | succ n ih => simp [Memory.readBytes, ih]

theorem Memory.getD_readBytes (m : Memory) (a n j : Nat) (h : j < n) : (m.readBytes a n).getD j 0 = m.read (a + j) := by
  induction n generalizing a j with
  | zero => omega
  | succ n ih =>
    cases j with
    | zero => rfl
    | succ j =>
      have := ih (a + 1) j (by omega)
      rw [show a + (j + 1) = a + 1 + j by omega, ← this]
      rfl

/-- Two memories that agree on a range read it alike. -/
theorem Memory.readBytes_congr {m k : Memory} {a n : Nat} (h : ∀ x, a ≤ x → x < a + n → m.read x = k.read x) :
    m.readBytes a n = k.readBytes a n := by
  induction n generalizing a with
  | zero => rfl
  | succ n ih =>
    rw [Memory.readBytes, Memory.readBytes, h a (by omega) (by omega),
      ih fun x h1 h2 => h x (by omega) (by omega)]

/-- A range just written reads as the bytes that were written. -/
theorem Memory.readBytes_writeBytes {m : Memory} (h : m.WF) (a : Nat) (bs : List Byte) :
    (m.writeBytes a bs).readBytes a bs.length = bs := by
  apply List.ext_getElem (by simp)
  intro j h1 h2
  have := Memory.getD_readBytes (m.writeBytes a bs) a bs.length j h2
  rw [List.getD_eq_getElem _ _ h1] at this
  rw [this, Memory.read_writeBytes h, if_pos ⟨by omega, by omega⟩, Nat.add_sub_cancel_left,
    List.getD_eq_getElem _ _ h2]

/-- Reading one byte more at the end. -/
theorem Memory.readBytes_succ (m : Memory) (a n : Nat) : m.readBytes a (n + 1) = m.readBytes a n ++ [m.read (a + n)] := by
  induction n generalizing a with
  | zero => rfl
  | succ n ih =>
    rw [Memory.readBytes, ih, show a + 1 + n = a + (n + 1) by omega]
    rfl

/-- Writing one byte more at the end. -/
theorem Memory.writeBytes_append_singleton (m : Memory) (a : Nat) (bs : List Byte) (b : Byte) :
    m.writeBytes a (bs ++ [b]) = (m.writeBytes a bs).write (a + bs.length) b := by
  induction bs generalizing m a with
  | nil => rfl
  | cons c bs ih =>
    show ((m.write a c).writeBytes (a + 1) (bs ++ [b])) = _
    rw [ih, List.length_cons, show a + 1 + bs.length = a + (bs.length + 1) by omega]
    rfl

end Sys2Proof.Machine
end

