-- ==== Sys2Proof/Laws/Queue.lean ====
section
/-! SUPPORT. What the invariant check and each micro-step of ENQUEUE and DEQUEUE can do: one lemma per operation, cited
instead of unfolding it. -/

namespace Sys2Proof.Machine

variable (s : State)

/-- Writing back what a queue already holds changes nothing. -/
@[simp] theorem State.setQueue_queue_eq (q : QId) : s.setQueue q (s.queue q) = s := by
  cases s; cases q <;> rfl

@[simp] theorem State.setFaultEver_eq : s.setFaultEver s.faultEver = s := rfl

/-! ### The invariant check -/

/-- The check writes the fault bit of its queue and the record of faults, in every case (40_queue.md R150). -/
theorem State.checkInv_eq (q : QId) :
    s.checkInv q =
      (s.setQueue q { s.queue q with qinv := (s.queue q).qinv || !decide (s.queue q).countersOk }).setFaultEver
        (s.faultEver || !decide (s.queue q).countersOk) := by
  unfold State.checkInv
  split
  next h =>
    have hd : decide (s.queue q).countersOk = true := decide_eq_true h
    rw [hd]
    simp only [Bool.not_true, Bool.or_false]
    exact (s.setQueue_queue_eq q).symm
  next h =>
    have hd : decide (s.queue q).countersOk = false := decide_eq_false h
    rw [hd]
    simp [State.raiseQinv]

/-- The registers of the checked queue after the check: only QINV can change, and only to 1. -/
theorem State.checkInv_queue_self (q : QId) :
    (s.checkInv q).queue q =
      { s.queue q with qinv := (s.queue q).qinv || !decide (s.queue q).countersOk } := by
  rw [State.checkInv_eq]; simp

theorem State.checkInv_queue_of_ne {q p : QId} (h : p ≠ q) : (s.checkInv q).queue p = s.queue p := by
  rw [State.checkInv_eq, State.setFaultEver_queue, State.setQueue_queue_of_ne _ _ h]

theorem State.checkInv_faultEver (q : QId) :
    (s.checkInv q).faultEver = (s.faultEver || !decide (s.queue q).countersOk) := by
  rw [State.checkInv_eq]; simp

/-- After the check, QINV = 0 means that the counters are in order (10_state.md R39). -/
theorem State.checkInv_countersOk (q : QId) (h : ((s.checkInv q).queue q).qinv = false) :
    ((s.checkInv q).queue q).countersOk := by
  rw [State.checkInv_queue_self] at h ⊢
  simp only [Bool.or_eq_false_iff, Bool.not_eq_false', decide_eq_true_eq] at h
  exact h.2

@[simp] theorem State.checkInv_cfg (q : QId) : (s.checkInv q).cfg = s.cfg := by rw [State.checkInv_eq]; rfl
@[simp] theorem State.checkInv_link (q : QId) : (s.checkInv q).link = s.link := by rw [State.checkInv_eq]; rfl
@[simp] theorem State.checkInv_mask (q : QId) : (s.checkInv q).mask = s.mask := by rw [State.checkInv_eq]; rfl
@[simp] theorem State.checkInv_accFatal (q : QId) : (s.checkInv q).accFatal = s.accFatal := by
  rw [State.checkInv_eq]; rfl
@[simp] theorem State.checkInv_txDrop (q : QId) : (s.checkInv q).txDrop = s.txDrop := by rw [State.checkInv_eq]; rfl
@[simp] theorem State.checkInv_rxDrop (q : QId) : (s.checkInv q).rxDrop = s.rxDrop := by rw [State.checkInv_eq]; rfl
@[simp] theorem State.checkInv_crcFail (q : QId) : (s.checkInv q).crcFail = s.crcFail := by
  rw [State.checkInv_eq]; rfl
@[simp] theorem State.checkInv_qsm (q : QId) : (s.checkInv q).qsm = s.qsm := by rw [State.checkInv_eq]; rfl
@[simp] theorem State.checkInv_ufr (q : QId) : (s.checkInv q).ufr = s.ufr := by rw [State.checkInv_eq]; rfl
@[simp] theorem State.checkInv_spx (q : QId) : (s.checkInv q).spx = s.spx := by rw [State.checkInv_eq]; rfl
@[simp] theorem State.checkInv_acc (q : QId) : (s.checkInv q).acc = s.acc := by rw [State.checkInv_eq]; rfl
@[simp] theorem State.checkInv_ctxs (q : QId) : (s.checkInv q).ctxs = s.ctxs := by rw [State.checkInv_eq]; rfl
@[simp] theorem State.checkInv_env (q : QId) : (s.checkInv q).env = s.env := by rw [State.checkInv_eq]; rfl
@[simp] theorem State.checkInv_schedule (q : QId) : (s.checkInv q).schedule = s.schedule := by
  rw [State.checkInv_eq]; rfl
@[simp] theorem State.checkInv_ctx (q : QId) (u : Level) : (s.checkInv q).ctx u = s.ctx u := by
  rw [State.checkInv_eq]; rfl
@[simp] theorem State.checkInv_running (q : QId) : (s.checkInv q).running = s.running := by
  rw [State.checkInv_eq]; rfl
@[simp] theorem State.checkInv_record (q : QId) : (s.checkInv q).record = s.record := by
  rw [State.checkInv_eq]; rfl
@[simp] theorem State.checkInv_phase (q : QId) : (s.checkInv q).phase = s.phase := by
  rw [State.checkInv_eq]; rfl

/-! ### Queue micro-steps as one shape

E2, E4, D3 and D4 each write one queue's counters and check them. `Counted` says everything such a micro-step does. -/

/-- t is s with the registers of queue q written and checked, and MASK at m. -/
structure Counted (q : QId) (r : Queue) (m : BitVec 4) (s t : State) : Prop where
  eq : t = ((s.setQueue q r).setMask m).checkInv q

theorem Counted.queue_self {q : QId} {r : Queue} {m : BitVec 4} {s t : State} (h : Counted q r m s t) :
    t.queue q = { r with qinv := r.qinv || !decide r.countersOk } := by
  rw [h.eq, State.checkInv_queue_self]; simp

theorem Counted.queue_of_ne {q p : QId} {r : Queue} {m : BitVec 4} {s t : State} (h : Counted q r m s t)
    (hp : p ≠ q) : t.queue p = s.queue p := by
  rw [h.eq, State.checkInv_queue_of_ne _ hp, State.setMask_queue, State.setQueue_queue_of_ne _ _ hp]

theorem Counted.faultEver {q : QId} {r : Queue} {m : BitVec 4} {s t : State} (h : Counted q r m s t) :
    t.faultEver = (s.faultEver || !decide r.countersOk) := by
  rw [h.eq, State.checkInv_faultEver]; simp

/-- E2 (40_queue.md R152). -/
theorem enqueueE2_counted (l : EnqLocals) :
    Counted l.q { s.queue l.q with claimed := l.c + 1 } l.saved s (enqueueE2 l s) := ⟨rfl⟩

/-- E4 (40_queue.md R152). -/
theorem enqueueE4_counted (l : EnqLocals) :
    Counted l.q { s.queue l.q with ready := (s.queue l.q).ready + 1 } s.mask s (enqueueE4 l s).1 := ⟨rfl⟩

/-- D3 (40_queue.md R153). -/
theorem dequeueD3_counted (q : QId) :
    Counted q { s.queue q with ready := (s.queue q).ready - 1 } s.mask s (dequeueD3 q s) := ⟨rfl⟩

/-- D4 (40_queue.md R153). -/
theorem dequeueD4_counted (q : QId) :
    Counted q
      { s.queue q with
        front := BitVec.ofNat 16 (((s.queue q).front.toNat + 1) % (s.queue q).cap.toNat)
        claimed := (s.queue q).claimed - 1 } s.mask s (dequeueD4 q s) := ⟨rfl⟩

/-- Everything else that a counted micro-step keeps. -/
theorem Counted.frame {q : QId} {r : Queue} {m : BitVec 4} {s t : State} (h : Counted q r m s t) :
    t = { s with mask := m, queues := t.queues, faultEver := t.faultEver } := by
  rw [h.eq, State.checkInv_eq]; rfl

/-! ### ENQUEUE -/

/-- The locals that E1 reads (40_queue.md R152). -/
def State.claim (s : State) (q : QId) (item : List Byte) : EnqLocals where
  q := q
  item := item
  c := (s.queue q).claimed
  f := (s.queue q).front
  idx := ((s.queue q).front.toNat + (s.queue q).claimed.toNat) % (s.queue q).cap.toNat
  base := (s.queue q).base.toNat
  size := (s.queue q).itemSize.toNat
  saved := s.mask

theorem enqueueE1_faulted {q : QId} (item : List Byte) (h : (s.queue q).qinv = true) :
    enqueueE1 q item s = (s, .inl .faulted) := by simp [enqueueE1, h]

theorem enqueueE1_notInit {q : QId} (item : List Byte) (h : (s.queue q).qinv = false)
    (hi : (s.queue q).init = false) : enqueueE1 q item s = (s, .inl .notInit) := by simp [enqueueE1, h, hi]

theorem enqueueE1_full {q : QId} (item : List Byte) (h : s.usable q) (hc : (s.queue q).cap ≤ (s.queue q).claimed) :
    enqueueE1 q item s = (s, .inl .full) := by simp [enqueueE1, h.1, h.2, hc]

theorem enqueueE1_claims {q : QId} (item : List Byte) (h : s.usable q) (hc : (s.queue q).claimed < (s.queue q).cap) :
    enqueueE1 q item s = (s.setMask (raisedMask s.mask (s.queue q).ceil), .inr (s.claim q item)) := by
  have : ¬(s.queue q).cap ≤ (s.queue q).claimed := by rw [BitVec.not_le]; exact hc
  simp [enqueueE1, h.1, h.2, this, State.claim]

/-- Everything E1 can do (40_queue.md R152): it refuses and changes nothing, or it raises MASK and reads the claim. -/
theorem enqueueE1_cases (q : QId) (item : List Byte) :
    (∃ st, enqueueE1 q item s = (s, .inl st) ∧ st ≠ .ok ∧
      ((st = .faulted ∧ (s.queue q).qinv = true) ∨
        (st = .notInit ∧ (s.queue q).qinv = false ∧ (s.queue q).init = false) ∨
        (st = .full ∧ s.usable q ∧ (s.queue q).cap ≤ (s.queue q).claimed))) ∨
    (enqueueE1 q item s = (s.setMask (raisedMask s.mask (s.queue q).ceil), .inr (s.claim q item)) ∧
      s.usable q ∧ (s.queue q).claimed < (s.queue q).cap) := by
  by_cases h : (s.queue q).qinv = true
  · exact .inl ⟨_, enqueueE1_faulted s item h, by decide, .inl ⟨rfl, h⟩⟩
  have h' : (s.queue q).qinv = false := by simpa using h
  by_cases hi : (s.queue q).init = true
  · by_cases hc : (s.queue q).cap ≤ (s.queue q).claimed
    · exact .inl ⟨_, enqueueE1_full s item ⟨hi, h'⟩ hc, by decide, .inr (.inr ⟨rfl, ⟨hi, h'⟩, hc⟩)⟩
    · rw [BitVec.not_le] at hc
      exact .inr ⟨enqueueE1_claims s item ⟨hi, h'⟩ hc, ⟨hi, h'⟩, hc⟩
  · have hi' : (s.queue q).init = false := by simpa using hi
    exact .inl ⟨_, enqueueE1_notInit s item h' hi', by decide, .inr (.inl ⟨rfl, h', hi'⟩)⟩

/-- Everything a call of ENQUEUE does to the caller (00_scope.md R24). -/
theorem callEnqueue_cases (i : Instr) (q : QId) (item : List Byte) (ret : Status → State → State) :
    (∃ st, callEnqueue i q item ret s = ret st s ∧ st ≠ .ok) ∨
    (callEnqueue i q item ret s =
        (s.setMask (raisedMask s.mask (s.queue q).ceil)).goOn i (.enqueue (s.claim q item) .e2) ∧
      s.usable q ∧ (s.queue q).claimed < (s.queue q).cap) := by
  rcases enqueueE1_cases s q item with ⟨st, h, hst, -⟩ | ⟨h, hu, hc⟩
  · exact .inl ⟨st, by simp only [callEnqueue, h], hst⟩
  · exact .inr ⟨by simp only [callEnqueue, h], hu, hc⟩

/-- E3.j in range writes one byte of the slot (40_queue.md R151, R152). -/
theorem enqueueE3_ok {l : EnqLocals} {j : Nat} (h : l.base + l.idx * l.size + j < s.cfg.qsmBytes) :
    enqueueE3 l j s = .ok (s.setQsm (s.qsm.write (l.base + l.idx * l.size + j) (l.item.getD j 0))) := by
  simp [enqueueE3, State.qsmWrite, h]

theorem enqueueE3_cases {l : EnqLocals} {j : Nat} {t : State} (h : enqueueE3 l j s = .ok t) :
    l.base + l.idx * l.size + j < s.cfg.qsmBytes ∧
      t = s.setQsm (s.qsm.write (l.base + l.idx * l.size + j) (l.item.getD j 0)) := by
  simp only [enqueueE3, State.qsmWrite] at h
  split at h
  next hb => injection h with h; exact ⟨hb, h.symm⟩
  · simp at h

/-- Everything a micro-step of ENQUEUE past E1 can do (40_queue.md R152). -/
theorem enqueueMicro_cases {l : EnqLocals} {p : EnqPoint} {t : State} {x : Status ⊕ EnqPoint}
    (h : enqueueMicro l p s = .ok (t, x)) :
    (p = .e2 ∧ t = enqueueE2 l s ∧ x = .inr (l.copyFrom 0)) ∨
    (∃ j, p = .e3 j ∧ l.base + l.idx * l.size + j < s.cfg.qsmBytes ∧
      t = s.setQsm (s.qsm.write (l.base + l.idx * l.size + j) (l.item.getD j 0)) ∧ x = .inr (l.copyFrom (j + 1))) ∨
    (p = .e4 ∧ t = (enqueueE4 l s).1 ∧ x = .inl (if (t.queue l.q).qinv then .faulted else .ok)) := by
  cases p with
  | e2 =>
    simp only [enqueueMicro, Except.ok.injEq, Prod.mk.injEq] at h
    exact .inl ⟨rfl, h.1.symm, h.2.symm⟩
  | e3 j =>
    simp only [enqueueMicro] at h
    split at h
    next s1 hs =>
      simp only [Except.ok.injEq, Prod.mk.injEq] at h
      obtain ⟨hb, rfl⟩ := enqueueE3_cases s hs
      exact .inr (.inl ⟨j, rfl, hb, h.1.symm, h.2.symm⟩)
    · simp at h
  | e4 =>
    simp only [enqueueMicro, Except.ok.injEq, Prod.mk.injEq] at h
    obtain ⟨rfl, rfl⟩ := h
    exact .inr (.inr ⟨rfl, rfl, rfl⟩)

/-- An ENQUEUE whose addresses are inside QSM does not stop (40_queue.md R151). -/
theorem enqueueMicro_ok {l : EnqLocals} {p : EnqPoint} (hl : l.Inv s) (hp : p.Inv l) :
    ∃ t x, enqueueMicro l p s = .ok (t, x) := by
  cases p with
  | e2 => exact ⟨_, _, rfl⟩
  | e3 j =>
    have hj : j < l.size := hp
    have hb : l.base + l.idx * l.size + j < s.cfg.qsmBytes := by have := hl.2.2; omega
    exact ⟨_, _, by simp only [enqueueMicro, enqueueE3_ok s hb]; rfl⟩
  | e4 => exact ⟨_, _, rfl⟩

/-- The micro-step that follows a copy is in range (40_queue.md R152). -/
theorem EnqLocals.copyFrom_inv (l : EnqLocals) (j : Nat) : (l.copyFrom j).Inv l := by
  unfold EnqLocals.copyFrom
  split
  next h => exact h
  · trivial

theorem EnqLocals.copyFrom_ne_e2 (l : EnqLocals) (j : Nat) : l.copyFrom j ≠ .e2 := by
  unfold EnqLocals.copyFrom; split <;> simp

/-- Everything a later micro-step of a called ENQUEUE does. -/
theorem resumeEnqueue_cases {i : Instr} {l : EnqLocals} {p : EnqPoint} {ret : Status → State → State} {t : State}
    (h : resumeEnqueue i l p ret s = .next t) :
    (p = .e2 ∧ t = (enqueueE2 l s).goOn i (.enqueue l (l.copyFrom 0))) ∨
    (∃ j, p = .e3 j ∧ l.base + l.idx * l.size + j < s.cfg.qsmBytes ∧
      t = (s.setQsm (s.qsm.write (l.base + l.idx * l.size + j) (l.item.getD j 0))).goOn i
        (.enqueue l (l.copyFrom (j + 1)))) ∨
    (p = .e4 ∧ t = ret (if ((enqueueE4 l s).1.queue l.q).qinv then .faulted else .ok) (enqueueE4 l s).1) := by
  unfold resumeEnqueue at h
  split at h
  · simp at h
  next s1 st hm =>
    injection h with h; subst h
    rcases enqueueMicro_cases s hm with ⟨rfl, rfl, hx⟩ | ⟨j, rfl, hb, rfl, hx⟩ | ⟨rfl, rfl, hx⟩
    · simp at hx
    · simp at hx
    · injection hx with hx; exact .inr (.inr ⟨rfl, by rw [hx]⟩)
  next s1 p1 hm =>
    injection h with h; subst h
    rcases enqueueMicro_cases s hm with ⟨rfl, rfl, hx⟩ | ⟨j, rfl, hb, rfl, hx⟩ | ⟨rfl, rfl, hx⟩
    · injection hx with hx; exact .inl ⟨rfl, by rw [hx]⟩
    · injection hx with hx; exact .inr (.inl ⟨j, rfl, hb, by rw [hx]⟩)
    · simp at hx

/-! ### DEQUEUE -/

/-- The locals that D1 reads (40_queue.md R153). -/
def State.take (s : State) (q : QId) : DeqLocals where
  q := q
  f := (s.queue q).front.toNat
  base := (s.queue q).base.toNat
  size := (s.queue q).itemSize.toNat
  out := []

/-- Everything D1 can do (40_queue.md R153): it refuses, or it reads the front slot's locals; it changes nothing. -/
theorem dequeueD1_cases (q : QId) :
    (∃ st, dequeueD1 q s = .inl st ∧ st ≠ .ok ∧
      ((st = .faulted ∧ (s.queue q).qinv = true) ∨
        (st = .notInit ∧ (s.queue q).qinv = false ∧ (s.queue q).init = false) ∨
        (st = .empty ∧ s.usable q ∧ (s.queue q).ready = 0))) ∨
    (dequeueD1 q s = .inr (s.take q) ∧ s.usable q ∧ (s.queue q).ready ≠ 0) := by
  by_cases h : (s.queue q).qinv = true
  · exact .inl ⟨.faulted, by simp [dequeueD1, h], by decide, .inl ⟨rfl, h⟩⟩
  have h' : (s.queue q).qinv = false := by simpa using h
  by_cases hi : (s.queue q).init = true
  · by_cases hr : (s.queue q).ready = 0
    · exact .inl ⟨.empty, by simp [dequeueD1, h', hi, hr], by decide, .inr (.inr ⟨rfl, ⟨hi, h'⟩, hr⟩)⟩
    · refine .inr ⟨?_, ⟨hi, h'⟩, hr⟩
      simp only [dequeueD1, h', hi, Bool.not_true, Bool.false_eq_true, if_false, if_neg hr, State.take]
  · have hi' : (s.queue q).init = false := by simpa using hi
    exact .inl ⟨.notInit, by simp [dequeueD1, h', hi'], by decide, .inr (.inl ⟨rfl, h', hi'⟩)⟩

theorem callDequeue_cases (i : Instr) (q : QId) :
    (∃ st, callDequeue i q s = s.reply i.port (.plain st) ∧ st ≠ .ok) ∨
    (callDequeue i q s = s.goOn i (.dequeue (s.take q) ((s.take q).copyFrom 0)) ∧ s.usable q ∧
      (s.queue q).ready ≠ 0) := by
  rcases dequeueD1_cases s q with ⟨st, h, hst, -⟩ | ⟨h, hu, hr⟩
  · exact .inl ⟨st, by simp only [callDequeue, h], hst⟩
  · exact .inr ⟨by simp only [callDequeue, h], hu, hr⟩

/-- D2.j in range reads one byte of the slot. -/
theorem dequeueD2_ok {l : DeqLocals} {j : Nat} (h : l.base + l.f * l.size + j < s.cfg.qsmBytes) :
    dequeueD2 l j s = .ok { l with out := l.out ++ [s.qsm.read (l.base + l.f * l.size + j)] } := by
  simp [dequeueD2, State.qsmRead, h]

theorem dequeueD2_cases {l k : DeqLocals} {j : Nat} (h : dequeueD2 l j s = .ok k) :
    l.base + l.f * l.size + j < s.cfg.qsmBytes ∧
      k = { l with out := l.out ++ [s.qsm.read (l.base + l.f * l.size + j)] } := by
  by_cases hb : l.base + l.f * l.size + j < s.cfg.qsmBytes
  · rw [dequeueD2_ok s hb] at h; injection h with h; exact ⟨hb, h.symm⟩
  · simp [dequeueD2, State.qsmRead, hb] at h

/-- Everything a later micro-step of a called DEQUEUE does (40_queue.md R153). -/
theorem resumeDequeue_cases {i : Instr} {l : DeqLocals} {p : DeqPoint} {t : State}
    (h : resumeDequeue i l p s = .next t) :
    (∃ j l1, p = .d2 j ∧ l.base + l.f * l.size + j < s.cfg.qsmBytes ∧
      l1 = { l with out := l.out ++ [s.qsm.read (l.base + l.f * l.size + j)] } ∧
      t = s.goOn i (.dequeue l1 (l1.copyFrom (j + 1)))) ∨
    (p = .d3 ∧ t = (dequeueD3 l.q s).goOn i (.dequeue l .d4)) ∨
    (p = .d4 ∧ t = (dequeueD4 l.q s).reply i.port (dequeueResult l (dequeueD4 l.q s)).response) := by
  cases p with
  | d2 j =>
    simp only [resumeDequeue, dequeueMicro] at h
    cases hd : dequeueD2 l j s with
    | error f => simp [hd] at h
    | ok l1 =>
      simp only [hd, Host.Outcome.next.injEq] at h
      obtain ⟨hb, he⟩ := dequeueD2_cases s hd
      exact .inl ⟨j, l1, rfl, hb, he, h.symm⟩
  | d3 =>
    simp only [resumeDequeue, dequeueMicro, Host.Outcome.next.injEq] at h
    exact .inr (.inl ⟨rfl, h.symm⟩)
  | d4 =>
    simp only [resumeDequeue, dequeueMicro, Host.Outcome.next.injEq] at h
    exact .inr (.inr ⟨rfl, h.symm⟩)

/-- A DEQUEUE whose addresses are inside QSM does not stop (40_queue.md R151). -/
theorem resumeDequeue_next {i : Instr} {l : DeqLocals} {p : DeqPoint} (hl : l.Inv s) (hp : p.Inv l) :
    ∃ t, resumeDequeue i l p s = .next t := by
  cases p with
  | d2 j =>
    have hj : j < l.size := hp.1
    have hb : l.base + l.f * l.size + j < s.cfg.qsmBytes := by have := hl.2; omega
    exact ⟨_, by simp only [resumeDequeue, dequeueMicro, dequeueD2_ok s hb]; rfl⟩
  | d3 => exact ⟨_, rfl⟩
  | d4 => exact ⟨_, rfl⟩

theorem resumeEnqueue_next {i : Instr} {l : EnqLocals} {p : EnqPoint} {ret : Status → State → State}
    (hl : l.Inv s) (hp : p.Inv l) : ∃ t, resumeEnqueue i l p ret s = .next t := by
  obtain ⟨t, x, h⟩ := enqueueMicro_ok s hl hp
  cases x with
  | inl st => exact ⟨ret st t, by simp only [resumeEnqueue, h]⟩
  | inr p1 => exact ⟨t.goOn i (.enqueue l p1), by simp only [resumeEnqueue, h]⟩

/-- Everything DEQUEUE_ATOMIC can do (40_queue.md R154): it refuses and changes nothing, or D3 and D4 happen and the
item is the slot's bytes, unless the check of D4 finds the queue faulted. -/
theorem dequeueAtomic_cases {q : QId} {t : State} {r : DeqResult} (h : dequeueAtomic q s = .ok (t, r)) :
    (∃ st, t = s ∧ r = .refused st ∧ st ≠ .ok ∧ dequeueD1 q s = .inl st) ∨
    (t = dequeueD4 q (dequeueD3 q s) ∧ s.usable q ∧ (s.queue q).ready ≠ 0 ∧
      r = (if (t.queue q).qinv then .refused .faulted
        else .item (s.queue q).itemSize.toNat (s.slot q (s.queue q).front.toNat))) := by
  unfold dequeueAtomic at h
  rcases dequeueD1_cases s q with ⟨st, hd, hst, -⟩ | ⟨hd, hu, hr⟩
  · simp only [hd, Except.ok.injEq, Prod.mk.injEq] at h
    exact .inl ⟨st, h.1.symm, h.2.symm, hst, hd⟩
  · simp only [hd] at h
    split at h
    · simp at h
    next bytes hb =>
      simp only [Except.ok.injEq, Prod.mk.injEq] at h
      obtain ⟨rfl, rfl⟩ := h
      refine .inr ⟨rfl, hu, hr, ?_⟩
      simp only [State.qsmReadBytes] at hb
      split at hb
      · injection hb with hb
        rw [← hb]
        rfl
      · simp at hb

/-- DEQUEUE_ATOMIC of a queue whose front slot is inside QSM does not stop (40_queue.md R151). -/
theorem dequeueAtomic_ok {q : QId} (h : (s.queue q).init = true → (s.queue q).GeometryOk s.cfg) :
    ∃ t r, dequeueAtomic q s = .ok (t, r) := by
  unfold dequeueAtomic
  rcases dequeueD1_cases s q with ⟨st, hd, -, -⟩ | ⟨hd, hu, -⟩
  · exact ⟨s, .refused st, by simp only [hd]⟩
  · obtain ⟨-, -, -, hb, hf⟩ := h hu.1
    have : (s.queue q).base.toNat + (s.queue q).front.toNat * (s.queue q).itemSize.toNat
        + (s.queue q).itemSize.toNat ≤ s.cfg.qsmBytes := by
      have := Nat.mul_le_mul_right (s.queue q).itemSize.toNat (Nat.succ_le_of_lt hf)
      rw [Nat.succ_mul] at this
      omega
    have hq : s.qsmReadBytes ((s.take q).base + (s.take q).f * (s.take q).size) (s.take q).size =
        .ok (s.qsm.readBytes ((s.take q).base + (s.take q).f * (s.take q).size) (s.take q).size) := by
      unfold State.qsmReadBytes
      rw [if_pos (.inr this)]
    simp only [hd, hq]
    exact ⟨_, _, rfl⟩

end Sys2Proof.Machine
end

