-- ==== Sys2Proof/Laws/Outcome.lean ====
section
/-! SUPPORT. What ending a command and going on with one leave as they were, in the terms of Safety.lean. -/

namespace Sys2Proof.Machine

variable (s : State)

theorem State.sameFtc_refl : s.SameFtc s :=
  ⟨⟨rfl, rfl, rfl, rfl, rfl, rfl, rfl, rfl, rfl, rfl⟩, fun _ => rfl, fun _ => rfl⟩

/-- The end of a command, on either port. -/
theorem State.reply_ended (p : Port) (r : Response) : s.Ended p r (s.reply p r) := by
  refine ⟨by simp, by simp, fun u hu => ?_, ?_, ?_⟩
  · cases p
    · rw [State.reply_command_ctx, if_neg hu]
    · rw [State.reply_event_ctx, if_neg hu]
  · rintro rfl
    exact ⟨by rw [State.reply_command_ctx, if_pos rfl], rfl⟩
  · rintro rfl
    exact ⟨by rw [State.reply_event_ctx, if_pos rfl], rfl⟩

theorem State.reply_sameEnv (p : Port) (r : Response) : s.SameEnv (s.reply p r) := by cases p <;> rfl

theorem State.reply_sameFtc (p : Port) (r : Response) : s.SameFtc (s.reply p r) := by
  cases p <;> exact s.sameFtc_refl

theorem State.reply_onlyAnswered (p : Port) (r : Response) : s.OnlyAnswered p r (s.reply p r) :=
  ⟨s.reply_ended p r, s.reply_sameFtc p r, s.reply_sameEnv p r⟩

/-- A state whose contexts, configuration, schedule and response sink are those of s ends a command as s does. -/
theorem State.Ended.of_contexts {s m : State} {p : Port} {r : Response} {t : State} (h : m.Ended p r t)
    (hcfg : m.cfg = s.cfg) (hsched : m.schedule = s.schedule) (hctx : m.ctxs = s.ctxs)
    (hsink : m.env.eventSink = s.env.eventSink) : s.Ended p r t := by
  have hc : ∀ u, m.ctx u = s.ctx u := fun u => by rw [State.ctx, hctx]; rfl
  have hr : m.running = s.running := State.running_congr fun u => by rw [hc]
  obtain ⟨h1, h2, h3, h4, h5⟩ := h
  rw [hr] at h3 h4 h5
  rw [hc] at h4 h5
  rw [hsink] at h4 h5
  exact ⟨h1.trans hcfg, h2.trans hsched, fun u hu => (h3 u hu).trans (hc u), h4, h5⟩

/-- Going on with a command. -/
theorem State.goOn_wentOn (i : Instr) (ph : Phase) : s.WentOn i ph (s.goOn i ph) := by
  refine ⟨rfl, rfl, fun u hu => ?_, ?_, rfl⟩
  · rw [State.goOn_ctx, if_neg hu]
  · rw [State.goOn_ctx, if_pos rfl]

theorem State.goOn_sameFtc (i : Instr) (ph : Phase) : s.SameFtc (s.goOn i ph) := s.sameFtc_refl

theorem State.goOn_sameEnv (i : Instr) (ph : Phase) : s.SameEnv (s.goOn i ph) := rfl

/-- A state whose contexts, configuration, schedule and response sink are those of s goes on as s does. -/
theorem State.WentOn.of_contexts {s m : State} {i : Instr} {ph : Phase} {t : State} (h : m.WentOn i ph t)
    (hcfg : m.cfg = s.cfg) (hsched : m.schedule = s.schedule) (hctx : m.ctxs = s.ctxs)
    (hsink : m.env.eventSink = s.env.eventSink) : s.WentOn i ph t := by
  have hc : ∀ u, m.ctx u = s.ctx u := fun u => by rw [State.ctx, hctx]; rfl
  have hr : m.running = s.running := State.running_congr fun u => by rw [hc]
  obtain ⟨h1, h2, h3, h4, h5⟩ := h
  rw [hr] at h3 h4
  rw [hc] at h4
  rw [hsink] at h5
  exact ⟨h1.trans hcfg, h2.trans hsched, fun u hu => (h3 u hu).trans (hc u), h4, h5⟩

end Sys2Proof.Machine
end

