-- ==== Sys2Proof/Laws/Kick.lean ====
section
/-! SUPPORT. What taking an item in one micro-step, the kicks and the calls of ACCEPT can do: one lemma per operation. -/

namespace Sys2Proof.Machine

variable (s : State)

/-! ### Taking an item -/

/-- After D3 and D4 of a queue in order the registers are the popped ones and no fault is raised (40_queue.md R153,
R162). -/
theorem dequeueD4_D3_eq {q : QId} (hr : (s.queue q).ready ≠ 0)
    (hc : (s.queue q).countersOk) : dequeueD4 q (dequeueD3 q s) = s.setQueue q (s.queue q).popped := by
  obtain ⟨h1, h2⟩ := hc
  rw [BitVec.le_def] at h1 h2
  have hr' : (s.queue q).ready.toNat ≠ 0 := fun e => hr (BitVec.eq_of_toNat_eq (by simpa using e))
  have hready : ((s.queue q).ready - 1).toNat = (s.queue q).ready.toNat - 1 := by
    rw [BitVec.toNat_sub_of_le (by rw [BitVec.le_def]; simp; omega)]; rfl
  have hclaimed : ((s.queue q).claimed - 1).toNat = (s.queue q).claimed.toNat - 1 := by
    rw [BitVec.toNat_sub_of_le (by rw [BitVec.le_def]; simp; omega)]; rfl
  have hd3 : dequeueD3 q s = s.setQueue q { s.queue q with ready := (s.queue q).ready - 1 } := by
    unfold dequeueD3 State.checkInv
    rw [if_pos]
    simp only [State.setQueue_queue_self, Queue.countersOk, BitVec.le_def, hready]
    omega
  rw [hd3]
  unfold dequeueD4 State.checkInv
  rw [if_pos]
  · simp only [State.setQueue_queue_self, State.setQueue_setQueue]
  · simp only [State.setQueue_queue_self, Queue.countersOk, BitVec.le_def, hready, hclaimed]
    omega

/-- DEQUEUE_ATOMIC of a usable queue with an item (40_queue.md R154). -/
theorem dequeueAtomic_item {q : QId} (h : s.hasItem q) (hc : (s.queue q).countersOk)
    (hg : (s.queue q).GeometryOk s.cfg) :
    dequeueAtomic q s =
      .ok (s.setQueue q (s.queue q).popped, .item (s.queue q).itemSize.toNat (s.slot q (s.queue q).front.toNat)) := by
  obtain ⟨t, r, ht⟩ := dequeueAtomic_ok s (q := q) fun _ => hg
  rcases dequeueAtomic_cases s ht with ⟨st, -, -, -, hd⟩ | ⟨rfl, -, -, rfl⟩
  · rcases dequeueD1_cases s q with ⟨st', hd', -, h1 | h1 | h1⟩ | ⟨hd', -⟩
    · exact absurd h1.2 (by simp [h.1.2])
    · exact absurd h1.2.2 (by simp [h.1.1])
    · exact absurd h1.2.2 h.2
    · rw [hd] at hd'; simp at hd'
  · rw [ht, dequeueD4_D3_eq s h.2 hc]
    simp [h.1.2]

/-- DEQUEUE_ATOMIC of a queue with nothing to take changes nothing (40_queue.md R154). -/
theorem dequeueAtomic_none {q : QId} (h : ¬ s.hasItem q) : ∃ st, st ≠ .ok ∧ dequeueAtomic q s = .ok (s, .refused st) := by
  rcases dequeueD1_cases s q with ⟨st, hd, hst, -⟩ | ⟨-, hu, hr⟩
  · exact ⟨st, hst, by simp only [dequeueAtomic, hd]⟩
  · exact absurd ⟨hu, hr⟩ h

/-! ### The kicks -/

/-- Everything the UART kick can do (42_uart_framer.md R241). -/
theorem kickUart_cases {t : State} {b : Bool} (h : kickUart s = .ok (t, b)) :
    (t = s ∧ b = false) ∨
    (∃ s1 r, s.ufr.utxBusy = false ∧ dequeueAtomic .q0 s = .ok (s1, r) ∧
      ((∃ st, r = .refused st ∧ t = s1 ∧ b = false) ∨
        ∃ n item, r = .item n item ∧ b = true ∧
          t = (s1.emitUartTx (s1.cfg.startCode ++ uartPacket s1.cfg item)).setUfr { s1.ufr with utxBusy := true })) := by
  unfold kickUart at h
  split at h
  · simp only [Except.ok.injEq, Prod.mk.injEq] at h
    exact .inl ⟨h.1.symm, h.2.symm⟩
  next hb =>
    split at h
    · simp at h
    next s1 st hd =>
      simp only [Except.ok.injEq, Prod.mk.injEq] at h
      exact .inr ⟨s1, _, by simpa using hb, hd, .inl ⟨st, rfl, h.1.symm, h.2.symm⟩⟩
    next s1 n item hd =>
      simp only [Except.ok.injEq, Prod.mk.injEq] at h
      exact .inr ⟨s1, _, by simpa using hb, hd, .inr ⟨n, item, rfl, h.2.symm, h.1.symm⟩⟩

/-- Everything the SPI kick can do (43_spi_transport.md R275). -/
theorem kickSpi_cases {t : State} {b : Bool} (h : kickSpi s = .ok (t, b)) :
    (t = s ∧ b = false) ∨ (s.spx.busy = false ∧ t = s.setSpx { s.spx with ctsArmed := true } ∧ b = false) ∨
    (∃ s1 r, s.spx.busy = false ∧ dequeueAtomic .q0 s = .ok (s1, r) ∧
      ((∃ st, r = .refused st ∧
          ((t = startTransfer (zeros s1.cfg.maxPacketSize) s1 ∧ b = true) ∨ (t = s1 ∧ b = false))) ∨
        ∃ n item, r = .item n item ∧ b = true ∧ t = startTransfer (fit s1.cfg.maxPacketSize item) s1)) := by
  unfold kickSpi at h
  split at h
  · simp only [Except.ok.injEq, Prod.mk.injEq] at h
    exact .inl ⟨h.1.symm, h.2.symm⟩
  next hb =>
    have hb' : s.spx.busy = false := by simpa using hb
    split at h
    · simp only [Except.ok.injEq, Prod.mk.injEq] at h
      exact .inr (.inl ⟨hb', h.1.symm, h.2.symm⟩)
    · split at h
      · simp at h
      next s1 n item hd =>
        simp only [Except.ok.injEq, Prod.mk.injEq] at h
        exact .inr (.inr ⟨s1, _, hb', hd, .inr ⟨n, item, rfl, h.2.symm, h.1.symm⟩⟩)
      next s1 st hd =>
        split at h
        all_goals
          simp only [Except.ok.injEq, Prod.mk.injEq] at h
          refine .inr (.inr ⟨s1, _, hb', hd, .inl ⟨st, rfl, ?_⟩⟩)
        · exact .inl ⟨h.1.symm, h.2.symm⟩
        · exact .inr ⟨h.1.symm, h.2.symm⟩

/-! ### ACCEPT -/

/-- Everything a call of ACCEPT does to the caller (44_comms.md R314). -/
theorem callAccept_cases (i : Instr) (pkt : List Byte) (ret : Nat → State → State) :
    (callAccept i pkt ret s = ret 3 s ∧ pkt ≠ [] ∧ pkt.headD 0 = 0) ∨
    (callAccept i pkt ret s = ret 1 (s.setCrcFail (s.crcFail + 1)) ∧ verify s.cfg pkt = false) ∨
    (callAccept i pkt ret s =
        callEnqueue i .q1 (acceptItem s pkt) (fun st => State.goOn i (.afterEnqueue st)) s ∧
      verify s.cfg pkt = true ∧ pkt.headD 0 ≠ 0) := by
  unfold callAccept
  split
  next h =>
    simp only [Bool.and_eq_true, Bool.not_eq_true', List.isEmpty_eq_false_iff, beq_iff_eq] at h
    exact .inl ⟨rfl, h.1, h.2⟩
  next h =>
    split
    next hv => exact .inr (.inl ⟨rfl, by simpa using hv⟩)
    next hv =>
      have hv' : verify s.cfg pkt = true := by simpa using hv
      refine .inr (.inr ⟨rfl, hv', fun h0 => h ?_⟩)
      cases pkt with
      | nil => simp [verify] at hv'
      | cons b rest => simpa using h0

end Sys2Proof.Machine
end

