-- ==== Sys2Proof/Laws/Invariant.lean ====
section
/-! SUPPORT. What the parts of a micro-step do to the invariant of Safety.lean, one lemma per shared operation: the two
ways a micro-step can leave its command (ending it, going on with it), the called procedures, the kicks and the framer. -/

namespace Sys2Proof.Machine

/-- The part of `Inv` that is about the units, the queues and the environment, and not about the contexts. -/
structure UnitsInv (s : State) : Prop where
  config : s.cfg.WF
  qsm : s.qsm.WF ∧ ∀ c ∈ s.qsm, c.1 < s.cfg.qsmBytes
  queues : ∀ q, (s.queue q).Inv s.cfg
  faults : (s.accFatal = true → s.faultEver = true) ∧ ∀ q, (s.queue q).qinv = true → s.faultEver = true
  ufr : s.ufr.Inv s.cfg
  utx : s.ufr.utxBusy = true → s.link = .uart
  spx : s.spx.Inv s.cfg s.link
  acc : s.acc.Inv s.cfg s.accFatal
  buffers : ∀ rx ∈ s.env.spiDone, rx.length = s.cfg.maxPacketSize

/-- The invariant, without its contexts. -/
theorem Inv.units {s : State} (h : Inv s) : UnitsInv s :=
  ⟨h.config, h.qsm, h.queues, h.faults, h.ufr, h.utx, h.spx, h.acc, h.buffers⟩

/-- What the inside of a micro-step leaves true on the way from s to m, whatever it does to the contexts and MASK. -/
structure UnitStep (s m : State) : Prop where
  units : UnitsInv m
  cfg : m.cfg = s.cfg
  init : ∀ q, (s.queue q).init = true → (m.queue q).init = true
  link : m.link = s.link ∨ s.link = .none

theorem UnitStep.refl {s : State} (h : UnitsInv s) : UnitStep s s := ⟨h, rfl, fun _ h => h, .inl rfl⟩

theorem UnitStep.trans {a b c : State} (h : UnitStep a b) (k : UnitStep b c) : UnitStep a c :=
  ⟨k.units, k.cfg.trans h.cfg, fun q hq => k.init q (h.init q hq), by
    rcases k.link with e | e <;> rcases h.link with f | f
    · exact .inl (e.trans f)
    · exact .inr f
    · exact .inr (f ▸ e)
    · exact .inr f⟩

/-- The local variables of a command in progress stay in range. -/
theorem Phase.LocalsInv.mono {s m : State} (h : UnitStep s m) {ph : Phase} (hp : ph.LocalsInv s) :
    ph.LocalsInv m := by
  cases ph with
  | enqueue l p => exact ⟨⟨h.init _ hp.1.1, hp.1.2.1, by rw [h.cfg]; exact hp.1.2.2⟩, hp.2⟩
  | dequeue l p => exact ⟨⟨h.init _ hp.1.1, by rw [h.cfg]; exact hp.1.2⟩, hp.2⟩
  | _ => trivial

/-- A context record stays in range (10_state.md R49). -/
theorem Record.Inv.mono {s m : State} (h : UnitStep s m) {r : Record} (hr : r.Inv s) : r.Inv m := by
  cases r with
  | busy i ph =>
    obtain ⟨h1, h2, h3⟩ := hr
    refine ⟨h1, h2.mono h, ?_⟩
    rcases h.link with e | e
    · rw [e]; exact h3
    · rw [e] at h3
      cases i <;> trivial
  | _ => trivial

/-- Every context above the running one is IDLE (60_exceptions.md R417). -/
theorem Inv.above {s : State} (h : Inv s) {u : Level} (hu : s.running < u) : (s.ctx u).record = .idle := by
  by_contra hr
  rcases (h.contexts u).2 hr with he | rfl
  · exact absurd (s.le_running he) (not_le.2 hu)
  · exact absurd hu (not_lt.2 (Fin.zero_le _))

/-- A micro-step of the running context keeps the invariant: the units and every other record stay in range,
    and MASK is left
alone, raised at the start of a claim window (E1), or put back at its end (E2) (60_exceptions.md R419). -/
theorem Inv.of_unitStep {s t : State} (h : Inv s) (hi : UnitStep s t)
    (hoth : ∀ u, u ≠ s.running → t.ctx u = s.ctx u)
    (hent : (t.ctx s.running).entered = true → (s.ctx s.running).entered = true)
    (hrec : (t.ctx s.running).record ≠ .idle → (t.ctx s.running).entered = (s.ctx s.running).entered)
    (hrinv : (t.ctx s.running).record.Inv t)
    (h0 : s.running = 0 → (t.ctx s.running).record.OnCommandPort)
    (hm : (t.mask = s.mask ∧ (t.ctx s.running).record.windowSaved = s.record.windowSaved) ∨
      (s.record.windowSaved = none ∧ (t.ctx s.running).record.windowSaved = some s.mask) ∨
      (s.record.windowSaved = some t.mask ∧ (t.ctx s.running).record.windowSaved = none)) : Inv t := by
  have U := hi.units
  refine ⟨U.config, U.qsm, U.queues, U.faults, U.ufr, U.utx, U.spx, U.acc, ?_, ?_, ?_, ?_, U.buffers⟩
  · intro u
    rw [hi.cfg]
    by_cases hu : u = s.running
    · subst hu
      refine ⟨fun he => (h.contexts _).1 (hent he), fun hr => ?_⟩
      rw [hrec hr]
      rcases s.running_entered with e | e
      · exact .inr e
      · exact .inl e
    · rw [hoth u hu]; exact h.contexts u
  · intro u
    by_cases hu : u = s.running
    · subst hu; exact hrinv
    · rw [hoth u hu]; exact (h.records u).mono hi
  · by_cases hu : (0 : Level) = s.running
    · rw [hu]; exact h0 hu.symm
    · rw [hoth 0 hu]; exact h.thread
  · -- mask
    obtain ⟨m1, m2⟩ := h.mask
    have hs : s.record = (s.ctx s.running).record := rfl
    rcases hm with ⟨e1, e2⟩ | ⟨e1, e2⟩ | ⟨e1, e2⟩
    · have hw : ∀ u, (t.ctx u).record.windowSaved = (s.ctx u).record.windowSaved := by
        intro u
        by_cases hu : u = s.running
        · subst hu; exact e2
        · rw [hoth u hu]
      refine ⟨fun ha => ?_, fun u hb => ?_⟩
      · rw [e1]; exact m1 fun u => (hw u).symm.trans (ha u)
      · rw [hw u]; exact m2 u fun v hv => (hw v).symm.trans (hb v hv)
    · refine ⟨fun ha => absurd (ha s.running) (by rw [e2]; simp), fun u hb => ?_⟩
      rcases lt_trichotomy u s.running with hu | hu | hu
      · rw [hoth u (ne_of_lt hu)]
        exact m2 u fun v hv => by rw [← hoth v (ne_of_lt (hv.trans hu))]; exact hb v hv
      · subst hu
        right; rw [e2]
        congr 1
        apply m1
        intro v
        rcases lt_trichotomy v s.running with hv | hv | hv
        · rw [← hoth v (ne_of_lt hv)]; exact hb v hv
        · rw [hv]; exact e1
        · rw [h.above hv]; rfl
      · exact absurd (hb _ hu) (by rw [e2]; simp)
    · refine ⟨fun ha => ?_, fun u hb => ?_⟩
      · have := m2 s.running fun v hv => by rw [← hoth v (ne_of_lt hv)]; exact ha v
        rw [← hs, e1] at this
        rcases this with e | e
        · simp at e
        · injection e
      · rcases lt_trichotomy u s.running with hu | hu | hu
        · rw [hoth u (ne_of_lt hu)]
          exact m2 u fun v hv => by rw [← hoth v (ne_of_lt (hv.trans hu))]; exact hb v hv
        · subst hu; exact .inl e2
        · left; rw [hoth u (ne_of_gt hu), h.above hu]; rfl

/-! ### The units -/

theorem UnitsInv.reply {s : State} (h : UnitsInv s) (p : Port) (r : Response) : UnitsInv (s.reply p r) := by
  obtain ⟨a, b, c, d, e, f, g, i, j⟩ := h
  cases p <;> exact ⟨a, b, c, d, e, f, g, i, j⟩

theorem UnitsInv.goOn {s : State} (h : UnitsInv s) (i : Instr) (p : Phase) : UnitsInv (s.goOn i p) := by
  obtain ⟨a, b, c, d, e, f, g, i, j⟩ := h
  exact ⟨a, b, c, d, e, f, g, i, j⟩

theorem UnitsInv.setMask {s : State} (h : UnitsInv s) (m : BitVec 4) : UnitsInv (s.setMask m) := by
  obtain ⟨a, b, c, d, e, f, g, i, j⟩ := h
  exact ⟨a, b, c, d, e, f, g, i, j⟩

/-- A counted micro-step of an initialised queue keeps the units in range. -/
theorem UnitsInv.counted {s t : State} {q : QId} {r : Queue} {m : BitVec 4} (h : UnitsInv s) (hc : Counted q r m s t)
    (hr : r.init = true) (hg : r.GeometryOk s.cfg) (hq : r.qinv = (s.queue q).qinv) : UnitsInv t := by
  have hqs := hc.queue_self
  have hqo : ∀ p, p ≠ q → t.queue p = s.queue p := fun p hp => hc.queue_of_ne hp
  have hf := hc.faultEver
  have hfr := hc.frame
  have e : ∀ p, (t.queue p).Inv s.cfg := by
    intro p
    by_cases hp : p = q
    · subst hp
      rw [hqs]
      refine ⟨fun _ => hg, fun hi => absurd hi (by simp [hr]), fun hi => ?_⟩
      simp only [Bool.or_eq_false_iff, Bool.not_eq_false', decide_eq_true_eq] at hi
      exact hi.2
    · rw [hqo p hp]; exact h.queues p
  refine ⟨by rw [hfr]; exact h.config, by rw [hfr]; exact h.qsm, fun p => by rw [hfr]; exact e p, ?_,
      by rw [hfr]; exact h.ufr, by rw [hfr]; exact h.utx, by rw [hfr]; exact h.spx, by rw [hfr]; exact h.acc,
      by rw [hfr]; exact h.buffers⟩
  refine ⟨?_, ?_⟩
  · intro ha
    rw [hf, h.faults.1 (by rw [hfr] at ha; exact ha)]; rfl
  · intro p hp
    rw [hf]
    by_cases hpq : p = q
    · subst hpq
      rw [hqs] at hp
      simp only [Bool.or_eq_true] at hp ⊢
      rcases hp with hp | hp
      · exact .inl (h.faults.2 p (by rw [← hq]; exact hp))
      · exact .inr hp
    · rw [hqo p hpq] at hp
      rw [h.faults.2 p hp]; rfl

theorem UnitStep.counted {s t : State} {q : QId} {r : Queue} {m : BitVec 4} (h : UnitsInv s) (hc : Counted q r m s t)
    (hr : r.init = true) (hg : r.GeometryOk s.cfg) (hq : r.qinv = (s.queue q).qinv) : UnitStep s t := by
  have hfr := hc.frame
  refine ⟨h.counted hc hr hg hq, by rw [hfr], fun p hp => ?_, .inl (by rw [hfr])⟩
  by_cases hpq : p = q
  · subst hpq; rw [hc.queue_self]; exact hr
  · rw [hc.queue_of_ne hpq]; exact hp

/-- E2. -/
theorem UnitStep.e2 {s : State} (h : UnitsInv s) {l : EnqLocals} (hl : (s.queue l.q).init = true) :
    UnitStep s (enqueueE2 l s) :=
  UnitStep.counted h (enqueueE2_counted s l) hl ((h.queues l.q).1 hl) rfl

/-- E4. -/
theorem UnitStep.e4 {s : State} (h : UnitsInv s) {l : EnqLocals} (hl : (s.queue l.q).init = true) :
    UnitStep s (enqueueE4 l s).1 :=
  UnitStep.counted h (enqueueE4_counted s l) hl ((h.queues l.q).1 hl) rfl

/-- D3. -/
theorem UnitStep.d3 {s : State} (h : UnitsInv s) {q : QId} (hl : (s.queue q).init = true) : UnitStep s (dequeueD3 q
    s) :=
  UnitStep.counted h (dequeueD3_counted s q) hl ((h.queues q).1 hl) rfl

/-- D4. -/
theorem UnitStep.d4 {s : State} (h : UnitsInv s) {q : QId} (hl : (s.queue q).init = true) :
    UnitStep s (dequeueD4 q s) := by
  obtain ⟨g1, g2, g3, g4, g5⟩ := (h.queues q).1 hl
  refine UnitStep.counted h (dequeueD4_counted s q) hl ⟨g1, g2, g3, g4, ?_⟩ rfl
  show (BitVec.ofNat 16 _).toNat < _
  rw [BitVec.toNat_ofNat]
  have := Nat.mod_lt ((s.queue q).front.toNat + 1) (show (s.queue q).cap.toNat > 0 by omega)
  exact lt_of_le_of_lt (Nat.mod_le _ _) this

/-- E3.j. -/
theorem UnitStep.e3 {s : State} (h : UnitsInv s) {a : Nat} (ha : a < s.cfg.qsmBytes) (b : Byte) :
    UnitStep s (s.setQsm (s.qsm.write a b)) := by
  refine ⟨⟨h.config, ⟨h.qsm.1.write a b, fun c hc => ?_⟩, h.queues, h.faults, h.ufr, h.utx, h.spx, h.acc, h.buffers⟩,
    rfl, fun q hq => hq, .inl rfl⟩
  have := Memory.mem_write hc
  rcases this with hm | hm
  · rw [hm.1]; exact ha
  · exact h.qsm.2 c hm

/-- DEQUEUE_ATOMIC. -/
theorem UnitStep.atomic {s t : State} {q : QId} {r : DeqResult} (h : UnitsInv s) (ha : dequeueAtomic q s = .ok (t,
    r)) :
    UnitStep s t ∧ t.mask = s.mask ∧ t.ctxs = s.ctxs ∧ t.env = s.env ∧ t.ufr = s.ufr ∧ t.spx = s.spx ∧ t.link = s.link := by
  rcases dequeueAtomic_cases s ha with ⟨st, rfl, -⟩ | ⟨rfl, hu, -⟩
  · exact ⟨.refl h, rfl, rfl, rfl, rfl, rfl, rfl⟩
  · have h1 := UnitStep.d3 h hu.1
    refine ⟨h1.trans (UnitStep.d4 h1.units (h1.init _ hu.1)), ?_⟩
    have e1 := (dequeueD3_counted s q).frame
    have e2 := (dequeueD4_counted (dequeueD3 q s) q).frame
    rw [e2, e1]
    exact ⟨rfl, rfl, rfl, rfl, rfl, rfl⟩

/-- A `UnitStep` that leaves the contexts and MASK alone. -/
structure QuietStep (s m : State) : Prop extends UnitStep s m where
  mask : m.mask = s.mask
  ctxs : m.ctxs = s.ctxs

theorem QuietStep.refl {s : State} (h : UnitsInv s) : QuietStep s s := ⟨.refl h, rfl, rfl⟩

theorem UnitsInv.setEnv {s : State} (h : UnitsInv s) (e : Env)
    (he : e.spiDone = s.env.spiDone) : UnitsInv (s.setEnv e) := by
  obtain ⟨a, b, c, d, f, g, i, j, k⟩ := h
  exact ⟨a, b, c, d, f, g, i, j, by show ∀ rx ∈ e.spiDone, _; rw [he]; exact k⟩

/-- The UART kick (42_uart_framer.md R241). -/
theorem kickUart_quiet {s t : State} {b : Bool} (h : UnitsInv s) (hl : s.link = .uart) (hk : kickUart s = .ok (t,
    b)) : QuietStep s t := by
  rcases kickUart_cases s hk with ⟨rfl, -⟩ | ⟨s1, r, hb, hd, ⟨st, rfl, rfl, rfl⟩ | ⟨n, item, rfl, rfl, rfl⟩⟩
  · exact .refl h
  · obtain ⟨i, m, c, -⟩ := UnitStep.atomic h hd
    exact ⟨i, m, c⟩
  · obtain ⟨i, m, c, e, f, x, l⟩ := UnitStep.atomic h hd
    obtain ⟨a1, a2, a3, a4, a5, a6, a7, a8, a9⟩ := i.units
    exact ⟨⟨⟨a1, a2, a3, a4, a5, fun _ => l.trans hl, a7, a8, a9⟩, i.cfg, i.init, .inl l⟩, m, c⟩

theorem startTransfer_units {s : State} (h : UnitsInv s) (hl : s.link = .spi) {buf : List Byte}
    (hb : buf.length = s.cfg.maxPacketSize) : UnitsInv (startTransfer buf s) := by
  obtain ⟨a1, a2, a3, a4, a5, a6, a7, a8, a9⟩ := h
  exact ⟨a1, a2, a3, a4, a5, a6, ⟨rfl, hb, fun hn => absurd hl hn⟩, a8, a9⟩

theorem length_fit (n : Nat) (xs : List Byte) : (fit n xs).length = n := by
  simp [fit]

/-- The SPI kick (43_spi_transport.md R275). -/
theorem kickSpi_quiet {s t : State} {b : Bool} (h : UnitsInv s) (hl : s.link = .spi) (hk : kickSpi s = .ok (t, b)) :
    QuietStep s t := by
  rcases kickSpi_cases s hk with ⟨rfl, -⟩ | ⟨hb, rfl, -⟩ | ⟨s1, r, hb, hd, ⟨st, rfl, ⟨rfl, rfl⟩ | ⟨rfl, rfl⟩⟩ | ⟨n,
      item, rfl, rfl, rfl⟩⟩
  · exact .refl h
  · obtain ⟨a1, a2, a3, a4, a5, a6, a7, a8, a9⟩ := h
    exact ⟨⟨⟨a1, a2, a3, a4, a5, a6, ⟨a7.1, a7.2.1, fun hn => absurd hl hn⟩, a8, a9⟩, rfl, fun _ h => h, .inl rfl⟩,
        rfl, rfl⟩
  · obtain ⟨i, m, c, e, f, x, l⟩ := UnitStep.atomic h hd
    exact ⟨⟨startTransfer_units i.units (l.trans hl) (by simp), i.cfg, i.init, .inl l⟩, m, c⟩
  · obtain ⟨i, m, c, e, f, x, l⟩ := UnitStep.atomic h hd
    exact ⟨i, m, c⟩
  · obtain ⟨i, m, c, e, f, x, l⟩ := UnitStep.atomic h hd
    exact ⟨⟨startTransfer_units i.units (l.trans hl) (length_fit _ _), i.cfg, i.init, .inl l⟩, m, c⟩

/-- The kick of the selected transport (44_comms.md R311). -/
theorem kickLink_quiet {s t : State} {b : Bool} (h : UnitsInv s) (hk : kickLink s = .ok (t, b)) : QuietStep s t := by
  unfold kickLink at hk
  split at hk
  next e => exact kickSpi_quiet h e hk
  next e => exact kickUart_quiet h e hk
  · simp only [Except.ok.injEq, Prod.mk.injEq] at hk
    obtain ⟨rfl, -⟩ := hk; exact .refl h

theorem State.ctx_of_ctxs {s m : State} (h : m.ctxs = s.ctxs) (u : Level) : m.ctx u = s.ctx u := by
  rw [State.ctx, h]; rfl

theorem State.running_of_ctxs {s m : State} (h : m.ctxs = s.ctxs) : m.running = s.running :=
  State.running_congr fun u => by rw [State.ctx_of_ctxs h]

/-- Where a step runs command i: the invariant holds, context 0 runs commands of the command port only,
    and the running
context is at a first micro-step or in command i. -/
structure ReadyFor (i : Instr) (s : State) : Prop where
  inv : Inv s
  port : s.running = 0 → i.port = .command
  ph : s.record.windowSaved = none ∧ s.phase = .first ∨ s.record = .busy i s.phase

/-- A micro-step that ends its command outside the claim window keeps the invariant. -/
theorem Inv.reply {s m : State} (h : Inv s) (hi : UnitStep s m) (hc : m.ctxs = s.ctxs) (hm : m.mask = s.mask)
    (hw : s.record.windowSaved = none) (p : Port) (r : Response) : Inv (m.reply p r) := by
  have hr := State.running_of_ctxs hc
  have i2 : UnitStep s (m.reply p r) := ⟨hi.units.reply p r, by simpa using hi.cfg, by simpa using hi.init,
      by simpa using hi.link⟩
  have hrec : ((m.reply p r).ctx s.running).record = .idle := by
    rw [(m.reply_ctx r p s.running).1, if_pos hr.symm]
  refine Inv.of_unitStep h i2 ?_ ?_ ?_ ?_ ?_ ?_
  · intro u hu
    rw [← State.ctx_of_ctxs hc]
    exact (m.reply_ended p r).2.2.1 u (by rw [hr]; exact hu)
  · intro he
    rw [← State.ctx_of_ctxs hc]; exact (m.reply_ctx r p s.running).2 he
  · intro hne; exact absurd hrec hne
  · rw [hrec]; trivial
  · intro _; rw [hrec]; trivial
  · left; refine ⟨by simpa using hm, ?_⟩; rw [hrec, hw]; rfl

/-- A micro-step that goes on with its command keeps the invariant. -/
theorem Inv.goOn {s m : State} {i : Instr} {ph : Phase} (hR : ReadyFor i s) (hi : UnitStep s m) (hc : m.ctxs = s.ctxs)
    (hf : ph.Fits i) (hl : ph.LocalsInv m) (ho : handlerOnLink m.link i)
    (hm : (m.mask = s.mask ∧ (Record.busy i ph).windowSaved = s.record.windowSaved) ∨
      (s.record.windowSaved = none ∧ (Record.busy i ph).windowSaved = some s.mask) ∨
      (s.record.windowSaved = some m.mask ∧ (Record.busy i ph).windowSaved = none)) : Inv (m.goOn i ph) := by
  have hr := State.running_of_ctxs hc
  have hctx : (m.goOn i ph).ctx s.running = { s.ctx s.running with record := .busy i ph } := by
    rw [State.goOn_ctx, if_pos hr.symm, hr, State.ctx_of_ctxs hc]
  have i2 : UnitStep s (m.goOn i ph) := ⟨hi.units.goOn i ph, hi.cfg, hi.init, hi.link⟩
  refine Inv.of_unitStep hR.inv i2 ?_ ?_ ?_ ?_ ?_ ?_
  · intro u hu
    rw [State.goOn_ctx, if_neg (by rw [hr]; exact hu), State.ctx_of_ctxs hc]
  · rw [hctx]; exact id
  · rw [hctx]; intro _; rfl
  · rw [hctx]; refine ⟨hf, ?_, ho⟩
    have i3 : UnitStep m (m.goOn i ph) := ⟨hi.units.goOn i ph, rfl, fun _ h => h, .inl rfl⟩
    exact hl.mono i3
  · intro h0; rw [hctx]; exact hR.port h0
  · rw [hctx]; exact hm

theorem ReadyFor.link {i : Instr} {s : State} (h : ReadyFor i s)
    (hp : s.phase ≠ .first) : handlerOnLink s.link i := by
  rcases h.ph with ⟨-, e⟩ | e
  · exact absurd e hp
  · have := h.inv.records s.running
    change s.record.Inv s at this
    rw [e] at this; exact this.2.2

theorem ReadyFor.fits {i : Instr} {s : State} (h : ReadyFor i s) (hp : s.phase ≠ .first) :
    s.phase.Fits i ∧ s.phase.LocalsInv s := by
  rcases h.ph with ⟨-, e⟩ | e
  · exact absurd e hp
  · have := h.inv.records s.running
    change s.record.Inv s at this
    rw [e] at this; exact ⟨this.1, this.2.1⟩

/-- The claim window, from the phase. -/
theorem ReadyFor.window {i : Instr} {s : State} (h : ReadyFor i s) :
    s.record.windowSaved = (match s.phase with | .enqueue l .e2 => some l.saved | _ => none) := by
  rcases h.ph with ⟨e, e'⟩ | e
  · rw [e, e']
  · conv_lhs => rw [e]
    rcases hp : s.phase with _ | ⟨l, _ | _ | _⟩ | ⟨l, _⟩ | _ | _ <;> rfl

theorem handlerOnLink_mono {i : Instr} {s m : State} (h : UnitStep s m) (ho : handlerOnLink s.link i) :
    handlerOnLink m.link i := by
  rcases h.link with e | e
  · rw [e]; exact ho
  · rw [e] at ho; cases i <;> trivial

theorem Counted.ctxs {q : QId} {r : Queue} {m : BitVec 4} {s t : State} (h : Counted q r m s t) :
    t.ctxs = s.ctxs := by
  rw [h.frame]
theorem Counted.mask {q : QId} {r : Queue} {m : BitVec 4} {s t : State} (h : Counted q r m s t) : t.mask = m := by
  rw [h.frame]

/-- A call of ENQUEUE keeps the invariant where its return does. -/
theorem Inv.callEnqueue {s m : State} {i : Instr} {q : QId} {item : List Byte} {ret : Status → State → State}
    (hR : ReadyFor i s) (hph : s.phase = .first) (hi : UnitStep s m) (hc : m.ctxs = s.ctxs) (hm : m.mask = s.mask)
    (ho : handlerOnLink m.link i) (hfit : ∀ l p, l.q = q → (Phase.enqueue l p).Fits i)
    (hlen : item.length = (m.queue q).itemSize.toNat)
    (hret : ∀ st, Inv (ret st m)) : Inv (callEnqueue i q item ret m) := by
  have hw := hR.window
  rw [hph] at hw
  rcases callEnqueue_cases m i q item ret with ⟨st, e, -⟩ | ⟨e, hu, hlt⟩
  · rw [e]; exact hret st
  · rw [e]
    have U := hi.units
    have i2 : UnitStep s (m.setMask (raisedMask m.mask (m.queue q).ceil)) := ⟨U.setMask _, hi.cfg, hi.init, hi.link⟩
    obtain ⟨g1, g2, g3, g4, g5⟩ := (U.queues q).1 hu.1
    refine Inv.goOn hR i2 hc (hfit _ _ rfl) ⟨⟨hu.1, hlen, ?_⟩, trivial⟩ ho (.inr (.inl ⟨hw, ?_⟩))
    · show (m.queue q).base.toNat + ((m.queue q).front.toNat + (m.queue q).claimed.toNat) % (m.queue q).cap.toNat *
          (m.queue q).itemSize.toNat + (m.queue q).itemSize.toNat ≤ m.cfg.qsmBytes
      have h1 := Nat.mod_lt ((m.queue q).front.toNat + (m.queue q).claimed.toNat)
          (show (m.queue q).cap.toNat > 0 by omega)
      have h2 := Nat.mul_le_mul_right (m.queue q).itemSize.toNat (Nat.succ_le_of_lt h1)
      rw [Nat.succ_mul] at h2
      omega
    · show some m.mask = some s.mask
      rw [hm]

theorem Phase.LocalsInv.enqueue {s : State} {l : EnqLocals} {p p' : EnqPoint} (h : (Phase.enqueue l p).LocalsInv s)
    (hp : p'.Inv l) : (Phase.enqueue l p').LocalsInv s := ⟨h.1, hp⟩

theorem windowSaved_copyFrom (i : Instr) (l : EnqLocals) (j : Nat) :
    (Record.busy i (.enqueue l (l.copyFrom j))).windowSaved = none := by
  unfold EnqLocals.copyFrom; split <;> rfl

theorem Phase.fits_enqueue {i : Instr} {l : EnqLocals} {p p' : EnqPoint} (h : (Phase.enqueue l p).Fits i) :
    (Phase.enqueue l p').Fits i := by
  cases i <;> exact h

/-- A later micro-step of ENQUEUE keeps the invariant where its return does. -/
theorem Inv.resumeEnqueue {s t : State} {i : Instr} {l : EnqLocals} {p : EnqPoint} {ret : Status → State → State}
    (hR : ReadyFor i s) (hph : s.phase = .enqueue l p)
    (hret : ∀ st m, UnitStep s m → m.ctxs = s.ctxs → m.mask = s.mask → s.record.windowSaved = none → Inv (ret st m))
    (h : resumeEnqueue i l p ret s = .next t) : Inv t := by
  have hne : s.phase ≠ .first := by rw [hph]; simp
  obtain ⟨hf, hl⟩ := hR.fits hne
  have ho := hR.link hne
  have hw := hR.window
  rw [hph] at hf hl hw
  have U := hR.inv.units
  rcases resumeEnqueue_cases s h with ⟨rfl, rfl⟩ | ⟨j, rfl, hb, rfl⟩ | ⟨rfl, rfl⟩
  · have hi := UnitStep.e2 U hl.1.1
    have hc := enqueueE2_counted s l
    refine Inv.goOn hR hi (Counted.ctxs hc) (Phase.fits_enqueue hf) ((hl.enqueue (l.copyFrom_inv 0)).mono hi)
        (handlerOnLink_mono hi ho) (.inr (.inr ⟨?_, windowSaved_copyFrom _ _ _⟩))
    rw [Counted.mask hc]; exact hw
  · have hi := UnitStep.e3 U hb (l.item.getD j 0)
    exact Inv.goOn hR hi rfl (Phase.fits_enqueue hf) ((hl.enqueue (l.copyFrom_inv (j+1))).mono hi)
        (handlerOnLink_mono hi ho)
      (.inl ⟨rfl, by rw [hw]; exact windowSaved_copyFrom _ _ _⟩)
  · exact hret _ _ (UnitStep.e4 U hl.1.1) (Counted.ctxs (enqueueE4_counted s l))
        (Counted.mask (enqueueE4_counted s l)) hw

theorem DeqLocals.copyFrom_inv (l : DeqLocals) (j : Nat) (h : l.out.length = j)
    (hj : j ≤ l.size) : (l.copyFrom j).Inv l := by
  unfold DeqLocals.copyFrom
  split
  next hlt => exact ⟨hlt, h⟩
  next hlt => show l.out.length = l.size; omega

/-- A call of DEQUEUE keeps the invariant. -/
theorem Inv.callDequeue {s : State} {i : Instr} {q : QId} (hR : ReadyFor i s) (hph : s.phase = .first)
    (ho : handlerOnLink s.link i) (hfit : ∀ l p, l.q = q → (Phase.dequeue l p).Fits i) : Inv (callDequeue i q s) := by
  have hw := hR.window
  rw [hph] at hw
  have U := hR.inv.units
  rcases callDequeue_cases s i q with ⟨st, e, -⟩ | ⟨e, hu, -⟩
  · rw [e]; exact Inv.reply hR.inv (.refl U) rfl rfl hw _ _
  · rw [e]
    obtain ⟨g1, g2, g3, g4, g5⟩ := (U.queues q).1 hu.1
    refine Inv.goOn hR (.refl U) rfl (hfit _ _ rfl) ⟨⟨hu.1, ?_⟩,
        DeqLocals.copyFrom_inv _ 0 rfl (Nat.zero_le _)⟩ ho (.inl ⟨rfl, hw.symm⟩)
    show (s.queue q).base.toNat + (s.queue q).front.toNat * (s.queue q).itemSize.toNat + (s.queue q).itemSize.toNat
        ≤ s.cfg.qsmBytes
    have h2 := Nat.mul_le_mul_right (s.queue q).itemSize.toNat (Nat.succ_le_of_lt g5)
    rw [Nat.succ_mul] at h2
    omega

theorem Phase.fits_dequeue {i : Instr} {l l' : DeqLocals} {p p' : DeqPoint} (h : (Phase.dequeue l p).Fits i)
    (e : l'.q = l.q) :
    (Phase.dequeue l' p').Fits i := by
  cases i <;> first | exact e.trans h | exact h

/-- A later micro-step of DEQUEUE keeps the invariant. -/
theorem Inv.resumeDequeue {s t : State} {i : Instr} {l : DeqLocals} {p : DeqPoint}
    (hR : ReadyFor i s) (hph : s.phase = .dequeue l p) (h : resumeDequeue i l p s = .next t) : Inv t := by
  have hne : s.phase ≠ .first := by rw [hph]; simp
  obtain ⟨hf, hl⟩ := hR.fits hne
  have ho := hR.link hne
  have hw := hR.window
  rw [hph] at hf hl hw
  have U := hR.inv.units
  rcases resumeDequeue_cases s h with ⟨j, l1, rfl, hb, rfl, rfl⟩ | ⟨rfl, rfl⟩ | ⟨rfl, rfl⟩
  · have hj := hl.2
    refine Inv.goOn hR (.refl U) rfl (Phase.fits_dequeue hf rfl) ⟨hl.1,
        DeqLocals.copyFrom_inv _ _ ?_ ?_⟩ ho (.inl ⟨rfl, hw.symm⟩)
    · simp [hj.2]
    · exact hj.1
  · have hi := UnitStep.d3 U hl.1.1
    have hc := dequeueD3_counted s l.q
    exact Inv.goOn hR hi (Counted.ctxs hc) (Phase.fits_dequeue hf rfl) (Phase.LocalsInv.mono hi ⟨hl.1,
        hl.2⟩) (handlerOnLink_mono hi ho)
      (.inl ⟨Counted.mask hc, hw.symm⟩)
  · exact Inv.reply hR.inv (UnitStep.d4 U hl.1.1) (Counted.ctxs (dequeueD4_counted s l.q))
        (Counted.mask (dequeueD4_counted s l.q)) hw _ _

/-- RESYNC keeps the framer's invariant. -/
theorem resync_inv {c : Config} {f : Framer} (h : f.Inv c) : (resync f).Inv c := by
  refine ⟨h.1, fun _ => rfl, fun h => ?_, fun h => ?_, by simp [resync], rfl, fun _ => rfl⟩ <;> simp [resync] at h

theorem UnitsInv.setUfr {s : State} (h : UnitsInv s) {f : Framer} (hf : f.Inv s.cfg)
    (hb : f.utxBusy = s.ufr.utxBusy) :
    UnitsInv (s.setUfr f) := by
  obtain ⟨a, b, c, d, e, g, i, j, k⟩ := h
  exact ⟨a, b, c, d, hf, by show f.utxBusy = true → _; rw [hb]; exact g, i, j, k⟩

theorem QuietStep.reply {s m : State} (hR : Inv s) (hw : s.record.windowSaved = none) (q : QuietStep s m)
    (p : Port) (r : Response) :
    Inv (m.reply p r) :=
  Sys2Proof.Machine.Inv.reply hR q.toUnitStep q.ctxs q.mask hw p r

theorem QuietStep.trans {a b c : State} (h : QuietStep a b) (k : QuietStep b c) : QuietStep a c :=
  ⟨h.toUnitStep.trans k.toUnitStep, k.mask.trans h.mask, k.ctxs.trans h.ctxs⟩

theorem UnitsInv.setSpx {s : State} (h : UnitsInv s) (hl : s.link = .spi) {x : Spx} (hb : x.busy = x.selected)
    (ht : x.txbuf = s.spx.txbuf) : QuietStep s (s.setSpx x) := by
  obtain ⟨a, b, c, d, e, g, i, j, k⟩ := h
  exact ⟨⟨⟨a, b, c, d, e, g, ⟨hb, by show x.txbuf.length = _; rw [ht]; exact i.2.1, fun hn => absurd hl hn⟩, j, k⟩,
      rfl, fun _ h => h, .inl rfl⟩, rfl, rfl⟩

theorem UnitsInv.setDrops {s : State} (U : UnitsInv s) (a b : BitVec 32) : UnitsInv ((s.setRxDrop a).setCrcFail b) :=
  ⟨U.config, U.qsm, U.queues, U.faults, U.ufr, U.utx, U.spx, U.acc, U.buffers⟩

theorem ReadyFor.window_first {i : Instr} {s : State} (hR : ReadyFor i s) (hph : s.phase = .first) :
    s.record.windowSaved = none := by
  have hw := hR.window
  rw [hph] at hw
  exact hw

/-- A call of ACCEPT keeps the invariant where its return does. -/
theorem Inv.callAccept {s m : State} {i : Instr} {pkt : List Byte} {ret : Nat → State → State}
    (hR : ReadyFor i s) (hph : s.phase = .first) (hq : QuietStep s m) (ho : handlerOnLink m.link i)
    (hfit : ∀ l p, l.q = .q1 → (Phase.enqueue l p).Fits i) (hfit2 : ∀ st, (Phase.afterEnqueue st).Fits i)
    (hret : ∀ a m', QuietStep s m' → m'.link = m.link → Inv (ret a m')) : Inv (callAccept i pkt ret m) := by
  have Q1 : QuietStep s (m.setCrcFail (m.crcFail + 1)) :=
    ⟨⟨hq.units.setDrops m.rxDrop _, hq.cfg, hq.init, hq.link⟩, hq.mask, hq.ctxs⟩
  rcases callAccept_cases m i pkt ret with ⟨e, -⟩ | ⟨e, -⟩ | ⟨e, -⟩
  · rw [e]; exact hret _ _ hq rfl
  · rw [e]; exact hret _ _ Q1 rfl
  · rw [e]
    refine Inv.callEnqueue hR hph hq.toUnitStep hq.ctxs hq.mask ho hfit (length_fit _ _) (fun st => ?_)
    exact Inv.goOn hR hq.toUnitStep hq.ctxs (hfit2 st) trivial ho (.inl ⟨hq.mask, (hR.window_first hph).symm⟩)

/-- A2 of ACCEPT keeps the invariant where its return does. -/
theorem Inv.acceptA2 {s : State} {st : Status} {ret : Nat → State → State} (U : UnitsInv s)
    (hret : ∀ a m', QuietStep s m' → m'.link = s.link → Inv (ret a m')) : Inv (acceptA2 st ret s) := by
  unfold Sys2Proof.Machine.acceptA2
  split
  · exact hret _ _ (.refl U) rfl
  · exact hret _ _ ⟨⟨(U.setDrops (s.rxDrop+1) s.crcFail : UnitsInv (s.setRxDrop (s.rxDrop + 1))), rfl, fun _ h => h,
        .inl rfl⟩, rfl, rfl⟩ rfl

theorem toNat_add_one {n : Nat} {x : BitVec 8} (h : x.toNat < n) (hn : n ≤ 255) : (x + 1).toNat = x.toNat + 1 := by
  rw [BitVec.toNat_add]; simp; omega

/-- PAYLOAD_BYTE keeps the framer's invariant. -/
theorem payloadByte_inv {c : Config} {f f' : Framer} {b : Byte} {o} (hc : c.WF) (hf : f.Inv c)
    (hs : f.state = .awaitingPayload)
    (h : payloadByte b f = .ok (f', o)) : f'.Inv c ∧ f'.utxBusy = f.utxBusy := by
  obtain ⟨h1, h2, h3, h4, h5, h6, h7⟩ := hf
  obtain ⟨g1, g2, g3, g4, g5, g6⟩ := h4 hs
  have hmax : c.maxPacketSize ≤ 255 := hc.1.2
  have g2' : f.pos.toNat < f.need.toNat := g2
  have hp1 : (f.pos + 1).toNat = f.pos.toNat + 1 := toNat_add_one (n := c.maxPacketSize) (by omega) hmax
  unfold payloadByte at h
  split at h
  · simp only at h
    split at h
    · simp only [Except.ok.injEq, Prod.mk.injEq] at h
      obtain ⟨rfl, -⟩ := h
      refine ⟨⟨by simp [resync, h1], fun _ => rfl, fun h => ?_, fun h => ?_, by simp [resync], rfl, fun _ => rfl⟩,
          rfl⟩ <;> simp [resync] at h
    next hne =>
      simp only [Except.ok.injEq, Prod.mk.injEq] at h
      obtain ⟨rfl, -⟩ := h
      have hne' : f.pos + 1 ≠ f.need := hne
      have hlt : (f.pos + 1).toNat < f.need.toNat := by
        rw [hp1]
        have : (f.pos + 1).toNat ≠ f.need.toNat := fun e => hne' (BitVec.eq_of_toNat_eq e)
        omega
      have e0 : (f.fbuf.set f.pos.toNat b).getD 0 0 = f.fbuf.getD 0 0 := by
        simp only [List.getD_eq_getElem?_getD]
        rw [List.getElem?_set_ne (by omega)]
      refine ⟨⟨by simp [h1], fun hh => ?_, fun hh => ?_, fun _ => ⟨?_, hlt, g3, g4, ?_, ?_⟩, h5, h6, h7⟩, rfl⟩
      · change f.state = _ at hh; rw [hs] at hh; simp at hh
      · change f.state = _ at hh; rw [hs] at hh; simp at hh
      · show 1 ≤ (f.pos + 1).toNat; omega
      · show f.need.toNat = 3 + ((f.fbuf.set f.pos.toNat b).getD 0 0).toNat
        rw [e0]; exact g5
      · show 1 ≤ ((f.fbuf.set f.pos.toNat b).getD 0 0).toNat
        rw [e0]; exact g6
  · simp at h

/-- LENGTH_BYTE keeps the framer's invariant. -/
theorem lengthByte_inv {c : Config} {f : Framer} {b : Byte} (hc : c.WF) (hf : f.Inv c)
    (hs : f.state = .awaitingLength) :
    (lengthByte c b f).Inv c ∧ (lengthByte c b f).utxBusy = f.utxBusy := by
  unfold lengthByte
  split
  next hb =>
    obtain ⟨h1, h2, h3, h4, h5, h6, h7⟩ := hf
    have hmax := hc.1
    have hn : (BitVec.ofNat 8 (1 + b.toNat + crcWidth)).toNat = b.toNat + 3 := by
      rw [BitVec.toNat_ofNat]
      have := hb.2
      unfold Config.maxMessageSize crcWidth at *
      omega
    have e0 : (f.fbuf.set 0 b).getD 0 0 = b := by
      cases hfb : f.fbuf with
      | nil => rw [hfb] at h1; simp at h1; omega
      | cons x xs => rfl
    refine ⟨⟨by simp [h1], by simp, by simp, fun _ => ⟨by simp, ?_, ?_, (h3 hs).2, ?_, ?_⟩, h5, h6, h7⟩, rfl⟩
    · show (1#8).toNat < (BitVec.ofNat 8 (1 + b.toNat + crcWidth)).toNat
      rw [hn]; simp [hb.1]
    · show (BitVec.ofNat 8 (1 + b.toNat + crcWidth)).toNat ≤ _
      rw [hn]; have := hb.2; unfold Config.maxMessageSize crcWidth at *; omega
    · show (BitVec.ofNat 8 (1 + b.toNat + crcWidth)).toNat = 3 + ((f.fbuf.set 0 b).getD 0 0).toNat
      rw [e0, hn]; omega
    · show 1 ≤ ((f.fbuf.set 0 b).getD 0 0).toNat
      rw [e0]; exact hb.1
  · exact ⟨resync_inv hf, rfl⟩

/-- START_BYTE keeps the framer's invariant. -/
theorem startByte_inv {c : Config} {f : Framer} {b : Byte} (hc : c.WF) (hf : f.Inv c)
    (hs : f.state = .awaitingStart) :
    (startByte c b f).Inv c ∧ (startByte c b f).utxBusy = f.utxBusy := by
  obtain ⟨h1, h2, h3, h4, h5, h6, h7⟩ := hf
  have hsc := hc.2.1
  unfold startByte
  simp only
  split
  · refine ⟨⟨h1, by simp, fun _ => ⟨h2 hs, rfl⟩, by simp, by simp, rfl, fun _ => rfl⟩, rfl⟩
  · next hne =>
    have hw : f.winCount.toNat = 0 ∨ f.winCount.toNat = 1 := by unfold Config.startCodeLen at h5; omega
    have hcase : c.startCode.length = 1 ∨ c.startCode.length = 2 := by omega
    refine ⟨⟨h1, fun _ => h2 hs, fun h => ?_, fun h => ?_, ?_, ?_, ?_⟩, rfl⟩
    · change f.state = _ at h; rw [hs] at h; simp at h
    · change f.state = _ at h; rw [hs] at h; simp at h
    all_goals
      unfold Config.startCodeLen at *
      rcases hw with hw | hw <;> rcases hcase with hcase | hcase <;> simp [hw, hcase, fit] at h5 ⊢

theorem Opcode.build_port (o : Opcode) (w w1 w2 : Word) (d : List Byte) :
    (o.build w w1 w2 d).port = o.port := by cases o <;> rfl

/-- A command is read on its own port (30_encoding.md R129(b)). -/
theorem decode_port {c : Config} {p : Port} {bs : List Byte} {i : Instr} {rest : List Byte} (h :
    decode c p bs = .command i rest) : i.port = p := by
  unfold decode at h
  split at h
  · simp only at h
    split at h
    · simp at h
    split at h
    · simp at h
    next hp =>
    split at h
    · simp at h
    split at h
    · injection h with h; rw [← h, Opcode.build_port]; simpa using hp
    · simp at h
  · simp at h

/-- A page has at least one chunk (00_scope.md R16). -/
theorem allPending_ne {c : Config} (h : c.WF) : c.allPending ≠ 0 := by
  have hn := h.2.2.2.2.2.2.2.2.1
  intro e
  have := congrArg BitVec.toNat e
  rw [BitVec.toNat_ofNat] at this
  have h2 : 2 ≤ 2 ^ c.maxChunksPerPage := by
    calc 2 = 2^1 := rfl
      _ ≤ _ := Nat.pow_le_pow_right (by decide) hn.1
  have h3 : 2 ^ c.maxChunksPerPage ≤ 2 ^ 32 := Nat.pow_le_pow_right (by decide) hn.2
  rw [Nat.mod_eq_of_lt (by omega)] at this
  simp at this
  omega

theorem UnitsInv.setAcc {s : State} (U : UnitsInv s) {a : Acc} (ha : a.Inv s.cfg s.accFatal) : QuietStep s
    (s.setAcc a) :=
  ⟨⟨⟨U.config, U.qsm, U.queues, U.faults, U.ufr, U.utx, U.spx, ha, U.buffers⟩, rfl, fun _ h => h, .inl rfl⟩, rfl, rfl⟩

/-- A change that keeps the units in range and every record, flag and MASK keeps the invariant. -/
theorem Inv.of_sameRecords {s t : State} (h : Inv s) (U : UnitsInv t) (hcfg : t.cfg = s.cfg) (hq : ∀ q,
    (s.queue q).init = true → (t.queue q).init = true) (hl : t.link = s.link)
    (hm : t.mask = s.mask) (he : ∀ u, (t.ctx u).entered = (s.ctx u).entered) (hr : ∀ u,
        (t.ctx u).record = (s.ctx u).record) : Inv t := by
  have hi : UnitStep s t := ⟨U, hcfg, hq, .inl hl⟩
  refine ⟨U.config, U.qsm, U.queues, U.faults, U.ufr, U.utx, U.spx, U.acc, fun u => ?_, fun u => ?_, ?_,
      ⟨fun ha => ?_, fun u hb => ?_⟩, U.buffers⟩
  · rw [hcfg]; unfold Context.Inv; rw [he, hr]; exact h.contexts u
  · rw [hr]; exact (h.records u).mono hi
  · rw [hr]; exact h.thread
  · rw [hm]; exact h.mask.1 fun u => by rw [← hr]; exact ha u
  · rw [hr]; exact h.mask.2 u fun v hv => by rw [← hr]; exact hb v hv

/-- The environment that an entry leaves holds whole SPI buffers only. -/
theorem candidates_buffers {s : State} (h : Inv s) {c : Candidate} (hc : c ∈ candidates s) :
    ∀ rx ∈ c.env.spiDone, rx.length = s.cfg.maxPacketSize := by
  have hb := h.buffers
  unfold candidates at hc
  simp only [List.mem_append] at hc
  rcases hc with ((((hc | hc) | hc) | hc) | hc) | hc
  · unfold uartRxCandidate at hc; split at hc <;> simp at hc; rw [hc]; exact hb
  · unfold uartTxDoneCandidate at hc; split at hc <;> simp at hc; rw [hc]; exact hb
  · unfold spiDoneCandidate at hc; split at hc
    next rx rest e =>
      simp at hc; rw [hc]; intro x hx; exact hb x (by rw [e]; exact List.mem_cons_of_mem _ hx)
    · simp at hc
  · unfold ctsCandidate at hc; split at hc <;> simp at hc; rw [hc]; exact hb
  · unfold mwCandidate at hc; split at hc <;> simp at hc; rw [hc]; exact hb
  · unfold postedCandidates at hc
    rw [List.mem_filterMap] at hc
    obtain ⟨⟨x, k⟩, -, hx⟩ := hc
    simp only at hx
    split at hx
    · injection hx with hx; rw [← hx]; exact hb
    · simp at hx

/-- The handler that is entered is one of the pending ones. -/
theorem highest_mem {l : List Candidate} {c : Candidate} (h : highest l = some c) : c ∈ l := by
  induction l generalizing c with
  | nil => simp [highest] at h
  | cons a l ih =>
    simp only [highest] at h
    split at h
    · injection h with h; simp [h]
    next d hd =>
      split at h
      · injection h with h; subst h; exact List.mem_cons_of_mem _ (ih hd)
      · injection h with h; simp [h]

/-- The kicks do not stop: their DEQUEUE_ATOMIC reads inside QSM. -/
theorem kickUart_ok {s : State} (U : UnitsInv s) : ∃ t b, kickUart s = .ok (t, b) := by
  unfold kickUart
  split
  · exact ⟨_, _, rfl⟩
  · obtain ⟨t, r, e⟩ := dequeueAtomic_ok s (q := .q0) fun hi => (U.queues .q0).1 hi
    rw [e]; cases r <;> exact ⟨_, _, rfl⟩

theorem kickSpi_ok {s : State} (U : UnitsInv s) : ∃ t b, kickSpi s = .ok (t, b) := by
  unfold kickSpi
  split
  · exact ⟨_, _, rfl⟩
  split
  · exact ⟨_, _, rfl⟩
  · obtain ⟨t, r, e⟩ := dequeueAtomic_ok s (q := .q0) fun hi => (U.queues .q0).1 hi
    rw [e]; cases r
    · simp only; split <;> exact ⟨_, _, rfl⟩
    · exact ⟨_, _, rfl⟩

theorem kickLink_ok {s : State} (U : UnitsInv s) : ∃ t b, kickLink s = .ok (t, b) := by
  unfold kickLink
  split
  · exact kickSpi_ok U
  · exact kickUart_ok U
  · exact ⟨_, _, rfl⟩

end Sys2Proof.Machine
end

