-- ==== Sys2Proof/Laws/Moves.lean ====
section
/-! SUPPORT. Everything a step can do to the queues, to QSM and to the procedures in progress, said once: `move_step`. -/

namespace Sys2Proof.Machine

/-- The procedures in progress are the same in every context. -/
def SameProcedures (s t : State) : Prop :=
  ∀ u, (t.ctx u).record.enqueue? = (s.ctx u).record.enqueue? ∧ (t.ctx u).record.dequeue? = (s.ctx u).record.dequeue?

/-- Only the running context's procedures changed, and they are `e` and `d` now. -/
structure Proceeds (s t : State) (e : Option (EnqLocals × EnqPoint)) (d : Option (DeqLocals × DeqPoint)) : Prop where
  others : ∀ u, u ≠ s.running → (t.ctx u).record = (s.ctx u).record
  enqueue : (t.ctx s.running).record.enqueue? = e
  dequeue : (t.ctx s.running).record.dequeue? = d

/-- No procedure in progress in the running context. -/
abbrev State.NoProcedure (s : State) : Prop := s.record.enqueue? = none ∧ s.record.dequeue? = none

/-- Everything a step can do to the queues, QSM and the procedures in progress; `o` is
the command whose micro-step it is. -/
inductive Move (o : Option Instr) (s t : State) : Prop
  | quiet (hq : t.queues = s.queues) (hm : t.qsm = s.qsm) (hv : SameProcedures s t)
  | reset (ho : o = none) (hq : ∀ q, t.queue q = Queue.reset) (hs : ∃ d tail, s.schedule = .reset d :: tail)
  | qinit (q : QId) (sp : Bool) (ceil : BitVec 4) (itemSize cap base : BitVec 16)
      (ho : o = some (.qinit q sp ceil itemSize cap base))
      (hq : t.queues = s.queues.set q
        { init := true, sp := true, ceil := ceil, itemSize := itemSize, cap := cap, base := base, front := 0,
          claimed := 0, ready := 0, qinv := false }) (hm : t.qsm = s.qsm) (hv : SameProcedures s t)
  | e1 (q : QId) (item : List Byte) (hn : s.NoProcedure) (hu : s.usable q)
      (hc : (s.queue q).claimed < (s.queue q).cap)
      (hl : item.length = (s.queue q).itemSize.toNat)
      (hq : t.queues = s.queues) (hm : t.qsm = s.qsm) (hv : Proceeds s t (some (s.claim q item, .e2)) none)
  | e2 (i : Instr) (l : EnqLocals) (ho : o = some i) (hr : s.record = .busy i (.enqueue l .e2))
      (hq : t.queues = (enqueueE2 l s).queues) (hm : t.qsm = s.qsm) (hv : Proceeds s t (some (l, l.copyFrom 0)) none)
  | e3 (i : Instr) (l : EnqLocals) (j : Nat) (hr : s.record = .busy i (.enqueue l (.e3 j))) (hq : t.queues = s.queues)
      (hm : t.qsm = s.qsm.write (l.base + l.idx * l.size + j) (l.item.getD j 0))
      (hv : Proceeds s t (some (l, l.copyFrom (j + 1))) none)
  | e4 (i : Instr) (l : EnqLocals) (hr : s.record = .busy i (.enqueue l .e4))
      (hq : t.queues = (enqueueE4 l s).1.queues) (hm : t.qsm = s.qsm) (hv : Proceeds s t none none)
  | d1 (q : QId) (hn : s.NoProcedure) (hu : s.usable q) (hc : (s.queue q).ready ≠ 0)
      (hq : t.queues = s.queues) (hm : t.qsm = s.qsm)
      (hv : Proceeds s t none (some (s.take q, (s.take q).copyFrom 0)))
  | d2 (i : Instr) (l l1 : DeqLocals) (j : Nat) (hr : s.record = .busy i (.dequeue l (.d2 j)))
      (hl : l1 = { l with out := l.out ++ [s.qsm.read (l.base + l.f * l.size + j)] })
      (hq : t.queues = s.queues) (hm : t.qsm = s.qsm) (hv : Proceeds s t none (some (l1, l1.copyFrom (j + 1))))
  | d3 (i : Instr) (l : DeqLocals) (hr : s.record = .busy i (.dequeue l .d3))
      (hq : t.queues = (dequeueD3 l.q s).queues) (hm : t.qsm = s.qsm) (hv : Proceeds s t none (some (l, .d4)))
  | d4 (i : Instr) (l : DeqLocals) (ho : o = some i) (hr : s.record = .busy i (.dequeue l .d4))
      (hq : t.queues = (dequeueD4 l.q s).queues) (hm : t.qsm = s.qsm) (hv : Proceeds s t none none)
      (hresp : (t.ctx s.running).responses =
        (s.ctx s.running).responses ++ [(dequeueResult l (dequeueD4 l.q s)).response])
  | pop (i : Instr) (ho : o = some i) (hk : s.kicks i) (hn : s.NoProcedure) (hu : s.usable .q0)
      (hc : (s.queue .q0).ready ≠ 0) (hq : t.queues = (dequeueD4 .q0 (dequeueD3 .q0 s)).queues) (hm : t.qsm = s.qsm)
      (hv : SameProcedures s t)

/-- An inner state with the contexts of s. -/
structure Mid (s m : State) : Prop where
  queues : m.queues = s.queues
  qsm : m.qsm = s.qsm
  ctxs : m.ctxs = s.ctxs

theorem Mid.refl (s : State) : Mid s s := ⟨rfl, rfl, rfl⟩

theorem Mid.setUfr (s : State) (f : Framer) : Mid s (s.setUfr f) := ⟨rfl, rfl, rfl⟩
theorem Mid.setSpx (s : State) (f : Spx) : Mid s (s.setSpx f) := ⟨rfl, rfl, rfl⟩
theorem Mid.setTxDrop (s : State) (f : BitVec 32) : Mid s (s.setTxDrop f) := ⟨rfl, rfl, rfl⟩
theorem Mid.setRxDrop (s : State) (f : BitVec 32) : Mid s (s.setRxDrop f) := ⟨rfl, rfl, rfl⟩

theorem Mid.queue {s m : State} (h : Mid s m) (q : QId) : m.queue q = s.queue q := by
  unfold State.queue; rw [h.queues]

variable {s t : State} {i : Instr} {o : Option Instr}

theorem reply_view {m : State} (hc : m.ctxs = s.ctxs) (p : Port) (r : Response) :
    Proceeds s (m.reply p r) none none := by
  have hr := State.running_of_ctxs hc
  refine ⟨fun u hu => ?_, ?_, ?_⟩
  · rw [(m.reply_ctx r p u).1, if_neg (by rw [hr]; exact hu), State.ctx_of_ctxs hc]
  · rw [(m.reply_ctx r p _).1, if_pos hr.symm]; rfl
  · rw [(m.reply_ctx r p _).1, if_pos hr.symm]; rfl

theorem goOn_view {m : State} (hc : m.ctxs = s.ctxs) (ph : Phase) :
    Proceeds s (m.goOn i ph) (Record.busy i ph).enqueue? (Record.busy i ph).dequeue? := by
  have hr := State.running_of_ctxs hc
  refine ⟨fun u hu => ?_, ?_, ?_⟩
  · rw [State.goOn_ctx, if_neg (by rw [hr]; exact hu), State.ctx_of_ctxs hc]
  · rw [State.goOn_ctx, if_pos hr.symm]
  · rw [State.goOn_ctx, if_pos hr.symm]

theorem Proceeds.same (h : Proceeds s t none none) (hn : s.NoProcedure) : SameProcedures s t := by
  intro u
  by_cases hu : u = s.running
  · subst hu; exact ⟨h.enqueue.trans hn.1.symm, h.dequeue.trans hn.2.symm⟩
  · rw [h.others u hu]; exact ⟨rfl, rfl⟩

theorem State.noProcedure_of_phase (h : ∀ l p, s.phase ≠ .enqueue l p) (h2 : ∀ l p, s.phase ≠ .dequeue l p) :
    s.NoProcedure := by
  unfold State.NoProcedure
  unfold State.phase at h h2
  cases hr : s.record with
  | busy j ph =>
    rw [hr] at h h2
    cases ph with
    | enqueue l p => exact absurd rfl (h l p)
    | dequeue l p => exact absurd rfl (h2 l p)
    | _ => exact ⟨rfl, rfl⟩
  | _ => exact ⟨rfl, rfl⟩

theorem State.noProcedure_phase {ph : Phase} (h : s.phase = ph)
    (hp : (∀ l p, ph ≠ .enqueue l p) ∧ ∀ l p, ph ≠ .dequeue l p) : s.NoProcedure :=
  State.noProcedure_of_phase (by rw [h]; exact hp.1) (by rw [h]; exact hp.2)

theorem move_reply {m : State} (hm : Mid s m) (hn : s.NoProcedure) (p : Port)
    (r : Response) : Move o s (m.reply p r) :=
  .quiet (by rw [State.reply_queues, hm.queues]) (by rw [State.reply_qsm, hm.qsm]) ((reply_view hm.ctxs p r).same hn)

theorem move_goOn {m : State} (hm : Mid s m) (hn : s.NoProcedure) {ph : Phase}
    (h1 : (Record.busy i ph).enqueue? = none) (h2 : (Record.busy i ph).dequeue? = none) : Move o s (m.goOn i ph) :=
  .quiet hm.queues hm.qsm (by
    have := goOn_view (i := i) (s := s) hm.ctxs ph
    rw [h1, h2] at this
    exact this.same hn)

theorem move_callEnqueue {m : State} {q : QId} {item : List Byte} {ret : Status → State → State} (hm : Mid s m)
    (hn : s.NoProcedure) (hl : item.length = (m.queue q).itemSize.toNat) (hret : ∀ st, Move o s (ret st m))
    (hmask : m.mask = s.mask) :
    Move o s (callEnqueue i q item ret m) := by
  rcases callEnqueue_cases m i q item ret with ⟨st, e, -⟩ | ⟨e, hu, hlt⟩
  · rw [e]; exact hret st
  · rw [e]
    have hq := hm.queue q
    refine .e1 q item hn (by unfold State.usable; rw [← hq]; exact hu) (by rw [← hq]; exact hlt)
        (by rw [← hq]; exact hl) hm.queues hm.qsm ?_
    have := goOn_view (i := i) (s := s)
        (m := m.setMask (raisedMask m.mask (m.queue q).ceil)) hm.ctxs (.enqueue (m.claim q item) .e2)
    have e : m.claim q item = s.claim q item := by unfold State.claim; rw [hq, hmask]
    rw [e] at this
    rw [e]; exact this

theorem ReadyFor.record_eq (hR : ReadyFor i s) {ph : Phase} (h : s.phase = ph)
    (hp : ph ≠ .first) : s.record = .busy i ph := by
  rcases hR.ph with ⟨-, e⟩ | e
  · exact absurd (h.symm.trans e) hp
  · rw [e, h]

theorem copyFrom_pair (l : EnqLocals) (j : Nat)
    (i : Instr) : (Record.busy i (.enqueue l (l.copyFrom j))).enqueue? = some (l, l.copyFrom j) := rfl

theorem move_resumeEnqueue {l : EnqLocals} {p : EnqPoint} {ret : Status → State → State}
    (hR : ReadyFor i s) (hph : s.phase = .enqueue l p)
    (hret : ∀ st m, m.ctxs = s.ctxs → (ret st m).queues = m.queues ∧ (ret st m).qsm = m.qsm ∧
        Proceeds s (ret st m) none none)
    (h : resumeEnqueue i l p ret s = .next t) : Move (some i) s t := by
  have hr := hR.record_eq hph (by simp)
  rcases resumeEnqueue_cases s h with ⟨rfl, rfl⟩ | ⟨j, rfl, hb, rfl⟩ | ⟨rfl, rfl⟩
  · refine .e2 i l rfl hr rfl ?_ (goOn_view (Counted.ctxs (enqueueE2_counted s l)) _)
    show (enqueueE2 l s).qsm = s.qsm
    rw [(enqueueE2_counted s l).frame]
  · exact .e3 i l j hr rfl rfl
      (goOn_view (s := s) (m := s.setQsm (s.qsm.write (l.base + l.idx * l.size + j) (l.item.getD j 0))) rfl _)
  · obtain ⟨a, b, c⟩ := hret (if ((enqueueE4 l s).1.queue l.q).qinv then .faulted else .ok) _
      (Counted.ctxs (enqueueE4_counted s l))
    refine .e4 i l hr a ?_ c
    rw [b, (enqueueE4_counted s l).frame]

theorem move_callDequeue {q : QId} (hn : s.NoProcedure) : Move o s (callDequeue i q s) := by
  rcases callDequeue_cases s i q with ⟨st, e, -⟩ | ⟨e, hu, hc⟩
  · rw [e]; exact move_reply (.refl s) hn _ _
  · rw [e]; exact .d1 q hn hu hc rfl rfl (goOn_view rfl _)

theorem move_resumeDequeue {l : DeqLocals} {p : DeqPoint} (hR : ReadyFor i s) (hph : s.phase = .dequeue l p)
    (hp : i.port = .command) (h : resumeDequeue i l p s = .next t) : Move (some i) s t := by
  have hr := hR.record_eq hph (by simp)
  rcases resumeDequeue_cases s h with ⟨j, l1, rfl, hb, hl, rfl⟩ | ⟨rfl, rfl⟩ | ⟨rfl, rfl⟩
  · exact .d2 i l l1 j hr hl rfl rfl (goOn_view rfl _)
  · refine .d3 i l hr rfl ?_ (goOn_view (Counted.ctxs (dequeueD3_counted s l.q)) _)
    show (dequeueD3 l.q s).qsm = _
    rw [(dequeueD3_counted s l.q).frame]
  · have hc := Counted.ctxs (dequeueD4_counted s l.q)
    refine .d4 i l rfl hr (by rw [State.reply_queues]) ?_ (reply_view hc _ _) ?_
    · rw [State.reply_qsm, (dequeueD4_counted s l.q).frame]
    · rw [hp, State.reply_command_ctx, if_pos (State.running_of_ctxs hc).symm, State.running_of_ctxs hc,
        State.ctx_of_ctxs hc]

/-- Everything a kick does to queues, QSM and contexts. -/
theorem kickLink_moves {m : State} {b : Bool} (h : kickLink s = .ok (m, b)) :
    Mid s m ∨ (s.usable .q0 ∧ (s.queue .q0).ready ≠ 0 ∧ m.queues = (dequeueD4 .q0 (dequeueD3 .q0 s)).queues ∧
        m.qsm = s.qsm ∧ m.ctxs = s.ctxs) := by
  have key : ∀ {s1 r}, dequeueAtomic .q0 s = .ok (s1, r) → Mid s s1 ∨ (s.usable .q0 ∧ (s.queue .q0).ready ≠ 0 ∧
      s1.queues = (dequeueD4 .q0 (dequeueD3 .q0 s)).queues ∧ s1.qsm = s.qsm ∧ s1.ctxs = s.ctxs) := by
    intro s1 r hd
    rcases dequeueAtomic_cases s hd with ⟨st, rfl, -⟩ | ⟨rfl, hu, hr, -⟩
    · exact .inl (.refl _)
    · refine .inr ⟨hu, hr, rfl, ?_, ?_⟩
      · rw [(dequeueD4_counted (dequeueD3 .q0 s) .q0).frame, (dequeueD3_counted s .q0).frame]
      · rw [(dequeueD4_counted (dequeueD3 .q0 s) .q0).frame, (dequeueD3_counted s .q0).frame]
  unfold kickLink at h
  split at h
  · rcases kickSpi_cases s h with ⟨rfl, -⟩ | ⟨-, rfl, -⟩ | ⟨s1, r, -, hd, ⟨st, rfl, ⟨rfl, -⟩ | ⟨rfl, -⟩⟩ | ⟨n,
      item, rfl, -, rfl⟩⟩
    · exact .inl (.refl _)
    · exact .inl ⟨rfl, rfl, rfl⟩
    · rcases key hd with ⟨a, b, c⟩ | ⟨a, b, c, d, e⟩
      · exact .inl ⟨a, b, c⟩
      · exact .inr ⟨a, b, c, d, e⟩
    · rcases key hd with ⟨a, b, c⟩ | ⟨a, b, c, d, e⟩
      · exact .inl ⟨a, b, c⟩
      · exact .inr ⟨a, b, c, d, e⟩
    · rcases key hd with ⟨a, b, c⟩ | ⟨a, b, c, d, e⟩
      · exact .inl ⟨a, b, c⟩
      · exact .inr ⟨a, b, c, d, e⟩
  · rcases kickUart_cases s h with ⟨rfl, -⟩ | ⟨s1, r, hb, hd, ⟨st, rfl, rfl, rfl⟩ | ⟨n, item, rfl, rfl, rfl⟩⟩
    · exact .inl (.refl _)
    · exact key hd
    · rcases key hd with ⟨a, b, c⟩ | ⟨a, b, c, d, e⟩
      · exact .inl ⟨a, b, c⟩
      · exact .inr ⟨a, b, c, d, e⟩
  · simp only [Except.ok.injEq, Prod.mk.injEq] at h
    obtain ⟨rfl, -⟩ := h; exact .inl (.refl _)

theorem kickUart_link {m : State} {b : Bool} (hl : s.link = .uart) (h : kickUart s = .ok (m,
    b)) : kickLink s = .ok (m, b) := by
  unfold kickLink; rw [hl]; exact h
theorem kickSpi_link {m : State} {b : Bool} (hl : s.link = .spi) (h : kickSpi s = .ok (m,
    b)) : kickLink s = .ok (m, b) := by
  unfold kickLink; rw [hl]; exact h

/-- The queues after a counted micro-step depend on the queues before it only. -/
theorem counted_congr {a b : State} {q : QId} {x : Queue} {m1 m2 : BitVec 4} (e : a.queues = b.queues) :
    (((a.setQueue q x).setMask m1).checkInv q).queues = (((b.setQueue q x).setMask m2).checkInv q).queues := by
  rw [State.checkInv_eq, State.checkInv_eq]
  cases a; cases b
  cases e
  rfl

theorem queue_congr {a b : State} (e : a.queues = b.queues) (q : QId) : a.queue q = b.queue q := by
  unfold State.queue; rw [e]

theorem enqueueE2_congr {a b : State} (l : EnqLocals) (e : a.queues = b.queues) :
    (enqueueE2 l a).queues = (enqueueE2 l b).queues := by
  rw [(enqueueE2_counted a l).eq, (enqueueE2_counted b l).eq, queue_congr e]; exact counted_congr e

theorem enqueueE4_congr {a b : State} (l : EnqLocals) (e : a.queues = b.queues) :
    (enqueueE4 l a).1.queues = (enqueueE4 l b).1.queues := by
  rw [(enqueueE4_counted a l).eq, (enqueueE4_counted b l).eq, queue_congr e]; exact counted_congr e

theorem dequeueD3_congr {a b : State} (q : QId) (e : a.queues = b.queues) :
    (dequeueD3 q a).queues = (dequeueD3 q b).queues := by
  rw [(dequeueD3_counted a q).eq, (dequeueD3_counted b q).eq, queue_congr e]; exact counted_congr e

theorem dequeueD4_congr {a b : State} (q : QId) (e : a.queues = b.queues) :
    (dequeueD4 q a).queues = (dequeueD4 q b).queues := by
  rw [(dequeueD4_counted a q).eq, (dequeueD4_counted b q).eq, queue_congr e]; exact counted_congr e

/-- A kick and the answer. -/
theorem move_kick {m k : State} {b : Bool} (hm : Mid s m) (hn : s.NoProcedure) (hk : s.kicks i)
    (h : kickLink m = .ok (k, b)) (p : Port) (r : Response) : Move (some i) s (k.reply p r) := by
  have e3 : (dequeueD4 .q0 (dequeueD3 .q0 m)).queues = (dequeueD4 .q0 (dequeueD3 .q0 s)).queues :=
    dequeueD4_congr _ (dequeueD3_congr _ hm.queues)
  rcases kickLink_moves h with hmk | ⟨hu, hc, hq, hs, hx⟩
  · exact move_reply ⟨hmk.queues.trans hm.queues, hmk.qsm.trans hm.qsm, hmk.ctxs.trans hm.ctxs⟩ hn p r
  · refine .pop i rfl hk hn (by unfold State.usable; rw [← hm.queue]; exact hu)
      (by rw [← hm.queue]; exact hc) ?_ ?_ ((reply_view (hx.trans hm.ctxs) p r).same hn)
    · rw [State.reply_queues, hq, e3]
    · rw [State.reply_qsm, hs, hm.qsm]

theorem ReadyFor.single (hR : ReadyFor i s) (hf : ∀ ph, ¬ Phase.Fits i ph) : s.phase = .first := by
  by_contra hne
  exact hf _ (hR.fits hne).1

theorem move_exec (hR : ReadyFor i s) (h : exec i s = .next t) : Move (some i) s t := by
  have first : s.phase = .first → s.NoProcedure := fun h => State.noProcedure_phase h ⟨by simp, by simp⟩
  have R := Mid.refl s
  cases i with
  | qinit q sp ceil itemSize cap base =>
    have hn := first (hR.single (by intro ph; cases ph <;> exact id))
    change execQinit q sp ceil itemSize cap base s = _ at h
    unfold execQinit at h
    split at h
    · injection h with h; rw [← h]; exact move_reply R hn _ _
    split at h
    · injection h with h; rw [← h]; exact move_reply R hn _ _
    split at h
    · injection h with h; rw [← h]; exact move_reply R hn _ _
    injection h with h; rw [← h]
    exact .qinit q sp ceil itemSize cap base rfl (by rw [State.reply_queues]; rfl) (by rw [State.reply_qsm]; rfl)
        ((reply_view (m := s.setQueue q _) rfl _ _).same hn)
  | enq q d =>
    change execEnq q d s = _ at h
    unfold execEnq at h
    split at h
    next hph =>
      have hn := first hph
      split at h
      · injection h with h; rw [← h]; exact move_reply R hn _ _
      split at h
      · injection h with h; rw [← h]; exact move_reply R hn _ _
      split at h
      · injection h with h; rw [← h]; exact move_reply R hn _ _
      next _ _ hl =>
      injection h with h; rw [← h]
      exact move_callEnqueue R hn (by simpa using hl) (fun st => move_reply R hn _ _) rfl
    next l p hph =>
      exact move_resumeEnqueue hR hph (fun st m hc => ⟨by rw [State.reply_queues], by rw [State.reply_qsm],
          reply_view hc _ _⟩) h
    all_goals simp at h
  | deq q =>
    change execDeq q s = _ at h
    unfold execDeq at h
    split at h
    next hph => injection h with h; rw [← h]; exact move_callDequeue (first hph)
    next hph => exact move_resumeDequeue hR hph rfl h
    all_goals simp at h
  | recv =>
    change execRecv s = _ at h
    unfold execRecv at h
    split at h
    next hph => injection h with h; rw [← h]; exact move_callDequeue (first hph)
    next hph => exact move_resumeDequeue hR hph rfl h
    all_goals simp at h
  | qcount q =>
    have hn := first (hR.single (by intro ph; cases ph <;> exact id))
    change execQcount q s = _ at h
    unfold execQcount at h
    repeat' split at h
    all_goals injection h with h; rw [← h]; exact move_reply R hn _ _
  | qfree q =>
    have hn := first (hR.single (by intro ph; cases ph <;> exact id))
    change execQfree q s = _ at h
    unfold execQfree at h
    repeat' split at h
    all_goals injection h with h; rw [← h]; exact move_reply R hn _ _
  | crcCompute d =>
    have hn := first (hR.single (by intro ph; cases ph <;> exact id))
    injection h with h; rw [← h]; exact move_reply R hn _ _
  | crcAppend d =>
    have hn := first (hR.single (by intro ph; cases ph <;> exact id))
    change execCrcAppend d s = _ at h
    unfold execCrcAppend at h
    split at h
    all_goals injection h with h; rw [← h]; exact move_reply R hn _ _
  | crcVerify d =>
    have hn := first (hR.single (by intro ph; cases ph <;> exact id))
    injection h with h; rw [← h]; exact move_reply R hn _ _
  | linkInit k =>
    have hn := first (hR.single (by intro ph; cases ph <;> exact id))
    change execLinkInit k s = _ at h
    unfold execLinkInit at h
    repeat' split at h
    all_goals injection h with h; rw [← h]
    · exact move_reply R hn _ _
    · exact move_reply R hn _ _
    · exact move_reply (s := s) (m := (s.setLink .spi).setSpx _) ⟨rfl, rfl, rfl⟩ hn _ _
    · exact move_reply (s := s) (m := (s.setLink .uart).setUfr _) ⟨rfl, rfl, rfl⟩ hn _ _
  | send p =>
    change execSend p s = _ at h
    unfold execSend at h
    split at h
    next hph =>
      have hn := first hph
      split at h
      · injection h with h; rw [← h]; exact move_reply (Mid.setTxDrop s _) hn _ _
      · injection h with h; rw [← h]
        exact move_callEnqueue R hn (length_fit _ _) (fun st => move_goOn R hn rfl rfl) rfl
    next l p hph =>
      exact move_resumeEnqueue hR hph (ret := fun st => State.goOn _ (.afterEnqueue st))
        (fun st m hc => ⟨rfl, rfl, goOn_view hc (.afterEnqueue st)⟩) h
    next st hph =>
      have hn := State.noProcedure_phase hph ⟨by simp, by simp⟩
      unfold sendT2 at h
      split at h
      · simp at h
      next s1 b hk =>
        injection h with h; rw [← h]
        split at hk
        · exact move_kick R hn (i := .send p) ⟨st, hph⟩ hk _ _
        · exact move_kick (Mid.setTxDrop s _) hn (i := .send p) ⟨st, hph⟩ hk _ _
    all_goals simp at h
  | kick =>
    have hn := first (hR.single (by intro ph; cases ph <;> exact id))
    change execKick s = _ at h
    unfold execKick at h
    split at h
    · simp at h
    next s1 b hk => injection h with h; rw [← h]; exact move_kick R hn (i := .kick) trivial hk _ _
  | chunk page ci cc payload =>
    have hn := first (hR.single (by intro ph; cases ph <;> exact id))
    injection h with h; rw [← h]
    have fl : ∀ m, Mid s m → Mid s (flashFailed m).1 := fun m hm => ⟨hm.queues, hm.qsm, hm.ctxs⟩
    have cw : ∀ a m, Mid s m → Mid s (commitWrite a m).1 := by
      intro a m hm
      unfold commitWrite askFlash
      simp only
      split
      · exact ⟨hm.queues, hm.qsm, hm.ctxs⟩
      · exact ⟨hm.queues, hm.qsm, hm.ctxs⟩
    refine move_reply ?_ hn _ _
    unfold chunkEffect
    split
    · exact R
    split
    · exact ⟨rfl, rfl, rfl⟩
    simp only
    split
    · exact ⟨rfl, rfl, rfl⟩
    · unfold chunkCommit
      simp only
      split
      · unfold askFlash
        simp only
        split
        · exact cw _ ((chunkAccept s page ci cc payload).setEnv _) ⟨rfl, rfl, rfl⟩
        · exact fl ((chunkAccept s page ci cc payload).setEnv _) ⟨rfl, rfl, rfl⟩
      · exact cw _ (chunkAccept s page ci cc payload) ⟨rfl, rfl, rfl⟩
  | regRead k =>
    have hn := first (hR.single (by intro ph; cases ph <;> exact id))
    change execRegRead k s = _ at h
    unfold execRegRead at h
    split at h
    all_goals injection h with h; rw [← h]; exact move_reply R hn _ _
  | evUartRx b =>
    change execEvUartRx b s = _ at h
    unfold execEvUartRx at h
    split at h
    next hph =>
      have hn := first hph
      split at h
      · injection h with h; rw [← h]; exact move_reply R hn _ _
      split at h
      · injection h with h; rw [← h]; exact move_reply (Mid.setUfr s _) hn _ _
      · injection h with h; rw [← h]; exact move_reply (Mid.setUfr s _) hn _ _
      · split at h
        · simp at h
        · injection h with h; rw [← h]; exact move_reply (Mid.setUfr s _) hn _ _
        next f pkt hp =>
          injection h with h; rw [← h]
          have M : Mid s (s.setUfr f) := ⟨rfl, rfl, rfl⟩
          rcases callAccept_cases (s.setUfr f) (.evUartRx b) pkt uartAdmitted with ⟨e, -⟩ | ⟨e, -⟩ | ⟨e, -⟩
          · rw [e]; exact move_reply M hn _ _
          · rw [e]; exact move_reply (s := s) (m := (s.setUfr f).setCrcFail _) ⟨rfl, rfl, rfl⟩ hn _ _
          · rw [e]; exact move_callEnqueue M hn (length_fit _ _) (fun st => move_goOn M hn rfl rfl) rfl
    next l p hph =>
      exact move_resumeEnqueue hR hph (ret := fun st => State.goOn _ (.afterEnqueue st))
        (fun st m hc => ⟨rfl, rfl, goOn_view hc (.afterEnqueue st)⟩) h
    next st hph =>
      have hn := State.noProcedure_phase hph ⟨by simp, by simp⟩
      injection h with h; rw [← h]
      unfold acceptA2
      split
      · exact move_reply R hn _ _
      · exact move_reply (Mid.setRxDrop s _) hn _ _
    all_goals simp at h
  | evUartErr k =>
    have hn := first (hR.single (by intro ph; cases ph <;> exact id))
    change execEvUartErr k s = _ at h
    unfold execEvUartErr at h
    repeat' split at h
    all_goals injection h with h; rw [← h]
    · exact move_reply R hn _ _
    · exact move_reply R hn _ _
    · exact move_reply (Mid.setUfr s _) hn _ _
  | evUartTxDone =>
    have hn := first (hR.single (by intro ph; cases ph <;> exact id))
    change execEvUartTxDone s = _ at h
    unfold execEvUartTxDone at h
    split at h
    · injection h with h; rw [← h]; exact move_reply R hn _ _
    next hl =>
    split at h
    · injection h with h; rw [← h]; exact move_reply R hn _ _
    split at h
    · simp at h
    next s1 b hk =>
      injection h with h; rw [← h]
      exact move_kick (Mid.setUfr s _) hn (i := .evUartTxDone) trivial (kickUart_link (by simpa using hl) hk) _ _
  | evSpiDone rx =>
    change execEvSpiDone rx s = _ at h
    unfold execEvSpiDone at h
    split at h
    next hph =>
      have hn := first hph
      split at h
      · injection h with h; rw [← h]; exact move_reply R hn _ _
      split at h
      · injection h with h; rw [← h]; exact move_reply R hn _ _
      simp only at h
      have M : Mid s (s.setSpx { s.spx with selected := false, busy := false }) := ⟨rfl, rfl, rfl⟩
      split at h
      · injection h with h; rw [← h]; exact move_goOn M hn rfl rfl
      · injection h with h; rw [← h]
        rcases callAccept_cases (s.setSpx { s.spx with selected := false, busy := false })
            (.evSpiDone rx) rx (spiAdmitted rx) with ⟨e, -⟩ | ⟨e, -⟩ | ⟨e, -⟩
        · rw [e]; exact move_goOn (ph := .spiRearm (admissionValue 3)) M hn rfl rfl
        · rw [e]
          exact move_goOn (s := s) (ph := .spiRearm (admissionValue 1))
              (m := (s.setSpx { s.spx with selected := false, busy := false }).setCrcFail _) ⟨rfl, rfl,
              rfl⟩ hn rfl rfl
        · rw [e]; exact move_callEnqueue M hn (length_fit _ _) (fun st => move_goOn M hn rfl rfl) rfl
    next l p hph =>
      exact move_resumeEnqueue hR hph (ret := fun st => State.goOn _ (.afterEnqueue st))
        (fun st m hc => ⟨rfl, rfl, goOn_view hc (.afterEnqueue st)⟩) h
    next st hph =>
      have hn := State.noProcedure_phase hph ⟨by simp, by simp⟩
      injection h with h; rw [← h]
      unfold acceptA2
      split
      · exact move_goOn R hn rfl rfl
      · exact move_goOn (Mid.setRxDrop s _) hn rfl rfl
    next v hph =>
      have hn := State.noProcedure_phase hph ⟨by simp, by simp⟩
      injection h with h; rw [← h]
      exact move_reply (Mid.setSpx s _) hn _ _
    all_goals simp at h
  | evCtsEdge =>
    have hn := first (hR.single (by intro ph; cases ph <;> exact id))
    change execEvCtsEdge s = _ at h
    unfold execEvCtsEdge at h
    split at h
    · injection h with h; rw [← h]; exact move_reply R hn _ _
    next hl =>
    split at h
    · injection h with h; rw [← h]; exact move_reply R hn _ _
    split at h
    · simp at h
    next s1 b hk =>
      injection h with h; rw [← h]
      exact move_kick (Mid.setSpx s _) hn (i := .evCtsEdge) trivial (kickSpi_link (by simpa using hl) hk) _ _
  | evMwEdge =>
    have hn := first (hR.single (by intro ph; cases ph <;> exact id))
    change execEvMwEdge s = _ at h
    unfold execEvMwEdge at h
    split at h
    · injection h with h; rw [← h]; exact move_reply R hn _ _
    next hl =>
    split at h
    · injection h with h; rw [← h]; exact move_reply R hn _ _
    split at h
    · simp at h
    next s1 b hk =>
      injection h with h; rw [← h]
      exact move_kick (Mid.setSpx s _) hn (i := .evMwEdge) trivial (kickSpi_link (by simpa using hl) hk) _ _

/-- The same queues, memory, records and running context. -/
structure Alike (s k : State) : Prop where
  queues : k.queues = s.queues
  qsm : k.qsm = s.qsm
  mask : k.mask = s.mask
  entered : ∀ u, (k.ctx u).entered = (s.ctx u).entered
  record : ∀ u, (k.ctx u).record = (s.ctx u).record
  responses : ∀ u, (k.ctx u).responses = (s.ctx u).responses

theorem Alike.running {k : State} (h : Alike s k) : k.running = s.running := State.running_congr h.entered
theorem Alike.record_eq {k : State} (h : Alike s k) : k.record = s.record := by
  unfold State.record; rw [h.running]; exact h.record _
theorem Alike.phase {k : State} (h : Alike s k) : k.phase = s.phase := by unfold State.phase; rw [h.record_eq]
theorem Alike.queue {k : State} (h : Alike s k) (q : QId) : k.queue q = s.queue q := queue_congr h.queues q

theorem Alike.proceeds {k : State} (h : Alike s k) {e d} (hv : Proceeds k t e d) : Proceeds s t e d := by
  have hr := h.running
  exact ⟨fun u hu => (hv.others u (by rw [hr]; exact hu)).trans (h.record u), by rw [← hr]; exact hv.enqueue,
      by rw [← hr]; exact hv.dequeue⟩

theorem Alike.same {k : State} (h : Alike s k) (hv : SameProcedures k t) : SameProcedures s t := fun u => by
  rw [(hv u).1, (hv u).2, h.record]; exact ⟨rfl, rfl⟩

theorem Alike.noProcedure {k : State} (h : Alike s k) (hv : k.NoProcedure) : s.NoProcedure := by
  unfold State.NoProcedure at *; rw [← h.record_eq]; exact hv

theorem Alike.kicks {k : State} (h : Alike s k) (hv : k.kicks i) : s.kicks i := by
  unfold State.kicks at *; rw [← h.phase]; exact hv

theorem Alike.move {k : State} (h : Alike s k) (hm : Move (some i) k t) : Move (some i) s t := by
  have hq' : ∀ q, k.queue q = s.queue q := h.queue
  cases hm with
  | quiet hq hm hv => exact .quiet (hq.trans h.queues) (hm.trans h.qsm) (h.same hv)
  | reset ho => simp at ho
  | qinit q sp ceil itemSize cap base ho hq hm hv =>
    exact .qinit q sp ceil itemSize cap base ho (by rw [hq, h.queues]) (hm.trans h.qsm) (h.same hv)
  | e1 q item hn hu hc hl hq hm hv =>
    have e : k.claim q item = s.claim q item := by unfold State.claim; rw [hq', h.mask]
    unfold State.usable at hu
    rw [hq'] at hu hc hl; rw [e] at hv
    exact .e1 q item (h.noProcedure hn) hu hc hl (hq.trans h.queues) (hm.trans h.qsm) (h.proceeds hv)
  | e2 j l ho hr hq hm hv =>
    exact .e2 j l ho (by rw [← h.record_eq]; exact hr) (hq.trans (enqueueE2_congr l h.queues)) (hm.trans h.qsm)
        (h.proceeds hv)
  | e3 j l n hr hq hm hv =>
    exact .e3 j l n (by rw [← h.record_eq]; exact hr) (hq.trans h.queues) (by rw [hm, h.qsm]) (h.proceeds hv)
  | e4 j l hr hq hm hv =>
    exact .e4 j l (by rw [← h.record_eq]; exact hr) (hq.trans (enqueueE4_congr l h.queues)) (hm.trans h.qsm)
        (h.proceeds hv)
  | d1 q hn hu hc hq hm hv =>
    have e : k.take q = s.take q := by unfold State.take; rw [hq']
    unfold State.usable at hu
    rw [hq'] at hu hc; rw [e] at hv
    exact .d1 q (h.noProcedure hn) hu hc (hq.trans h.queues) (hm.trans h.qsm) (h.proceeds hv)
  | d2 j l l1 n hr hl hq hm hv =>
    exact .d2 j l l1 n (by rw [← h.record_eq]; exact hr) (by rw [hl, h.qsm]) (hq.trans h.queues) (hm.trans h.qsm)
        (h.proceeds hv)
  | d3 j l hr hq hm hv =>
    exact .d3 j l (by rw [← h.record_eq]; exact hr) (hq.trans (dequeueD3_congr _ h.queues)) (hm.trans h.qsm)
        (h.proceeds hv)
  | d4 j l ho hr hq hm hv hresp =>
    refine .d4 j l ho (by rw [← h.record_eq]; exact hr) (hq.trans (dequeueD4_congr _ h.queues)) (hm.trans h.qsm)
        (h.proceeds hv) ?_
    rw [← h.running, hresp, h.responses]
    have : dequeueResult l (dequeueD4 l.q k) = dequeueResult l (dequeueD4 l.q s) := by
      unfold dequeueResult; rw [queue_congr (dequeueD4_congr l.q h.queues)]
    rw [this]
  | pop j ho hk hn hu hc hq hm hv =>
    unfold State.usable at hu
    rw [hq'] at hu hc
    exact .pop j ho (h.kicks hk) (h.noProcedure hn) hu hc (hq.trans (dequeueD4_congr _ (dequeueD3_congr _ h.queues)))
      (hm.trans h.qsm) (h.same hv)

theorem Alike.setSchedule (s : State) (x : List Action) : Alike s (s.setSchedule x) :=
  ⟨rfl, rfl, rfl, fun _ => rfl, fun _ => rfl, fun _ => rfl⟩

theorem Alike.setStream (s : State) (x : List Byte) : Alike s (s.setStream x) := by
  refine ⟨rfl, rfl, rfl, fun u => ?_, fun u => ?_, fun u => ?_⟩
  all_goals rw [State.setStream_ctx]; split; next e => (rw [e])
  all_goals rfl

theorem Alike.trans {a b c : State} (h : Alike a b) (k : Alike b c) : Alike a c :=
  ⟨k.queues.trans h.queues, k.qsm.trans h.qsm, k.mask.trans h.mask, fun u => (k.entered u).trans (h.entered u),
    fun u => (k.record u).trans (h.record u), fun u => (k.responses u).trans (h.responses u)⟩

theorem Inv.alike {k : State} (h : Inv s) (e : k = s.setSchedule k.schedule ∨ ∃ x, k = s.setStream x) : Inv k := by
  have U := h.units
  rcases e with e | ⟨x, rfl⟩
  · rw [e]
    exact Inv.of_sameRecords h ⟨U.config, U.qsm, U.queues, U.faults, U.ufr, U.utx, U.spx, U.acc,
        U.buffers⟩ rfl (fun _ h => h) rfl rfl (fun u => rfl) (fun u => rfl)
  · have := Alike.setStream s x
    exact Inv.of_sameRecords h ⟨U.config, U.qsm, U.queues, U.faults, U.ufr, U.utx, U.spx, U.acc,
        U.buffers⟩ rfl (fun _ h => h) rfl rfl this.entered this.record

theorem ReadyFor.begin (h : Inv s) (hb : ∀ j ph, s.record ≠ .busy j ph) {rest : List Byte}
    (hd : s.nextCommand = .command i rest) : ReadyFor i (s.setStream rest) := by
  have hw : s.record.windowSaved = none := by
    cases hr : s.record with
    | busy j ph => exact absurd hr (hb j ph)
    | _ => rfl
  have hph : s.phase = .first := by
    unfold State.phase
    cases hr : s.record with
    | busy j ph => exact absurd hr (hb j ph)
    | _ => rfl
  refine ⟨h.alike (.inr ⟨rest, rfl⟩), ?_, .inl ⟨by rw [State.setStream_record]; exact hw,
      by rw [State.setStream_phase]; exact hph⟩⟩
  intro h0
  rw [State.setStream_running] at h0
  rw [decode_port hd]
  have := h.thread
  rw [← h0] at this
  change s.record.OnCommandPort at this
  cases hr : s.record with
  | idle => rfl
  | start p => rw [hr] at this; exact this.elim
  | busy i ph => exact absurd hr (hb i ph)

theorem ReadyFor.resume (h : Inv s) {ph : Phase} (hr : s.record = .busy i ph) : ReadyFor i s := by
  refine ⟨h, ?_, .inr ?_⟩
  · intro h0
    have := h.thread
    rw [← h0] at this
    change s.record.OnCommandPort at this
    rw [hr] at this; exact this
  · rw [hr]; simp [State.phase, hr]

/-- A turn is a micro-step of a command, or leaves the queues alone. -/
abbrev TurnMove (o : Option Instr) (s t : State) : Prop :=
  (∃ i, o = some i ∧ Move (some i) s t) ∨ (t.queues = s.queues ∧ t.qsm = s.qsm ∧ SameProcedures s t)

theorem move_begin (h : Inv s) (hb : ∀ j ph, s.record ≠ .busy j ph) (ht : beginCommand s = .next t)
    (ho : ∀ i rest, s.nextCommand = .command i rest → o = some i) : TurnMove o s t := by
  have hn : s.NoProcedure := by
    unfold State.NoProcedure
    cases hr : s.record with
    | busy j ph => exact absurd hr (hb j ph)
    | _ => exact ⟨rfl, rfl⟩
  unfold beginCommand at ht
  split at ht
  · injection ht with ht; rw [← ht]
    split
    · exact .inr ⟨rfl, rfl, fun u => ⟨rfl, rfl⟩⟩
    · refine .inr ⟨rfl, rfl, fun u => ?_⟩
      rw [State.exitContext_ctx]
      split
      next e => rw [e]; exact ⟨hn.1.symm, hn.2.symm⟩
      · exact ⟨rfl, rfl⟩
  · injection ht with ht; rw [← ht]
    next why w rest _ =>
    have hA := Alike.setStream s rest
    have hn2 : (s.setStream rest).NoProcedure := by unfold State.NoProcedure; rw [hA.record_eq]; exact hn
    exact .inr ⟨State.reply_queues _ _ _, State.reply_qsm _ _ _, hA.same ((reply_view rfl _ _).same hn2)⟩
  next i rest hd =>
    exact .inl ⟨i, ho i rest hd, (Alike.setStream s rest).move (move_exec (ReadyFor.begin h hb hd) ht)⟩

theorem move_run (h : Inv s) (ht : runStep s = .next t) (hb : ∀ i ph, s.record = .busy i ph → o = some i)
    (ho : (∀ j ph, s.record ≠ .busy j ph) → ∀ i rest, s.nextCommand = .command i rest →
        o = some i) : TurnMove o s t := by
  unfold runStep at ht
  split at ht
  next i ph hr => exact .inl ⟨i, hb i ph hr, move_exec (ReadyFor.resume h hr) ht⟩
  next hr =>
    have : ∀ j ph, s.record ≠ .busy j ph := by intro j ph; rw [hr]; simp
    exact move_begin h this ht (ho this)
  next hr =>
    have : ∀ j ph, s.record ≠ .busy j ph := by intro j ph; rw [hr]; simp
    exact move_begin h this ht (ho this)

theorem Alike.quiet {k : State} (h : Alike s k) : Move o s k := .quiet h.queues h.qsm fun u => by
  rw [h.record]; exact ⟨rfl, rfl⟩

theorem quiet_enter (s : State) : (enterStep s).queues = s.queues ∧ (enterStep s).qsm = s.qsm ∧
    SameProcedures s (enterStep s) := by
  unfold enterStep
  split
  · exact ⟨rfl, rfl, fun u => ⟨rfl, rfl⟩⟩
  next c hc =>
  have hm := highest_mem hc
  rw [List.mem_filter] at hm
  obtain ⟨hm, hce⟩ := hm
  rw [State.canEnter_iff] at hce
  refine ⟨rfl, rfl, fun u => ?_⟩
  rw [State.enterContext_ctx]
  split
  next e => rw [e, hce.2.2.2]; exact ⟨rfl, rfl⟩
  · exact ⟨rfl, rfl⟩

theorem quiet_env (s : State) (a : Action) (ha : ∀ d, a ≠ .reset d) :
    (environmentStep a s).queues = s.queues ∧ (environmentStep a s).qsm = s.qsm ∧
        SameProcedures s (environmentStep a s) := by
  cases a with
  | reset d => exact absurd rfl (ha d)
  | enter => exact quiet_enter s
  | supply u bytes =>
    refine ⟨rfl, rfl, fun v => ?_⟩
    unfold environmentStep; simp only
    rw [State.setCtx_ctx]; split
    · next e => rw [e]; exact ⟨rfl, rfl⟩
    · exact ⟨rfl, rfl⟩
  | _ => exact ⟨rfl, rfl, fun u => ⟨rfl, rfl⟩⟩

theorem turn_busy {ph : Phase} (hs : s.schedule = [] ∨ ∃ tail, s.schedule = .run :: tail)
    (hr : s.record = .busy i ph) :
    s.turn = some i := by
  unfold State.turn
  rcases hs with e | ⟨tail, e⟩ <;> rw [e] <;> simp only [hr]

theorem turn_begin {rest : List Byte} (hs : s.schedule = [] ∨ ∃ tail, s.schedule = .run :: tail)
    (hb : ∀ j ph, s.record ≠ .busy j ph) (hd : s.nextCommand = .command i rest) : s.turn = some i := by
  unfold State.turn
  cases hr : s.record with
  | busy j ph => exact absurd hr (hb j ph)
  | _ => rcases hs with e | ⟨tail, e⟩ <;> rw [e] <;> simp only [hd]

/-- Everything a step can do to the queues. -/
theorem move_step (h : Inv s) (ht : step s = .next t) : Move s.turn s t := by
  unfold step at ht
  rw [if_pos h.config] at ht
  unfold scheduledStep at ht
  split at ht
  next e =>
    rcases move_run (o := s.turn) h ht (fun i ph hr => turn_busy (.inl e) hr)
        (fun hb i rest hd => turn_begin (.inl e) hb hd) with
      ⟨i, ho, hm⟩ | ⟨a, b, c⟩
    · rw [ho]; exact hm
    · exact .quiet a b c
  next rest e =>
    have hA := Alike.setSchedule s rest
    rcases move_run (o := s.turn) (h.alike (k := s.setSchedule rest) (.inl rfl)) ht
      (fun i ph hr => turn_busy (.inr ⟨_, e⟩) hr) (fun hb i rest hd => turn_begin (.inr ⟨_, e⟩) hb hd) with ⟨i, ho,
          hm⟩ | ⟨a, b, c⟩
    · rw [ho]; exact hA.move hm
    · exact .quiet a b (hA.same c)
  next a rest hne e =>
    injection ht with ht; rw [← ht]
    by_cases ha : ∃ d, a = .reset d
    · obtain ⟨d, rfl⟩ := ha
      refine .reset ?_ (fun q => by cases q <;> rfl) ⟨d, rest, e⟩
      unfold State.turn; rw [e]
    · obtain ⟨x, y, z⟩ := quiet_env (s.setSchedule rest) a (fun d hd => ha ⟨d, hd⟩)
      exact .quiet x y ((Alike.setSchedule s rest).same z)

end Sys2Proof.Machine
end

