-- ==== Sys2Proof/Laws/Discipline.lean ====
section
/-! SUPPORT. Disciplined use of a queue, micro-step by micro-step: what each of E1 to E4, D1 to D4 and a kick's atomic
dequeue keeps of `QueueTidy` and does to the claimed items. -/

namespace Sys2Proof.Machine

variable {s t : State} {q : QId} {U : Usage}

/-- A record with an ENQUEUE in progress is a busy one. -/
theorem enqueue?_eq {r : Record} {l : EnqLocals} {p : EnqPoint} (h : r.enqueue? = some (l, p)) :
    ∃ i, r = .busy i (.enqueue l p) := by
  cases r with
  | busy i ph =>
    cases ph with
    | enqueue l' p' =>
      simp only [Record.enqueue?, Option.some.injEq, Prod.mk.injEq] at h
      obtain ⟨rfl, rfl⟩ := h
      exact ⟨i, rfl⟩
    | _ => simp [Record.enqueue?] at h
  | _ => simp [Record.enqueue?] at h

/-- A record with a DEQUEUE in progress is a busy one. -/
theorem dequeue?_eq {r : Record} {l : DeqLocals} {p : DeqPoint} (h : r.dequeue? = some (l, p)) :
    ∃ i, r = .busy i (.dequeue l p) := by
  cases r with
  | busy i ph =>
    cases ph with
    | dequeue l' p' =>
      simp only [Record.dequeue?, Option.some.injEq, Prod.mk.injEq] at h
      obtain ⟨rfl, rfl⟩ := h
      exact ⟨i, rfl⟩
    | _ => simp [Record.dequeue?] at h
  | _ => simp [Record.dequeue?] at h

/-- Which ENQUEUE has claimed its slot on q and not yet published it. -/
theorem claimed?_iff {q : QId} {r : Record} {l : EnqLocals} :
    r.claimed? q = some l ↔ ∃ p, r.enqueue? = some (l, p) ∧ l.q = q ∧ p ≠ .e2 := by
  unfold Record.claimed?
  cases h : r.enqueue? with
  | none => simp
  | some x =>
    obtain ⟨m, p⟩ := x
    simp only [Option.ite_none_right_eq_some, Option.some.injEq, Prod.mk.injEq]
    constructor
    · rintro ⟨⟨a, b⟩, rfl⟩; exact ⟨p, ⟨rfl, rfl⟩, a, b⟩
    · rintro ⟨p', ⟨rfl, rfl⟩, a, b⟩; exact ⟨⟨a, b⟩, rfl⟩

/-- Which DEQUEUE on q stands between D3 and D4. -/
theorem releases_iff {q : QId} {r : Record} :
    r.releases q = true ↔ ∃ l, r.dequeue? = some (l, .d4) ∧ l.q = q := by
  unfold Record.releases
  cases h : r.dequeue? with
  | none => simp
  | some x =>
    obtain ⟨m, p⟩ := x
    simp only [decide_eq_true_eq, Option.some.injEq, Prod.mk.injEq]
    constructor
    · rintro ⟨a, b⟩; exact ⟨m, ⟨rfl, b⟩, a⟩
    · rintro ⟨m', ⟨rfl, b⟩, a⟩; exact ⟨a, b⟩

/-- The procedures on q are the same. -/
structure SameOn (q : QId) (s t : State) : Prop where
  enq : ∀ u l p, t.Enqueuing u q l p ↔ s.Enqueuing u q l p
  deq : ∀ u l p, t.Dequeuing u q l p ↔ s.Dequeuing u q l p

theorem SameOn.claimed? (h : SameOn q s t)
    (u : Level) : (t.ctx u).record.claimed? q = (s.ctx u).record.claimed? q := by
  apply Option.ext
  intro l
  rw [claimed?_iff, claimed?_iff]
  constructor
  · rintro ⟨p, a, b, c⟩; have := (h.enq u l p).1 ⟨a, b⟩; exact ⟨p, this.1, b, c⟩
  · rintro ⟨p, a, b, c⟩; have := (h.enq u l p).2 ⟨a, b⟩; exact ⟨p, this.1, b, c⟩

theorem SameOn.releases (h : SameOn q s t)
    (u : Level) : (t.ctx u).record.releases q = (s.ctx u).record.releases q := by
  rw [Bool.eq_iff_iff, releases_iff, releases_iff]
  constructor
  · rintro ⟨l, a⟩; exact ⟨l, (h.deq u l _).1 a⟩
  · rintro ⟨l, a⟩; exact ⟨l, (h.deq u l _).2 a⟩

/-- A count over the levels after one level changed. -/
theorem countP_update {f g : Level → Bool} (r : Level) (h : ∀ u, u ≠ r → g u = f u) :
    levelsDown.countP g + (f r).toNat = levelsDown.countP f + (g r).toNat := by
  have key : ∀ L : List Level, L.Nodup → (r ∉ L → L.countP g = L.countP f) ∧
      (r ∈ L → L.countP g + (f r).toNat = L.countP f + (g r).toNat) := by
    intro L
    induction L with
    | nil => intro _; simp
    | cons a L ih =>
      intro hn
      rw [List.nodup_cons] at hn
      obtain ⟨i1, i2⟩ := ih hn.2
      constructor
      · intro hr
        rw [List.mem_cons, not_or] at hr
        rw [List.countP_cons, List.countP_cons, i1 hr.2, h a (Ne.symm hr.1)]
      · intro hr
        rw [List.countP_cons, List.countP_cons]
        by_cases e : a = r
        · subst e
          rw [i1 hn.1]
          cases f a <;> cases g a <;> simp
        · have hm : r ∈ L := by rcases List.mem_cons.1 hr with h | h; exact absurd h.symm e; exact h
          have := i2 hm
          rw [h a e]
          split <;> omega
  exact (key levelsDown (by decide)).2 (mem_levelsDown r)

/-- Who holds a slot. -/
theorem claimedItem_held {u : Level} {l : EnqLocals} {p : EnqPoint} (hd : ∀ v m n, s.Enqueuing v q m n → n ≠ .e2 →
    m.idx = l.idx → m = l)
    (h : s.Enqueuing u q l p) (hp : p ≠ .e2) : s.claimedItem q l.idx = l.item := by
  unfold State.claimedItem
  have hmem : ∀ m, m ∈ levelsDown.filterMap (fun u => ((s.ctx u).record.claimed? q).filter fun m => m.idx == l.idx) ↔
      ∃ v n, s.Enqueuing v q m n ∧ n ≠ .e2 ∧ m.idx = l.idx := by
    intro m
    rw [List.mem_filterMap]
    constructor
    · rintro ⟨v, -, hv⟩
      rw [Option.filter_eq_some_iff, claimed?_iff] at hv
      obtain ⟨⟨n, a, b, c⟩, d⟩ := hv
      exact ⟨v, n, ⟨a, b⟩, c, by simpa using d⟩
    · rintro ⟨v, n, ⟨a, b⟩, c, d⟩
      exact ⟨v, mem_levelsDown v, by rw [Option.filter_eq_some_iff, claimed?_iff]; exact ⟨⟨n, a, b, c⟩,
          by simpa using d⟩⟩
  split
  next m rest e =>
    have : m = l := by
      obtain ⟨v, n, a, b, c⟩ := (hmem m).1 (by rw [e]; simp)
      exact hd v m n a b c
    rw [this]
  next e =>
    have := (hmem l).2 ⟨u, p, h, hp, rfl⟩
    rw [e] at this; simp at this

/-- A slot that no ENQUEUE holds is claimed for its own bytes. -/
theorem claimedItem_free {k : Nat} (hd : ∀ v m n, s.Enqueuing v q m n → n ≠ .e2 → m.idx ≠ k) :
    s.claimedItem q k = s.slot q k := by
  unfold State.claimedItem
  split
  next m rest e =>
    have : m ∈ levelsDown.filterMap (fun u => ((s.ctx u).record.claimed? q).filter fun m => m.idx == k) := by
      rw [e]
      simp
    rw [List.mem_filterMap] at this
    obtain ⟨v, -, hv⟩ := this
    rw [Option.filter_eq_some_iff, claimed?_iff] at hv
    obtain ⟨⟨n, a, b, c⟩, d⟩ := hv
    exact absurd (by simpa using d) (hd v m n ⟨a, b⟩ c)
  · rfl

/-- Ring indices less than CAP apart are different. -/
theorem mod_inj {f k m c : Nat} (hk : k < c) (hm : m < c) (h : (f + k) % c = (f + m) % c) : k = m := by
  have := Nat.ModEq.add_left_cancel' f h
  unfold Nat.ModEq at this
  rwa [Nat.mod_eq_of_lt hk, Nat.mod_eq_of_lt hm] at this

/-- Everything known of s. -/
structure Known (s : State) (U : Usage) (q : QId) : Prop where
  inv : Inv s
  shut : s.WindowsShut
  disc : s.Disciplined U q
  init : (s.queue q).init = true
  tidy : QueueTidy s U q

namespace Known
variable (K : Known s U q)
include K

theorem geo : (s.queue q).GeometryOk s.cfg := (K.inv.queues q).1 K.init
theorem counters : (s.queue q).countersOk := (K.inv.queues q).2.2 K.tidy.sound
theorem front_lt : (s.queue q).front.toNat < (s.queue q).cap.toNat := K.geo.2.2.2.2
theorem claimed_le : (s.queue q).claimed.toNat ≤ (s.queue q).cap.toNat := K.counters.2
theorem ready_le : (s.queue q).ready.toNat ≤ (s.queue q).claimed.toNat := K.counters.1
theorem ok : U.Ok (s.queue q).ceil := (K.disc K.init).1

theorem enq_le {u l p} (h : (s.ctx u).record.enqueue? = some (l, p)) : u ≤ s.running := by
  by_contra hn
  rw [K.inv.above (not_le.1 hn)] at h; simp [Record.enqueue?] at h

theorem enq_inv {u l p} (h : (s.ctx u).record.enqueue? = some (l, p)) : l.Inv s ∧ p.Inv l := by
  obtain ⟨i, e⟩ := enqueue?_eq h
  have := K.inv.records u
  rw [e] at this; exact this.2.1

theorem deq_inv {u l p} (h : (s.ctx u).record.dequeue? = some (l, p)) : l.Inv s ∧ p.Inv l := by
  obtain ⟨i, e⟩ := dequeue?_eq h
  have := K.inv.records u
  rw [e] at this; exact this.2.1

/-- No other context stands in the claim window when a context at or below the ceiling runs. -/
theorem no_window {u l} (hr : s.running.val ≤ (s.queue q).ceil.toNat)
    (h : s.Enqueuing u q l .e2) : u = s.running := by
  by_contra hne
  have hlt : u < s.running := lt_of_le_of_ne (K.enq_le h.1) hne
  obtain ⟨i, e⟩ := enqueue?_eq h.1
  have hw : (s.ctx u).record.windowQueue = some q := by rw [e]; show some l.q = some q; rw [h.2]
  have he : (s.ctx s.running).entered = true := by
    rcases s.running_entered with h0 | h0
    · rw [h0] at hlt; exact absurd hlt (by simp)
    · exact h0
  have := ((K.shut u q hw).2 s.running hlt).1 he
  omega

theorem claimed_pos {u l p} (h : s.Enqueuing u q l p)
    (hp : p ≠ .e2) : (s.queue q).ready.toNat + 1 ≤ (s.queue q).claimed.toNat := by
  have h1 := K.tidy.counts
  have : 0 < levelsDown.countP (fun u => ((s.ctx u).record.claimed? q).isSome) := by
    rw [List.countP_pos_iff]
    exact ⟨u, mem_levelsDown u, by rw [Option.isSome_iff_exists]; exact ⟨l, claimed?_iff.2 ⟨p, h.1, h.2, hp⟩⟩⟩
  omega

/-- What a consumer that runs finds of the ENQUEUEs in progress. -/
theorem consumer {u l p} (hc : U.consumer s.running) (hn : ∀ l p, ¬ s.Enqueuing s.running q l p)
    (h : s.Enqueuing u q l p) :
    p ≠ .e2 ∧ (∀ v, U.producer v → v = u) ∧ ∃ k, k + 1 = (s.queue q).claimed.toNat ∧ (s.queue q).ready.toNat ≤ k ∧
      l.idx = ((s.queue q).front.toNat + k) % (s.queue q).cap.toNat := by
  have hr := K.ok.2.1 _ hc
  have hne : u ≠ s.running := fun e => hn l p (e ▸ h)
  have hp : p ≠ .e2 := by rintro rfl; exact hne (K.no_window hr h)
  have hpu := (K.disc K.init).2.1 u l p h
  have hlt : u < s.running := lt_of_le_of_ne (K.enq_le h.1) hne
  rcases K.ok.2.2 with ⟨v, hv⟩ | hf
  · have hall : ∀ w, U.producer w → w = u := fun w hw => (hv w hw).trans (hv u hpu).symm
    obtain ⟨⟨k, h1, h2, h3⟩, -⟩ := K.tidy.copies u l p h hp
    have := K.claimed_pos h hp
    have h4 := h3 hall
    exact ⟨hp, hall, k, h4, by omega, h2⟩
  · exact absurd (hf u s.running hpu hc) (not_lt.2 (le_of_lt hlt))

end Known

theorem Proceeds.enq {e d} (h : Proceeds s t e d) (u : Level) (q : QId) (l : EnqLocals) (p : EnqPoint) :
    t.Enqueuing u q l p ↔ if u = s.running then e = some (l, p) ∧ l.q = q else s.Enqueuing u q l p := by
  split
  next hu => subst hu; unfold State.Enqueuing; rw [h.enqueue]
  next hu => unfold State.Enqueuing; rw [h.others u hu]

theorem Proceeds.deq {e d} (h : Proceeds s t e d) (u : Level) (q : QId) (l : DeqLocals) (p : DeqPoint) :
    t.Dequeuing u q l p ↔ if u = s.running then d = some (l, p) ∧ l.q = q else s.Dequeuing u q l p := by
  split
  next hu => subst hu; unfold State.Dequeuing; rw [h.dequeue]
  next hu => unfold State.Dequeuing; rw [h.others u hu]

theorem SameProcedures.sameOn (h : SameProcedures s t) : SameOn q s t := by
  constructor
  · intro u l p; unfold State.Enqueuing; rw [(h u).1]
  · intro u l p; unfold State.Dequeuing; rw [(h u).2]

/-- Bytes of two slots are apart. -/
theorem slot_lt {a b n i j : Nat} (ha : a ≠ b) (hi : i < n) (hj : j < n) : a * n + i ≠ b * n + j := by
  rcases Nat.lt_or_gt_of_ne ha with h | h
  · have := Nat.mul_le_mul_right n (Nat.succ_le_of_lt h); rw [Nat.succ_mul] at this; omega
  · have := Nat.mul_le_mul_right n (Nat.succ_le_of_lt h); rw [Nat.succ_mul] at this; omega

/-- A byte of a slot is in the region. -/
theorem in_region {b c n k j x : Nat} (hk : k < c) (hj : j < n) (h : x = b + k * n + j) : b ≤ x ∧ x < b + c * n := by
  have := Nat.mul_le_mul_right n (Nat.succ_le_of_lt hk); rw [Nat.succ_mul] at this; omega

/-- q is as it was: registers, procedures, and bytes of its region. -/
theorem tidy_same (K : Known s U q) (hq : t.queue q = s.queue q) (ho : SameOn q s t)
    (hm : ∀ x, (s.queue q).base.toNat ≤ x →
        x < (s.queue q).base.toNat + (s.queue q).cap.toNat * (s.queue q).itemSize.toNat →
        t.qsm.read x = s.qsm.read x) :
    QueueTidy t U q ∧ t.claims q = s.claims q := by
  have hslot : ∀ k, k < (s.queue q).cap.toNat → t.slot q k = s.slot q k := by
    intro k hk
    unfold State.slot
    rw [hq]
    apply Memory.readBytes_congr
    intro x h1 h2
    have := Nat.mul_le_mul_right (s.queue q).itemSize.toNat (Nat.succ_le_of_lt hk); rw [Nat.succ_mul] at this
    exact hm x (by omega) (by omega)
  have hci : ∀ k, k < (s.queue q).cap.toNat → t.claimedItem q k = s.claimedItem q k := by
    intro k hk
    unfold State.claimedItem
    have : (levelsDown.filterMap fun u => ((t.ctx u).record.claimed? q).filter fun l => l.idx == k) =
        levelsDown.filterMap fun u => ((s.ctx u).record.claimed? q).filter fun l => l.idx == k := by
      congr 1; funext u; rw [ho.claimed?]
    rw [this, hslot k hk]
  obtain ⟨a, b, c, d, e, f, g⟩ := K.tidy
  refine ⟨⟨?_, ?_, ?_, ?_, ?_, ?_, ?_⟩, ?_⟩
  · rw [hq]; exact a
  · rw [hq, b]
    congr 2
    · congr 1; funext u; rw [ho.claimed?]
    · funext u; rw [ho.releases]
  · intro u l h; rw [hq]; exact c u l ((ho.enq u l _).1 h)
  · intro u l p h hp
    have h' := (ho.enq u l p).1 h
    obtain ⟨h1, h2⟩ := d u l p h' hp
    rw [hq]
    refine ⟨h1, fun j hj => ?_⟩
    rw [← h2 j hj]
    obtain ⟨g1, g2⟩ := e u l p h'
    obtain ⟨k, -, hk, -⟩ := h1
    have hcap := K.front_lt
    have hidx : l.idx < (s.queue q).cap.toNat := by rw [hk]; exact Nat.mod_lt _ (by omega)
    have hjs : j < (s.queue q).itemSize.toNat := by
      rw [← g2]
      have := (K.enq_inv h'.1).2
      cases p with
      | e2 => exact absurd rfl hp
      | e3 n => have h3 : n < l.size := this; have h4 : j < n := hj; omega
      | e4 => exact hj
    have := in_region (x := l.base + l.idx * l.size + j) hidx hjs (by rw [g1, g2])
    exact hm _ this.1 this.2
  · intro u l p h; rw [hq]; exact e u l p ((ho.enq u l p).1 h)
  · intro u v l m p n h1 h2; exact f u v l m p n ((ho.enq u l p).1 h1) ((ho.enq v m n).1 h2)
  · intro u l p h
    obtain ⟨g1, g2, g3, g4, g5, g6⟩ := g u l p ((ho.deq u l p).1 h)
    rw [hq]
    exact ⟨g1, g2, g3, g4, by rw [hslot _ K.front_lt]; exact g5, fun v m n h => g6 v m n ((ho.enq v m n).1 h)⟩
  · unfold State.claims
    rw [hq]
    apply List.map_congr_left
    intro k hk
    exact hci _ (Nat.mod_lt _ (by have := K.front_lt; omega))


/-- A counted micro-step that keeps the counters in order leaves QINV clear. -/
theorem Counted.sound {r : Queue} {m : BitVec 4} (hc : Counted q r m s t) (h : r.countersOk) (h2 : r.qinv = false) :
    t.queue q = { r with qinv := false } := by
  rw [hc.queue_self, h2, decide_eq_true h]; rfl

/-- Holders of one slot are one. -/
def Unique (s : State) (q : QId) : Prop :=
  ∀ u v l m p n, s.Enqueuing u q l p → s.Enqueuing v q m n → u ≠ v → l.idx ≠ m.idx

theorem Unique.one (h : Unique s q) {u l p} (hu : s.Enqueuing u q l p) :
    ∀ v m n, s.Enqueuing v q m n → n ≠ .e2 → m.idx = l.idx → m = l := by
  intro v m n hv _ he
  by_cases e : v = u
  · subst e
    have := hu.1.symm.trans hv.1
    simp only [Option.some.injEq, Prod.mk.injEq] at this
    exact this.1.symm
  · exact absurd he (h v u m l n p hv hu e)

/-- A slot is claimed for the same item when its holder goes on, or when it has none and keeps its bytes. -/
theorem claimedItem_eq {k : Nat} (us : Unique s q) (ut : Unique t q)
    (h : ∀ v m n, s.Enqueuing v q m n → n ≠ .e2 → m.idx = k → ∃ w n', t.Enqueuing w q m n' ∧ n' ≠ .e2)
    (hf : (∀ v m n, s.Enqueuing v q m n → n ≠ .e2 → m.idx ≠ k) →
      (∀ v m n, t.Enqueuing v q m n → n ≠ .e2 → m.idx ≠ k) ∧ t.slot q k = s.slot q k) :
    t.claimedItem q k = s.claimedItem q k := by
  by_cases hh : ∃ v m n, s.Enqueuing v q m n ∧ n ≠ .e2 ∧ m.idx = k
  · obtain ⟨v, m, n, a, b, rfl⟩ := hh
    obtain ⟨w, n', c, d⟩ := h v m n a b rfl
    rw [claimedItem_held (ut.one c) c d, claimedItem_held (us.one a) a b]
  · have hh' : ∀ v m n, s.Enqueuing v q m n → n ≠ .e2 → m.idx ≠ k := fun v m n a b c => hh ⟨v, m, n, a, b, c⟩
    obtain ⟨a, b⟩ := hf hh'
    rw [claimedItem_free a, claimedItem_free hh', b]

theorem Known.unique (K : Known s U q) : Unique s q := K.tidy.distinct

theorem Known.deq_pos (K : Known s U q) {u l p} (h : s.Dequeuing u q l p) :
    1 ≤ (s.queue q).claimed.toNat ∧ (p = .d4 → (s.queue q).ready.toNat + 1 ≤ (s.queue q).claimed.toNat) := by
  have h1 := K.tidy.counts
  have key : p = .d4 → (s.queue q).ready.toNat + 1 ≤ (s.queue q).claimed.toNat := by
    rintro rfl
    have : 0 < levelsDown.countP (fun u => (s.ctx u).record.releases q) := by
      rw [List.countP_pos_iff]
      exact ⟨u, mem_levelsDown u, releases_iff.2 ⟨l, h⟩⟩
    omega
  refine ⟨?_, key⟩
  by_cases hp : p = .d4
  · have := key hp; omega
  · have h2 := (K.tidy.reads u l p h).2.2.2.1 hp
    have h3 := K.ready_le
    have : (s.queue q).ready.toNat ≠ 0 := fun e => h2 (BitVec.eq_of_toNat_eq (by simpa using e))
    omega

/-- The claimed items are the same when the queue and the item of every claimed slot are. -/
theorem claims_same (hq : t.queue q = s.queue q) (h : ∀ k, k < (s.queue q).claimed.toNat →
    t.claimedItem q (((s.queue q).front.toNat + k) % (s.queue q).cap.toNat) =
      s.claimedItem q (((s.queue q).front.toNat + k) % (s.queue q).cap.toNat)) :
    t.claims q = s.claims q := by
  unfold State.claims
  rw [hq]
  apply List.map_congr_left
  intro k hk
  exact h k (List.mem_range.1 hk)

theorem slot_same (hq : t.queue q = s.queue q) (hm : t.qsm = s.qsm) (k : Nat) : t.slot q k = s.slot q k := by
  unfold State.slot; rw [hq, hm]

theorem front_mod (K : Known s U q) : (s.queue q).front.toNat = ((s.queue q).front.toNat + 0) % (s.queue q).cap.toNat := by
  rw [Nat.add_zero, Nat.mod_eq_of_lt K.front_lt]

/-- E1 (40_queue.md R152). -/
theorem tidy_e1 (K : Known s U q) {item : List Byte} (hn : s.NoProcedure) (hc : (s.queue q).claimed < (s.queue q).cap)
    (hq : t.queue q = s.queue q) (hm : t.qsm = s.qsm) (hv : Proceeds s t (some (s.claim q item, .e2)) none)
    (hp : U.producer s.running) : QueueTidy t U q ∧ t.claims q = s.claims q := by
  have hr : s.running.val ≤ (s.queue q).ceil.toNat := K.ok.1 _ hp
  have hlt : (s.queue q).claimed.toNat < (s.queue q).cap.toNat := hc
  have hcl : ∀ u, (t.ctx u).record.claimed? q = (s.ctx u).record.claimed? q := by
    intro u
    by_cases hu : u = s.running
    · subst hu
      unfold Record.claimed?
      rw [hv.enqueue]
      have : (s.ctx s.running).record.enqueue? = none := hn.1
      rw [this]; simp
    · rw [hv.others u hu]
  have hrl : ∀ u, (t.ctx u).record.releases q = (s.ctx u).record.releases q := by
    intro u
    by_cases hu : u = s.running
    · subst hu
      unfold Record.releases
      rw [hv.dequeue]
      have : (s.ctx s.running).record.dequeue? = none := hn.2
      rw [this]
    · rw [hv.others u hu]
  -- the new slot is unlike every held one
  have hnew : ∀ v m n, s.Enqueuing v q m n → (s.claim q item).idx ≠ m.idx := by
    intro v m n h
    by_cases hn2 : n = .e2
    · subst hn2
      have := K.no_window hr h
      subst this
      have h0 : (s.ctx s.running).record.enqueue? = none := hn.1
      rw [h.1] at h0; simp at h0
    · obtain ⟨⟨k, h1, h2, -⟩, -⟩ := K.tidy.copies v m n h hn2
      rw [h2]
      intro he
      have := mod_inj (hlt) (lt_trans h1 hlt) he
      omega
  have hEn : ∀ u l p, t.Enqueuing u q l p → (u = s.running ∧ l = s.claim q item ∧ p = .e2) ∨ (u ≠ s.running ∧
      s.Enqueuing u q l p) := by
    intro u l p h
    rw [hv.enq] at h
    split at h
    next hu =>
      have := h.1; simp only [Option.some.injEq, Prod.mk.injEq] at this
      exact .inl ⟨hu, this.1.symm, this.2.symm⟩
    next hu => exact .inr ⟨hu, h⟩
  have hDe : ∀ u l p, t.Dequeuing u q l p → s.Dequeuing u q l p := by
    intro u l p h
    rw [hv.deq] at h
    split at h
    · simp at h
    · exact h
  obtain ⟨a, b, c, d, e, f, g⟩ := K.tidy
  have ut : Unique t q := by
    intro u v l m p n h1 h2 huv
    rcases hEn u l p h1 with ⟨u1, rfl, rfl⟩ | ⟨u1, h1⟩ <;> rcases hEn v m n h2 with ⟨v1, rfl, rfl⟩ | ⟨v1, h2⟩
    · exact absurd (u1.trans v1.symm) huv
    · exact hnew v m n h2
    · exact (hnew u l p h1).symm
    · exact f u v l m p n h1 h2 huv
  refine ⟨⟨?_, ?_, ?_, ?_, ?_, ut, ?_⟩, claims_same hq fun k hk => ?_⟩
  · rw [hq]; exact a
  · simp only [hq, hcl, hrl]; exact b
  · intro u l h
    rw [hq]
    rcases hEn u l _ h with ⟨-, rfl, -⟩ | ⟨hu, h⟩
    · exact ⟨rfl, hc, rfl⟩
    · exact absurd (K.no_window hr h) hu
  · intro u l p h hp2
    rcases hEn u l p h with ⟨-, -, rfl⟩ | ⟨hu, h⟩
    · exact absurd rfl hp2
    · rw [hq, hm]; exact d u l p h hp2
  · intro u l p h
    rw [hq]
    rcases hEn u l p h with ⟨-, rfl, -⟩ | ⟨hu, h⟩
    · exact ⟨rfl, rfl⟩
    · exact e u l p h
  · intro u l p h
    have h' := hDe u l p h
    obtain ⟨g1, g2, g3, g4, g5, g6⟩ := g u l p h'
    rw [hq]
    refine ⟨g1, g2, g3, g4, by rw [slot_same hq hm]; exact g5, fun v m n hv2 => ?_⟩
    rcases hEn v m n hv2 with ⟨-, rfl, -⟩ | ⟨-, h2⟩
    · have := (K.deq_pos h').1
      rw [front_mod K]
      intro he
      have := mod_inj (show (s.queue q).claimed.toNat < _ from hlt) (by omega) he
      omega
    · exact g6 v m n h2
  · unfold State.claimedItem
    simp only [hcl, slot_same hq hm]

/-- E2 (40_queue.md R152). -/
theorem tidy_e2 (K : Known s U q) {i : Instr} {l : EnqLocals} (hl : l.q = q)
    (hrec : s.record = .busy i (.enqueue l .e2))
    (hq : t.queues = (enqueueE2 l s).queues) (hm : t.qsm = s.qsm) (hv : Proceeds s t (some (l, l.copyFrom 0)) none) :
    QueueTidy t U q ∧ t.claims q = s.claims q ++ [l.item] := by
  have hE : s.Enqueuing s.running q l .e2 := ⟨by show s.record.enqueue? = _; rw [hrec]; rfl, hl⟩
  have hD0 : (s.ctx s.running).record.dequeue? = none := by show s.record.dequeue? = _; rw [hrec]; rfl
  have hprod := (K.disc K.init).2.1 _ _ _ hE
  have hr : s.running.val ≤ (s.queue q).ceil.toNat := K.ok.1 _ hprod
  obtain ⟨w1, w2, w3⟩ := K.tidy.window _ _ hE
  have hlt : (s.queue q).claimed.toNat < (s.queue q).cap.toNat := w2
  have hcap := (s.queue q).cap.isLt
  have hc1 : (l.c + 1).toNat = (s.queue q).claimed.toNat + 1 := by
    rw [w1, BitVec.toNat_add]; simp; omega
  have hle := K.ready_le
  have htq : t.queue q = { s.queue q with claimed := l.c + 1, qinv := false } := by
    rw [queue_congr hq, ← hl]
    have hcnt := enqueueE2_counted s l
    have : (({ s.queue l.q with claimed := l.c + 1 } : Queue)).countersOk := by
      rw [hl]
      exact ⟨by show _ ≤ (l.c + 1); rw [BitVec.le_def, hc1]; show (s.queue q).ready.toNat ≤ _; omega,
          by show l.c + 1 ≤ _; rw [BitVec.le_def, hc1]; exact hlt⟩
    have h2 : (s.queue l.q).qinv = false := by rw [hl]; exact K.tidy.sound
    exact hcnt.sound this h2
  have hslot : ∀ k, t.slot q k = s.slot q k := by intro k; unfold State.slot; rw [htq, hm]
  have hEn : ∀ u m p, t.Enqueuing u q m p → (u = s.running ∧ m = l ∧ p = l.copyFrom 0) ∨ (u ≠ s.running ∧
      s.Enqueuing u q m p) := by
    intro u m p h
    rw [hv.enq] at h
    split at h
    next hu =>
      have := h.1; simp only [Option.some.injEq, Prod.mk.injEq] at this
      exact .inl ⟨hu, this.1.symm, this.2.symm⟩
    next hu => exact .inr ⟨hu, h⟩
  have hEn' : ∀ u m p, u ≠ s.running → s.Enqueuing u q m p → t.Enqueuing u q m p := by
    intro u m p hu h; rw [hv.enq, if_neg hu]; exact h
  have htE : t.Enqueuing s.running q l (l.copyFrom 0) := by rw [hv.enq, if_pos rfl]; exact ⟨rfl, hl⟩
  have hDe : ∀ u m p, t.Dequeuing u q m p → s.Dequeuing u q m p := by
    intro u m p h
    rw [hv.deq] at h
    split at h
    · simp at h
    · exact h
  obtain ⟨a, b, c, d, e, f, g⟩ := K.tidy
  have ut : Unique t q := by
    intro u v m m' p n h1 h2 huv
    rcases hEn u m p h1 with ⟨u1, rfl, rfl⟩ | ⟨u1, h1⟩ <;> rcases hEn v m' n h2 with ⟨v1, rfl, rfl⟩ | ⟨v1, h2⟩
    · exact absurd (u1.trans v1.symm) huv
    · exact f _ _ _ _ _ _ hE h2 (Ne.symm v1)
    · exact f _ _ _ _ _ _ h1 hE u1
    · exact f _ _ _ _ _ _ h1 h2 huv
  refine ⟨⟨by rw [htq], ?_, ?_, ?_, ?_, ut, ?_⟩, ?_⟩
  · have hcount := countP_update (f := fun u => ((s.ctx u).record.claimed? q).isSome)
      (g := fun u => ((t.ctx u).record.claimed? q).isSome)
      s.running (by intro u hu; simp only [hv.others u hu])
    have h1 : ((s.ctx s.running).record.claimed? q) = none := by
      unfold Record.claimed?; rw [hE.1]; simp
    have h2 : ((t.ctx s.running).record.claimed? q) = some l := claimed?_iff.2 ⟨_, htE.1, hl, l.copyFrom_ne_e2 0⟩
    have hrl : ∀ u, (t.ctx u).record.releases q = (s.ctx u).record.releases q := by
      intro u
      by_cases hu : u = s.running
      · subst hu; unfold Record.releases; rw [hv.dequeue, hD0]
      · rw [hv.others u hu]
    simp only [h1, h2, Option.isSome_none, Option.isSome_some, Bool.toNat_false, Bool.toNat_true] at hcount
    simp only [hrl]
    rw [htq]
    show (l.c + 1).toNat = (s.queue q).ready.toNat + _ + _
    rw [hc1]; omega
  · intro u m h
    rcases hEn u m _ h with ⟨-, -, h2⟩ | ⟨hu, h⟩
    · exact absurd h2.symm (l.copyFrom_ne_e2 0)
    · exact absurd (K.no_window hr h) hu
  · intro u m p h hp2
    rw [htq, hm]
    rcases hEn u m p h with ⟨rfl, rfl, rfl⟩ | ⟨hu, h⟩
    · refine ⟨⟨(s.queue q).claimed.toNat, by show _ < (m.c + 1).toNat; omega, w3, fun _ => hc1.symm⟩, fun j hj => ?_⟩
      exfalso
      unfold EnqLocals.copyFrom at hj
      split at hj
      · exact absurd hj (Nat.not_lt_zero _)
      next h0 => have : j < m.size := hj; omega
    · obtain ⟨⟨k, h1, h2, h3⟩, h4⟩ := d u m p h hp2
      refine ⟨⟨k, by show _ < (l.c + 1).toNat; omega, h2, fun hall => ?_⟩, h4⟩
      exact absurd (hall _ hprod).symm hu
  · intro u m p h
    rw [htq]
    rcases hEn u m p h with ⟨-, rfl, -⟩ | ⟨hu, h⟩
    · exact e _ _ _ hE
    · exact e u m p h
  · intro u m p h
    have h' := hDe u m p h
    obtain ⟨g1, g2, g3, g4, g5, g6⟩ := g u m p h'
    rw [hslot, htq]
    refine ⟨g1, g2, g3, g4, g5, fun v m' n hv2 => ?_⟩
    rcases hEn v m' n hv2 with ⟨-, rfl, -⟩ | ⟨-, h2⟩
    · exact g6 _ _ _ hE
    · exact g6 v m' n h2
  · unfold State.claims
    rw [htq]
    show (List.range (l.c + 1).toNat).map _ = _
    rw [hc1, List.range_succ, List.map_append]
    congr 1
    · apply List.map_congr_left
      intro k hk
      have hk := List.mem_range.1 hk
      apply claimedItem_eq K.unique ut
      · intro v m n h1 h2 _
        refine ⟨v, n, hEn' v m n ?_ h1, h2⟩
        rintro rfl
        have := h1.1.symm.trans hE.1
        simp only [Option.some.injEq, Prod.mk.injEq] at this
        exact h2 this.2
      · intro hfree
        refine ⟨fun v m n h1 h2 => ?_, hslot _⟩
        rcases hEn v m n h1 with ⟨-, rfl, -⟩ | ⟨-, h1⟩
        · rw [w3]
          show _ ≠ ((s.queue q).front.toNat + k) % (s.queue q).cap.toNat
          intro he
          have := mod_inj hlt (lt_trans hk hlt) he
          omega
        · exact hfree v m n h1 h2
    · show [t.claimedItem q (((s.queue q).front.toNat + (s.queue q).claimed.toNat) % (s.queue q).cap.toNat)] = [l.item]
      rw [← w3, claimedItem_held (ut.one htE) htE (l.copyFrom_ne_e2 0)]

/-- E3.j (40_queue.md R152). -/
theorem tidy_e3 (K : Known s U q) {i : Instr} {l : EnqLocals} {j : Nat} (hl : l.q = q)
    (hrec : s.record = .busy i (.enqueue l (.e3 j)))
    (hq : t.queue q = s.queue q) (hm : t.qsm = s.qsm.write (l.base + l.idx * l.size + j) (l.item.getD j 0))
    (hv : Proceeds s t (some (l, l.copyFrom (j + 1))) none) : QueueTidy t U q ∧ t.claims q = s.claims q := by
  have hE : s.Enqueuing s.running q l (.e3 j) := ⟨by show s.record.enqueue? = _; rw [hrec]; rfl, hl⟩
  have hD0 : (s.ctx s.running).record.dequeue? = none := by show s.record.dequeue? = _; rw [hrec]; rfl
  have hj : j < l.size := (K.enq_inv hE.1).2
  have hread : ∀ x, t.qsm.read x = if x = l.base + l.idx * l.size + j then l.item.getD j 0 else s.qsm.read x := by
    intro x; rw [hm]
    have := Memory.read_write K.inv.qsm.1 (l.base + l.idx * l.size + j) (l.item.getD j 0) x
    rw [this]
  have hcap := K.front_lt
  obtain ⟨lg1, lg2⟩ := K.tidy.geometry _ _ _ hE
  have hother : ∀ k j', k ≠ l.idx → j' < (s.queue q).itemSize.toNat →
      t.qsm.read ((s.queue q).base.toNat + k * (s.queue q).itemSize.toNat + j') =
        s.qsm.read ((s.queue q).base.toNat + k * (s.queue q).itemSize.toNat + j') := by
    intro k j' hk hj'
    rw [hread, if_neg]
    rw [lg1, lg2]
    have := slot_lt hk hj' (show j < (s.queue q).itemSize.toNat by omega)
    omega
  have hslot : ∀ k, k ≠ l.idx → t.slot q k = s.slot q k := by
    intro k hk
    unfold State.slot
    rw [hq]
    apply Memory.readBytes_congr
    intro x h1 h2
    have := hother k (x - ((s.queue q).base.toNat + k * (s.queue q).itemSize.toNat)) hk (by omega)
    rwa [show (s.queue q).base.toNat + k * (s.queue q).itemSize.toNat +
      (x - ((s.queue q).base.toNat + k * (s.queue q).itemSize.toNat)) = x by omega] at this
  have hEn : ∀ u m p, t.Enqueuing u q m p → (u = s.running ∧ m = l ∧ p = l.copyFrom (j + 1)) ∨ (u ≠ s.running ∧
      s.Enqueuing u q m p) := by
    intro u m p h
    rw [hv.enq] at h
    split at h
    next hu =>
      have := h.1; simp only [Option.some.injEq, Prod.mk.injEq] at this
      exact .inl ⟨hu, this.1.symm, this.2.symm⟩
    next hu => exact .inr ⟨hu, h⟩
  have hEn' : ∀ u m p, u ≠ s.running → s.Enqueuing u q m p → t.Enqueuing u q m p := by
    intro u m p hu h; rw [hv.enq, if_neg hu]; exact h
  have htE : t.Enqueuing s.running q l (l.copyFrom (j + 1)) := by rw [hv.enq, if_pos rfl]; exact ⟨rfl, hl⟩
  have hDe : ∀ u m p, t.Dequeuing u q m p → s.Dequeuing u q m p := by
    intro u m p h
    rw [hv.deq] at h
    split at h
    · simp at h
    · exact h
  have hcl : ∀ u, (t.ctx u).record.claimed? q = (s.ctx u).record.claimed? q := by
    intro u
    by_cases hu : u = s.running
    · subst hu
      rw [claimed?_iff.2 ⟨_, htE.1, hl, l.copyFrom_ne_e2 _⟩, claimed?_iff.2 ⟨_, hE.1, hl, by simp⟩]
    · rw [hv.others u hu]
  have hrl : ∀ u, (t.ctx u).record.releases q = (s.ctx u).record.releases q := by
    intro u
    by_cases hu : u = s.running
    · subst hu; unfold Record.releases; rw [hv.dequeue, hD0]
    · rw [hv.others u hu]
  obtain ⟨a, b, c, d, e, f, g⟩ := K.tidy
  have ut : Unique t q := by
    intro u v m m' p n h1 h2 huv
    rcases hEn u m p h1 with ⟨u1, rfl, rfl⟩ | ⟨u1, h1⟩ <;> rcases hEn v m' n h2 with ⟨v1, rfl, rfl⟩ | ⟨v1, h2⟩
    · exact absurd (u1.trans v1.symm) huv
    · exact f _ _ _ _ _ _ hE h2 (Ne.symm v1)
    · exact f _ _ _ _ _ _ h1 hE u1
    · exact f _ _ _ _ _ _ h1 h2 huv
  refine ⟨⟨by rw [hq]; exact a, ?_, ?_, ?_, ?_, ut, ?_⟩, claims_same hq fun k hk => ?_⟩
  · simp only [hq, hcl, hrl]; exact b
  · intro u m h
    rw [hq]
    rcases hEn u m _ h with ⟨-, -, h2⟩ | ⟨hu, h⟩
    · exact absurd h2.symm (l.copyFrom_ne_e2 _)
    · exact c u m h
  · intro u m p h hp2
    rw [hq]
    rcases hEn u m p h with ⟨rfl, rfl, rfl⟩ | ⟨hu, h⟩
    · obtain ⟨h1, h2⟩ := d _ _ _ hE (by simp)
      refine ⟨h1, fun j' hj' => ?_⟩
      have hj2 : j' ≤ j := by
        unfold EnqLocals.copyFrom at hj'
        split at hj'
        · have : j' < j + 1 := hj'; omega
        next h0 => have : j' < m.size := hj'; omega
      rw [hread]
      split
      next he => have : j' = j := by omega
                 rw [this]
      next he => exact h2 j' (by show j' < j; rcases Nat.lt_or_eq_of_le hj2 with h | h; exact h; exact absurd (by rw [h]) he)
    · obtain ⟨h1, h2⟩ := d u m p h hp2
      refine ⟨h1, fun j' hj' => ?_⟩
      obtain ⟨m1, m2⟩ := e u m p h
      rw [← h2 j' hj', m1, m2]
      apply hother _ _ (f _ _ _ _ _ _ h hE hu)
      have := (K.enq_inv h.1).2
      rw [← m2]
      cases p with
      | e2 => exact absurd rfl hp2
      | e3 n => have h3 : n < m.size := this; have h4 : j' < n := hj'; omega
      | e4 => exact hj'
  · intro u m p h
    rw [hq]
    rcases hEn u m p h with ⟨-, rfl, -⟩ | ⟨hu, h⟩
    · exact ⟨lg1, lg2⟩
    · exact e u m p h
  · intro u m p h
    have h' := hDe u m p h
    obtain ⟨g1, g2, g3, g4, g5, g6⟩ := g u m p h'
    rw [hq]
    have hne := g6 _ _ _ hE
    refine ⟨g1, g2, g3, g4, by rw [hslot _ (Ne.symm hne)]; exact g5, fun v m' n hv2 => ?_⟩
    rcases hEn v m' n hv2 with ⟨-, rfl, -⟩ | ⟨-, h2⟩
    · exact hne
    · exact g6 v m' n h2
  · apply claimedItem_eq K.unique ut
    · intro v m n h1 h2 _
      by_cases hvr : v = s.running
      · subst hvr
        have := h1.1.symm.trans hE.1
        simp only [Option.some.injEq, Prod.mk.injEq] at this
        rw [this.1]
        exact ⟨_, _, htE, l.copyFrom_ne_e2 _⟩
      · exact ⟨v, n, hEn' v m n hvr h1, h2⟩
    · intro hfree
      refine ⟨fun v m n h1 h2 => ?_, hslot _ (Ne.symm (hfree _ _ _ hE (by simp)))⟩
      rcases hEn v m n h1 with ⟨-, rfl, -⟩ | ⟨-, h1⟩
      · exact hfree _ _ _ hE (by simp)
      · exact hfree v m n h1 h2

/-- E4 (40_queue.md R152). -/
theorem tidy_e4 (K : Known s U q) {i : Instr} {l : EnqLocals} (hl : l.q = q)
    (hrec : s.record = .busy i (.enqueue l .e4))
    (hq : t.queues = (enqueueE4 l s).1.queues) (hm : t.qsm = s.qsm) (hv : Proceeds s t none none) :
    QueueTidy t U q ∧ t.claims q = s.claims q := by
  have hE : s.Enqueuing s.running q l .e4 := ⟨by show s.record.enqueue? = _; rw [hrec]; rfl, hl⟩
  have hD0 : (s.ctx s.running).record.dequeue? = none := by show s.record.dequeue? = _; rw [hrec]; rfl
  have hpos := K.claimed_pos hE (by simp)
  have hcb := (s.queue q).claimed.isLt
  have hc1 : ((s.queue q).ready + 1).toNat = (s.queue q).ready.toNat + 1 := by
    rw [BitVec.toNat_add]; simp; omega
  have htq : t.queue q = { s.queue q with ready := (s.queue q).ready + 1, qinv := false } := by
    rw [queue_congr hq, ← hl]
    have hcnt := enqueueE4_counted s l
    have : (({ s.queue l.q with ready := (s.queue l.q).ready + 1 } : Queue)).countersOk := by
      rw [hl]
      exact ⟨by show (s.queue q).ready + 1 ≤ (s.queue q).claimed; rw [BitVec.le_def, hc1]; exact hpos, K.counters.2⟩
    have h2 : (s.queue l.q).qinv = false := by rw [hl]; exact K.tidy.sound
    exact hcnt.sound this h2
  obtain ⟨lg1, lg2⟩ := K.tidy.geometry _ _ _ hE
  have hslot : ∀ k, t.slot q k = s.slot q k := by intro k; unfold State.slot; rw [htq, hm]
  have hEn : ∀ u m p, t.Enqueuing u q m p → (u ≠ s.running ∧ s.Enqueuing u q m p) := by
    intro u m p h
    rw [hv.enq] at h
    split at h
    · simp at h
    next hu => exact ⟨hu, h⟩
  have hEn' : ∀ u m p, u ≠ s.running → s.Enqueuing u q m p → t.Enqueuing u q m p := by
    intro u m p hu h; rw [hv.enq, if_neg hu]; exact h
  have hDe : ∀ u m p, t.Dequeuing u q m p → s.Dequeuing u q m p := by
    intro u m p h
    rw [hv.deq] at h
    split at h
    · simp at h
    · exact h
  have hrl : ∀ u, (t.ctx u).record.releases q = (s.ctx u).record.releases q := by
    intro u
    by_cases hu : u = s.running
    · subst hu; unfold Record.releases; rw [hv.dequeue, hD0]
    · rw [hv.others u hu]
  obtain ⟨a, b, c, d, e, f, g⟩ := K.tidy
  have ut : Unique t q := by
    intro u v m m' p n h1 h2 huv
    exact f _ _ _ _ _ _ (hEn u m p h1).2 (hEn v m' n h2).2 huv
  refine ⟨⟨by rw [htq], ?_, ?_, ?_, ?_, ut, ?_⟩, ?_⟩
  · have hcount := countP_update (f := fun u => ((s.ctx u).record.claimed? q).isSome)
      (g := fun u => ((t.ctx u).record.claimed? q).isSome)
      s.running (by intro u hu; simp only [hv.others u hu])
    have h2 : ((t.ctx s.running).record.claimed? q) = none := by
      unfold Record.claimed?; rw [hv.enqueue]
    have h1 : ((s.ctx s.running).record.claimed? q) = some l := claimed?_iff.2 ⟨_, hE.1, hl, by simp⟩
    simp only [h1, h2, Option.isSome_none, Option.isSome_some, Bool.toNat_false, Bool.toNat_true] at hcount
    simp only [hrl]
    rw [htq]
    show (s.queue q).claimed.toNat = ((s.queue q).ready + 1).toNat + _ + _
    rw [hc1]; omega
  · intro u m h; rw [htq]; exact c u m (hEn u m _ h).2
  · intro u m p h hp2; rw [htq, hm]; exact d u m p (hEn u m p h).2 hp2
  · intro u m p h; rw [htq]; exact e u m p (hEn u m p h).2
  · intro u m p h
    obtain ⟨g1, g2, g3, g4, g5, g6⟩ := g u m p (hDe u m p h)
    rw [hslot, htq]
    refine ⟨g1, g2, g3, fun _ => ?_, g5, fun v m' n h2 => g6 v m' n (hEn v m' n h2).2⟩
    intro h0
    have := congrArg BitVec.toNat h0
    change ((s.queue q).ready + 1).toNat = _ at this
    rw [hc1] at this; simp at this
  · unfold State.claims
    rw [htq]
    apply List.map_congr_left
    intro k hk
    by_cases hk2 : ((s.queue q).front.toNat + k) % (s.queue q).cap.toNat = l.idx
    · show t.claimedItem q (((s.queue q).front.toNat + k) % (s.queue q).cap.toNat) = _
      rw [hk2, claimedItem_held (K.unique.one hE) hE (by simp), claimedItem_free, hslot]
      · -- the slot holds the item
        have hcopy := (d _ _ _ hE (by simp)).2
        have hlen := (K.enq_inv hE.1).1.2.1
        apply List.ext_getElem
        · simp [State.slot, hlen, lg2]
        · intro n h1 h2
          have hn : n < (s.queue q).itemSize.toNat := by simpa [State.slot] using h1
          have e1 := Memory.getD_readBytes s.qsm ((s.queue q).base.toNat + l.idx * (s.queue q).itemSize.toNat) _ n hn
          have e2 := hcopy n (by show n < l.size; omega)
          rw [lg1, lg2] at e2
          rw [← e1] at e2
          unfold State.slot at h1 ⊢
          rw [List.getD_eq_getElem _ _ h1, List.getD_eq_getElem _ _ h2] at e2
          exact e2
      · intro v m n h1 h2
        obtain ⟨hu, h1⟩ := hEn v m n h1
        exact f _ _ _ _ _ _ h1 hE hu
    · apply claimedItem_eq K.unique ut
      · intro v m n h1 h2 h3
        refine ⟨v, n, hEn' v m n ?_ h1, h2⟩
        rintro rfl
        have := h1.1.symm.trans hE.1
        simp only [Option.some.injEq, Prod.mk.injEq] at this
        exact hk2 (by rw [← this.1]; exact h3.symm)
      · intro hfree
        exact ⟨fun v m n h1 h2 => hfree v m n (hEn v m n h1).2 h2, hslot _⟩


theorem read_snoc (m : Memory) (a n : Nat) : m.readBytes a (n + 1) = m.readBytes a n ++ [m.read (a + n)] := by
  induction n generalizing a with
  | zero => simp [Memory.readBytes]
  | succ n ih =>
    rw [Memory.readBytes, ih (a + 1), Memory.readBytes]
    rw [show a + 1 + n = a + (n + 1) by omega]; rfl

theorem take_readBytes (m : Memory) (a n k : Nat) (h : k ≤ n) : (m.readBytes a n).take k = m.readBytes a k := by
  induction k generalizing a n with
  | zero => simp [Memory.readBytes]
  | succ k ih =>
    cases n with
    | zero => omega
    | succ n => rw [Memory.readBytes, Memory.readBytes, List.take_succ_cons, ih _ _ (by omega)]

/-- The running context begins or goes on with a DEQUEUE on q, before D3: nothing that the queue holds changes. -/
theorem tidy_reading (K : Known s U q) {l : DeqLocals} {p : DeqPoint} (hp : p ≠ .d4)
    (he : (s.ctx s.running).record.enqueue? = none) (hr : (s.ctx s.running).record.releases q = false)
    (hq : t.queue q = s.queue q) (hm : t.qsm = s.qsm) (hv : Proceeds s t none (some (l, p)))
    (hl : l.f = (s.queue q).front.toNat ∧ l.base = (s.queue q).base.toNat ∧ l.size = (s.queue q).itemSize.toNat ∧
      (s.queue q).ready ≠ 0 ∧ l.out = (s.slot q (s.queue q).front.toNat).take l.out.length ∧
      ∀ v m n, s.Enqueuing v q m n → m.idx ≠ (s.queue q).front.toNat) : QueueTidy t U q ∧
          t.claims q = s.claims q := by
  have hen : ∀ u l p, t.Enqueuing u q l p ↔ s.Enqueuing u q l p := by
    intro u m n
    rw [hv.enq]
    split
    next hu => subst hu; unfold State.Enqueuing; simp [he]
    · exact Iff.rfl
  have hcl : ∀ u, (t.ctx u).record.claimed? q = (s.ctx u).record.claimed? q := by
    intro u
    apply Option.ext; intro m
    rw [claimed?_iff, claimed?_iff]
    constructor
    · rintro ⟨p, a, b, c⟩; have := (hen u m p).1 ⟨a, b⟩; exact ⟨p, this.1, b, c⟩
    · rintro ⟨p, a, b, c⟩; have := (hen u m p).2 ⟨a, b⟩; exact ⟨p, this.1, b, c⟩
  have hrl : ∀ u, (t.ctx u).record.releases q = (s.ctx u).record.releases q := by
    intro u
    by_cases hu : u = s.running
    · subst hu; rw [hr]; unfold Record.releases; rw [hv.dequeue]; simp [hp]
    · rw [hv.others u hu]
  have hslot := slot_same (q := q) hq hm
  obtain ⟨a, b, c, d, e, f, g⟩ := K.tidy
  have ut : Unique t q := fun u v m m' p n h1 h2 huv => f u v m m' p n ((hen _ _ _).1 h1) ((hen _ _ _).1 h2) huv
  refine ⟨⟨by rw [hq]; exact a, ?_, ?_, ?_, ?_, ut, ?_⟩, claims_same hq fun k hk => ?_⟩
  · simp only [hq, hcl, hrl]; exact b
  · intro u m h; rw [hq]; exact c u m ((hen _ _ _).1 h)
  · intro u m p h hp2; rw [hq, hm]; exact d u m p ((hen _ _ _).1 h) hp2
  · intro u m p h; rw [hq]; exact e u m p ((hen _ _ _).1 h)
  · intro u m p' h
    rw [hv.deq] at h
    rw [hslot, hq]
    split at h
    next hu =>
      have := h.1; simp only [Option.some.injEq, Prod.mk.injEq] at this
      obtain ⟨rfl, rfl⟩ := this
      exact ⟨hl.1, hl.2.1, hl.2.2.1, fun _ => hl.2.2.2.1, hl.2.2.2.2.1,
          fun v m n h => hl.2.2.2.2.2 v m n ((hen _ _ _).1 h)⟩
    · obtain ⟨g1, g2, g3, g4, g5, g6⟩ := g u m p' h
      exact ⟨g1, g2, g3, g4, g5, fun v m n h => g6 v m n ((hen _ _ _).1 h)⟩
  · apply claimedItem_eq K.unique ut
    · intro v m n h1 h2 _; exact ⟨v, n, (hen _ _ _).2 h1, h2⟩
    · intro hfree; exact ⟨fun v m n h1 => hfree v m n ((hen _ _ _).1 h1), hslot _⟩

/-- D1 (40_queue.md R153). -/
theorem tidy_d1 (K : Known s U q) (hn : s.NoProcedure) (hc : (s.queue q).ready ≠ 0)
    (hq : t.queue q = s.queue q) (hm : t.qsm = s.qsm) (hv : Proceeds s t none (some (s.take q,
        (s.take q).copyFrom 0)))
    (hp : U.consumer s.running) : QueueTidy t U q ∧ t.claims q = s.claims q := by
  have he : (s.ctx s.running).record.enqueue? = none := hn.1
  refine tidy_reading K ?_ he ?_ hq hm hv ⟨rfl, rfl, rfl, hc, ?_, ?_⟩
  · unfold DeqLocals.copyFrom; split <;> simp
  · unfold Record.releases
    have : (s.ctx s.running).record.dequeue? = none := hn.2
    rw [this]
  · show [] = List.take 0 _; simp
  · intro v m n h he'
    obtain ⟨h1, h2, k, h3, h4, h5⟩ := K.consumer hp (fun l p hl => by unfold State.Enqueuing at hl; rw [he] at hl; simp at hl) h
    have hr0 : (s.queue q).ready.toNat ≠ 0 := fun e => hc (BitVec.eq_of_toNat_eq (by simpa using e))
    rw [h5] at he'
    have := front_mod K
    have hle := K.claimed_le
    have := mod_inj (by omega) (by have := K.front_lt; omega) (he'.trans this)
    omega

/-- D2.j (40_queue.md R153). -/
theorem tidy_d2 (K : Known s U q) {i : Instr} {l l1 : DeqLocals} {j : Nat} (hlq : l.q = q)
    (hrec : s.record = .busy i (.dequeue l (.d2 j)))
    (hl : l1 = { l with out := l.out ++ [s.qsm.read (l.base + l.f * l.size + j)] })
    (hq : t.queue q = s.queue q) (hm : t.qsm = s.qsm) (hv : Proceeds s t none (some (l1, l1.copyFrom (j + 1)))) :
    QueueTidy t U q ∧ t.claims q = s.claims q := by
  have hD : s.Dequeuing s.running q l (.d2 j) := ⟨by show s.record.dequeue? = _; rw [hrec]; rfl, hlq⟩
  have he : (s.ctx s.running).record.enqueue? = none := by show s.record.enqueue? = _; rw [hrec]; rfl
  obtain ⟨g1, g2, g3, g4, g5, g6⟩ := K.tidy.reads _ _ _ hD
  have hinv := (K.deq_inv hD.1).2
  have hj : j < l.size ∧ l.out.length = j := hinv
  refine tidy_reading K ?_ he ?_ hq hm hv ⟨by rw [hl]; exact g1, by rw [hl]; exact g2, by rw [hl]; exact g3,
      g4 (by simp), ?_, g6⟩
  · unfold DeqLocals.copyFrom; split <;> simp
  · unfold Record.releases; rw [hD.1]; simp
  · rw [hl]
    show l.out ++ _ = List.take (l.out ++ [_]).length _
    rw [List.length_append, List.length_singleton, hj.2]
    rw [hj.2] at g5
    unfold State.slot at g5 ⊢
    rw [take_readBytes _ _ _ _ (by omega)] at g5 ⊢
    rw [read_snoc, ← g5, g1, g2, g3]

/-- The only DEQUEUE in progress. -/
theorem Known.one (K : Known s U q) {u v l m p n} (h1 : s.Dequeuing u q l p) (h2 : s.Dequeuing v q m n) : u = v :=
  (K.disc K.init).2.2.2.1 _ _ _ _ _ _ h1 h2

/-- D3 (40_queue.md R153). -/
theorem tidy_d3 (K : Known s U q) {i : Instr} {l : DeqLocals} (hlq : l.q = q)
    (hrec : s.record = .busy i (.dequeue l .d3))
    (hq : t.queues = (dequeueD3 l.q s).queues) (hm : t.qsm = s.qsm) (hv : Proceeds s t none (some (l, .d4))) :
    QueueTidy t U q ∧ t.claims q = s.claims q := by
  have hD : s.Dequeuing s.running q l .d3 := ⟨by show s.record.dequeue? = _; rw [hrec]; rfl, hlq⟩
  have he : (s.ctx s.running).record.enqueue? = none := by show s.record.enqueue? = _; rw [hrec]; rfl
  obtain ⟨g1, g2, g3, g4, g5, g6⟩ := K.tidy.reads _ _ _ hD
  have hr0 : (s.queue q).ready.toNat ≠ 0 := fun e => g4 (by simp) (BitVec.eq_of_toNat_eq (by simpa using e))
  have hr1 : ((s.queue q).ready - 1).toNat = (s.queue q).ready.toNat - 1 := by
    have := (s.queue q).ready.isLt
    rw [BitVec.toNat_sub]; simp; omega
  have htq : t.queue q = { s.queue q with ready := (s.queue q).ready - 1, qinv := false } := by
    rw [queue_congr hq, ← hlq]
    have hcnt := dequeueD3_counted s l.q
    have : (({ s.queue l.q with ready := (s.queue l.q).ready - 1 } : Queue)).countersOk := by
      rw [hlq]
      refine ⟨?_, K.counters.2⟩
      show (s.queue q).ready - 1 ≤ (s.queue q).claimed
      rw [BitVec.le_def, hr1]; have := K.ready_le; omega
    have h2 : (s.queue l.q).qinv = false := by rw [hlq]; exact K.tidy.sound
    exact hcnt.sound this h2
  have hslot : ∀ k, t.slot q k = s.slot q k := by intro k; unfold State.slot; rw [htq, hm]
  have hen : ∀ u l p, t.Enqueuing u q l p ↔ s.Enqueuing u q l p := by
    intro u m n
    rw [hv.enq]
    split
    next hu => subst hu; unfold State.Enqueuing; simp [he]
    · exact Iff.rfl
  have hcl : ∀ u, (t.ctx u).record.claimed? q = (s.ctx u).record.claimed? q := by
    intro u
    apply Option.ext; intro m
    rw [claimed?_iff, claimed?_iff]
    constructor
    · rintro ⟨p, a, b, c⟩; have := (hen u m p).1 ⟨a, b⟩; exact ⟨p, this.1, b, c⟩
    · rintro ⟨p, a, b, c⟩; have := (hen u m p).2 ⟨a, b⟩; exact ⟨p, this.1, b, c⟩
  obtain ⟨a, b, c, d, e, f, g⟩ := K.tidy
  have ut : Unique t q := fun u v m m' p n h1 h2 huv => f u v m m' p n ((hen _ _ _).1 h1) ((hen _ _ _).1 h2) huv
  refine ⟨⟨by rw [htq], ?_, ?_, ?_, ?_, ut, ?_⟩, ?_⟩
  · have hcount := countP_update (f := fun u => (s.ctx u).record.releases q)
      (g := fun u => (t.ctx u).record.releases q)
      s.running (by intro u hu; simp only [hv.others u hu])
    have h1 : (s.ctx s.running).record.releases q = false := by unfold Record.releases; rw [hD.1]; simp
    have h2 : (t.ctx s.running).record.releases q = true := by unfold Record.releases; rw [hv.dequeue]; simp [hlq]
    simp only [h1, h2, Bool.toNat_false, Bool.toNat_true] at hcount
    simp only [hcl]
    rw [htq]
    show (s.queue q).claimed.toNat = ((s.queue q).ready - 1).toNat + _ + _
    rw [hr1]; omega
  · intro u m h; rw [htq]; exact c u m ((hen _ _ _).1 h)
  · intro u m p h hp2; rw [htq, hm]; exact d u m p ((hen _ _ _).1 h) hp2
  · intro u m p h; rw [htq]; exact e u m p ((hen _ _ _).1 h)
  · intro u m p' h
    rw [hv.deq] at h
    rw [hslot, htq]
    split at h
    next hu =>
      have := h.1; simp only [Option.some.injEq, Prod.mk.injEq] at this
      obtain ⟨rfl, rfl⟩ := this
      exact ⟨g1, g2, g3, fun h => absurd rfl h, g5, fun v m n h => g6 v m n ((hen _ _ _).1 h)⟩
    next hu => exact absurd (K.one h hD) hu
  · unfold State.claims
    rw [htq]
    apply List.map_congr_left
    intro k hk
    apply claimedItem_eq K.unique ut
    · intro v m n h1 h2 _; exact ⟨v, n, (hen _ _ _).2 h1, h2⟩
    · intro hfree; exact ⟨fun v m n h1 => hfree v m n ((hen _ _ _).1 h1), hslot _⟩

/-- The front slot is released. -/
theorem tidy_release (K : Known s U q) (hc : U.consumer s.running) (hn : ∀ l p, ¬ s.Enqueuing s.running q l p)
    (hen : ∀ u l p, t.Enqueuing u q l p ↔ s.Enqueuing u q l p) (hdt : ∀ u l p, ¬ t.Dequeuing u q l p) {r : BitVec 16}
    (hq : t.queue q = { s.queue q with
      front := BitVec.ofNat 16 (((s.queue q).front.toNat + 1) % (s.queue q).cap.toNat),
      claimed := (s.queue q).claimed - 1, ready := r, qinv := false }) (hm : t.qsm = s.qsm)
    (hcnt : (s.queue q).claimed.toNat = r.toNat + levelsDown.countP (fun u => ((s.ctx u).record.claimed? q).isSome) + 1)
    (hhead : ∀ v m n, s.Enqueuing v q m n → m.idx ≠ (s.queue q).front.toNat) :
    QueueTidy t U q ∧ s.claims q = s.slot q (s.queue q).front.toNat :: t.claims q := by
  have hcap := K.front_lt
  have hle := K.claimed_le
  have hfront : (t.queue q).front.toNat = ((s.queue q).front.toNat + 1) % (s.queue q).cap.toNat := by
    rw [hq]
    show (BitVec.ofNat 16 _).toNat = _
    rw [BitVec.toNat_ofNat, Nat.mod_eq_of_lt]
    have := (s.queue q).cap.isLt
    have := Nat.mod_lt ((s.queue q).front.toNat + 1) (show 0 < (s.queue q).cap.toNat by omega)
    omega
  have hcl1 : (t.queue q).claimed.toNat = (s.queue q).claimed.toNat - 1 := by
    rw [hq]
    show ((s.queue q).claimed - 1).toNat = _
    have := (s.queue q).claimed.isLt
    rw [BitVec.toNat_sub]; simp; omega
  have hbase : (t.queue q).base = (s.queue q).base := by rw [hq]
  have hsize : (t.queue q).itemSize = (s.queue q).itemSize := by rw [hq]
  have hcapq : (t.queue q).cap = (s.queue q).cap := by rw [hq]
  have hslot : ∀ k, t.slot q k = s.slot q k := by intro k; unfold State.slot; rw [hbase, hsize, hm]
  have hcl : ∀ u, (t.ctx u).record.claimed? q = (s.ctx u).record.claimed? q := by
    intro u
    apply Option.ext; intro m
    rw [claimed?_iff, claimed?_iff]
    constructor
    · rintro ⟨p, a, b, c⟩; have := (hen u m p).1 ⟨a, b⟩; exact ⟨p, this.1, b, c⟩
    · rintro ⟨p, a, b, c⟩; have := (hen u m p).2 ⟨a, b⟩; exact ⟨p, this.1, b, c⟩
  have hrl : levelsDown.countP (fun u => (t.ctx u).record.releases q) = 0 := by
    rw [List.countP_eq_zero]
    intro u _ h
    obtain ⟨l, h⟩ := releases_iff.1 h
    exact hdt u l _ h
  have hidx : ∀ k, ((t.queue q).front.toNat + k) % (t.queue q).cap.toNat =
      ((s.queue q).front.toNat + (k + 1)) % (s.queue q).cap.toNat := by
    intro k
    rw [hfront, hcapq, Nat.mod_add_mod]; congr 1; omega
  obtain ⟨a, b, c, d, e, f, g⟩ := K.tidy
  have ut : Unique t q := fun u v m m' p n h1 h2 huv => f u v m m' p n ((hen _ _ _).1 h1) ((hen _ _ _).1 h2) huv
  have hpos : ∀ u l p, s.Enqueuing u q l p → p ≠ .e2 →
      0 < levelsDown.countP (fun u => ((s.ctx u).record.claimed? q).isSome) := by
    intro u l p h hp
    rw [List.countP_pos_iff]
    exact ⟨u, mem_levelsDown u, by rw [Option.isSome_iff_exists]; exact ⟨l, claimed?_iff.2 ⟨p, h.1, h.2, hp⟩⟩⟩
  refine ⟨⟨by rw [hq], ?_, ?_, ?_, ?_, ut, fun u l p h => absurd h (hdt u l p)⟩, ?_⟩
  · rw [hrl, hcl1]; simp only [hcl]
    rw [hq]; show _ = r.toNat + _ + 0; omega
  · intro u m h
    exact absurd rfl (K.consumer hc hn ((hen _ _ _).1 h)).1
  · intro u m p h hp2
    have h := (hen _ _ _).1 h
    obtain ⟨-, h2, k, h3, h4, h5⟩ := K.consumer hc hn h
    have := hpos u m p h hp2
    refine ⟨⟨k - 1, by omega, ?_, fun _ => by omega⟩, by rw [hm]; exact (d u m p h hp2).2⟩
    rw [hidx, h5, show k - 1 + 1 = k by omega]
  · intro u m p h; rw [hbase, hsize]; exact e u m p ((hen _ _ _).1 h)
  · have key : ∀ k, t.claimedItem q k = s.claimedItem q k := by
      intro k
      apply claimedItem_eq K.unique ut
      · intro v m n h1 h2 _; exact ⟨v, n, (hen _ _ _).2 h1, h2⟩
      · intro hfree; exact ⟨fun v m n h1 => hfree v m n ((hen _ _ _).1 h1), hslot _⟩
    unfold State.claims
    rw [show (s.queue q).claimed.toNat = (t.queue q).claimed.toNat + 1 by omega, List.range_succ_eq_map,
        List.map_cons,
      List.map_map]
    congr 1
    · rw [← front_mod K]
      exact claimedItem_free fun v m n h _ => hhead v m n h
    · apply List.map_congr_left
      intro k _
      show s.claimedItem q (((s.queue q).front.toNat + (k + 1)) % (s.queue q).cap.toNat) = _
      rw [key, hidx]

/-- D4 (40_queue.md R153). -/
theorem tidy_d4 (K : Known s U q) {i : Instr} {l : DeqLocals} (hlq : l.q = q)
    (hrec : s.record = .busy i (.dequeue l .d4))
    (hq : t.queues = (dequeueD4 l.q s).queues) (hm : t.qsm = s.qsm) (hv : Proceeds s t none none) :
    QueueTidy t U q ∧ s.claims q = l.out :: t.claims q ∧ ((dequeueD4 l.q s).queue l.q).qinv = false ∧
        l.size = (s.queue q).itemSize.toNat := by
  have hD : s.Dequeuing s.running q l .d4 := ⟨by show s.record.dequeue? = _; rw [hrec]; rfl, hlq⟩
  have he : (s.ctx s.running).record.enqueue? = none := by show s.record.enqueue? = _; rw [hrec]; rfl
  obtain ⟨g1, g2, g3, g4, g5, g6⟩ := K.tidy.reads _ _ _ hD
  have hpos := (K.deq_pos hD).2 rfl
  have hcl1 : ((s.queue q).claimed - 1).toNat = (s.queue q).claimed.toNat - 1 := by
    have := (s.queue q).claimed.isLt
    rw [BitVec.toNat_sub]; simp; omega
  have hqd : (dequeueD4 l.q s).queue l.q = { s.queue q with
      front := BitVec.ofNat 16 (((s.queue q).front.toNat + 1) % (s.queue q).cap.toNat),
      claimed := (s.queue q).claimed - 1, qinv := false } := by
    have hcnt := dequeueD4_counted s l.q
    rw [hlq] at hcnt ⊢
    refine hcnt.sound ⟨?_, ?_⟩ K.tidy.sound
    · show (s.queue q).ready ≤ (s.queue q).claimed - 1
      rw [BitVec.le_def, hcl1]; omega
    · show (s.queue q).claimed - 1 ≤ (s.queue q).cap
      rw [BitVec.le_def, hcl1]; have := K.claimed_le; omega
  have htq := (queue_congr hq l.q).trans hqd
  rw [hlq] at htq
  have hen : ∀ u l p, t.Enqueuing u q l p ↔ s.Enqueuing u q l p := by
    intro u m n
    rw [hv.enq]
    split
    next hu => subst hu; unfold State.Enqueuing; simp [he]
    · exact Iff.rfl
  have hdt : ∀ u l p, ¬ t.Dequeuing u q l p := by
    intro u m n h
    rw [hv.deq] at h
    split at h
    · simp at h
    next hu => exact hu (K.one h hD)
  have hcons : U.consumer s.running := (K.disc K.init).2.2.1 _ _ _ hD
  have hout : l.out = s.slot q (s.queue q).front.toNat := by
    have : l.out.length = l.size := (K.deq_inv hD.1).2
    rw [g5, this, g3]
    apply List.take_of_length_le
    simp [State.slot]
  have hc1 : levelsDown.countP (fun u => (s.ctx u).record.releases q) = 1 := by
    have hcount := countP_update (f := fun u => (s.ctx u).record.releases q)
        (g := fun u => (t.ctx u).record.releases q)
      s.running (by intro u hu; simp only [hv.others u hu])
    have h0 : levelsDown.countP (fun u => (t.ctx u).record.releases q) = 0 := by
      rw [List.countP_eq_zero]
      intro u _ h
      obtain ⟨l, h⟩ := releases_iff.1 h
      exact hdt u l _ h
    have h1 : (s.ctx s.running).record.releases q = true := releases_iff.2 ⟨l, hD⟩
    have h2 : (t.ctx s.running).record.releases q = false := by unfold Record.releases; rw [hv.dequeue]
    simp only [h1, h2, h0, Bool.toNat_false, Bool.toNat_true] at hcount
    omega
  have := tidy_release (r := (s.queue q).ready) K hcons
    (fun l p h => by unfold State.Enqueuing at h; rw [he] at h; simp at h) hen hdt htq hm
    (by have := K.tidy.counts; omega) g6
  exact ⟨this.1, by rw [hout]; exact this.2, by rw [hqd], g3⟩

/-- The DEQUEUE_ATOMIC of a kick (40_queue.md R154). -/
theorem tidy_pop (K : Known s U .q0) (hn : s.NoProcedure) (hc : (s.queue .q0).ready ≠ 0)
    (hq : t.queues = (dequeueD4 .q0 (dequeueD3 .q0 s)).queues) (hm : t.qsm = s.qsm) (hv : SameProcedures s t)
    (hcons : U.consumer s.running) (hdq : ∀ u l p, ¬ s.Dequeuing u .q0 l p) :
    QueueTidy t U .q0 ∧ s.claims .q0 = s.slot .q0 (s.queue .q0).front.toNat :: t.claims .q0 := by
  have hr0 : (s.queue .q0).ready.toNat ≠ 0 := fun e => hc (BitVec.eq_of_toNat_eq (by simpa using e))
  have hle := K.ready_le
  have hle2 := K.claimed_le
  have hr1 : ((s.queue .q0).ready - 1).toNat = (s.queue .q0).ready.toNat - 1 := by
    have := (s.queue .q0).ready.isLt
    rw [BitVec.toNat_sub]; simp; omega
  have hcl1 : ((s.queue .q0).claimed - 1).toNat = (s.queue .q0).claimed.toNat - 1 := by
    have := (s.queue .q0).claimed.isLt
    rw [BitVec.toNat_sub]; simp; omega
  have h3 : (dequeueD3 .q0 s).queue .q0 = { s.queue .q0 with ready := (s.queue .q0).ready - 1, qinv := false } := by
    refine (dequeueD3_counted s .q0).sound ⟨?_, K.counters.2⟩ K.tidy.sound
    show (s.queue .q0).ready - 1 ≤ (s.queue .q0).claimed
    rw [BitVec.le_def, hr1]; omega
  have h4 : (dequeueD4 .q0 (dequeueD3 .q0 s)).queue .q0 = { s.queue .q0 with
      front := BitVec.ofNat 16 (((s.queue .q0).front.toNat + 1) % (s.queue .q0).cap.toNat),
      claimed := (s.queue .q0).claimed - 1, ready := (s.queue .q0).ready - 1, qinv := false } := by
    have hcnt := dequeueD4_counted (dequeueD3 .q0 s) .q0
    rw [h3] at hcnt
    refine hcnt.sound ⟨?_, ?_⟩ rfl
    · show (s.queue .q0).ready - 1 ≤ (s.queue .q0).claimed - 1
      rw [BitVec.le_def, hcl1, hr1]; omega
    · show (s.queue .q0).claimed - 1 ≤ (s.queue .q0).cap
      rw [BitVec.le_def, hcl1]; omega
  have hO : SameOn .q0 s t := hv.sameOn
  have hrel0 : levelsDown.countP (fun u => (s.ctx u).record.releases .q0) = 0 := by
    rw [List.countP_eq_zero]
    intro u _ h
    obtain ⟨l, h⟩ := releases_iff.1 h
    exact hdq u l _ h
  have hnr : ∀ l p, ¬ s.Enqueuing s.running .q0 l p := fun l p h => by
    have h0 : (s.ctx s.running).record.enqueue? = none := hn.1
    unfold State.Enqueuing at h; rw [h0] at h; simp at h
  refine tidy_release (r := (s.queue .q0).ready - 1) K hcons hnr hO.enq
    (fun u l p h => hdq u l p ((hO.deq u l p).1 h)) ((queue_congr hq .q0).trans h4) hm ?_ ?_
  · have := K.tidy.counts; rw [hr1]; omega
  · intro v m n h he
    obtain ⟨-, -, k, h3, h4, h5⟩ := K.consumer hcons hnr h
    rw [h5] at he
    have := mod_inj (by omega) (by have := K.front_lt; omega) (he.trans (front_mod K))
    omega

/-- A queue with no procedure in progress and no slot claimed. -/
theorem tidy_fresh (hq : (t.queue q).qinv = false) (hc : (t.queue q).claimed = 0) (hr : (t.queue q).ready = 0)
    (he : ∀ u l p, ¬ t.Enqueuing u q l p) (hd : ∀ u l p, ¬ t.Dequeuing u q l p) : QueueTidy t U q ∧
        t.claims q = [] := by
  refine ⟨⟨hq, ?_, fun u l h => absurd h (he _ _ _), fun u l p h => absurd h (he _ _ _),
      fun u l p h => absurd h (he _ _ _),
    fun u v l m p n h => absurd h (he _ _ _), fun u l p h => absurd h (hd _ _ _)⟩, ?_⟩
  · have h1 : levelsDown.countP (fun u => ((t.ctx u).record.claimed? q).isSome) = 0 := by
      rw [List.countP_eq_zero]
      intro u _ h
      rw [Option.isSome_iff_exists] at h
      obtain ⟨l, h⟩ := h
      obtain ⟨p, a, b, c⟩ := claimed?_iff.1 h
      exact he u l p ⟨a, b⟩
    have h2 : levelsDown.countP (fun u => (t.ctx u).record.releases q) = 0 := by
      rw [List.countP_eq_zero]
      intro u _ h
      obtain ⟨l, h⟩ := releases_iff.1 h
      exact hd u l _ h
    rw [h1, h2, hc, hr]; rfl
  · unfold State.claims; rw [hc]; rfl

end Sys2Proof.Machine
end

