-- ==== Sys2Proof/Laws/PerInstr.lean ====
section
/-! SUPPORT. The per-command family: what the words of each command hold for the decoder. -/

namespace Sys2Proof.Laws.Words

/-- The words of a well-formed command carry its opcode, no reserved bit, the length of its data phase and as many
extension words as its opcode has (30_encoding.md R112, R130, R132, R133). -/
def Statement (i : Instr) : Prop :=
  ∀ c : Config, i.wellFormed c = true →
    opField i.word0 = i.opcode.code ∧ reservedClear i.opcode i.word0 i.extWords = true ∧
    i.opcode.dataLen c i.word0 = i.data.length ∧ i.extWords.length = i.opcode.extCount ∧ i.opcode.port = i.port

theorem opField_word0 (i : Instr) : opField i.word0 = i.opcode.code := by
  unfold opField Instr.word0 field
  ext k hk
  simp only [BitVec.getElem_extractLsb', BitVec.getLsbD_append]
  rw [if_neg (by omega)]
  simp [BitVec.getLsbD_eq_getElem hk]

theorem field_low16 (a : BitVec 6) (x : BitVec 10) (y : BitVec 16) : field (a ++ (x ++ y)) 0 16 = y := by
  ext k hk
  simp only [field, BitVec.getElem_extractLsb', BitVec.getLsbD_append]
  rw [if_pos (by omega), if_pos (by omega)]
  simp [BitVec.getLsbD_eq_getElem hk]

theorem field_low8 (a : BitVec 6) (x : BitVec 18) (y : BitVec 8) : field (a ++ (x ++ y)) 0 8 = y := by
  ext k hk
  simp only [field, BitVec.getElem_extractLsb', BitVec.getLsbD_append]
  rw [if_pos (by omega), if_pos (by omega)]
  simp [BitVec.getLsbD_eq_getElem hk]

theorem toNat_len16 {n : Nat} (h : decide (n < 2 ^ 16) = true) : (BitVec.ofNat 16 n).toNat = n := by
  rw [BitVec.toNat_ofNat, Nat.mod_eq_of_lt (by simpa using h)]

theorem toNat_len8 {n : Nat} (h : decide (n < 2 ^ 8) = true) : (BitVec.ofNat 8 n).toNat = n := by
  rw [BitVec.toNat_ofNat, Nat.mod_eq_of_lt (by simpa using h)]

theorem qinit (q : QId) (sp : Bool) (ceil : BitVec 4) (itemSize cap base : BitVec 16) :
    Statement (.qinit q sp ceil itemSize cap base) := by
  intro c _
  refine ⟨opField_word0 _, ?_, rfl, rfl, rfl⟩
  simp only [reservedClear, Instr.word0, Instr.extWords, Instr.lowFields, Instr.opcode, Opcode.format, Format.mask,
    Opcode.matchWord, Format.extMasks, Bool.and_eq_true, beq_iff_eq]
  refine ⟨?_, ?_⟩
  · ext k hk
    simp only [BitVec.getElem_and, BitVec.getElem_append]
    interval_cases k <;> simp [Opcode.code]
  · simp only [List.zipWith_cons_cons, List.zipWith_nil_left, List.all_cons, List.all_nil, Bool.and_true, id,
      Bool.and_eq_true, beq_iff_eq]
    refine ⟨by simp, ?_⟩
    ext k hk
    simp only [BitVec.getElem_and, BitVec.getElem_append]
    interval_cases k <;> simp

theorem enq (q : QId) (data : List Byte) : Statement (.enq q data) := by
  intro c h
  refine ⟨opField_word0 _, ?_, (congrArg BitVec.toNat (field_low16 _ _ _)).trans (toNat_len16 h), rfl, rfl⟩
  simp only [reservedClear, Instr.word0, Instr.extWords, Instr.lowFields, Instr.opcode, Opcode.format, Format.mask,
    Opcode.matchWord, Format.extMasks, List.zipWith_nil_left, List.all_nil, Bool.and_true, beq_iff_eq]
  ext k hk
  simp only [BitVec.getElem_and, BitVec.getElem_append]
  interval_cases k <;> simp [Opcode.code]

theorem deq (q : QId) : Statement (.deq q) := by
  intro c _
  refine ⟨opField_word0 _, ?_, rfl, rfl, rfl⟩
  simp only [reservedClear, Instr.word0, Instr.extWords, Instr.lowFields, Instr.opcode, Opcode.format, Format.mask,
    Opcode.matchWord, Format.extMasks, List.zipWith_nil_left, List.all_nil, Bool.and_true, beq_iff_eq]
  ext k hk
  simp only [BitVec.getElem_and, BitVec.getElem_append]
  interval_cases k <;> simp [Opcode.code]

theorem qcount (q : QId) : Statement (.qcount q) := by
  intro c _
  refine ⟨opField_word0 _, ?_, rfl, rfl, rfl⟩
  simp only [reservedClear, Instr.word0, Instr.extWords, Instr.lowFields, Instr.opcode, Opcode.format, Format.mask,
    Opcode.matchWord, Format.extMasks, List.zipWith_nil_left, List.all_nil, Bool.and_true, beq_iff_eq]
  ext k hk
  simp only [BitVec.getElem_and, BitVec.getElem_append]
  interval_cases k <;> simp [Opcode.code]

theorem qfree (q : QId) : Statement (.qfree q) := by
  intro c _
  refine ⟨opField_word0 _, ?_, rfl, rfl, rfl⟩
  simp only [reservedClear, Instr.word0, Instr.extWords, Instr.lowFields, Instr.opcode, Opcode.format, Format.mask,
    Opcode.matchWord, Format.extMasks, List.zipWith_nil_left, List.all_nil, Bool.and_true, beq_iff_eq]
  ext k hk
  simp only [BitVec.getElem_and, BitVec.getElem_append]
  interval_cases k <;> simp [Opcode.code]

theorem crcCompute (data : List Byte) : Statement (.crcCompute data) := by
  intro c h
  refine ⟨opField_word0 _, ?_, (congrArg BitVec.toNat (field_low16 _ _ _)).trans (toNat_len16 h), rfl, rfl⟩
  simp only [reservedClear, Instr.word0, Instr.extWords, Instr.lowFields, Instr.opcode, Opcode.format, Format.mask,
    Opcode.matchWord, Format.extMasks, List.zipWith_nil_left, List.all_nil, Bool.and_true, beq_iff_eq]
  ext k hk
  simp only [BitVec.getElem_and, BitVec.getElem_append]
  interval_cases k <;> simp [Opcode.code]

theorem crcAppend (payload : List Byte) : Statement (.crcAppend payload) := by
  intro c h
  refine ⟨opField_word0 _, ?_, (congrArg BitVec.toNat (field_low8 _ _ _)).trans (toNat_len8 h), rfl, rfl⟩
  simp only [reservedClear, Instr.word0, Instr.extWords, Instr.lowFields, Instr.opcode, Opcode.format, Format.mask,
    Opcode.matchWord, Format.extMasks, List.zipWith_nil_left, List.all_nil, Bool.and_true, beq_iff_eq]
  ext k hk
  simp only [BitVec.getElem_and, BitVec.getElem_append]
  interval_cases k <;> simp [Opcode.code]

theorem crcVerify (data : List Byte) : Statement (.crcVerify data) := by
  intro c h
  refine ⟨opField_word0 _, ?_, (congrArg BitVec.toNat (field_low16 _ _ _)).trans (toNat_len16 h), rfl, rfl⟩
  simp only [reservedClear, Instr.word0, Instr.extWords, Instr.lowFields, Instr.opcode, Opcode.format, Format.mask,
    Opcode.matchWord, Format.extMasks, List.zipWith_nil_left, List.all_nil, Bool.and_true, beq_iff_eq]
  ext k hk
  simp only [BitVec.getElem_and, BitVec.getElem_append]
  interval_cases k <;> simp [Opcode.code]

theorem linkInit (link : BitVec 2) : Statement (.linkInit link) := by
  intro c _
  refine ⟨opField_word0 _, ?_, rfl, rfl, rfl⟩
  simp only [reservedClear, Instr.word0, Instr.extWords, Instr.lowFields, Instr.opcode, Opcode.format, Format.mask,
    Opcode.matchWord, Format.extMasks, List.zipWith_nil_left, List.all_nil, Bool.and_true, beq_iff_eq]
  ext k hk
  simp only [BitVec.getElem_and, BitVec.getElem_append]
  interval_cases k <;> simp [Opcode.code]

theorem send (payload : List Byte) : Statement (.send payload) := by
  intro c h
  refine ⟨opField_word0 _, ?_, (congrArg BitVec.toNat (field_low8 _ _ _)).trans (toNat_len8 h), rfl, rfl⟩
  simp only [reservedClear, Instr.word0, Instr.extWords, Instr.lowFields, Instr.opcode, Opcode.format, Format.mask,
    Opcode.matchWord, Format.extMasks, List.zipWith_nil_left, List.all_nil, Bool.and_true, beq_iff_eq]
  ext k hk
  simp only [BitVec.getElem_and, BitVec.getElem_append]
  interval_cases k <;> simp [Opcode.code]

theorem recv : Statement (.recv) := by
  intro c _
  refine ⟨opField_word0 _, ?_, rfl, rfl, rfl⟩
  simp only [reservedClear, Instr.word0, Instr.extWords, Instr.lowFields, Instr.opcode, Opcode.format, Format.mask,
    Opcode.matchWord, Format.extMasks, List.zipWith_nil_left, List.all_nil, Bool.and_true, beq_iff_eq]
  ext k hk
  simp only [BitVec.getElem_and, BitVec.getElem_append]
  interval_cases k <;> simp [Opcode.code]

theorem kick : Statement (.kick) := by
  intro c _
  refine ⟨opField_word0 _, ?_, rfl, rfl, rfl⟩
  simp only [reservedClear, Instr.word0, Instr.extWords, Instr.lowFields, Instr.opcode, Opcode.format, Format.mask,
    Opcode.matchWord, Format.extMasks, List.zipWith_nil_left, List.all_nil, Bool.and_true, beq_iff_eq]
  ext k hk
  simp only [BitVec.getElem_and, BitVec.getElem_append]
  interval_cases k <;> simp [Opcode.code]

theorem chunk (page : BitVec 16) (ci cc : BitVec 8) (payload : List Byte) : Statement (.chunk page ci cc payload) := by
  intro c h
  refine ⟨opField_word0 _, ?_, (congrArg BitVec.toNat (field_low8 _ _ _)).trans (toNat_len8 h), rfl, rfl⟩
  simp only [reservedClear, Instr.word0, Instr.extWords, Instr.lowFields, Instr.opcode, Opcode.format, Format.mask,
    Opcode.matchWord, Format.extMasks, Bool.and_eq_true, beq_iff_eq]
  refine ⟨?_, ?_⟩
  · ext k hk
    simp only [BitVec.getElem_and, BitVec.getElem_append]
    interval_cases k <;> simp [Opcode.code]
  · simp only [List.zipWith_cons_cons, List.zipWith_nil_left, List.all_cons, List.all_nil, Bool.and_true, id,
      beq_iff_eq]
    ext k hk
    simp only [BitVec.getElem_and, BitVec.getElem_append]
    interval_cases k <;> simp

theorem regRead (reg : BitVec 8) : Statement (.regRead reg) := by
  intro c _
  refine ⟨opField_word0 _, ?_, rfl, rfl, rfl⟩
  simp only [reservedClear, Instr.word0, Instr.extWords, Instr.lowFields, Instr.opcode, Opcode.format, Format.mask,
    Opcode.matchWord, Format.extMasks, List.zipWith_nil_left, List.all_nil, Bool.and_true, beq_iff_eq]
  ext k hk
  simp only [BitVec.getElem_and, BitVec.getElem_append]
  interval_cases k <;> simp [Opcode.code]

theorem evUartRx (b : Byte) : Statement (.evUartRx b) := by
  intro c _
  refine ⟨opField_word0 _, ?_, rfl, rfl, rfl⟩
  simp only [reservedClear, Instr.word0, Instr.extWords, Instr.lowFields, Instr.opcode, Opcode.format, Format.mask,
    Opcode.matchWord, Format.extMasks, List.zipWith_nil_left, List.all_nil, Bool.and_true, beq_iff_eq]
  ext k hk
  simp only [BitVec.getElem_and, BitVec.getElem_append]
  interval_cases k <;> simp [Opcode.code]

theorem evUartErr (kind : BitVec 3) : Statement (.evUartErr kind) := by
  intro c _
  refine ⟨opField_word0 _, ?_, rfl, rfl, rfl⟩
  simp only [reservedClear, Instr.word0, Instr.extWords, Instr.lowFields, Instr.opcode, Opcode.format, Format.mask,
    Opcode.matchWord, Format.extMasks, List.zipWith_nil_left, List.all_nil, Bool.and_true, beq_iff_eq]
  ext k hk
  simp only [BitVec.getElem_and, BitVec.getElem_append]
  interval_cases k <;> simp [Opcode.code]

theorem evUartTxDone : Statement (.evUartTxDone) := by
  intro c _
  refine ⟨opField_word0 _, ?_, rfl, rfl, rfl⟩
  simp only [reservedClear, Instr.word0, Instr.extWords, Instr.lowFields, Instr.opcode, Opcode.format, Format.mask,
    Opcode.matchWord, Format.extMasks, List.zipWith_nil_left, List.all_nil, Bool.and_true, beq_iff_eq]
  ext k hk
  simp only [BitVec.getElem_and, BitVec.getElem_append]
  interval_cases k <;> simp [Opcode.code]

theorem evSpiDone (rx : List Byte) : Statement (.evSpiDone rx) := by
  intro c h
  refine ⟨opField_word0 _, ?_, (of_decide_eq_true h).symm, rfl, rfl⟩
  simp only [reservedClear, Instr.word0, Instr.extWords, Instr.lowFields, Instr.opcode, Opcode.format, Format.mask,
    Opcode.matchWord, Format.extMasks, List.zipWith_nil_left, List.all_nil, Bool.and_true, beq_iff_eq]
  ext k hk
  simp only [BitVec.getElem_and, BitVec.getElem_append]
  interval_cases k <;> simp [Opcode.code]

theorem evCtsEdge : Statement (.evCtsEdge) := by
  intro c _
  refine ⟨opField_word0 _, ?_, rfl, rfl, rfl⟩
  simp only [reservedClear, Instr.word0, Instr.extWords, Instr.lowFields, Instr.opcode, Opcode.format, Format.mask,
    Opcode.matchWord, Format.extMasks, List.zipWith_nil_left, List.all_nil, Bool.and_true, beq_iff_eq]
  ext k hk
  simp only [BitVec.getElem_and, BitVec.getElem_append]
  interval_cases k <;> simp [Opcode.code]

theorem evMwEdge : Statement (.evMwEdge) := by
  intro c _
  refine ⟨opField_word0 _, ?_, rfl, rfl, rfl⟩
  simp only [reservedClear, Instr.word0, Instr.extWords, Instr.lowFields, Instr.opcode, Opcode.format, Format.mask,
    Opcode.matchWord, Format.extMasks, List.zipWith_nil_left, List.all_nil, Bool.and_true, beq_iff_eq]
  ext k hk
  simp only [BitVec.getElem_and, BitVec.getElem_append]
  interval_cases k <;> simp [Opcode.code]

end Sys2Proof.Laws.Words
end

