-- ==== Sys2Proof/Machine/Assembly.lean ====
section
/-! DEFINITION. The assembly syntax of a command (30_encoding.md R135). No step of the machine reads it. -/

namespace Sys2Proof

/-- A number in decimal. -/
def decimal (n : Nat) : String := toString n

/-- The digits of hexadecimal numbers. -/
def hexDigits : List Char := ['0', '1', '2', '3', '4', '5', '6', '7', '8', '9', 'A', 'B', 'C', 'D', 'E', 'F']

/-- A byte as two hexadecimal digits. -/
def hexByte (b : Byte) : String :=
  String.ofList [hexDigits.getD (b.toNat / 16) '0', hexDigits.getD (b.toNat % 16) '0']

/-- A data phase: a list of hexadecimal bytes in square brackets. -/
def hexBytes (bytes : List Byte) : String := "[" ++ " ".intercalate (bytes.map hexByte) ++ "]"

/-- The name of a queue instance. -/
def QId.asm (q : QId) : String := "q" ++ decimal q.code.toNat

/-- The operand of LINK_INIT. -/
def linkAsm (link : BitVec 2) : String :=
  if link = 1 then "spi" else if link = 2 then "uart" else decimal link.toNat

/-- The operand of EV_UART_ERR. -/
def kindAsm (kind : BitVec 3) : String :=
  ["break", "overrun", "parity", "framing", "timeout"].getD kind.toNat (decimal kind.toNat)

/-- The assembly line of a command; a length field that its data phase implies is not written (30_encoding.md R135). -/
def Instr.asm : Instr → String
  | .qinit q sp ceil itemSize cap base =>
    "QINIT " ++ q.asm ++ ", sp=" ++ decimal sp.toNat ++ ", ceil=" ++ decimal ceil.toNat ++ ", item=" ++
      decimal itemSize.toNat ++ ", cap=" ++ decimal cap.toNat ++ ", base=" ++ decimal base.toNat
  | .enq q data => "ENQ " ++ q.asm ++ ", " ++ hexBytes data
  | .deq q => "DEQ " ++ q.asm
  | .qcount q => "QCOUNT " ++ q.asm
  | .qfree q => "QFREE " ++ q.asm
  | .crcCompute data => "CRC_COMPUTE " ++ hexBytes data
  | .crcAppend payload => "CRC_APPEND " ++ hexBytes payload
  | .crcVerify data => "CRC_VERIFY " ++ hexBytes data
  | .linkInit link => "LINK_INIT " ++ linkAsm link
  | .send payload => "SEND " ++ hexBytes payload
  | .recv => "RECV"
  | .kick => "KICK"
  | .chunk page ci cc payload =>
    "CHUNK page=" ++ decimal page.toNat ++ ", ci=" ++ decimal ci.toNat ++ ", cc=" ++ decimal cc.toNat ++ ", " ++
      hexBytes payload
  | .regRead reg => "REG_READ 0x" ++ hexByte reg
  | .evUartRx b => "EV_UART_RX 0x" ++ hexByte b
  | .evUartErr kind => "EV_UART_ERR " ++ kindAsm kind
  | .evUartTxDone => "EV_UART_TXDONE"
  | .evSpiDone rx => "EV_SPI_DONE " ++ hexBytes rx
  | .evCtsEdge => "EV_CTS_EDGE"
  | .evMwEdge => "EV_MW_EDGE"

end Sys2Proof
end

