-- ==== Sys2Proof/Tests/Slice0.lean ====
section
/-! SUPPORT. Tests of the model: one ill-formed command for each check of WellFormed, words written out from the spec's
encoding tables, single micro-steps against 95_test_vectors.md, and a witness for the hypotheses of every statement of
Certificates/Slice0/Obligations.lean that has any. -/

namespace Sys2Proof.Tests

-- The tests are elaborated one after another: this many kernel evaluations at once run out of threads.
set_option Elab.async false

open Sys2Proof Sys2Proof.Machine

/-! ### Well-formed commands (30_encoding.md R115 to R121, R133) -/

theorem test_wf_enq_refused : (Instr.enq .q0 (zeros 65536)).wellFormed Config.reference = false := by
  simp [Instr.wellFormed]
theorem test_wf_crcCompute_refused : (Instr.crcCompute (zeros 65536)).wellFormed Config.reference = false := by
  simp [Instr.wellFormed]
theorem test_wf_crcVerify_refused : (Instr.crcVerify (zeros 65536)).wellFormed Config.reference = false := by
  simp [Instr.wellFormed]
theorem test_wf_crcAppend_refused : (Instr.crcAppend (zeros 256)).wellFormed Config.reference = false := by
  simp [Instr.wellFormed]
theorem test_wf_send_refused : (Instr.send (zeros 256)).wellFormed Config.reference = false := by
  simp [Instr.wellFormed]
theorem test_wf_chunk_refused : (Instr.chunk 0 0 1 (zeros 256)).wellFormed Config.reference = false := by
  simp [Instr.wellFormed]
theorem test_wf_evSpiDone_short_refused : (Instr.evSpiDone (zeros 63)).wellFormed Config.reference = false := by
  simp [Instr.wellFormed, Config.reference]

/-! ### Words written out from the encoding tables (30_encoding.md R114 to R127, R137) -/

/-- The bytes of words, least-significant byte first, and a data phase. -/
def bytesOf (words : List Word) (data : List Byte) : List Byte := words.flatMap bytesOfWord ++ data

/-- QINIT q2, sp=1, ceil=0, item=4, cap=3, base=0x200 (R137): OP 000001, Q 10, 000, SP 1, CEIL 0000. -/
theorem test_decode_qinit :
    decode Config.reference .command (bytesOf [0b00000110000100000000000000000000, 0x00040003, 0x00000200] []) =
      .command (.qinit .q2 true 0 4 3 0x200) [] := by decide
/-- QINIT q1, sp=1, ceil=3, item=64, cap=4, base=0x100 (95_test_vectors.md, Boot). -/
theorem test_decode_qinit_boot :
    decode Config.reference .command (bytesOf [0x05130000, 0x00400004, 0x00000100] []) =
      .command (.qinit .q1 true 3 64 4 0x100) [] := by decide
/-- ENQ q2, [C0 FF EE 00] (R137): OP 000010, Q 10, 0, N 4. -/
theorem test_decode_enq :
    decode Config.reference .command (bytesOf [0b00001010000000000000000000000100] [0xC0, 0xFF, 0xEE, 0x00]) =
      .command (.enq .q2 [0xC0, 0xFF, 0xEE, 0x00]) [] := by decide
/-- DEQ q2 serialised: 00 00 00 0E (V-ENC-8). -/
theorem test_decode_deq : decode Config.reference .command [0x00, 0x00, 0x00, 0x0E] = .command (.deq .q2) [] := by
  decide
/-- QCOUNT q3 (V-Q-9), with the next command's first byte behind it. -/
theorem test_decode_qcount :
    decode Config.reference .command (bytesOf [0x13000000] [0xAB]) = .command (.qcount .q3) [0xAB] := by decide
/-- QFREE q2 (P1 step 7). -/
theorem test_decode_qfree : decode Config.reference .command (bytesOf [0x16000000] []) = .command (.qfree .q2) [] := by
  decide
/-- CRC_COMPUTE [01 64] (V-CRC-3): OP 001000. -/
theorem test_decode_crcCompute :
    decode Config.reference .command (bytesOf [0x20000002] [0x01, 0x64]) = .command (.crcCompute [0x01, 0x64]) [] := by
  decide
/-- CRC_APPEND [64] (V-CRC-10): OP 001001. -/
theorem test_decode_crcAppend :
    decode Config.reference .command (bytesOf [0x24000001] [0x64]) = .command (.crcAppend [0x64]) [] := by decide
/-- CRC_VERIFY [01 64 13 1F] (V-CRC-17): OP 001010. -/
theorem test_decode_crcVerify :
    decode Config.reference .command (bytesOf [0x28000004] [0x01, 0x64, 0x13, 0x1F]) =
      .command (.crcVerify [0x01, 0x64, 0x13, 0x1F]) [] := by decide
/-- LINK_INIT uart (Boot): OP 010000, LINK 10. -/
theorem test_decode_linkInit :
    decode Config.reference .command (bytesOf [0b01000000000000000000000000000010] []) = .command (.linkInit 2) [] := by
  decide
/-- SEND [64] (R137): OP 010001, L 1. -/
theorem test_decode_send :
    decode Config.reference .command (bytesOf [0x44000001] [0x64]) = .command (.send [0x64]) [] := by decide
/-- RECV (P2 step 9). -/
theorem test_decode_recv : decode Config.reference .command (bytesOf [0x48000000] []) = .command .recv [] := by decide
/-- KICK (P3 step 7). -/
theorem test_decode_kick : decode Config.reference .command (bytesOf [0x4C000000] []) = .command .kick [] := by decide
/-- CHUNK page=0, ci=1, cc=2, [AA BB] (R137, V-ENC-7): OP 011000, CI, CC, LEN, then PAGE. -/
theorem test_decode_chunk :
    decode Config.reference .command (bytesOf [0x60010202, 0x00000000] [0xAA, 0xBB]) =
      .command (.chunk 0 1 2 [0xAA, 0xBB]) [] := by decide
/-- CHUNK page=1, ci=4, cc=5, [01 02 03 04] (P4 step 8). -/
theorem test_decode_chunk_page :
    decode Config.reference .command (bytesOf [0x60040504, 0x00000001] [0x01, 0x02, 0x03, 0x04]) =
      .command (.chunk 1 4 5 [0x01, 0x02, 0x03, 0x04]) [] := by decide
/-- REG_READ 0x05 (R137): OP 100000. -/
theorem test_decode_regRead :
    decode Config.reference .command (bytesOf [0x80000005] []) = .command (.regRead 0x05) [] := by decide
/-- EV_UART_RX 0xA5 (R137): OP 110000. -/
theorem test_decode_evUartRx :
    decode Config.reference .event (bytesOf [0xC00000A5] []) = .command (.evUartRx 0xA5) [] := by decide
/-- EV_UART_ERR timeout (R137): OP 110001, KIND 100. -/
theorem test_decode_evUartErr :
    decode Config.reference .event (bytesOf [0xC4000004] []) = .command (.evUartErr 4) [] := by decide
/-- EV_UART_TXDONE (P2 step 33). -/
theorem test_decode_evUartTxDone :
    decode Config.reference .event (bytesOf [0xC8000000] []) = .command .evUartTxDone [] := by decide
/-- EV_SPI_DONE [02 AB CD 05 A7] ++ zeros(59) (P3 step 8). -/
theorem test_decode_evSpiDone :
    decode Config.reference .event (bytesOf [0xD0000000] ([0x02, 0xAB, 0xCD, 0x05, 0xA7] ++ zeros 59)) =
      .command (.evSpiDone ([0x02, 0xAB, 0xCD, 0x05, 0xA7] ++ zeros 59)) [] := by decide +kernel
/-- EV_CTS_EDGE (P3 step 6). -/
theorem test_decode_evCtsEdge :
    decode Config.reference .event (bytesOf [0xD4000000] []) = .command .evCtsEdge [] := by decide
/-- EV_MW_EDGE (P3 step 11). -/
theorem test_decode_evMwEdge :
    decode Config.reference .event (bytesOf [0xD8000000] []) = .command .evMwEdge [] := by decide

/-- V-ENC-1: an unassigned opcode. -/
theorem test_illegal_unassigned :
    decode Config.reference .command (bytesOf [0x00000000] []) = .illegal .unassignedOpcode 0 [] := by decide
/-- V-ENC-2: DEQ q2 with reserved bit 0 set. -/
theorem test_illegal_reserved :
    decode Config.reference .command (bytesOf [0x0E000001] []) = .illegal .reservedBit 0x0E000001 [] := by decide
/-- V-ENC-3: an event opcode on the command port. -/
theorem test_illegal_event_on_command_port :
    decode Config.reference .command (bytesOf [0xC00000A5] []) = .illegal .wrongPort 0xC00000A5 [] := by decide
/-- V-ENC-4: a command opcode on the event port. -/
theorem test_illegal_command_on_event_port :
    decode Config.reference .event (bytesOf [0x4C000000] []) = .illegal .wrongPort 0x4C000000 [] := by decide
/-- V-ENC-6: QINIT q2 with word2 bit 16 set; all three words are consumed. -/
theorem test_illegal_extension_word :
    decode Config.reference .command (bytesOf [0x06100000, 0x00040003, 0x00010200] [0x77]) =
      .illegal .reservedBit 0x06100000 [0x77] := by decide
/-- A command whose data phase has not all come yet. -/
theorem test_incomplete :
    decode Config.reference .command (bytesOf [0x0A000004] [0xC0, 0xFF, 0xEE]) = .incomplete := by decide

/-- The assembly line of 30_encoding.md R137. -/
theorem test_asm_enq : (Instr.enq .q2 [0xC0, 0xFF, 0xEE, 0x00]).asm = "ENQ q2, [C0 FF EE 00]" := by decide +kernel
theorem test_asm_evUartErr : (Instr.evUartErr 4).asm = "EV_UART_ERR timeout" := by decide +kernel

/-! ### Where the host places a command -/

theorem test_table_qinit : decodeTableWord 32 0x04000000 = some (.qinit .q0 false 0 0 0 0) := by decide +kernel
theorem test_table_chunk : decodeTableWord 64 0x0000000760010203 = some (.chunk 7 1 2 (zeros 3)) := by decide +kernel
theorem test_table_evSpiDone : decodeTableWord 32 0xD0000000 = some (.evSpiDone (zeros 64)) := by decide +kernel

/-- The first step after reset runs the placed command. -/
theorem test_fetch_regRead :
    step (State.reset.withFetchWord 32 0x80000005) =
      exec (.regRead 0x05)
        (State.reset.setCtx 0 { State.reset.ctx 0 with record := .start .command, stream := [] }) := rfl

/-! ### Single micro-steps -/

/-- The last response on the running context's command port. -/
def answer (s : State) (o : Host.Outcome State Fault Refusal) : Option Response :=
  match o with
  | .next t => (t.ctx s.running).responses.getLast?
  | _ => none

/-- The last response on the event port. -/
def eventAnswer (o : Host.Outcome State Fault Refusal) : Option Response :=
  match o with
  | .next t => t.env.eventSink.getLast?
  | _ => none

/-- One field of the next state, if there is one. -/
def after {α : Type} (o : Host.Outcome State Fault Refusal) (f : State → α) : Option α :=
  match o with
  | .next t => some (f t)
  | _ => none

/-- A queue of two slots of two bytes at 0x10, CEIL 3. -/
def smallQueue : Queue :=
  { Queue.reset with init := true, sp := true, ceil := 3, itemSize := 2, cap := 2, base := 0x10 }

/-- Reset, with `smallQueue` as Q0 and a like queue at 0x20 as Q1, and a link. -/
def booted (link : LinkSel) : State :=
  { State.reset with queues := ⟨smallQueue, { smallQueue with base := 0x20 }, .reset, .reset⟩, link := link }

/-- Context 0 in the middle of a command. -/
def busy (s : State) (i : Instr) (ph : Phase) : State := s.setCtx 0 { s.ctx 0 with record := .busy i ph }

/-- The handler of level 3 in the middle of an event. -/
def handling (s : State) (r : Record) : State := s.setCtx 3 { s.ctx 3 with entered := true, record := r }

/-- The locals of an ENQUEUE that claimed slot 0. -/
def claim (q : QId) (item : List Byte) (base : Nat) : EnqLocals :=
  { q := q, item := item, c := 0, f := 0, idx := 0, base := base, size := 2, saved := 0 }

/-- V-Q-4: the region fits exactly. -/
theorem test_qinit_fits : answer .reset (exec (.qinit .q3 true 0 64 4 0xF00) .reset) = some ⟨.ok, 0, []⟩ := by
  decide +kernel
/-- V-Q-5: one byte further it does not. -/
theorem test_qinit_too_far : answer .reset (exec (.qinit .q3 true 0 64 4 0xF01) .reset) = some ⟨.initFail, 0, []⟩ := by
  decide +kernel
/-- E1 raises MASK to the ceiling (40_queue.md R152). -/
theorem test_enq_claims : after (exec (.enq .q0 [1, 2]) (booted .none)) State.mask = some 3 := by decide +kernel
/-- V-Q-16: a length that is not ITEM_SIZE. -/
theorem test_enq_badArg : answer .reset (exec (.enq .q0 [1]) (booted .none)) = some ⟨.badArg, 0, []⟩ := by
  decide +kernel
/-- D2.0 reads the front slot's first byte (40_queue.md R153). -/
theorem test_deq_copies :
    after (exec (.deq .q0) (busy { booted .none with qsm := [(0x12, 0xAA)] } (.deq .q0)
        (.dequeue { q := .q0, f := 1, base := 0x10, size := 2, out := [] } (.d2 0)))) (fun t => t.record) =
      some (.busy (.deq .q0) (.dequeue { q := .q0, f := 1, base := 0x10, size := 2, out := [0xAA] } (.d2 1))) := by
  decide +kernel
/-- V-Q-12: a queue that was never initialised. -/
theorem test_deq_notInit : answer .reset (exec (.deq .q2) .reset) = some ⟨.notInit, 0, []⟩ := by decide +kernel
/-- QCOUNT answers READY (40_queue.md R158). -/
theorem test_qcount :
    answer .reset (exec (.qcount .q1)
      ((booted .none).setQueue .q1 { smallQueue with claimed := 2, ready := 1 })) = some ⟨.ok, 1, []⟩ := by decide +kernel
/-- QFREE answers CAP − CLAIMED (40_queue.md R159). -/
theorem test_qfree :
    answer .reset (exec (.qfree .q1)
      ((booted .none).setQueue .q1 { smallQueue with claimed := 1, ready := 0 })) = some ⟨.ok, 1, []⟩ := by decide +kernel
/-- V-CRC-8: the check value. -/
theorem test_crcCompute_check :
    answer .reset (exec (.crcCompute [0x31, 0x32, 0x33, 0x34, 0x35, 0x36, 0x37, 0x38, 0x39]) .reset) =
      some ⟨.ok, 0x31C3, []⟩ := by decide +kernel
/-- V-CRC-12. -/
theorem test_crcAppend :
    answer .reset (exec (.crcAppend [0x10, 0x20]) .reset) = some ⟨.ok, 5, [0x02, 0x10, 0x20, 0x71, 0x49]⟩ := by
  decide +kernel
/-- V-CRC-14: 62 bytes. -/
theorem test_crcAppend_oversize : answer .reset (exec (.crcAppend (zeros 62)) .reset) = some ⟨.oversize, 62, []⟩ := by
  decide +kernel
/-- V-CRC-23: a flip of the length byte that is not detected (41_crc.md R210). -/
theorem test_crcVerify_length_flip :
    answer .reset (exec (.crcVerify [0x02, 0x00, 0xBC, 0x37, 0x08, 0x86]) .reset) = some ⟨.ok, 1, []⟩ := by
  decide +kernel
/-- V-CRC-16: the all-zero buffer verifies (41_crc.md R204). -/
theorem test_crcVerify_zeros : answer .reset (exec (.crcVerify (zeros 64)) .reset) = some ⟨.ok, 1, []⟩ := by
  decide +kernel
/-- LINK_INIT spi arms MW (44_comms.md R310). -/
theorem test_linkInit_spi : after (exec (.linkInit 1) .reset) (fun t => t.spx.mwArmed) = some true := by decide +kernel
/-- V-C-6: a second LINK_INIT. -/
theorem test_linkInit_denied : answer .reset (exec (.linkInit 1) (booted .uart)) = some ⟨.denied, 0, []⟩ := by
  decide +kernel
/-- V-C-2: SEND of 62 bytes. -/
theorem test_send_oversize : answer .reset (exec (.send (zeros 62)) .reset) = some ⟨.oversize, 62, []⟩ := by
  decide +kernel
/-- V-C-1: T2 of a SEND refused by ENQUEUE counts the drop. -/
theorem test_send_drop :
    after (exec (.send [0x64]) (busy .reset (.send [0x64]) (.afterEnqueue .notInit))) State.txDrop = some 1 := by
  decide +kernel
/-- V-C-7: RECV with Q1 empty. -/
theorem test_recv_empty : answer .reset (exec .recv (booted .uart)) = some ⟨.empty, 0, []⟩ := by decide +kernel
/-- V-S-3: the keepalive, found by level. -/
theorem test_kick_keepalive :
    after (exec .kick { booted .spi with env := { Env.quiet with ctsPin := true, mwPin := true } })
      (fun t => t.env.spiReq) = some [zeros 64] := by decide +kernel
/-- V-C-3: KICK with no link. -/
theorem test_kick_no_link : answer .reset (exec .kick .reset) = some ⟨.ok, 0, []⟩ := by decide +kernel
/-- V-A-4: a chunk of page 7 at a clean boundary. -/
theorem test_chunk_starts_page :
    after (exec (.chunk 7 0 2 (zeros 32)) .reset) (fun t => (t.acc.activePage, t.acc.bitmap)) = some (7, 0x02) := by
  decide +kernel
/-- V-A-2: check c1 fails. -/
theorem test_chunk_invalid : answer .reset (exec (.chunk 5 8 9 (zeros 32)) .reset) = some ⟨.ok, 2, []⟩ := by
  decide +kernel
/-- V-R-2. -/
theorem test_regRead_config :
    answer .reset (exec (.regRead 0x01) .reset) = some ⟨.ok, 0, [0x40, 0x3D, 0x37, 0x01]⟩ := by decide +kernel
/-- V-R-7. -/
theorem test_regRead_unmapped : answer .reset (exec (.regRead 0x25) .reset) = some ⟨.badArg, 0x25, []⟩ := by
  decide +kernel
/-- V-U-5: a length of 0x3D is the longest. -/
theorem test_evUartRx_length :
    after (exec (.evUartRx 0x3D)
        (handling { booted .uart with ufr := { State.reset.ufr with state := .awaitingLength } } (.start .event)))
      (fun t => (t.ufr.state, t.ufr.pos, t.ufr.need)) = some (.awaitingPayload, 1, 64) := by decide +kernel
/-- P2 step 14: a packet that fails VERIFY. -/
theorem test_evUartRx_crc_fail :
    eventAnswer (exec (.evUartRx 0xA5)
        (handling { booted .uart with
          ufr := { State.reset.ufr with
            state := .awaitingPayload, pos := 3, need := 4, fbuf := [0x01, 0x13, 0x1F] ++ zeros 61 } }
          (.start .event))) = some ⟨.ok, 20, []⟩ := by decide +kernel
/-- V-U-6: a kind above 4. -/
theorem test_evUartErr_badArg : eventAnswer (exec (.evUartErr 5) (booted .uart)) = some ⟨.badArg, 0, []⟩ := by
  decide +kernel
/-- V-U-7: overrun resyncs and answers its kind. -/
theorem test_evUartErr_overrun : eventAnswer (exec (.evUartErr 1) (booted .uart)) = some ⟨.ok, 1, []⟩ := by
  decide +kernel
/-- P2 step 33: the next packet is handed over. -/
theorem test_evUartTxDone_next :
    after (exec .evUartTxDone { booted .uart with
        queues := ⟨{ smallQueue with itemSize := 5, claimed := 1, ready := 1 }, .reset, .reset, .reset⟩
        qsm := [(0x10, 0x02), (0x11, 0x10), (0x12, 0x20), (0x13, 0x71), (0x14, 0x49)]
        ufr := { State.reset.ufr with utxBusy := true } })
      (fun t => t.env.uartReq) = some [[0xA5, 0x02, 0x10, 0x20, 0x71, 0x49]] := by decide +kernel
/-- V-U-16: a spurious completion. -/
theorem test_evUartTxDone_spurious : eventAnswer (exec .evUartTxDone (booted .uart)) = some ⟨.badArg, 0, []⟩ := by
  decide +kernel
/-- V-S-6: a length over the cap fails VERIFY. -/
theorem test_evSpiDone_crc_fail :
    after (exec (.evSpiDone ([0x3E] ++ zeros 63))
        { booted .spi with spx := { State.reset.spx with busy := true, selected := true } })
      (fun t => (t.crcFail, t.spx.busy)) = some (1, false) := by decide +kernel
/-- V-S-10: no transfer in flight. -/
theorem test_evSpiDone_idle : eventAnswer (exec (.evSpiDone (zeros 64)) (booted .spi)) = some ⟨.badArg, 0, []⟩ := by
  decide +kernel
/-- V-S-7: CTS is disarmed and the waiting item is sent. -/
theorem test_evCtsEdge_sends :
    after (exec .evCtsEdge { booted .spi with
        queues := ⟨{ smallQueue with claimed := 1, ready := 1 }, .reset, .reset, .reset⟩
        qsm := [(0x10, 0x01), (0x11, 0xA5)]
        spx := { State.reset.spx with ctsArmed := true, ctsPend := true }
        env := { Env.quiet with ctsPin := true } })
      (fun t => (t.spx.ctsArmed, t.spx.ctsPend, t.env.spiReq)) =
      some (false, false, [[0x01, 0xA5] ++ zeros 62]) := by decide +kernel
/-- P3 step 11: MW is re-armed and the keepalive is sent. -/
theorem test_evMwEdge_keepalive :
    after (exec .evMwEdge { booted .spi with
        spx := { State.reset.spx with mwPend := true }, env := { Env.quiet with ctsPin := true, mwPin := true } })
      (fun t => (t.spx.mwArmed, t.spx.mwPend, t.env.spiReq)) = some (true, false, [zeros 64]) := by decide +kernel
/-- V-S-2: nothing latched. -/
theorem test_evMwEdge_not_latched : eventAnswer (exec .evMwEdge (booted .spi)) = some ⟨.badArg, 0, []⟩ := by
  decide +kernel

/-! ### States that meet the hypotheses of the statements

One theorem for each statement that has hypotheses: concrete states and operands that meet the hypotheses of every
clause together, at a boundary value of each range. -/

/-- The part of the invariant that can be decided on a concrete state. -/
def checks (s : State) : Bool :=
  decide s.cfg.WF && decide (s.qsm.WF ∧ ∀ c ∈ s.qsm, c.1 < s.cfg.qsmBytes) &&
  decide ((s.queue .q0).Inv s.cfg) && decide ((s.queue .q1).Inv s.cfg) && decide ((s.queue .q2).Inv s.cfg) &&
  decide ((s.queue .q3).Inv s.cfg) &&
  (s.faultEver || !(s.accFatal || (s.queue .q0).qinv || (s.queue .q1).qinv || (s.queue .q2).qinv || (s.queue .q3).qinv)) &&
  decide (s.ufr.Inv s.cfg) && decide (s.ufr.utxBusy = true → s.link = .uart) && decide (s.spx.Inv s.cfg s.link) &&
  decide (s.acc.Inv s.cfg s.accFatal) && decide (∀ u : Level, (s.ctx u).Inv s.cfg.nprio u) && decide s.MaskNests &&
  decide (∀ rx ∈ s.env.spiDone, rx.length = s.cfg.maxPacketSize)

/-- The invariant of a concrete state in which at most context v has a command in progress. -/
theorem inv_of (s : State) (v : Level) (h : checks s = true)
    (hv : (s.ctx v).record.Inv s ∧ (s.ctx v).record.OnCommandPort ∨ v ≠ 0 ∧ (s.ctx v).record.Inv s)
    (hidle : ∀ u : Level, u ≠ v → (s.ctx u).record = .idle) : Inv s := by
  unfold checks at h
  rw [Bool.and_eq_true, Bool.and_eq_true, Bool.and_eq_true, Bool.and_eq_true, Bool.and_eq_true, Bool.and_eq_true,
    Bool.and_eq_true, Bool.and_eq_true, Bool.and_eq_true, Bool.and_eq_true, Bool.and_eq_true, Bool.and_eq_true,
    Bool.and_eq_true] at h
  obtain ⟨⟨⟨⟨⟨⟨⟨⟨⟨⟨⟨⟨⟨h1, h2⟩, a⟩, b⟩, c⟩, d⟩, h4⟩, h5⟩, h6⟩, h7⟩, h8⟩, h9⟩, h10⟩, h11⟩ := h
  refine ⟨of_decide_eq_true h1, of_decide_eq_true h2, ?_, ?_, of_decide_eq_true h5, of_decide_eq_true h6,
    of_decide_eq_true h7, of_decide_eq_true h8, of_decide_eq_true h9, ?_, ?_, of_decide_eq_true h10,
    of_decide_eq_true h11⟩
  · intro q
    cases q
    · exact of_decide_eq_true a
    · exact of_decide_eq_true b
    · exact of_decide_eq_true c
    · exact of_decide_eq_true d
  · rcases e : s.faultEver with _ | _
    · rw [e] at h4
      simp only [Bool.false_or, Bool.not_eq_true', Bool.or_eq_false_iff] at h4
      obtain ⟨⟨⟨⟨e0, e1⟩, e2⟩, e3⟩, e4⟩ := h4
      refine ⟨by simp [e0], fun q => ?_⟩
      cases q <;> simp [e1, e2, e3, e4]
    · exact ⟨fun _ => rfl, fun _ _ => rfl⟩
  · intro u
    by_cases hu : u = v
    · subst hu; rcases hv with h | h
      · exact h.1
      · exact h.2
    · rw [hidle u hu]; trivial
  · by_cases h0 : (0 : Level) = v
    · subst h0; rcases hv with h | h
      · exact h.2
      · exact absurd rfl h.1
    · rw [hidle 0 h0]; trivial

/-- The invariant of a concrete state with no command in progress. -/
theorem inv_idle (s : State) (h : checks s = true) (hidle : ∀ u : Level, (s.ctx u).record = .idle) : Inv s :=
  inv_of s 0 h (.inl ⟨by rw [hidle]; trivial, by rw [hidle]; trivial⟩) fun u _ => hidle u

theorem inv_reset : Inv State.reset := inv_idle _ (by decide +kernel) (by decide +kernel)

theorem inv_booted (link : LinkSel) : Inv (booted link) :=
  inv_idle _ (by cases link <;> decide +kernel) (by cases link <;> decide +kernel)

/-- `booted`, with one item ready on Q0 and on Q1. -/
def loaded (link : LinkSel) : State :=
  { booted link with
    queues := ⟨{ smallQueue with claimed := 1, ready := 1 }, { smallQueue with base := 0x20, claimed := 1, ready := 1 },
      .reset, .reset⟩ }

theorem inv_loaded (link : LinkSel) : Inv (loaded link) :=
  inv_idle _ (by cases link <;> decide +kernel) (by cases link <;> decide +kernel)

/-- `booted` with a SEND of context 0 between E1 and E2. -/
def claiming : State := busy ((booted .uart).setMask 3) (.send [1]) (.enqueue (claim .q0 [1, 2] 0x10) .e2)

theorem inv_claiming : Inv claiming := by
  refine inv_of _ 0 (by decide +kernel) (.inl ⟨?_, rfl⟩) (by decide +kernel)
  exact ⟨rfl, ⟨by decide +kernel, trivial⟩, trivial⟩

theorem windowsShut_claiming : claiming.WindowsShut := by
  intro w q hw
  have h0 : ∀ v : Level, v ≠ 0 → (claiming.ctx v).record.windowQueue = none := by decide +kernel
  by_cases e : w = 0
  · subst e
    have : some q = some QId.q0 := hw.symm.trans (by decide +kernel)
    injection this with this
    subst this
    exact ⟨by decide +kernel, by decide +kernel⟩
  · rw [h0 w e] at hw; simp at hw

/-- `booted` with the framer in a state, and a handler entered for its event at level 3. -/
def receiving (c : Config) (f : Framer) : State :=
  handling { booted .uart with cfg := c, ufr := f } (.start .event)

/-- The framer at its start. -/
def startFramer : Framer := State.reset.ufr

/-- The framer three bytes into a packet of length 1. -/
def nearlyDone (b1 b2 : Byte) : Framer :=
  { startFramer with state := .awaitingPayload, pos := 3, need := 4, fbuf := [0x01, b1, b2] ++ zeros 61 }

/-- The reference configuration with the start code A5 5A (V-U-11). -/
def twoByteStart : Config := { Config.reference with startCode := [0xA5, 0x5A] }

theorem inv_receiving (c : Config) (f : Framer) (h : checks (receiving c f) = true) : Inv (receiving c f) := by
  refine inv_of _ 3 h (.inr ⟨by decide, ?_⟩) ?_
  · have : ((receiving c f).ctx 3).record = .start .event := rfl
    rw [this]; trivial
  · intro u hu
    show ((handling _ _).ctx u).record = _
    simp only [handling, State.ctx, State.setCtx, State.setCtxs]
    rw [Fin.getElem_fin, Vector.getElem_set_ne _ _ (fun e => hu (Fin.ext e.symm))]
    simp [booted, State.reset, State.resetWith, Context.reset]

/-- SPI with a transfer in flight and both latches set. -/
def spiFlight : State :=
  { loaded .spi with
    spx := { busy := true, selected := true, ctsArmed := true, ctsPend := true, mwArmed := true, mwPend := true,
             txbuf := zeros 64 } }

theorem inv_spiFlight : Inv spiFlight := inv_idle _ (by decide +kernel) (by decide +kernel)

/-- A bitmap with chunk 1 of page 7 still pending. -/
def halfPage : State := { State.reset with acc := { State.reset.acc with activePage := 7, bitmap := 0x02 } }

theorem inv_halfPage : Inv halfPage := inv_idle _ (by decide +kernel) (by decide +kernel)

/-- The accumulator after a flash failure. -/
def fatalPage : State :=
  { State.reset with accFatal := true, faultEver := true, acc := { State.reset.acc with bitmap := 0, status := .fatal } }

/-- `exec` has a next state. -/
abbrev Runs (i : Instr) (s : State) : Prop := ∃ t, exec i s = .next t

theorem witness_DecodeOfEncodeIsTheCommand :
    (Instr.enq .q3 (zeros 65535)).wellFormed Config.reference = true ∧
    (Instr.chunk 0xFFFF 0xFF 0xFF (zeros 255)).wellFormed Config.reference = true ∧
    (Instr.evSpiDone (zeros 64)).wellFormed Config.reference = true := by
  simp [Instr.wellFormed, Config.reference]

theorem witness_EncodeOfDecodeIsTheBytes :
    decode Config.reference .command (bytesOf [0x13000000] [0xAB]) = .command (.qcount .q3) [0xAB] := by decide

theorem witness_IllegalExactlyInTheThreeCases :
    Opcode.ofCode ((wordOfBytes 0 0 0 0).extractLsb' 26 6) = none ∧
    Opcode.ofCode ((wordOfBytes 0 0 0 0xFF).extractLsb' 26 6) = none ∧
    (Opcode.ofCode ((wordOfBytes 0 0 0 0xC0).extractLsb' 26 6) = some .evUartRx ∧ Opcode.evUartRx.port ≠ .command) ∧
    (Opcode.ofCode ((wordOfBytes 1 0 0 0x0E).extractLsb' 26 6) = some .deq ∧ Opcode.deq.port = .command ∧
      4 * Opcode.deq.extCount + Opcode.deq.dataLen Config.reference (wordOfBytes 1 0 0 0x0E) ≤ ([] : List Byte).length ∧
      wordOfBytes 1 0 0 0x0E &&& Opcode.deq.format.mask ≠ Opcode.deq.matchWord) ∧
    (Opcode.ofCode ((wordOfBytes 0 0 0x10 0x06).extractLsb' 26 6) = some .qinit ∧ Opcode.qinit.port = .command ∧
      4 * Opcode.qinit.extCount + Opcode.qinit.dataLen Config.reference (wordOfBytes 0 0 0x10 0x06) ≤ (zeros 8).length ∧
      wordOfBytes 0 0 0x10 0x06 &&& Opcode.qinit.format.mask = Opcode.qinit.matchWord ∧
      1 < Opcode.qinit.extCount ∧
      (takeWords 2 [3, 0, 4, 0, 0, 2, 1, 0]).getD 1 0 &&& Opcode.qinit.format.extMasks.getD 1 0 ≠ 0 ∧
      ∀ k : Nat, k < 2 → (takeWords 2 (zeros 8)).getD k 0 &&& Opcode.qinit.format.extMasks.getD k 0 = 0) := by decide

theorem witness_StepRunsTheDecodedCommand :
    ∃ s : State, s.cfg.WF ∧ (∀ j ph, s.record ≠ .busy j ph) ∧ s.schedule = [.run] ∧
      decode s.cfg s.record.port (s.ctx s.running).stream = .command .kick [] :=
  ⟨{ State.reset.setStream (encode .kick) with schedule := [.run] }, by decide +kernel,
    fun _ _ h => by have : Record.idle = _ := h; simp at this, rfl, by decide +kernel⟩

theorem witness_StepGoesOnWithTheCommandInProgress :
    claiming.cfg.WF ∧ claiming.schedule = [] ∧
      claiming.record = .busy (.send [1]) (.enqueue (claim .q0 [1, 2] 0x10) .e2) := by decide +kernel

theorem witness_IllegalCommandIsRefused :
    ∃ s : State, s.cfg.WF ∧ s.schedule = [] ∧ (∀ j ph, s.record ≠ .busy j ph) ∧
      decode s.cfg s.record.port (s.ctx s.running).stream = .illegal .reservedBit 0x0E000001 [] :=
  ⟨State.reset.setStream [1, 0, 0, 0x0E], by decide +kernel, rfl,
    fun _ _ h => by have : Record.idle = _ := h; simp at this, by decide +kernel⟩

theorem witness_ConfigurationIsCheckedAndKept :
    ¬ { State.reset with cfg := { Config.reference with maxPacketSize := 3 } }.cfg.WF ∧
    ∃ t, step State.reset = .next t := ⟨by decide, _, rfl⟩

/-- A handler of level 3 is entered over context 0. -/
theorem witness_OtherContextsKeepTheirRecords :
    ∃ s t : State, step s = .next t ∧ (3 : Level) ≠ s.running ∧ (∀ d tail, s.schedule ≠ .reset d :: tail) ∧
      (t.ctx 3).entered = true :=
  ⟨{ booted .uart with schedule := [.enter], env := { Env.quiet with uartTxDone := 1 } }, _, rfl, by decide +kernel,
    by simp, by decide +kernel⟩

theorem witness_InvariantHoldsAfterReset : State.reset.cfg.WF := by decide

theorem witness_EveryStepKeepsTheInvariant : Inv claiming ∧ ∃ t, step claiming = .next t := ⟨inv_claiming, _, rfl⟩

theorem witness_NoStepStops : Inv claiming := inv_claiming

/-- The window of Q0 is open, and a handler of level 4 can be entered over its ceiling 3. -/
theorem witness_ClaimWindowsStayShut :
    Inv claiming ∧ claiming.WindowsShut ∧ (claiming.ctx 0).record.windowQueue = some .q0 ∧ claiming.canEnter 4 = true ∧
      claiming.canEnter 3 = false ∧ ∃ t, step claiming = .next t ∧ ∀ q, (t.queue q).ceil = (claiming.queue q).ceil :=
  ⟨inv_claiming, windowsShut_claiming, by decide +kernel, by decide +kernel, by decide +kernel, _, rfl,
    fun q => by cases q <;> decide +kernel⟩

theorem witness_CountersAreCheckedWhenWritten :
    ∃ t, step claiming = .next t ∧ (t.queue .q0).claimed ≠ (claiming.queue .q0).claimed := ⟨_, rfl, by decide +kernel⟩

theorem witness_FaultBitsAreSticky :
    (fatalPage.accFatal = true ∧ fatalPage.faultEver = true ∧ Runs .kick fatalPage) ∧
    ∃ s : State, (s.queue .q2).qinv = true ∧ Runs (.qcount .q2) s :=
  ⟨⟨rfl, rfl, _, rfl⟩, State.reset.setQueue .q2 { Queue.reset with qinv := true }, rfl, _, rfl⟩

/-- A copy micro-step stores at 0x11; 0x10 and 0x12 are outside. -/
theorem witness_OnlyTheCopyMicroStepStores :
    let s := busy (booted .uart) (.send [1]) (.enqueue (claim .q0 [1, 2] 0x10) (.e3 1))
    s.qsm.WF ∧ Runs (.send [1]) s ∧ s.phase = .enqueue (claim .q0 [1, 2] 0x10) (.e3 1) ∧
      Runs .kick State.reset ∧ Instr.kick.opcode ≠ .enq :=
  ⟨by decide, ⟨_, rfl⟩, by decide +kernel, ⟨_, rfl⟩, by decide⟩

theorem witness_QinitSetsTheQueueOrChangesNothing :
    (State.reset.cfg.nprio ≤ (8 : BitVec 4).toNat ∧ (7 : BitVec 4).toNat < State.reset.cfg.nprio) ∧
    State.reset.cfg.qsmBytes < (0xF01 : BitVec 16).toNat + (4 : BitVec 16).toNat * (64 : BitVec 16).toNat ∧
    (0xF00 : BitVec 16).toNat + (4 : BitVec 16).toNat * (64 : BitVec 16).toNat ≤ State.reset.cfg.qsmBytes ∧
    (4 : BitVec 16) ≠ 0 := by decide

theorem witness_EnqIsRefusedOrClaims :
    let faulty := (booted .none).setQueue .q0 { smallQueue with qinv := true }
    let full := (booted .none).setQueue .q0 { smallQueue with claimed := 2 }
    let nearlyFull := (booted .none).setQueue .q0 { smallQueue with claimed := 1 }
    (faulty.phase = .first ∧ (faulty.queue .q0).qinv = true) ∧
    (State.reset.phase = .first ∧ (State.reset.queue .q0).qinv = false ∧ (State.reset.queue .q0).init = false) ∧
    ((booted .none).usable .q0 ∧ [(1 : Byte)].length ≠ ((booted .none).queue .q0).itemSize.toNat) ∧
    (full.usable .q0 ∧ [(1 : Byte), 2].length = (full.queue .q0).itemSize.toNat ∧
      (full.queue .q0).cap ≤ (full.queue .q0).claimed) ∧
    (nearlyFull.phase = .first ∧ nearlyFull.usable .q0 ∧ [(1 : Byte), 2].length = (nearlyFull.queue .q0).itemSize.toNat ∧
      (nearlyFull.queue .q0).claimed < (nearlyFull.queue .q0).cap) := by decide +kernel

theorem witness_ClaimWriteUsesTheValueReadInE1 :
    claiming.phase = .enqueue (claim .q0 [1, 2] 0x10) .e2 ∧
    (busy (booted .uart) (.enq .q0 [1, 2]) (.enqueue (claim .q0 [1, 2] 0x10) .e2)).phase =
      .enqueue (claim .q0 [1, 2] 0x10) .e2 := by decide +kernel

theorem witness_UninterruptedCopyFillsTheSlot :
    let l := claim .q0 [1, 2] 0x10
    Inv claiming ∧ claiming.schedule = [] ∧ claiming.record = .busy (.send [1]) (.enqueue l .e2) ∧
      claiming.usable l.q ∧ (claiming.queue l.q).ready ≤ l.c ∧ l.c < (claiming.queue l.q).cap :=
  ⟨inv_claiming, by decide +kernel⟩

theorem witness_EnqStoresTheItemAndPublishesIt :
    Inv (loaded .none) ∧ (loaded .none).schedule = [] ∧ (loaded .none).phase = .first ∧ (loaded .none).usable .q0 ∧
      [(1 : Byte), 2].length = ((loaded .none).queue .q0).itemSize.toNat ∧
      ((loaded .none).queue .q0).claimed < ((loaded .none).queue .q0).cap := ⟨inv_loaded _, by decide +kernel⟩

/-- E4 with its slot claimed, in ENQ and in ACCEPT; and with no slot claimed, where the check raises. -/
theorem witness_EnqStoresTheItemAndPublishesIt_publish :
    let l := claim .q1 [1, 2] 0x20
    let one := { smallQueue with base := 0x20, claimed := 1 }
    let enq := (busy (booted .uart) (.enq .q1 [1, 2]) (.enqueue l .e4)).setQueue .q1 one
    let rx := (handling (booted .uart) (.busy (.evUartRx 1) (.enqueue l .e4))).setQueue .q1 one
    let broken := busy (booted .uart) (.enq .q1 [1, 2]) (.enqueue l .e4)
    (enq.phase = .enqueue l .e4 ∧ (enq.queue l.q).ready + 1 ≤ (enq.queue l.q).claimed) ∧ rx.phase = .enqueue l .e4 ∧
      (broken.phase = .enqueue l .e4 ∧ ¬ (broken.queue l.q).ready + 1 ≤ (broken.queue l.q).claimed) := by decide +kernel

theorem witness_EnqFrame :
    let l := claim .q0 [1, 2] 0x10
    let s := busy (booted .uart) (.enq .q0 [1, 2]) (.enqueue l (.e3 0))
    s.qsm.WF ∧ Runs (.enq .q0 [1, 2]) s ∧ s.phase = .enqueue l (.e3 0) ∧ l.q = .q0 :=
  ⟨by decide, ⟨_, rfl⟩, by decide +kernel⟩

theorem witness_DeqAndRecvRefusalsChangeNothing :
    let faulty := (booted .none).setQueue .q1 { smallQueue with qinv := true }
    (faulty.phase = .first ∧ (faulty.queue .q1).qinv = true) ∧
    (State.reset.phase = .first ∧ (State.reset.queue .q1).qinv = false ∧ (State.reset.queue .q1).init = false) ∧
    ((booted .none).phase = .first ∧ (booted .none).usable .q1 ∧ ((booted .none).queue .q1).ready = 0) := by
  decide +kernel

theorem witness_DeqAndRecvReturnTheFrontSlot :
    Inv (loaded .none) ∧ (loaded .none).schedule = [] ∧ (loaded .none).phase = .first ∧ (loaded .none).usable .q1 ∧
      ((loaded .none).queue .q1).ready ≠ 0 := ⟨inv_loaded _, by decide +kernel⟩

/-- D3 with an item ready, and with none, where the check raises; D4. -/
theorem witness_DeqAndRecvReturnTheFrontSlot_release :
    let l : DeqLocals := { q := .q1, f := 0, base := 0x20, size := 2, out := [1, 2] }
    let d3 := busy (loaded .uart) .recv (.dequeue l .d3)
    let broken := busy (booted .uart) .recv (.dequeue l .d3)
    let d4 := busy ((loaded .uart).setQueue .q1 { smallQueue with base := 0x20, claimed := 1 }) .recv (.dequeue l .d4)
    (d3.phase = .dequeue l .d3 ∧ (d3.queue l.q).ready - 1 ≤ (d3.queue l.q).claimed) ∧
      (broken.phase = .dequeue l .d3 ∧ ¬ (broken.queue l.q).ready - 1 ≤ (broken.queue l.q).claimed) ∧
      (d4.phase = .dequeue l .d4 ∧ (d4.queue l.q).ready ≤ (d4.queue l.q).claimed - 1) := by decide +kernel

theorem witness_DeqAndRecvFrame :
    let l : DeqLocals := { q := .q1, f := 0, base := 0x20, size := 2, out := [1, 2] }
    let s := busy (loaded .uart) .recv (.dequeue l .d4)
    Runs .recv s ∧ s.phase = .dequeue l .d4 ∧ l.q = .q1 := ⟨⟨_, rfl⟩, by decide +kernel⟩

theorem witness_QcountAndQfreeReadTheCounters :
    (((booted .none).setQueue .q1 { smallQueue with qinv := true }).queue .q1).qinv = true ∧
    ((State.reset.queue .q1).qinv = false ∧ (State.reset.queue .q1).init = false) ∧
    ((loaded .none).usable .q1 ∧ Inv (loaded .none)) :=
  ⟨by decide +kernel, by decide +kernel, by decide +kernel, inv_loaded _⟩

theorem witness_AtomicDequeueIsTheMicroSteps :
    ((loaded .none).queue .q0).GeometryOk (loaded .none).cfg ∧
    dequeueD1 .q0 State.reset = .inl .notInit ∧
    dequeueD1 .q0 (loaded .none) = .inr { q := .q0, f := 0, base := 0x10, size := 2, out := [] } := by decide +kernel

theorem witness_ItemsLeaveInTheOrderTheyCame :
    (∃ t u, Inv (loaded .none) ∧ (loaded .none).schedule = [] ∧ (loaded .none).phase = .first ∧
      (loaded .none).usable .q0 ∧ [(1 : Byte), 2].length = ((loaded .none).queue .q0).itemSize.toNat ∧
      ((loaded .none).queue .q0).ready = ((loaded .none).queue .q0).claimed ∧
      ((loaded .none).queue .q0).claimed < ((loaded .none).queue .q0).cap ∧
      exec (.enq .q0 [1, 2]) (loaded .none) = .next t ∧ steps (2 + 2) t = .next u ∧
      ((loaded .none).queue .q1).init = true ∧ ((loaded .none).queue .q1).Apart ((loaded .none).queue .q0)) ∧
    (∃ t m u, Inv (loaded .uart) ∧ (loaded .uart).schedule = [] ∧ (loaded .uart).phase = .first ∧
      (loaded .uart).usable .q0 ∧ [(0x64 : Byte)].length ≤ (loaded .uart).cfg.maxMessageSize ∧
      ((loaded .uart).queue .q0).ready = ((loaded .uart).queue .q0).claimed ∧
      ((loaded .uart).queue .q0).claimed < ((loaded .uart).queue .q0).cap ∧
      exec (.send [0x64]) (loaded .uart) = .next t ∧ steps (2 + 2) t = .next m ∧ step m = .next u ∧
      ((loaded .uart).queue .q1).init = true ∧ ((loaded .uart).queue .q1).Apart ((loaded .uart).queue .q0)) ∧
    (∃ t u, Inv (loaded .none) ∧ (loaded .none).usable .q1 ∧ ((loaded .none).queue .q1).ready ≠ 0 ∧
      exec .recv (loaded .none) = .next t ∧ steps (2 + 2) t = .next u) :=
  ⟨⟨_, _, inv_loaded _, by decide +kernel, by decide +kernel, by decide +kernel, by decide +kernel, by decide +kernel,
      by decide +kernel, rfl, rfl, by decide +kernel, by decide +kernel⟩,
    ⟨_, _, _, inv_loaded _, by decide +kernel, by decide +kernel, by decide +kernel, by decide +kernel,
      by decide +kernel, by decide +kernel, rfl, rfl, rfl, by decide +kernel, by decide +kernel⟩,
    ⟨_, _, inv_loaded _, by decide +kernel, by decide +kernel, rfl, rfl⟩⟩

/-- Context 0 is the only producer, and contexts 0 and 3 consume. -/
def soleProducer : Usage := ⟨fun u => u = 0, fun u => u = 0 ∨ u = 3⟩

theorem soleProducer_ok : soleProducer.Ok 3 :=
  ⟨by rintro u rfl; decide, by rintro u (rfl | rfl) <;> decide, .inl ⟨0, fun _ h => h⟩⟩

/-- A state in which context 0 alone has a procedure in progress, an ENQUEUE on q. -/
theorem disciplined_of {s : State} {q : QId} {l : EnqLocals} {p : EnqPoint} (hc : (s.queue q).ceil = 3) (hl : l.q = q)
    (he : ∀ u, (s.ctx u).record.enqueue? = if u = 0 then some (l, p) else none)
    (hd : ∀ u, (s.ctx u).record.dequeue? = none) : s.Disciplined soleProducer q := by
  have key : ∀ u m n, (s.ctx u).record.enqueue? = some (m, n) → u = 0 ∧ m = l := by
    intro u m n h
    rw [he] at h
    split at h
    · injection h with h; injection h with h1 h2; exact ⟨‹_›, h1.symm⟩
    · cases h
  exact fun _ => ⟨by rw [hc]; exact soleProducer_ok, fun u m n h => (key u m n h.1).1,
    fun u m n h => by rw [State.Dequeuing, hd] at h; simp at h,
    fun u v m n a b h => by rw [State.Dequeuing, hd] at h; simp at h,
    fun u m n h hq => absurd (by rw [(key u m n h).2]; exact hl) hq⟩

/-- A state with no procedure in progress. -/
theorem disciplined_quiet {s : State} {q : QId} (hc : (s.queue q).ceil = 3)
    (he : ∀ u, (s.ctx u).record.enqueue? = none) (hd : ∀ u, (s.ctx u).record.dequeue? = none) :
    s.Disciplined soleProducer q :=
  fun _ => ⟨by rw [hc]; exact soleProducer_ok, fun u m n h => by rw [State.Enqueuing, he] at h; simp at h,
    fun u m n h => by rw [State.Dequeuing, hd] at h; simp at h,
    fun u v m n a b h => by rw [State.Dequeuing, hd] at h; simp at h,
    fun u m n h => by rw [he] at h; simp at h⟩

theorem tidy_claiming : QueueTidy claiming soleProducer .q0 := by
  have he : ∀ u, (claiming.ctx u).record.enqueue? = if u = 0 then some (claim .q0 [1, 2] 0x10, .e2) else none := by
    decide +kernel
  have hd : ∀ u, (claiming.ctx u).record.dequeue? = none := by decide +kernel
  have key : ∀ u l p, claiming.Enqueuing u .q0 l p → u = 0 ∧ l = claim .q0 [1, 2] 0x10 ∧ p = .e2 := by
    intro u l p h
    rw [State.Enqueuing, he] at h
    obtain ⟨h, -⟩ := h
    split at h
    · injection h with h; injection h with h1 h2; exact ⟨‹_›, h1.symm, h2.symm⟩
    · cases h
  refine ⟨by decide +kernel, by decide +kernel, fun u l h => ?_, fun u l p h hp => absurd (key u l p h).2.2 hp,
    fun u l p h => ?_, fun u v l m p n h k huv => absurd ((key u l p h).1.trans (key v m n k).1.symm) huv,
    fun u l p h => by rw [State.Dequeuing, hd] at h; simp at h⟩
  · rw [(key u l _ h).2.1]; decide +kernel
  · rw [(key u l p h).2.1]; decide +kernel

/-- `loaded` with KICK as context 0's next command. -/
def kicking : State := (loaded .uart).setStream (encode .kick)

theorem inv_kicking : Inv kicking := inv_idle _ (by decide +kernel) (by decide +kernel)

theorem tidy_kicking : QueueTidy kicking soleProducer .q0 := by
  have he : ∀ u, (kicking.ctx u).record.enqueue? = none := by decide +kernel
  have hd : ∀ u, (kicking.ctx u).record.dequeue? = none := by decide +kernel
  have ne : ∀ u l p, ¬ kicking.Enqueuing u .q0 l p := fun u l p h => by rw [State.Enqueuing, he] at h; simp at h
  exact ⟨by decide +kernel, by decide +kernel, fun u l h => absurd h (ne _ _ _), fun u l p h => absurd h (ne _ _ _),
    fun u l p h => absurd h (ne _ _ _), fun u v l m p n h => absurd h (ne _ _ _),
    fun u l p h => by rw [State.Dequeuing, hd] at h; simp at h⟩

/-- A claim-write appends its item; a kick takes the front item; and a boot with both ceilings at PRIO_UART. -/
theorem witness_DisciplinedUseKeepsEveryItemInOrder :
    (∃ t, Inv claiming ∧ claiming.WindowsShut ∧ claiming.Disciplined soleProducer .q0 ∧ t.Disciplined soleProducer .q0 ∧
      claiming.StepDisciplined soleProducer .q0 ∧ QueueTidy claiming soleProducer .q0 ∧ step claiming = .next t ∧
      t.claims .q0 = [[1, 2]]) ∧
    (∃ t, Inv kicking ∧ kicking.WindowsShut ∧ kicking.Disciplined soleProducer .q0 ∧ t.Disciplined soleProducer .q0 ∧
      kicking.StepDisciplined soleProducer .q0 ∧ QueueTidy kicking soleProducer .q0 ∧ step kicking = .next t ∧
      kicking.claims .q0 = [[0, 0]] ∧ t.claims .q0 = []) ∧
    ∃ s : State, s.link = .uart ∧ s.BootOk 0 1 := by
  refine ⟨⟨_, inv_claiming, windowsShut_claiming,
      disciplined_of (l := claim .q0 [1, 2] 0x10) (p := .e2) (by decide +kernel) rfl (by decide +kernel) (by decide +kernel),
      disciplined_of (l := claim .q0 [1, 2] 0x10) (p := .e3 0) (by decide +kernel) rfl (by decide +kernel)
        (by decide +kernel), ?_, tidy_claiming, rfl, by decide +kernel⟩,
    ⟨_, inv_kicking, ?_, disciplined_quiet (by decide +kernel) (by decide +kernel) (by decide +kernel),
      disciplined_quiet (by decide +kernel) (by decide +kernel) (by decide +kernel), ?_, tidy_kicking, rfl,
      by decide +kernel, by decide +kernel⟩,
    { booted .uart with
      queues := ⟨{ smallQueue with itemSize := 64, cap := 4, base := 0 },
        { smallQueue with itemSize := 64, cap := 4, base := 0x100 }, .reset, .reset⟩ },
    rfl, by decide +kernel⟩
  · intro i hi
    have : claiming.turn = some (.send [1]) := rfl
    rw [this] at hi
    injection hi with hi; subst hi
    refine ⟨fun h => ?_, fun _ _ _ _ _ h => by cases h⟩
    obtain ⟨st, h⟩ := h
    have h1 : claiming.phase = .enqueue (claim .q0 [1, 2] 0x10) .e2 := by decide +kernel
    rw [h1] at h; cases h
  · intro w q hw
    have h0 : ∀ v : Level, (kicking.ctx v).record.windowQueue = none := by decide +kernel
    rw [h0 w] at hw; cases hw
  · intro i hi
    have : kicking.turn = some .kick := by decide +kernel
    rw [this] at hi
    injection hi with hi; subst hi
    have hd : ∀ u, (kicking.ctx u).record.dequeue? = none := by decide +kernel
    exact ⟨fun _ _ => ⟨.inl (by decide +kernel), fun u l p h => by rw [State.Dequeuing, hd] at h; simp at h⟩,
      fun _ _ _ _ _ h => by cases h⟩

theorem witness_CrcCommandsAnswerAndChangeNothing :
    State.reset.cfg.maxMessageSize < (zeros 62).length ∧ (zeros 61).length ≤ State.reset.cfg.maxMessageSize := by
  decide +kernel

theorem witness_CrcOfOneMoreByte :
    Config.reference.crcReflect = false ∧ { Config.reference with crcReflect := true }.crcReflect = true := by decide

theorem witness_BuiltPacketsVerify : Config.reference.WF ∧ (zeros 61).length ≤ Config.reference.maxMessageSize := by
  decide +kernel

/-- The last bit of the last byte of the longest packet. -/
theorem witness_SingleBitErrorsAreDetected :
    Config.reference.WF ∧ Config.reference.crcPoly ≠ 0 ∧
      (zeros 61).length ≤ Config.reference.maxMessageSize ∧ 1 ≤ 63 ∧ 63 < 3 + (zeros 61).length ∧ 7 < 8 := by
  decide +kernel

theorem witness_EventsOfTheOtherLinkAreRefused :
    ((booted .spi).link ≠ .uart ∧ (booted .spi).phase = .first) ∧
    ((booted .none).link ≠ .uart ∧ (booted .none).link ≠ .spi ∧ (booted .none).phase = .first) ∧
    ((booted .uart).link ≠ .spi ∧ (booted .uart).phase = .first) ∧ Inv (booted .uart) :=
  ⟨by decide +kernel, by decide +kernel, by decide +kernel, inv_booted _⟩

theorem witness_LineErrorsResyncTheFramer :
    (booted .spi).link ≠ .uart ∧ (booted .uart).link = .uart ∧ 5 ≤ (5 : BitVec 3).toNat ∧ (4 : BitVec 3).toNat ≤ 4 := by decide +kernel

theorem witness_StartCodeAndLengthAreRead :
    (Inv (receiving Config.reference startFramer) ∧ (receiving Config.reference startFramer).phase = .first ∧
      [(0xA5 : Byte)] = Config.reference.startCode ∧ [(0xA6 : Byte)] ≠ Config.reference.startCode) ∧
    (Inv (receiving twoByteStart { startFramer with win0 := 0xA5, winCount := 1 }) ∧
      [(0xA5 : Byte), 0x5A] = twoByteStart.startCode ∧ [(0xA5 : Byte), 0xA5] ≠ twoByteStart.startCode ∧
      twoByteStart.startCode.length = 2) ∧
    (Inv (receiving Config.reference { startFramer with state := .awaitingLength }) ∧
      1 ≤ (0x3D : Byte).toNat ∧ (0x3D : Byte).toNat ≤ Config.reference.maxMessageSize ∧
      Config.reference.maxMessageSize < (0x3E : Byte).toNat) :=
  ⟨⟨inv_receiving _ _ (by decide +kernel), by decide +kernel⟩, ⟨inv_receiving _ _ (by decide +kernel), by decide +kernel⟩,
    inv_receiving _ _ (by decide +kernel), by decide +kernel⟩

theorem witness_PayloadByteCompletesAPacket :
    (Inv (receiving Config.reference { nearlyDone 0 0 with pos := 1 }) ∧ (1 : BitVec 8).toNat + 1 < (4 : BitVec 8).toNat) ∧
    (Inv (receiving Config.reference (nearlyDone 0x64 0x13)) ∧
      (receiving Config.reference (nearlyDone 0x64 0x13)).phase = .first ∧
      (3 : BitVec 8).toNat + 1 = (4 : BitVec 8).toNat ∧
      verify Config.reference (((nearlyDone 0x64 0x13).fbuf.set 3 0x1F).take 4) = true ∧
      verify Config.reference (((nearlyDone 0x64 0x13).fbuf.set 3 0x1E).take 4) = false) :=
  ⟨⟨inv_receiving _ _ (by decide +kernel), by decide +kernel⟩, inv_receiving _ _ (by decide +kernel), by decide +kernel⟩

theorem witness_AcceptCountsADropOnce :
    (handling (booted .uart) (.busy (.evUartRx 1) (.afterEnqueue .ok))).phase = .afterEnqueue .ok ∧
    (handling (booted .uart) (.busy (.evUartRx 1) (.afterEnqueue .full))).phase = .afterEnqueue .full := by
  decide +kernel

theorem witness_OneFrameDeliversOnePacket :
    Inv (booted .uart) ∧ (booted .uart).link = .uart ∧ (booted .uart).ufr.state = .awaitingStart ∧
      (booted .uart).ufr.winCount = 0 ∧ (∀ u, ((booted .uart).ctx u).record = .idle) ∧ 1 ≤ (zeros 61).length ∧
      (zeros 61).length ≤ (booted .uart).cfg.maxMessageSize := ⟨inv_booted _, by decide +kernel⟩

/-- `loaded .uart` with a transmission in flight. -/
def sending : State := { loaded .uart with ufr := { startFramer with utxBusy := true } }

theorem witness_TransmitDoneSendsTheNextPacket :
    ((loaded .spi).link ≠ .uart ∧ (loaded .uart).ufr.utxBusy = false) ∧
    (sending.link = .uart ∧ sending.ufr.utxBusy = true ∧ Inv sending) :=
  ⟨by decide +kernel, rfl, rfl, inv_idle _ (by decide +kernel) (by decide +kernel)⟩

theorem witness_SpiCompletionAcceptsAndRearms :
    ((booted .spi).link = .spi ∧ (booted .spi).phase = .first ∧ (booted .spi).spx.busy = false) ∧
    (spiFlight.link = .spi ∧ spiFlight.phase = .first ∧ spiFlight.spx.busy = true ∧ (zeros 64).headD 0 = 0) ∧
    (([0x3E] ++ zeros 63).headD 0 ≠ 0 ∧ verify spiFlight.cfg ([0x3E] ++ zeros 63) = false) ∧
    (([0x02, 0xAB, 0xCD, 0x05, 0xA7] ++ zeros 59).headD 0 ≠ 0 ∧
      verify spiFlight.cfg ([0x02, 0xAB, 0xCD, 0x05, 0xA7] ++ zeros 59) = true) ∧
    (handling spiFlight (.busy (.evSpiDone (zeros 64)) (.spiRearm 20))).phase = .spiRearm 20 := by decide +kernel

theorem witness_EdgeHandlersKick :
    ((booted .uart).link ≠ .spi ∧ (booted .spi).spx.ctsPend = false ∧ (booted .spi).spx.mwPend = false) ∧
    (spiFlight.link = .spi ∧ spiFlight.spx.ctsPend = true ∧ spiFlight.spx.mwPend = true) ∧ Inv spiFlight :=
  ⟨by decide +kernel, by decide +kernel, inv_spiFlight⟩

theorem witness_RisingEdgesAreLatchedWhileArmed :
    let cts := { spiFlight with schedule := [.ctsPin true] }
    let mw := { spiFlight with schedule := [.mwPin true] }
    (cts.cfg.WF ∧ cts.schedule = [.ctsPin true] ∧ cts.env.ctsPin = false ∧ cts.spx.ctsArmed = true) ∧
    (mw.cfg.WF ∧ mw.schedule = [.mwPin true] ∧ mw.env.mwPin = false ∧ mw.spx.mwArmed = true) := by decide +kernel

theorem witness_LinkIsSelectedOnce :
    ((0 : BitVec 2).toNat = 0 ∧ (3 : BitVec 2).toNat = 3) ∧ ((1 : BitVec 2).toNat = 1 ∧ (2 : BitVec 2).toNat = 2) ∧
    ((booted .uart).link ≠ .none ∧ State.reset.link = .none) ∧
    ∃ t, step (booted .uart) = .next t ∧ ∀ d tail, (booted .uart).schedule ≠ .reset d :: tail :=
  ⟨by decide, by decide, by decide +kernel, _, rfl, fun _ _ h => by cases h⟩

theorem witness_KickRunsTheSelectedTransport : Inv (loaded .uart) ∧ Inv (loaded .spi) ∧ Inv (loaded .none) :=
  ⟨inv_loaded _, inv_loaded _, inv_loaded _⟩

/-- Context 0 at T2 of a SEND whose enqueue answered st. -/
def sent (st : Status) : State := busy (loaded .uart) (.send [1]) (.afterEnqueue st)

theorem witness_SendBeginsAndEnds :
    ((booted .uart).phase = .first ∧ (booted .uart).cfg.maxMessageSize < (zeros 62).length ∧
      (zeros 61).length ≤ (booted .uart).cfg.maxMessageSize) ∧
    ((sent .ok).phase = .afterEnqueue .ok ∧ Inv (sent .ok)) ∧
    ((sent .full).phase = .afterEnqueue .full ∧ Inv (sent .full)) :=
  ⟨by decide +kernel,
    ⟨by decide +kernel, inv_of _ 0 (by decide +kernel) (.inl ⟨⟨trivial, trivial, trivial⟩, rfl⟩) (by decide +kernel)⟩,
    by decide +kernel, inv_of _ 0 (by decide +kernel) (.inl ⟨⟨trivial, trivial, trivial⟩, rfl⟩) (by decide +kernel)⟩

theorem witness_SendEnqueuesThePacketAndKicks :
    Inv (loaded .uart) ∧ (loaded .uart).schedule = [] ∧ (loaded .uart).phase = .first ∧ (loaded .uart).usable .q0 ∧
      (zeros 61).length ≤ (loaded .uart).cfg.maxMessageSize ∧
      ((loaded .uart).queue .q0).claimed < ((loaded .uart).queue .q0).cap := ⟨inv_loaded _, by decide +kernel⟩

theorem witness_EachDropIsCountedOnce : Runs (.send [1]) (sent .full) ∧ Runs .kick State.reset ∧
    Runs (.evUartRx 1) (receiving Config.reference (nearlyDone 0 0)) := ⟨⟨_, rfl⟩, ⟨_, rfl⟩, _, rfl⟩

theorem witness_FatalAndInvalidChunksWriteNothing :
    fatalPage.accFatal = true ∧
    (State.reset.accFatal = false ∧ ¬ State.reset.ChunkOk 5 8 9 32) ∧
    (halfPage.accFatal = false ∧ halfPage.acc.bitmap ≠ halfPage.cfg.allPending ∧ (6 : BitVec 16) ≠ halfPage.acc.activePage) := by
  decide +kernel

theorem witness_ValidChunksAreCopied :
    Inv State.reset ∧ State.reset.accFatal = false ∧ State.reset.ChunkOk 7 0 2 32 ∧
      ∃ k, State.reset.pendingAfter 0 2 k = true := ⟨inv_reset, by decide +kernel, by decide +kernel, 1, by decide +kernel⟩

theorem witness_CompletePagesAreCommitted :
    (Inv State.reset ∧ State.reset.accFatal = false ∧ State.reset.ChunkOk 0 0 1 3 ∧
      ∀ k, State.reset.pendingAfter 0 1 k = false) ∧
    (Inv halfPage ∧ halfPage.accFatal = false ∧ halfPage.ChunkOk 7 1 2 0 ∧
      ∀ k, halfPage.pendingAfter 1 2 k = false) ∧
    (∃ e : Env, e.nextAnswer = true) ∧ ∃ e : Env, e.nextAnswer = false := by
  refine ⟨⟨inv_reset, by decide +kernel, by decide +kernel, fun k => ?_⟩,
    ⟨inv_halfPage, by decide +kernel, by decide +kernel, fun k => ?_⟩,
    ⟨{ Env.quiet with flashAnswers := [true] }, rfl⟩, { Env.quiet with flashAnswers := [false] }, rfl⟩
  · rcases k with _ | k
    · decide +kernel
    · simp [State.pendingAfter]
  · rcases k with _ | _ | k
    · decide +kernel
    · decide +kernel
    · simp [State.pendingAfter]

theorem witness_ChunksInAnyOrderMakeThePage :
    let s := { State.reset with env := { Env.quiet with flashAnswers := [true, true] } }
    Inv s ∧ s.accFatal = false ∧ s.acc.bitmap = s.cfg.allPending ∧ 8 ≤ s.cfg.maxChunksPerPage ∧
      [7, 6, 5, 4, 3, 2, 1, 0].Perm (List.range 8) ∧ (∀ k, k + 1 < 8 → (zeros 32).length = s.cfg.maxChunkSize) ∧
      ∃ rest, s.env.flashAnswers = true :: true :: rest :=
  ⟨inv_idle _ (by decide +kernel) (by decide +kernel), rfl, rfl, by decide +kernel, by decide +kernel,
    fun _ _ => by decide +kernel, [], rfl⟩

theorem witness_ActivePageIsUnobservableAtACleanBoundary :
    State.reset.accFatal = false ∧ State.reset.acc.bitmap = State.reset.cfg.allPending := by decide

theorem witness_RegReadAnswersTheMappedIndices :
    ((0x0A : BitVec 8).toNat ≤ 0x0A ∧ (0x0C : BitVec 8).toNat = 0x0C) ∧
    (0x20 ≤ (0x3C : BitVec 8).toNat ∧ (0x3C : BitVec 8).toNat < 0x40 ∧ (0x3C : BitVec 8).toNat % 8 ≤ 4) ∧
    ¬ ((0x0B : BitVec 8).toNat ≤ 0x0A ∨ (0x0B : BitVec 8).toNat = 0x0C ∨
      (0x10 ≤ (0x0B : BitVec 8).toNat ∧ (0x0B : BitVec 8).toNat ≤ 0x12) ∨
      (0x20 ≤ (0x0B : BitVec 8).toNat ∧ (0x0B : BitVec 8).toNat < 0x40 ∧ (0x0B : BitVec 8).toNat % 8 ≤ 4)) := by decide

theorem witness_RegistersHoldTheirFields : Inv spiFlight := inv_spiFlight

/-- With a transmit-done event at level 3 pending and nothing else; and with nothing pending. -/
theorem witness_EntryTakesTheHighestAdmittedHandler :
    (∃ (s : State) (c : Candidate), s.cfg.WF ∧ s.schedule = [.enter] ∧ candidates (s.setSchedule []) = [] ++ c :: [] ∧
      (1 ≤ c.level.val ∧ c.level.val < s.cfg.nprio ∧ s.mask.toNat < c.level.val ∧
        (∀ v, (s.ctx v).entered = true → v < c.level) ∧ (s.ctx c.level).record = .idle)) ∧
    ∃ s : State, s.cfg.WF ∧ s.schedule = [.enter] ∧ candidates (s.setSchedule []) = [] :=
  ⟨⟨{ booted .uart with schedule := [.enter], env := { Env.quiet with uartTxDone := 1 } },
      ⟨3, .event, encode .evUartTxDone, Env.quiet⟩, by decide +kernel⟩,
    { booted .uart with schedule := [.enter] }, by decide +kernel⟩

/-- Two software handlers of level 4, with KICK and RECV as their programs. -/
def postedTwice : Env := { Env.quiet with posted := [⟨4, .command, encode .kick⟩, ⟨4, .command, encode .recv⟩] }

/-- Three handlers are admitted: a transmit-done event at level 3, and two software handlers of level 4; the older of the
two is the one that the statement's second clause enters. -/
theorem witness_EntryTakesTheHighestAdmittedHandler_tie :
    let s := { booted .uart with schedule := [.enter], env := { postedTwice with uartTxDone := 1 } }
    let admitted : Candidate → Prop := fun c => 1 ≤ c.level.val ∧ c.level.val < s.cfg.nprio ∧
      s.mask.toNat < c.level.val ∧ (∀ v, (s.ctx v).entered = true → v < c.level) ∧ (s.ctx c.level).record = .idle
    ∃ b c d : Candidate, s.cfg.WF ∧ candidates (s.setSchedule []) = [b] ++ c :: [d] ∧
      (admitted b ∧ admitted c ∧ admitted d) ∧ b.level < c.level ∧ d.level = c.level ∧ c.stream = encode .kick :=
  ⟨⟨3, .event, encode .evUartTxDone, postedTwice⟩,
    ⟨4, .command, encode .kick, { postedTwice with uartTxDone := 1, posted := [⟨4, .command, encode .recv⟩] }⟩,
    ⟨4, .command, encode .recv, { postedTwice with uartTxDone := 1, posted := [⟨4, .command, encode .kick⟩] }⟩,
    by decide +kernel⟩

theorem witness_EachSourceDeliversItsEvent : Inv spiFlight := inv_spiFlight

/-- A posted handler of each kind: pending on the command port, with no whole command, illegal and legal on the event
port. -/
theorem witness_EachSourceDeliversItsEvent_posted :
    ∃ s : State, Inv s ∧ s.env.posted =
        [] ++ ⟨4, .command, encode .kick⟩ ::
          [⟨4, .command, [0x00]⟩, ⟨2, .event, [0, 0, 0, 0]⟩, ⟨2, .event, encode .evMwEdge⟩] ∧
      decode s.cfg .command (encode .kick) = .command .kick [] ∧ decode s.cfg .command [0x00] = .incomplete ∧
      decode s.cfg .event [0, 0, 0, 0] = .illegal .unassignedOpcode 0 [] ∧
      decode s.cfg .event (encode .evMwEdge) = .command .evMwEdge [] :=
  ⟨{ booted .uart with env := { Env.quiet with posted :=
        [⟨4, .command, encode .kick⟩, ⟨4, .command, [0x00]⟩, ⟨2, .event, [0, 0, 0, 0]⟩,
          ⟨2, .event, encode .evMwEdge⟩] } },
    inv_idle _ (by decide +kernel) (by decide +kernel), by decide +kernel⟩

theorem witness_ResetSetsEveryElement :
    ∃ (s : State) (d : ResetDraw), s.cfg.WF ∧ s.schedule = [.reset d] ∧ d.qsm.length = s.cfg.qsmBytes ∧
      d.pageBuf.length = s.cfg.pageSize := by
  refine ⟨{ claiming with schedule := [.reset ⟨zeros 4096, zeros 256, []⟩] }, ⟨zeros 4096, zeros 256, []⟩,
    by decide +kernel, rfl, ?_, ?_⟩
  · exact List.length_replicate
  · exact List.length_replicate

theorem witness_NothingIsSetUpAfterReset :
    (zeros 61).length ≤ (resetStep ⟨[], [], []⟩ State.reset).cfg.maxMessageSize ∧ Instr.evMwEdge.port = .event := by
  decide +kernel

end Sys2Proof.Tests
end

section
/-! PROOFS. What refuses an ill-formed configuration, and why no step changes one: each operation of the state keeps it,
so each called procedure does, so each command does, so each step does
(00_scope.md R7 to R19; 10_state.md R32). -/

namespace Sys2Proof.Machine

/-! ### The constraints -/

/-- The priority parameters, named one by one in `Config.WF` and as a list in the statement (00_scope.md R15). -/
theorem prioOk_all (c : Config) :
    (∀ u ∈ [c.prioUart, c.prioSpi, c.prioGpio], 1 ≤ u.val ∧ u.val < c.nprio) ↔
      c.prioOk c.prioUart ∧ c.prioOk c.prioSpi ∧ c.prioOk c.prioGpio := by
  simp only [List.forall_mem_cons, List.not_mem_nil, false_implies, implies_true, and_true]

/-- A start code of one or two bytes (00_scope.md R10). -/
theorem startCode_length_iff (c : Config) :
    (c.startCode.length = 1 ∨ c.startCode.length = 2) ↔ 1 ≤ c.startCode.length ∧ c.startCode.length ≤ 2 := by omega

/-- An ill-formed configuration is given no meaning (00_scope.md R19). -/
theorem step_of_not_wf {s : State} (h : ¬ s.cfg.WF) : step s = .refused .illFormedConfig := if_neg h

/-- A well-formed configuration takes the step that is scheduled. -/
theorem step_of_wf {s : State} (h : s.cfg.WF) : step s = scheduledStep s := if_pos h

/-! ### Outcomes that keep a configuration -/

/-- The outcome's next state, if it has one, stands under configuration c. -/
def KeepsConfig (c : Config) (o : Host.Outcome State Fault Refusal) : Prop := ∀ t, o = .next t → t.cfg = c

@[simp] theorem keepsConfig_next {c : Config} {t : State} : KeepsConfig c (.next t) ↔ t.cfg = c :=
  ⟨fun h => h t rfl, fun h u e => by cases e; exact h⟩

@[simp] theorem keepsConfig_fault {c : Config} {f : Fault} : KeepsConfig c (.fault f) := fun _ e => by cases e

/-! ### The operations of the state -/

variable (s : State)

@[simp] theorem State.exitContext_cfg (u : Level) : (s.exitContext u).cfg = s.cfg := rfl
@[simp] theorem State.enterContext_cfg (u : Level) (p : Port) (st : List Byte) :
    (s.enterContext u p st).cfg = s.cfg := rfl
@[simp] theorem State.emitUartTx_cfg (b : List Byte) : (s.emitUartTx b).cfg = s.cfg := rfl
@[simp] theorem startTransfer_cfg (b : List Byte) : (startTransfer b s).cfg = s.cfg := rfl
@[simp] theorem refuseIllegal_cfg (p : Port) (w : Word) : (refuseIllegal p w s).cfg = s.cfg := s.reply_cfg _ _

/-! ### The queue procedures -/

/-- E2, E4, D3 and D4 write counters, a fault bit and MASK only. -/
theorem Counted.cfg {q : QId} {r : Queue} {m : BitVec 4} {s t : State} (h : Counted q r m s t) : t.cfg = s.cfg := by
  rw [h.frame]

theorem callEnqueue_cfg (i : Instr) (q : QId) (item : List Byte) {ret : Status → State → State}
    (hret : ∀ st, (ret st s).cfg = s.cfg) : (callEnqueue i q item ret s).cfg = s.cfg := by
  rcases callEnqueue_cases s i q item ret with ⟨st, e, -⟩ | ⟨e, -⟩
  · rw [e, hret]
  · rw [e]; rfl

theorem resumeEnqueue_keepsConfig (i : Instr) (l : EnqLocals) (p : EnqPoint) {ret : Status → State → State}
    (hret : ∀ st m, (ret st m).cfg = m.cfg) : KeepsConfig s.cfg (resumeEnqueue i l p ret s) := by
  intro t h
  rcases resumeEnqueue_cases s h with ⟨-, rfl⟩ | ⟨j, -, -, rfl⟩ | ⟨-, rfl⟩
  · exact (enqueueE2_counted s l).cfg
  · rfl
  · rw [hret, (enqueueE4_counted s l).cfg]

@[simp] theorem callDequeue_cfg (i : Instr) (q : QId) : (callDequeue i q s).cfg = s.cfg := by
  rcases callDequeue_cases s i q with ⟨st, e, -⟩ | ⟨e, -⟩
  · rw [e, State.reply_cfg]
  · rw [e, State.goOn_cfg]

theorem resumeDequeue_keepsConfig (i : Instr) (l : DeqLocals) (p : DeqPoint) :
    KeepsConfig s.cfg (resumeDequeue i l p s) := by
  intro t h
  rcases resumeDequeue_cases s h with ⟨j, l1, -, -, -, rfl⟩ | ⟨-, rfl⟩ | ⟨-, rfl⟩
  · rfl
  · exact (dequeueD3_counted s l.q).cfg
  · rw [State.reply_cfg, (dequeueD4_counted s l.q).cfg]

variable {s} in
theorem dequeueAtomic_cfg {q : QId} {t : State} {r : DeqResult} (h : dequeueAtomic q s = .ok (t, r)) :
    t.cfg = s.cfg := by
  rcases dequeueAtomic_cases s h with ⟨st, rfl, -⟩ | ⟨rfl, -⟩
  · rfl
  · rw [(dequeueD4_counted _ q).cfg, (dequeueD3_counted s q).cfg]

/-! ### The kicks and ACCEPT -/

section kicks
variable {s} {t : State} {b : Bool}

theorem kickUart_cfg (h : kickUart s = .ok (t, b)) : t.cfg = s.cfg := by
  rcases kickUart_cases s h with ⟨rfl, -⟩ | ⟨s1, r, -, hd, ⟨st, -, rfl, -⟩ | ⟨n, item, -, -, rfl⟩⟩
  · rfl
  · exact dequeueAtomic_cfg hd
  · rw [State.setUfr_cfg, State.emitUartTx_cfg, dequeueAtomic_cfg hd]

theorem kickSpi_cfg (h : kickSpi s = .ok (t, b)) : t.cfg = s.cfg := by
  rcases kickSpi_cases s h with
    ⟨rfl, -⟩ | ⟨-, rfl, -⟩ | ⟨s1, r, -, hd, ⟨st, -, ⟨rfl, -⟩ | ⟨rfl, -⟩⟩ | ⟨n, item, -, -, rfl⟩⟩
  · rfl
  · rfl
  · rw [startTransfer_cfg, dequeueAtomic_cfg hd]
  · exact dequeueAtomic_cfg hd
  · rw [startTransfer_cfg, dequeueAtomic_cfg hd]

theorem kickLink_cfg (h : kickLink s = .ok (t, b)) : t.cfg = s.cfg := by
  unfold kickLink at h
  split at h
  · exact kickSpi_cfg h
  · exact kickUart_cfg h
  · cases h; rfl

end kicks

theorem callAccept_cfg (i : Instr) (pkt : List Byte) {ret : Nat → State → State}
    (hret : ∀ a m, (ret a m).cfg = m.cfg) : (callAccept i pkt ret s).cfg = s.cfg := by
  rcases callAccept_cases s i pkt ret with ⟨e, -⟩ | ⟨e, -⟩ | ⟨e, -⟩
  · rw [e, hret]
  · rw [e, hret, State.setCrcFail_cfg]
  · rw [e, callEnqueue_cfg s i _ _ fun st => State.goOn_cfg s i _]

theorem acceptA2_cfg (st : Status) {ret : Nat → State → State} (hret : ∀ a m, (ret a m).cfg = m.cfg) :
    (acceptA2 st ret s).cfg = s.cfg := by
  unfold acceptA2
  split
  · exact hret _ _
  · exact hret _ _

@[simp] theorem uartAdmitted_cfg (a : Nat) : (uartAdmitted a s).cfg = s.cfg := s.reply_cfg _ _
@[simp] theorem spiAdmitted_cfg (rx : List Byte) (a : Nat) : (spiAdmitted rx a s).cfg = s.cfg := rfl

/-! ### The accumulator -/

theorem flashFailed_cfg : (flashFailed s).1.cfg = s.cfg := rfl

theorem askFlash_cfg (r : FlashRequest) : (askFlash r s).1.cfg = s.cfg := rfl

theorem commitWrite_cfg (addr : BitVec 32) : (commitWrite addr s).1.cfg = s.cfg := by
  unfold commitWrite
  dsimp only
  split
  · rw [State.setAcc_cfg, askFlash_cfg]
  · rw [flashFailed_cfg, askFlash_cfg]

theorem chunkCommit_cfg : (chunkCommit s).1.cfg = s.cfg := by
  unfold chunkCommit
  dsimp only
  split
  · split
    · rw [commitWrite_cfg, askFlash_cfg]
    · rw [flashFailed_cfg, askFlash_cfg]
  · exact commitWrite_cfg s _

theorem chunkEffect_cfg (page : BitVec 16) (ci cc : BitVec 8) (payload : List Byte) :
    (chunkEffect page ci cc payload s).1.cfg = s.cfg := by
  simp only [chunkEffect]
  split
  · rfl
  split
  · rfl
  split
  · rfl
  · rw [chunkCommit_cfg]; rfl

/-! ### The commands -/

theorem execQinit_keepsConfig (q : QId) (sp : Bool) (ceil : BitVec 4) (itemSize cap base : BitVec 16) :
    KeepsConfig s.cfg (execQinit q sp ceil itemSize cap base s) := by
  unfold execQinit
  split_ifs <;> simp

theorem execEnq_keepsConfig (q : QId) (data : List Byte) : KeepsConfig s.cfg (execEnq q data s) := by
  unfold execEnq
  split
  case h_1 =>
    split_ifs
    · simp
    · simp
    · simp
    · exact keepsConfig_next.2 (callEnqueue_cfg s _ q data fun st => s.reply_cfg _ _)
  case h_2 => exact resumeEnqueue_keepsConfig s _ _ _ fun st m => m.reply_cfg _ _
  all_goals exact keepsConfig_fault

theorem execDeq_keepsConfig (q : QId) : KeepsConfig s.cfg (execDeq q s) := by
  unfold execDeq
  split
  case h_1 => simp
  case h_2 => exact resumeDequeue_keepsConfig s _ _ _
  all_goals exact keepsConfig_fault

theorem execQcount_keepsConfig (q : QId) : KeepsConfig s.cfg (execQcount q s) := by
  unfold execQcount
  split_ifs <;> simp

theorem execQfree_keepsConfig (q : QId) : KeepsConfig s.cfg (execQfree q s) := by
  unfold execQfree
  split_ifs <;> simp

theorem execCrcCompute_keepsConfig (data : List Byte) : KeepsConfig s.cfg (execCrcCompute data s) :=
  keepsConfig_next.2 (s.reply_cfg _ _)

theorem execCrcAppend_keepsConfig (payload : List Byte) : KeepsConfig s.cfg (execCrcAppend payload s) := by
  unfold execCrcAppend
  split_ifs <;> simp

theorem execCrcVerify_keepsConfig (data : List Byte) : KeepsConfig s.cfg (execCrcVerify data s) :=
  keepsConfig_next.2 (s.reply_cfg _ _)

theorem execLinkInit_keepsConfig (link : BitVec 2) : KeepsConfig s.cfg (execLinkInit link s) := by
  unfold execLinkInit
  split_ifs <;> simp

theorem execKick_keepsConfig : KeepsConfig s.cfg (execKick s) := by
  unfold execKick
  split
  · exact keepsConfig_fault
  next hk => simp [kickLink_cfg hk]

theorem sendT2_keepsConfig (st : Status) : KeepsConfig s.cfg (sendT2 st s) := by
  unfold sendT2
  split
  · exact keepsConfig_fault
  next hk =>
    rw [keepsConfig_next, State.reply_cfg, kickLink_cfg hk]
    split <;> rfl

theorem execSend_keepsConfig (payload : List Byte) : KeepsConfig s.cfg (execSend payload s) := by
  unfold execSend
  split
  case h_1 =>
    split_ifs
    · simp
    · exact keepsConfig_next.2 (callEnqueue_cfg s _ _ _ fun st => s.goOn_cfg _ _)
  case h_2 => exact resumeEnqueue_keepsConfig s _ _ _ fun st m => m.goOn_cfg _ _
  case h_3 => exact sendT2_keepsConfig s _
  all_goals exact keepsConfig_fault

theorem execRecv_keepsConfig : KeepsConfig s.cfg (execRecv s) := by
  unfold execRecv
  split
  case h_1 => simp
  case h_2 => exact resumeDequeue_keepsConfig s _ _ _
  all_goals exact keepsConfig_fault

theorem execChunk_keepsConfig (page : BitVec 16) (ci cc : BitVec 8) (payload : List Byte) :
    KeepsConfig s.cfg (execChunk page ci cc payload s) := by
  rw [execChunk, keepsConfig_next, State.reply_cfg, chunkEffect_cfg]

theorem execRegRead_keepsConfig (reg : BitVec 8) : KeepsConfig s.cfg (execRegRead reg s) := by
  unfold execRegRead
  split <;> simp

theorem execEvUartRx_keepsConfig (b : Byte) : KeepsConfig s.cfg (execEvUartRx b s) := by
  unfold execEvUartRx
  split
  case h_1 =>
    split_ifs
    · simp
    split
    · simp
    · simp
    split
    · exact keepsConfig_fault
    · simp
    · exact keepsConfig_next.2 (callAccept_cfg _ _ _ fun a m => uartAdmitted_cfg m a)
  case h_2 => exact resumeEnqueue_keepsConfig s _ _ _ fun st m => m.goOn_cfg _ _
  case h_3 => exact keepsConfig_next.2 (acceptA2_cfg s _ fun a m => uartAdmitted_cfg m a)
  all_goals exact keepsConfig_fault

theorem execEvUartErr_keepsConfig (kind : BitVec 3) : KeepsConfig s.cfg (execEvUartErr kind s) := by
  unfold execEvUartErr
  split_ifs <;> simp

theorem execEvUartTxDone_keepsConfig : KeepsConfig s.cfg (execEvUartTxDone s) := by
  unfold execEvUartTxDone
  split_ifs
  · simp
  · simp
  split
  · exact keepsConfig_fault
  next hk => simp [kickUart_cfg hk]

theorem execEvSpiDone_keepsConfig (rx : List Byte) : KeepsConfig s.cfg (execEvSpiDone rx s) := by
  unfold execEvSpiDone
  split
  case h_1 =>
    dsimp only
    split_ifs
    · simp
    · simp
    · simp
    · exact keepsConfig_next.2 (callAccept_cfg _ _ _ fun a m => spiAdmitted_cfg m rx a)
  case h_2 => exact resumeEnqueue_keepsConfig s _ _ _ fun st m => m.goOn_cfg _ _
  case h_3 => exact keepsConfig_next.2 (acceptA2_cfg s _ fun a m => spiAdmitted_cfg m rx a)
  case h_4 => simp
  all_goals exact keepsConfig_fault

theorem execEvCtsEdge_keepsConfig : KeepsConfig s.cfg (execEvCtsEdge s) := by
  unfold execEvCtsEdge
  split_ifs
  · simp
  · simp
  split
  · exact keepsConfig_fault
  next hk => simp [kickSpi_cfg hk]

theorem execEvMwEdge_keepsConfig : KeepsConfig s.cfg (execEvMwEdge s) := by
  unfold execEvMwEdge
  split_ifs
  · simp
  · simp
  split
  · exact keepsConfig_fault
  next hk => simp [kickSpi_cfg hk]

/-- No micro-step of a command changes the configuration (10_state.md R32). -/
theorem exec_keepsConfig (i : Instr) : KeepsConfig s.cfg (exec i s) := by
  cases i with
  | qinit q sp ceil itemSize cap base => exact execQinit_keepsConfig s q sp ceil itemSize cap base
  | enq q data => exact execEnq_keepsConfig s q data
  | deq q => exact execDeq_keepsConfig s q
  | qcount q => exact execQcount_keepsConfig s q
  | qfree q => exact execQfree_keepsConfig s q
  | crcCompute data => exact execCrcCompute_keepsConfig s data
  | crcAppend payload => exact execCrcAppend_keepsConfig s payload
  | crcVerify data => exact execCrcVerify_keepsConfig s data
  | linkInit link => exact execLinkInit_keepsConfig s link
  | send payload => exact execSend_keepsConfig s payload
  | recv => exact execRecv_keepsConfig s
  | kick => exact execKick_keepsConfig s
  | chunk page ci cc payload => exact execChunk_keepsConfig s page ci cc payload
  | regRead reg => exact execRegRead_keepsConfig s reg
  | evUartRx b => exact execEvUartRx_keepsConfig s b
  | evUartErr kind => exact execEvUartErr_keepsConfig s kind
  | evUartTxDone => exact execEvUartTxDone_keepsConfig s
  | evSpiDone rx => exact execEvSpiDone_keepsConfig s rx
  | evCtsEdge => exact execEvCtsEdge_keepsConfig s
  | evMwEdge => exact execEvMwEdge_keepsConfig s

/-! ### The steps of a run -/

theorem beginCommand_keepsConfig : KeepsConfig s.cfg (beginCommand s) := by
  unfold beginCommand
  split
  · split_ifs <;> simp
  · simp
  next i rest _ => exact exec_keepsConfig (s.setStream rest) i

theorem runStep_keepsConfig : KeepsConfig s.cfg (runStep s) := by
  unfold runStep
  split
  · exact exec_keepsConfig s _
  · exact beginCommand_keepsConfig s
  · exact beginCommand_keepsConfig s

@[simp] theorem enterStep_cfg : (enterStep s).cfg = s.cfg := by
  unfold enterStep
  split <;> rfl

/-- No step of the environment changes the configuration; a reset puts the machine back under the same one
(70_reset_and_hazards.md R450). -/
theorem environmentStep_cfg (a : Action) : (environmentStep a s).cfg = s.cfg := by
  cases a with
  | enter => exact enterStep_cfg s
  | _ => rfl

theorem scheduledStep_keepsConfig : KeepsConfig s.cfg (scheduledStep s) := by
  unfold scheduledStep
  split
  · exact runStep_keepsConfig s
  · exact runStep_keepsConfig (s.setSchedule _)
  · exact keepsConfig_next.2 (environmentStep_cfg (s.setSchedule _) _)

/-- No step changes the configuration (10_state.md R32). -/
theorem step_cfg {s t : State} (h : step s = .next t) : t.cfg = s.cfg := by
  by_cases hw : s.cfg.WF
  · exact scheduledStep_keepsConfig s t (step_of_wf hw ▸ h)
  · rw [step_of_not_wf hw] at h; cases h

/-- Settles O8: the constraints are those of `Config.WF` put otherwise, `step` refuses what breaks one, and no step
changes it (`step_cfg`). -/
theorem configurationIsCheckedAndKept : Obligations.ConfigurationIsCheckedAndKept := by
  intro s
  refine ⟨?_, step_of_not_wf, fun t => step_cfg⟩
  rw [prioOk_all, startCode_length_iff]
  simp only [Config.WF, and_assoc]

end Sys2Proof.Machine
end

section
/-! PROOFS. The worked encodings, and the decoder's reading of each of them (30_encoding.md R137). -/

namespace Sys2Proof.Machine

/-! ### A whole command on a port's stream -/

/-- The decoder reads a whole command of the port's own opcode, with its reserved bits 0, as the fields of its words and
its data phase (30_encoding.md R111, R129, R134). -/
theorem decode_of_reservedClear {c : Config} {o : Opcode} {b0 b1 b2 b3 : Byte} {rest : List Byte}
    (hop : Opcode.ofCode (opField (wordOfBytes b0 b1 b2 b3)) = some o)
    (hlen : 4 * o.extCount + o.dataLen c (wordOfBytes b0 b1 b2 b3) ≤ rest.length)
    (hclear : reservedClear o (wordOfBytes b0 b1 b2 b3) (takeWords o.extCount rest) = true) :
    let w := wordOfBytes b0 b1 b2 b3
    let ext := takeWords o.extCount rest
    let body := rest.drop (4 * o.extCount)
    decode c o.port (b0 :: b1 :: b2 :: b3 :: rest) =
      .command (o.build w (ext.getD 0 0) (ext.getD 1 0) (body.take (o.dataLen c w))) (body.drop (o.dataLen c w)) := by
  simp only [decode, hop, ne_eq, not_true_eq_false, if_false, not_lt.2 hlen, hclear, if_true]

/-! ### The worked encodings (30_encoding.md R137) -/

/-- Settles O3: the words follow by writing out the formats' fields, and each encoding is a whole command whose fields
the decoder reads back (`decode_of_reservedClear`). -/
theorem workedEncodings : Obligations.WorkedEncodings := by
  refine ⟨rfl, rfl, rfl, rfl, rfl, rfl, rfl, rfl, rfl, rfl, rfl, rfl, ?_⟩
  simp only [List.forall_mem_cons, List.not_mem_nil, false_implies, implies_true, and_true]
  refine ⟨decode_of_reservedClear (o := .qinit) ?_ ?_ ?_,
    decode_of_reservedClear (o := .enq) ?_ ?_ ?_,
    decode_of_reservedClear (o := .deq) ?_ ?_ ?_,
    decode_of_reservedClear (o := .send) ?_ ?_ ?_,
    decode_of_reservedClear (o := .chunk) ?_ ?_ ?_,
    decode_of_reservedClear (o := .regRead) ?_ ?_ ?_,
    decode_of_reservedClear (o := .evUartRx) ?_ ?_ ?_,
    decode_of_reservedClear (o := .evUartErr) ?_ ?_ ?_⟩ <;> decide

end Sys2Proof.Machine
end

section
/-! PROOFS. QINIT, and the two commands that read a queue's counters, QCOUNT and QFREE: what each answers in each case,
and what it leaves as it was (40_queue.md R155, R158, R159). -/

namespace Sys2Proof.Machine

/-- The "Encoding" line of a command is that of its opcode, whatever its operands (30_encoding.md R127). -/
theorem encodedAs_of_opcode {i : Instr} {o : Opcode} {code : BitVec 6} {f : Format} {w : Word} {p : Port}
    (hi : i.opcode = o) (ho : o.code = code ∧ o.format = f ∧ o.matchWord = w ∧ o.port = p) :
    EncodedAs i code f w p := by
  subst hi
  exact ho

variable (s : State) (q : QId)

/-! ### Answers that change nothing -/

variable {s} in
/-- A command whose micro-step is its response did nothing else (60_exceptions.md R401). -/
theorem exec_onlyAnswered {i : Instr} {p : Port} {r : Response} (h : exec i s = .next (s.reply p r)) :
    ∃ t, exec i s = .next t ∧ s.OnlyAnswered p r t :=
  ⟨_, h, s.reply_onlyAnswered p r⟩

/-! ### QINIT -/

/-- The tests that QINIT makes under configuration c: storage is present, there is a slot, the ceiling is a level, and
the region lies inside QSM (40_queue.md R155). -/
abbrev QinitAccepts (c : Config) (sp : Bool) (ceil : BitVec 4) (itemSize cap base : BitVec 16) : Prop :=
  sp = true ∧ cap ≠ 0 ∧ ceil.toNat < c.nprio ∧ base.toNat + cap.toNat * itemSize.toNat ≤ c.qsmBytes

/-- The registers of a queue after a successful QINIT (40_queue.md R155). -/
abbrev Queue.initialised (ceil : BitVec 4) (itemSize cap base : BitVec 16) : Queue :=
  { init := true, sp := true, ceil := ceil, itemSize := itemSize, cap := cap, base := base,
    front := 0, claimed := 0, ready := 0, qinv := false }

section qinit

variable {s} {sp : Bool} {ceil : BitVec 4} {itemSize cap base : BitVec 16}

/-- QINIT whose tests hold writes the queue's registers and answers OK. -/
theorem exec_qinit_of_accepts (h : QinitAccepts s.cfg sp ceil itemSize cap base) :
    exec (.qinit q sp ceil itemSize cap base) s =
      .next ((s.setQueue q (.initialised ceil itemSize cap base)).reply .command (.plain .ok)) := by
  obtain ⟨rfl, hcap, hceil, hregion⟩ := h
  change execQinit q true ceil itemSize cap base s = _
  rw [execQinit, if_neg (by simpa using hcap), if_neg (not_le.2 hceil), if_neg (not_lt.2 hregion)]

/-- QINIT with a test that fails answers INIT_FAIL. -/
theorem exec_qinit_of_not_accepts (h : ¬ QinitAccepts s.cfg sp ceil itemSize cap base) :
    exec (.qinit q sp ceil itemSize cap base) s = .next (s.reply .command (.plain .initFail)) := by
  change execQinit q sp ceil itemSize cap base s = _
  unfold execQinit
  split_ifs with hstorage hceil hregion
  · rfl
  · rfl
  · rfl
  · simp only [Bool.or_eq_true, Bool.not_eq_true', beq_iff_eq, not_or, Bool.not_eq_false] at hstorage
    exact absurd ⟨hstorage.1, hstorage.2, not_le.1 hceil, not_lt.1 hregion⟩ h

end qinit

/-- Writing a queue's registers and answering changes nothing but those registers. -/
theorem State.setQueue_reply_frame (r : Queue) (p : Port) (a : Response) :
    let t := (s.setQueue q r).reply p a
    s.Ended p a t ∧ t.queue q = r ∧ (∀ u, u ≠ q → t.queue u = s.queue u) ∧ s.SameUnits t ∧ s.SameMemory t ∧
      s.SameEnv t := by
  obtain ⟨hunits, -, hmem⟩ := (s.setQueue q r).reply_sameFtc p a
  refine ⟨((s.setQueue q r).reply_ended p a).of_contexts rfl rfl rfl rfl, ?_, fun u hu => ?_, hunits, hmem,
    (s.setQueue q r).reply_sameEnv p a⟩
  · rw [State.reply_queue, State.setQueue_queue_self]
  · rw [State.reply_queue, State.setQueue_queue_of_ne _ _ hu]

/-- Settles O17: the two clauses are the two outcomes of QINIT's tests (`exec_qinit_of_accepts`,
`exec_qinit_of_not_accepts`). -/
theorem qinitSetsTheQueueOrChangesNothing : Obligations.QinitSetsTheQueueOrChangesNothing := by
  intro s q sp ceil itemSize cap base
  refine ⟨encodedAs_of_opcode (o := .qinit) rfl (by decide), fun h => ?_, fun hsp hcap hceil hregion => ?_⟩
  · refine exec_onlyAnswered (exec_qinit_of_not_accepts q ?_)
    rintro ⟨hsp, hcap, hceil, hregion⟩
    rcases h with h | h | h | h
    · simp [hsp] at h
    · exact hcap h
    · omega
    · omega
  · exact ⟨_, exec_qinit_of_accepts q ⟨hsp, hcap, hceil, hregion⟩, s.setQueue_reply_frame q _ _ _⟩

/-! ### QCOUNT and QFREE -/

section counters

variable {s q} {i : Instr}

/-- Both commands test QINV first (40_queue.md R158, R159). -/
theorem exec_counter_faulted (hi : i = .qcount q ∨ i = .qfree q) (h : (s.queue q).qinv = true) :
    exec i s = .next (s.reply .command (.plain .faulted)) := by
  rcases hi with rfl | rfl
  · exact if_pos h
  · exact if_pos h

/-- Both commands test INIT second. -/
theorem exec_counter_notInit (hi : i = .qcount q ∨ i = .qfree q) (h : (s.queue q).qinv = false)
    (hinit : (s.queue q).init = false) : exec i s = .next (s.reply .command (.plain .notInit)) := by
  rcases hi with rfl | rfl
  · exact (if_neg (by simp [h])).trans (if_pos (by simp [hinit]))
  · exact (if_neg (by simp [h])).trans (if_pos (by simp [hinit]))

theorem exec_qcount_usable (h : s.usable q) :
    exec (.qcount q) s = .next (s.reply .command (.valued .ok (0#8 ++ (s.queue q).ready))) :=
  (if_neg (by simp [h.2])).trans (if_neg (by simp [h.1]))

theorem exec_qfree_usable (h : s.usable q) :
    exec (.qfree q) s =
      .next (s.reply .command (.valued .ok (0#8 ++ ((s.queue q).cap - (s.queue q).claimed)))) :=
  (if_neg (by simp [h.2])).trans (if_neg (by simp [h.1]))

end counters

/-- The VALUE of a response holds a counter as a number. -/
theorem toNat_zero_append_counter (x : BitVec 16) : (0#8 ++ x).toNat = x.toNat := by
  rw [BitVec.toNat_append]
  simp

variable {s} {q} in
/-- The counters of a usable queue are in order (10_state.md R39). -/
theorem Inv.countersOk_of_usable (h : Inv s) (hu : s.usable q) : (s.queue q).countersOk := by
  obtain ⟨-, -, hcounters⟩ := h.queues q
  exact hcounters hu.2

/-- Settles O26: the answers follow the order of the tests, and the invariant keeps CLAIMED within CAP, so that the
difference is exact. -/
theorem qcountAndQfreeReadTheCounters : Obligations.QcountAndQfreeReadTheCounters := by
  intro s q
  have counter : ∀ i ∈ [Instr.qcount q, .qfree q], i = .qcount q ∨ i = .qfree q := by simp
  refine ⟨encodedAs_of_opcode (o := .qcount) rfl (by decide), encodedAs_of_opcode (o := .qfree) rfl (by decide),
    fun h i hi => exec_onlyAnswered (exec_counter_faulted (counter i hi) h),
    fun h hinit i hi => exec_onlyAnswered (exec_counter_notInit (counter i hi) h hinit), fun hu => ?_,
    fun hu hinv => ?_⟩
  · exact ⟨_, _, exec_qcount_usable hu, s.reply_onlyAnswered _ _, toNat_zero_append_counter _⟩
  · obtain ⟨-, hclaimed⟩ := hinv.countersOk_of_usable hu
    refine ⟨hclaimed, _, _, exec_qfree_usable hu, s.reply_onlyAnswered _ _, ?_⟩
    rw [toNat_zero_append_counter, BitVec.toNat_sub_of_le hclaimed]

end Sys2Proof.Machine
end

section
/-! PROOFS. The packet CRC unit: what VERIFY tests, why a built packet passes, why one flipped bit in the payload or in
the CRC bytes never passes, and what the three CRC commands answer (41_crc.md). -/

namespace Sys2Proof.Machine

variable {c : Config}

/-! ### VERIFY (41_crc.md R203) -/

/-- The two CRC bytes stand low byte first (20_memory.md R83). -/
theorem eq_append_iff_toNat (v : BitVec 16) (high low : Byte) :
    v = high ++ low ↔ v.toNat = low.toNat + 256 * high.toNat := by
  rw [← BitVec.toNat_inj, BitVec.toNat_append, ← Nat.shiftLeft_add_eq_or_of_lt low.isLt, Nat.shiftLeft_eq]
  omega

/-- The three tests of VERIFY on a buffer with a length byte. -/
theorem verify_cons_iff (len : Byte) (rest : List Byte) :
    verify c (len :: rest) = true ↔
      len.toNat ≤ c.maxMessageSize ∧ 3 + len.toNat ≤ (len :: rest).length ∧
        crc16 c (len :: rest.take len.toNat) = rest.getD (len.toNat + 1) 0 ++ rest.getD len.toNat 0 := by
  have hbody : (len :: rest).take (1 + len.toNat) = len :: rest.take len.toNat := by
    rw [Nat.add_comm, List.take_succ_cons]
  have hlow : (len :: rest).getD (1 + len.toNat) 0 = rest.getD len.toNat 0 := by
    rw [Nat.add_comm, List.getD_cons_succ]
  have hhigh : (len :: rest).getD (2 + len.toNat) 0 = rest.getD (len.toNat + 1) 0 := by
    rw [show 2 + len.toNat = (len.toNat + 1) + 1 by omega, List.getD_cons_succ]
  simp only [verify, hbody, hlow, hhigh, Bool.and_eq_true, decide_eq_true_eq, and_assoc]

/-- Settles O30: an empty buffer has no length byte, and on any other VERIFY makes its three tests
(`verify_cons_iff`). -/
theorem verifyChecksLengthAndCrc : Obligations.VerifyChecksLengthAndCrc := by
  intro c buf
  cases buf with
  | nil => simp [verify]
  | cons len rest =>
    rw [verify_cons_iff, eq_append_iff_toNat]
    constructor
    · exact fun h => ⟨len, rest, rfl, h⟩
    · rintro ⟨_, _, heq, h⟩
      cases heq
      exact h

/-! ### Built packets (41_crc.md R202, R208) -/

/-- The length byte of a payload that fits holds the payload's length: a packet has at most 255 bytes (00_scope.md R7). -/
theorem toNat_lengthByte (hc : c.WF) {payload : List Byte} (h : payload.length ≤ c.maxMessageSize) :
    (BitVec.ofNat 8 payload.length).toNat = payload.length := by
  obtain ⟨⟨-, hmax⟩, -⟩ := hc
  rw [BitVec.toNat_ofNat, Nat.mod_eq_of_lt]
  dsimp only [Config.maxMessageSize] at h
  omega

/-- On a payload of n bytes behind the length byte n, VERIFY compares the two bytes that follow with the CRC, and ignores
the rest. -/
theorem verify_lengthByte_cons_iff (hc : c.WF) {n : Nat} (hn : n ≤ c.maxMessageSize) {payload : List Byte}
    (h : payload.length = n) (low high : Byte) (pad : List Byte) :
    verify c (BitVec.ofNat 8 n :: (payload ++ low :: high :: pad)) = true ↔
      crc16 c (BitVec.ofNat 8 n :: payload) = high ++ low := by
  subst h
  have hlen : 3 + payload.length ≤
      (BitVec.ofNat 8 payload.length :: (payload ++ low :: high :: pad)).length := by
    simp only [List.length_cons, List.length_append]
    omega
  rw [verify_cons_iff, toNat_lengthByte hc hn, List.take_left, List.getD_append_right _ _ _ _ (Nat.le_add_right _ 1),
    List.getD_append_right _ _ _ _ le_rfl, Nat.add_sub_cancel_left, Nat.sub_self]
  exact ⟨fun ⟨_, _, hcrc⟩ => hcrc, fun hcrc => ⟨hn, hlen, hcrc⟩⟩

theorem packet_eq_cons (c : Config) (payload : List Byte) :
    packet c payload = BitVec.ofNat 8 payload.length ::
      (payload ++ [lo (crc16 c (BitVec.ofNat 8 payload.length :: payload)),
        hi (crc16 c (BitVec.ofNat 8 payload.length :: payload))]) := rfl

@[simp] theorem hi_append_lo (v : BitVec 16) : hi v ++ lo v = v := BitVec.extractLsb'_append_extractLsb' (len := 8)

/-- Settles O32: VERIFY computes the CRC over the bytes over which the packet was built, and reads the bytes that the
builder wrote. -/
theorem builtPacketsVerify : Obligations.BuiltPacketsVerify := by
  intro c payload pad hc h
  rw [packet_eq_cons, List.cons_append, List.append_assoc]
  exact (verify_lengthByte_cons_iff hc h rfl _ _ pad).2 (hi_append_lo _).symm

/-! ### The CRC register is linear

A flipped bit puts a difference into the register, and the difference runs through the shifts by itself
(41_crc.md R200). -/

variable (p : BitVec 16)

theorem crcShift_xor (r d : BitVec 16) : crcShift p (r ^^^ d) = crcShift p r ^^^ crcShift p d := by
  unfold crcShift
  rw [BitVec.msb_xor, BitVec.shiftLeft_xor_distrib]
  cases r.msb with
  | false => cases d.msb with
    | false => rfl
    | true => exact BitVec.xor_assoc _ _ _
  | true => cases d.msb with
    | false =>
      change (r <<< 1 ^^^ d <<< 1) ^^^ p = (r <<< 1 ^^^ p) ^^^ d <<< 1
      ac_rfl
    | true =>
      change r <<< 1 ^^^ d <<< 1 = (r <<< 1 ^^^ p) ^^^ (d <<< 1 ^^^ p)
      rw [BitVec.xor_comm (d <<< 1), ← BitVec.xor_assoc, BitVec.xor_assoc _ p p, BitVec.xor_self, BitVec.xor_zero]

theorem crcShifts_xor (n : Nat) (r d : BitVec 16) :
    crcShifts p n (r ^^^ d) = crcShifts p n r ^^^ crcShifts p n d := by
  induction n generalizing r d with
  | zero => rfl
  | succ n ih => rw [crcShifts, crcShift_xor, ih]; rfl

theorem crcShifts_add (m n : Nat) (r : BitVec 16) : crcShifts p (m + n) r = crcShifts p n (crcShifts p m r) := by
  induction m generalizing r with
  | zero => rw [Nat.zero_add]; rfl
  | succ m ih => rw [Nat.succ_add]; exact ih _

/-- A difference in the register moves on by the eight shifts of a byte. -/
theorem crcByte_xor_register (r d : BitVec 16) (b : Byte) :
    crcByte c (r ^^^ d) b = crcByte c r b ^^^ crcShifts c.crcPoly 8 d := by
  unfold crcByte
  rw [← crcShifts_xor]
  congr 1
  ac_rfl

/-- A difference in the register moves on by eight shifts for every byte that follows. -/
theorem foldl_crcByte_xor_register (r d : BitVec 16) (bytes : List Byte) :
    bytes.foldl (crcByte c) (r ^^^ d) = bytes.foldl (crcByte c) r ^^^ crcShifts c.crcPoly (8 * bytes.length) d := by
  induction bytes generalizing r d with
  | nil => rfl
  | cons b bytes ih =>
    rw [List.foldl_cons, crcByte_xor_register, ih, List.foldl_cons, ← crcShifts_add, List.length_cons,
      Nat.mul_succ, Nat.add_comm 8]

/-- The position in the register of bit b of a byte: CRC_REFLECT turns the byte round (41_crc.md R200). -/
def registerBit (c : Config) (b : Nat) : Nat := if c.crcReflect then 15 - b else 8 + b

theorem registerBit_lt {b : Nat} (hb : b < 8) : registerBit c b < 16 := by
  unfold registerBit
  split <;> omega

theorem reflect8_xor (x y : Byte) : reflect8 (x ^^^ y) = reflect8 x ^^^ reflect8 y := by
  ext i
  simp [reflect8, BitVec.getElem_reverse]

/-- A flipped bit of a byte is one bit of difference in the register. -/
theorem crcByte_flip (r : BitVec 16) (x : Byte) {b : Nat} (hb : b < 8) :
    crcByte c r (x ^^^ (1#8 <<< b)) =
      crcByte c r x ^^^ crcShifts c.crcPoly 8 (BitVec.twoPow 16 (registerBit c b)) := by
  have plain : ∀ b < 8, (1#8 <<< b) ++ 0#8 = BitVec.twoPow 16 (8 + b) := by decide
  have turned : ∀ b < 8, reflect8 (1#8 <<< b) ++ 0#8 = BitVec.twoPow 16 (15 - b) := by decide
  have split_xor : ∀ y e : Byte, (y ^^^ e) ++ 0#8 = (y ++ 0#8) ^^^ (e ++ 0#8) := fun y e => by
    rw [BitVec.xor_append, BitVec.xor_zero]
  unfold crcByte registerBit
  rw [← crcShifts_xor, BitVec.xor_assoc]
  cases c.crcReflect with
  | false => simp only [Bool.false_eq_true, if_false, split_xor, plain b hb]
  | true => simp only [if_true, reflect8_xor, split_xor, turned b hb]

/-! ### One bit of difference never vanishes (41_crc.md R209)

Let x^t be the lowest term of CRC_POLY. A shift moves a single bit below position t to the next position. From position t
on, a difference is a multiple of x^t, and a shift keeps it one: either the top bit is clear and nothing is lost, or the
polynomial is added and sets bit t, where the shifted difference has none. -/

/-- x^t is the lowest term of p. -/
abbrev LowestTerm (p : BitVec 16) (t : Nat) : Prop := t < 16 ∧ p.getLsbD t = true ∧ ∀ i < t, p.getLsbD i = false

theorem exists_lowestTerm {p : BitVec 16} (hp : p ≠ 0) : ∃ t, LowestTerm p t := by
  have hbit : ∃ t, p.getLsbD t = true := by
    by_contra! hnone
    exact hp (BitVec.eq_of_getLsbD_eq fun i _ => by simpa using hnone i)
  have hset := Nat.find_spec hbit
  exact ⟨Nat.find hbit, BitVec.lt_of_getLsbD hset, hset, fun i hi => by simpa using Nat.find_min hbit hi⟩

/-- The differences that one flipped bit can leave in the register: a single bit below the lowest term x^t, or a multiple
of x^t other than 0. -/
abbrev LiveDifference (t : Nat) (d : BitVec 16) : Prop :=
  (∃ j < t, d = BitVec.twoPow 16 j) ∨ (d ≠ 0 ∧ ∀ i < t, d.getLsbD i = false)

variable {p} {t : Nat}

theorem twoPow_ne_zero {j : Nat} (hj : j < 16) : BitVec.twoPow 16 j ≠ 0 := by decide +revert

theorem liveDifference_twoPow {j : Nat} (hj : j < 16) : LiveDifference t (BitVec.twoPow 16 j) := by
  rcases lt_or_ge j t with h | h
  · exact .inl ⟨j, h, rfl⟩
  · refine .inr ⟨twoPow_ne_zero hj, fun i hi => ?_⟩
    rw [BitVec.getLsbD_twoPow, decide_eq_false (show j ≠ i by omega), Bool.and_false]

theorem LiveDifference.ne_zero {d : BitVec 16} (hp : LowestTerm p t) (h : LiveDifference t d) : d ≠ 0 := by
  obtain ⟨ht, -⟩ := hp
  obtain ⟨j, hj, rfl⟩ | ⟨h, -⟩ := h
  · exact twoPow_ne_zero (by omega)
  · exact h

/-- A single bit below the top only moves. -/
theorem crcShift_twoPow {j : Nat} (hj : j < 15) : crcShift p (BitVec.twoPow 16 j) = BitVec.twoPow 16 (j + 1) := by
  have hmsb : (BitVec.twoPow 16 j).msb = false := by decide +revert
  rw [crcShift, hmsb, if_neg Bool.false_ne_true, BitVec.twoPow_eq, BitVec.twoPow_eq, BitVec.shiftLeft_add]

/-- Bit by bit: the shift moves each bit up by one and adds the polynomial where the top bit was set. -/
theorem getLsbD_crcShift (d : BitVec 16) {i : Nat} (hi : i < 16) :
    (crcShift p d).getLsbD i = ((!decide (i < 1) && d.getLsbD (i - 1)) ^^ (d.msb && p.getLsbD i)) := by
  unfold crcShift
  cases d.msb <;> simp [hi, BitVec.getLsbD_shiftLeft, -BitVec.getLsbD_eq_getElem]

/-- A shift loses no bit but the top one. -/
theorem crcShift_ne_zero_of_msb_eq_false {d : BitVec 16} (hd : d ≠ 0) (hmsb : d.msb = false) : crcShift p d ≠ 0 := by
  intro h
  refine hd (BitVec.eq_of_getLsbD_eq fun i hi => ?_)
  rcases (show i = 15 ∨ i + 1 < 16 by omega) with rfl | hi'
  · simpa [BitVec.msb_eq_getLsbD_last] using hmsb
  · simpa [h, hmsb] using (getLsbD_crcShift (p := p) d hi').symm

theorem LiveDifference.crcShift {d : BitVec 16} (hp : LowestTerm p t) (h : LiveDifference t d) :
    LiveDifference t (crcShift p d) := by
  obtain ⟨ht, hset, hclear⟩ := hp
  obtain ⟨j, hj, rfl⟩ | ⟨hd, hlow⟩ := h
  · rw [crcShift_twoPow (by omega)]
    exact liveDifference_twoPow (by omega)
  · refine .inr ⟨?_, fun i hi => ?_⟩
    · cases hmsb : d.msb with
      | false => exact crcShift_ne_zero_of_msb_eq_false hd hmsb
      | true =>
        intro h0
        have hbit := getLsbD_crcShift (p := p) d ht
        have hbelow : (!decide (t < 1) && d.getLsbD (t - 1)) = false := by
          rcases Nat.eq_zero_or_pos t with rfl | hpos
          · rfl
          · rw [hlow (t - 1) (by omega), Bool.and_false]
        rw [hbelow, hmsb, hset, h0] at hbit
        exact absurd hbit (by simp)
    · rw [getLsbD_crcShift d (by omega), hclear i hi, hlow (i - 1) (by omega)]
      simp

theorem LiveDifference.crcShifts {d : BitVec 16} (hp : LowestTerm p t) (h : LiveDifference t d) (n : Nat) :
    LiveDifference t (crcShifts p n d) := by
  induction n generalizing d with
  | zero => exact h
  | succ n ih => exact ih (h.crcShift hp)

/-- x^j times a power of x is no multiple of x^16 + CRC_POLY: that polynomial has more than one term. -/
theorem crcShifts_twoPow_ne_zero (hp : p ≠ 0) (n : Nat) {j : Nat} (hj : j < 16) :
    crcShifts p n (BitVec.twoPow 16 j) ≠ 0 := by
  obtain ⟨t, ht⟩ := exists_lowestTerm hp
  exact ((liveDifference_twoPow hj).crcShifts ht n).ne_zero ht

/-! ### Single-bit errors (41_crc.md R209) -/

/-- Equal CRCs come from equal registers: turning the register round and CRC_XOROUT can be undone. -/
theorem crc16_eq_iff (bytes bytes' : List Byte) :
    crc16 c bytes = crc16 c bytes' ↔ bytes.foldl (crcByte c) 0 = bytes'.foldl (crcByte c) 0 := by
  unfold crc16 reflect16
  rw [BitVec.xor_left_inj]
  cases c.crcReflect with
  | false => rfl
  | true =>
    refine ⟨fun h => ?_, fun h => by rw [if_pos rfl, if_pos rfl, h]⟩
    simpa only [if_true, BitVec.reverse_reverse_eq] using congrArg BitVec.reverse h

/-- One flipped bit of a byte changes the CRC, whatever stands before and behind it: the difference that it puts into
the register is still there after the last byte. -/
theorem crc16_flip_ne (hp : c.crcPoly ≠ 0) (pre post : List Byte) (x : Byte) {b : Nat} (hb : b < 8) :
    crc16 c (pre ++ (x ^^^ (1#8 <<< b)) :: post) ≠ crc16 c (pre ++ x :: post) := by
  rw [Ne, crc16_eq_iff, List.foldl_append, List.foldl_append, List.foldl_cons, List.foldl_cons, crcByte_flip _ _ hb,
    foldl_crcByte_xor_register, ← crcShifts_add]
  intro h
  exact crcShifts_twoPow_ne_zero hp _ (registerBit_lt hb) (by simpa using h)

/-- A flipped bit changes its byte. -/
theorem flip_ne (x : Byte) {b : Nat} (hb : b < 8) : x ^^^ (1#8 <<< b) ≠ x := by
  have hmask : ∀ b < 8, 1#8 <<< b ≠ 0 := by decide
  intro h
  exact hmask b hb (by simpa using h)

/-- Flip bit b of byte k of a list (41_crc.md R209). -/
abbrev flipBit (bytes : List Byte) (k b : Nat) : List Byte := bytes.set k (bytes.getD k 0 ^^^ (1#8 <<< b))

theorem flipBit_cons_succ (first : Byte) (bytes : List Byte) (k b : Nat) :
    flipBit (first :: bytes) (k + 1) b = first :: flipBit bytes k b := rfl

theorem flipBit_append_left (bytes tail : List Byte) {k : Nat} (hk : k < bytes.length) (b : Nat) :
    flipBit (bytes ++ tail) k b = flipBit bytes k b ++ tail := by
  rw [flipBit, List.getD_append _ _ _ _ hk, List.set_append_left _ _ hk]

theorem flipBit_append_right (bytes tail : List Byte) (k b : Nat) :
    flipBit (bytes ++ tail) (bytes.length + k) b = bytes ++ flipBit tail k b := by
  rw [flipBit, List.getD_append_right _ _ _ _ (Nat.le_add_right _ _), List.set_append_right _ _ (Nat.le_add_right _ _),
    Nat.add_sub_cancel_left]

/-- A flip behind the length byte changes the CRC of a packet's body. -/
theorem crc16_flipBit_ne (hp : c.crcPoly ≠ 0) (first : Byte) (bytes : List Byte) {k b : Nat} (hk : k < bytes.length)
    (hb : b < 8) : crc16 c (first :: flipBit bytes k b) ≠ crc16 c (first :: bytes) := by
  have hflip := crc16_flip_ne hp (first :: bytes.take k) (bytes.drop (k + 1)) bytes[k] hb
  rwa [List.cons_append, List.cons_append, List.getElem_cons_drop, List.take_append_drop,
    ← List.getD_eq_getElem _ 0 hk, ← List.set_eq_take_append_cons_drop.trans (if_pos hk)] at hflip

section packet

variable {payload : List Byte} (hc : c.WF) (h : payload.length ≤ c.maxMessageSize) {b : Nat} (hb : b < 8)
include hc h hb

/-- A flip in the payload leaves the CRC bytes, which are then not the CRC of the new payload. -/
theorem verify_flip_payload (hp : c.crcPoly ≠ 0) {k : Nat} (hk : k < payload.length) :
    verify c (flipBit (packet c payload) (k + 1) b) = false := by
  rw [packet_eq_cons, flipBit_cons_succ, flipBit_append_left _ _ hk,
    Bool.eq_false_iff, Ne, verify_lengthByte_cons_iff hc h List.length_set, hi_append_lo]
  exact crc16_flipBit_ne hp _ _ hk hb

/-- A flip in the CRC bytes leaves the payload, whose CRC the two bytes are then not. -/
theorem verify_flip_crc {j : Nat} (hj : j < 2) :
    verify c (flipBit (packet c payload) (payload.length + j + 1) b) = false := by
  rw [packet_eq_cons, flipBit_cons_succ, flipBit_append_right]
  generalize hv : crc16 c (BitVec.ofNat 8 payload.length :: payload) = v
  have compared (low high : Byte) (hne : hi v ++ lo v ≠ high ++ low) :
      verify c (BitVec.ofNat 8 payload.length :: (payload ++ [low, high])) = false := by
    rwa [Bool.eq_false_iff, Ne, verify_lengthByte_cons_iff hc h rfl, hv, ← hi_append_lo v]
  obtain rfl | rfl : j = 0 ∨ j = 1 := by omega
  · exact compared _ _ fun heq => flip_ne (lo v) hb ((BitVec.append_right_inj _).1 heq).symm
  · exact compared _ _ fun heq => flip_ne (hi v) hb ((BitVec.append_left_inj _).1 heq).symm

end packet

/-- Settles O33: the flipped bit lies in the payload, whose CRC it changes since a difference in the register never
vanishes (`crcShifts_twoPow_ne_zero`), or in the CRC bytes. -/
theorem singleBitErrorsAreDetected : Obligations.SingleBitErrorsAreDetected := by
  refine ⟨by decide, fun c payload k b hc hp h hk hlen hb => ?_⟩
  obtain ⟨k, rfl⟩ : ∃ m, k = m + 1 := ⟨k - 1, by omega⟩
  rcases lt_or_ge k payload.length with hpayload | hcrc
  · exact verify_flip_payload hc h hb hp hpayload
  · obtain ⟨j, rfl⟩ := Nat.exists_eq_add_of_le hcrc
    exact verify_flip_crc hc h hb (by omega)

/-! ### The three commands (41_crc.md R205 to R207) -/

section commands

variable (s : State) {bytes : List Byte}

theorem exec_crcAppend_oversize (h : s.cfg.maxMessageSize < bytes.length) :
    exec (.crcAppend bytes) s =
      .next (s.reply .command (.valued .oversize (BitVec.ofNat 24 bytes.length))) := if_pos h

theorem exec_crcAppend_fits (h : bytes.length ≤ s.cfg.maxMessageSize) :
    exec (.crcAppend bytes) s =
      .next (s.reply .command ⟨.ok, BitVec.ofNat 24 (3 + bytes.length), packet s.cfg bytes⟩) := if_neg (not_lt.2 h)

end commands

/-- Settles O29: each command's micro-step is its response, for which it reads its operands and the configuration. -/
theorem crcCommandsAnswerAndChangeNothing : Obligations.CrcCommandsAnswerAndChangeNothing := by
  refine ⟨fun bytes => ⟨encodedAs_of_opcode (o := .crcCompute) rfl (by decide),
    encodedAs_of_opcode (o := .crcAppend) rfl (by decide), encodedAs_of_opcode (o := .crcVerify) rfl (by decide)⟩,
    by decide +kernel, by decide +kernel, by decide +kernel, by decide, by decide,
    fun s bytes => ⟨?_, fun h => ?_, fun h => ?_, ?_⟩⟩
  · exact ⟨_, _, rfl, s.reply_onlyAnswered _ _, toNat_zero_append_counter _⟩
  · exact exec_onlyAnswered (exec_crcAppend_oversize s h)
  · exact exec_onlyAnswered (exec_crcAppend_fits s h)
  · exact exec_onlyAnswered rfl

end Sys2Proof.Machine
end

section
/-! PROOFS. Events of a link that is not selected, line errors on the UART, and the end of a UART transmission with the
kick that follows it (42_uart_framer.md R239 to R242; 43_spi_transport.md R280). -/

namespace Sys2Proof.Machine

variable {s t : State}

/-! ### Refusals of the transport events -/

theorem exec_evUartRx_of_link_ne (b : Byte) (h : s.link ≠ .uart) (hp : s.phase = .first) :
    exec (.evUartRx b) s = .next (s.reply .event (.plain .badArg)) := by
  change execEvUartRx b s = _
  simp only [execEvUartRx, hp, if_pos h]

theorem exec_evSpiDone_of_link_ne (rx : List Byte) (h : s.link ≠ .spi) (hp : s.phase = .first) :
    exec (.evSpiDone rx) s = .next (s.reply .event (.plain .badArg)) := by
  change execEvSpiDone rx s = _
  simp only [execEvSpiDone, hp, if_pos h]

theorem exec_evCtsEdge_of_link_ne (h : s.link ≠ .spi) :
    exec .evCtsEdge s = .next (s.reply .event (.plain .badArg)) := if_pos h

theorem exec_evMwEdge_of_link_ne (h : s.link ≠ .spi) :
    exec .evMwEdge s = .next (s.reply .event (.plain .badArg)) := if_pos h

/-- A line error is refused on another link, and for a kind that names no error (42_uart_framer.md R239, R240). -/
theorem exec_evUartErr_refused {kind : BitVec 3} (h : s.link ≠ .uart ∨ 5 ≤ kind.toNat) :
    exec (.evUartErr kind) s = .next (s.reply .event (.plain .badArg)) := by
  change execEvUartErr kind s = _
  unfold execEvUartErr
  split_ifs with hlink hkind
  · rfl
  · rfl
  · exact absurd h (by rintro (h | h); exacts [hlink h, hkind h])

/-- The end of a transmission is refused on another link, and when none is in flight (42_uart_framer.md R242, R240). -/
theorem exec_evUartTxDone_refused (h : s.link ≠ .uart ∨ s.ufr.utxBusy = false) :
    exec .evUartTxDone s = .next (s.reply .event (.plain .badArg)) := by
  change execEvUartTxDone s = _
  unfold execEvUartTxDone
  split_ifs with hlink hidle
  · rfl
  · rfl
  · exact absurd h (by rintro (h | h); exacts [hlink h, hidle (by simp [h])])

/-- No edge is latched while SPI is not the selected link (43_spi_transport.md R280). -/
theorem Inv.latches_clear (hinv : Inv s) (h : s.link ≠ .spi) : s.spx.ctsPend = false ∧ s.spx.mwPend = false := by
  obtain ⟨-, -, hother⟩ := hinv.spx
  obtain ⟨-, -, hcts, -, hmw⟩ := hother h
  exact ⟨hcts, hmw⟩

/-- Settles O34: each of the six events tests the link first, and the invariant keeps the latches clear off the SPI link
(`Inv.latches_clear`). -/
theorem eventsOfTheOtherLinkAreRefused : Obligations.EventsOfTheOtherLinkAreRefused := by
  refine fun s => ⟨fun h => ⟨fun b hp => ?_, fun kind => ?_, ?_⟩,
    fun h => ⟨fun rx hp => ?_, ?_, ?_, fun hinv => hinv.latches_clear h⟩⟩
  · exact exec_onlyAnswered (exec_evUartRx_of_link_ne b h hp)
  · exact exec_onlyAnswered (exec_evUartErr_refused (.inl h))
  · exact exec_onlyAnswered (exec_evUartTxDone_refused (.inl h))
  · exact exec_onlyAnswered (exec_evSpiDone_of_link_ne rx h hp)
  · exact exec_onlyAnswered (exec_evCtsEdge_of_link_ne h)
  · exact exec_onlyAnswered (exec_evMwEdge_of_link_ne h)

/-! ### Answers after a change of the units

A response leaves everything but the contexts and the response sink as the micro-step made it. -/

theorem State.SameUnits.reply (h : s.SameUnits t) (p : Port) (r : Response) : s.SameUnits (t.reply p r) := by
  cases p <;> exact h

theorem State.SameMemory.reply (h : s.SameMemory t) (p : Port) (r : Response) : s.SameMemory (t.reply p r) := by
  cases p <;> exact h

theorem State.SameFtc.reply (h : s.SameFtc t) (p : Port) (r : Response) : s.SameFtc (t.reply p r) := by
  obtain ⟨hunits, hqueues, hmem⟩ := h
  exact ⟨hunits.reply p r, fun q => (t.reply_queue r p q).trans (hqueues q), hmem.reply p r⟩

theorem State.SameEnv.reply (h : s.SameEnv t) (p : Port) (r : Response) : s.SameEnv (t.reply p r) := by
  cases p <;> exact h

/-! ### Line errors -/

/-- A line error of kind 0 to 4 resyncs the framer in every state of it (42_uart_framer.md R235, R239). -/
theorem exec_evUartErr_resyncs {kind : BitVec 3} (h : s.link = .uart) (hk : kind.toNat ≤ 4) :
    exec (.evUartErr kind) s =
      .next ((s.setUfr (resync s.ufr)).reply .event (.valued .ok (0#21 ++ kind))) :=
  (if_neg (not_not_intro h)).trans (if_neg (not_lt.2 hk))

/-- Writing the framer and answering changes nothing but the framer. -/
theorem State.setUfr_reply_frame (s : State) (f : Framer) (p : Port) (r : Response) :
    let t := (s.setUfr f).reply p r
    s.Ended p r t ∧ (s.setUfr f).SameFtc t ∧ s.SameEnv t :=
  ⟨((s.setUfr f).reply_ended p r).of_contexts rfl rfl rfl rfl, (s.setUfr f).reply_sameFtc p r,
    (s.setUfr f).reply_sameEnv p r⟩

/-- Settles O35: the tests of the link and of the kind refuse (`exec_evUartErr_refused`), and past them the framer is
resynced whatever its state was (`exec_evUartErr_resyncs`). -/
theorem lineErrorsResyncTheFramer : Obligations.LineErrorsResyncTheFramer := by
  intro s kind
  refine ⟨encodedAs_of_opcode (o := .evUartErr) rfl (by decide),
    fun h => exec_onlyAnswered (exec_evUartErr_refused h), fun hlink hkind => ?_⟩
  obtain ⟨hended, hftc, henv⟩ := s.setUfr_reply_frame (resync s.ufr) .event (.valued .ok (0#21 ++ kind))
  refine ⟨_, _, exec_evUartErr_resyncs hlink hkind, hended, ?_, hftc, henv⟩
  rw [BitVec.toNat_append]
  simp

/-! ### The UART kick and the end of a transmission -/

/-- Nothing of the contexts, the configuration, the schedule or the response sink changes: what a kick, which is a part
of its caller's micro-step, leaves to its caller. -/
def State.SameCaller (s t : State) : Prop :=
  t.cfg = s.cfg ∧ t.schedule = s.schedule ∧ t.ctxs = s.ctxs ∧ t.env.eventSink = s.env.eventSink

/-- A kick that leaves its caller alone leaves the end of the command to the caller's answer. -/
theorem State.SameCaller.reply_ended (h : s.SameCaller t) (p : Port) (r : Response) : s.Ended p r (t.reply p r) := by
  obtain ⟨hcfg, hsched, hctx, hsink⟩ := h
  exact (t.reply_ended p r).of_contexts hcfg hsched hctx hsink

/-- s after its UART kick took the item at the front of Q0 and handed its packet on (42_uart_framer.md R241). -/
def State.afterUartSend (s : State) : State :=
  ((s.setQueue .q0 (s.queue .q0).popped).emitUartTx
    (s.cfg.startCode ++ uartPacket s.cfg (s.slot .q0 (s.queue .q0).front.toNat))).setUfr { s.ufr with utxBusy := true }

/-- The kick does nothing while a transmission is in flight or Q0 has no item to take. -/
theorem kickUart_idle (h : s.ufr.utxBusy = true ∨ ¬ s.hasItem .q0) : kickUart s = .ok (s, false) := by
  unfold kickUart
  split_ifs with hbusy
  · rfl
  · obtain ⟨st, -, hrefused⟩ := dequeueAtomic_none s (h.resolve_left hbusy)
    rw [hrefused]

/-- The kick of an idle transmitter takes the item at the front of a Q0 in order. -/
theorem kickUart_sends (hbusy : s.ufr.utxBusy = false) (hitem : s.hasItem .q0) (hq : (s.queue .q0).Inv s.cfg) :
    kickUart s = .ok (s.afterUartSend, true) := by
  obtain ⟨hgeometry, -, hcounters⟩ := hq
  obtain ⟨hinit, hqinv⟩ := hitem.1
  rw [kickUart, if_neg (by simp [hbusy]), dequeueAtomic_item s hitem (hcounters hqinv) (hgeometry hinit)]
  rfl

/-- The send pops Q0, sets UTX_BUSY, makes one request, and changes nothing else. -/
theorem State.afterUartSend_uartKick (hbusy : s.ufr.utxBusy = false) (hitem : s.hasItem .q0) :
    s.UartKick true s.afterUartSend := by
  have hsends : ¬ (s.ufr.utxBusy = true ∨ ¬ s.hasItem .q0) :=
    not_or.2 ⟨by simp [hbusy], not_not_intro hitem⟩
  rw [State.UartKick, if_neg hsends]
  exact ⟨rfl, ⟨s.setQueue_queue_self .q0 (s.queue .q0).popped, fun p hp => s.setQueue_queue_of_ne _ hp,
    ⟨rfl, rfl, rfl, rfl, rfl, rfl, rfl, rfl, rfl, rfl⟩, fun _ => rfl⟩, rfl⟩

/-- The UART kick of a state whose Q0 meets the invariant: it ends, does what R241 says, and leaves its caller alone
(42_uart_framer.md R241). -/
theorem kickUart_uartKick (hq : (s.queue .q0).Inv s.cfg) :
    ∃ t started, kickUart s = .ok (t, started) ∧ s.UartKick started t ∧ s.SameCaller t := by
  by_cases hidle : s.ufr.utxBusy = true ∨ ¬ s.hasItem .q0
  · refine ⟨s, false, kickUart_idle hidle, ?_, rfl, rfl, rfl, rfl⟩
    rw [State.UartKick, if_pos hidle]
    exact ⟨rfl, s.sameFtc_refl, rfl⟩
  · rw [not_or, Bool.not_eq_true, not_not] at hidle
    obtain ⟨hbusy, hitem⟩ := hidle
    exact ⟨s.afterUartSend, true, kickUart_sends hbusy hitem hq, State.afterUartSend_uartKick hbusy hitem,
      rfl, rfl, rfl, rfl⟩

/-- What a UART kick did stands after the answer of the command that ran it. -/
theorem State.UartKick.reply {started : Bool} (h : s.UartKick started t) (p : Port) (r : Response) :
    s.UartKick started (t.reply p r) := by
  unfold State.UartKick at h ⊢
  split_ifs at h ⊢ with hidle
  · obtain ⟨hstarted, hftc, henv⟩ := h
    exact ⟨hstarted, hftc.reply p r, henv.reply p r⟩
  · obtain ⟨hstarted, ⟨hpopped, hothers, hunits, hmem⟩, henv⟩ := h
    exact ⟨hstarted,
      ⟨(t.reply_queue r p _).trans hpopped, fun q hq => (t.reply_queue r p q).trans (hothers q hq),
        hunits.reply p r, hmem.reply p r⟩, henv.reply p r⟩

/-- The end of a transmission in flight clears UTX_BUSY and runs the kick (42_uart_framer.md R242). -/
theorem exec_evUartTxDone_of_kick {started : Bool} (hlink : s.link = .uart) (hbusy : s.ufr.utxBusy = true)
    (hkick : kickUart (s.setUfr { s.ufr with utxBusy := false }) = .ok (t, started)) :
    exec .evUartTxDone s = .next (t.reply .event (.plain .ok)) := by
  change execEvUartTxDone s = _
  rw [execEvUartTxDone, if_neg (not_not_intro hlink), if_neg (by simp [hbusy]), hkick]

/-- Settles O40: past its refusals the event clears UTX_BUSY, which leaves Q0 in order, so that the kick does what R241
says (`kickUart_uartKick`). -/
theorem transmitDoneSendsTheNextPacket : Obligations.TransmitDoneSendsTheNextPacket := by
  refine ⟨encodedAs_of_opcode (o := .evUartTxDone) rfl (by decide), fun s =>
    ⟨fun h => exec_onlyAnswered (exec_evUartTxDone_refused h), fun hlink hbusy hinv => ?_⟩⟩
  obtain ⟨t, started, hkick, hdone, hcaller⟩ :=
    kickUart_uartKick (s := s.setUfr { s.ufr with utxBusy := false }) (hinv.queues .q0)
  exact ⟨_, started, exec_evUartTxDone_of_kick hlink hbusy hkick,
    (hcaller.reply_ended .event (.plain .ok)).of_contexts rfl rfl rfl rfl, hdone.reply .event (.plain .ok)⟩

end Sys2Proof.Machine
end

section
/-! PROOFS. The SPI transactor's side of the pins: which changes of a pin are latched, what the SPI kick does, and the two
commands that take a latched edge and run it (43_spi_transport.md R271, R272, R275, R277, R278). -/

namespace Sys2Proof.Machine

variable {s t : State}

/-! ### The edge latches (43_spi_transport.md R271, R272) -/

/-- A scheduled choice other than the running context's turn is one step of the environment, or one entry step. -/
theorem step_of_environment {a : Action} {tail : List Action} (hc : s.cfg.WF) (hs : s.schedule = a :: tail)
    (ha : a ≠ .run) : step s = .next (environmentStep a (s.setSchedule tail)) := by
  rw [step_of_wf hc, scheduledStep, hs]
  cases a with
  | run => exact absurd rfl ha
  | _ => rfl

/-- A latch that gathers the armed rising edges is set by one and keeps its value otherwise. -/
theorem latch_or_armedEdge (pend pin level armed : Bool) :
    (pend || (!pin && level && armed)) = if pin = false ∧ level = true ∧ armed = true then true else pend := by
  split_ifs with hedge
  · obtain ⟨rfl, rfl, rfl⟩ := hedge
    simp
  · have hnone : (!pin && level && armed) = false := by
      simpa only [← Bool.not_eq_true, Bool.and_eq_true, Bool.not_eq_true', and_assoc] using hedge
    rw [hnone, Bool.or_false]

variable (s) in
theorem driveCts_spx (level : Bool) :
    (driveCts level s).spx = { s.spx with ctsPend :=
      if s.env.ctsPin = false ∧ level = true ∧ s.spx.ctsArmed = true then true else s.spx.ctsPend } := by
  rw [← latch_or_armedEdge]
  rfl

variable (s) in
theorem driveMw_spx (level : Bool) :
    (driveMw level s).spx = { s.spx with mwPend :=
      if s.env.mwPin = false ∧ level = true ∧ s.spx.mwArmed = true then true else s.spx.mwPend } := by
  rw [← latch_or_armedEdge]
  rfl

/-- Settles O43: the step drives the pin, whose latch gathers the armed rising edges (`driveCts_spx`, `driveMw_spx`), and
touches nothing else. -/
theorem risingEdgesAreLatchedWhileArmed : Obligations.RisingEdgesAreLatchedWhileArmed := by
  refine fun s level tail hc => ⟨fun hs => ?_, fun hs => ?_⟩
  · exact ⟨_, step_of_environment hc hs (by simp), rfl, driveCts_spx (s.setSchedule tail) level,
      (s.setSpx _).sameFtc_refl, fun _ => rfl, rfl, rfl⟩
  · exact ⟨_, step_of_environment hc hs (by simp), rfl, driveMw_spx (s.setSchedule tail) level,
      (s.setSpx _).sameFtc_refl, fun _ => rfl, rfl, rfl⟩

/-! ### The SPI kick (43_spi_transport.md R275) -/

theorem kickSpi_busy (hbusy : s.spx.busy = true) : kickSpi s = .ok (s, false) := if_pos hbusy

/-- Without clear to send the idle transactor only arms for its edge. -/
theorem kickSpi_arms (hbusy : s.spx.busy = false) (hcts : s.env.ctsPin = false) :
    kickSpi s = .ok (s.setSpx { s.spx with ctsArmed := true }, false) := by
  rw [kickSpi, if_neg (by simp [hbusy]), if_pos (by simp [hcts])]

/-- With clear to send the idle transactor takes the item at the front of a Q0 in order. -/
theorem kickSpi_sends (hbusy : s.spx.busy = false) (hcts : s.env.ctsPin = true) (hitem : s.hasItem .q0)
    (hq : (s.queue .q0).Inv s.cfg) :
    kickSpi s = .ok (startTransfer (fit s.cfg.maxPacketSize (s.slot .q0 (s.queue .q0).front.toNat))
      (s.setQueue .q0 (s.queue .q0).popped), true) := by
  obtain ⟨hgeometry, -, hcounters⟩ := hq
  obtain ⟨hinit, hqinv⟩ := hitem.1
  rw [kickSpi, if_neg (by simp [hbusy]), if_neg (by simp [hcts]),
    dequeueAtomic_item s hitem (hcounters hqinv) (hgeometry hinit)]
  rfl

/-- With nothing to send, a peer that has a message waiting is given an all-zero keepalive. -/
theorem kickSpi_noItem (hbusy : s.spx.busy = false) (hcts : s.env.ctsPin = true) (hitem : ¬ s.hasItem .q0) :
    kickSpi s =
      if s.env.mwPin then .ok (startTransfer (zeros s.cfg.maxPacketSize) s, true) else .ok (s, false) := by
  obtain ⟨st, -, hrefused⟩ := dequeueAtomic_none s hitem
  rw [kickSpi, if_neg (by simp [hbusy]), if_neg (by simp [hcts]), hrefused]

/-- Taking Q0's item and sending it pops Q0, loads the transactor, and changes nothing else of FTC. -/
theorem startTransfer_poppedQ0 (buf : List Byte) :
    (s.setSpx { s.spx with txbuf := buf, selected := true, busy := true }).PoppedQ0
      (startTransfer buf (s.setQueue .q0 (s.queue .q0).popped)) :=
  ⟨s.setQueue_queue_self .q0 _, fun _ hp => s.setQueue_queue_of_ne _ hp,
    ⟨rfl, rfl, rfl, rfl, rfl, rfl, rfl, rfl, rfl, rfl⟩, fun _ => rfl⟩

/-- The SPI kick of a state whose Q0 meets the invariant: it ends, does what R275 says in each of its cases, and leaves its
caller alone (43_spi_transport.md R275). -/
theorem kickSpi_spiKick (hq : (s.queue .q0).Inv s.cfg) :
    ∃ t started, kickSpi s = .ok (t, started) ∧ s.SpiKick started t ∧ s.SameCaller t := by
  unfold State.SpiKick
  split_ifs with hbusy hcts hitem hmw
  · exact ⟨_, _, kickSpi_busy hbusy, ⟨rfl, s.sameFtc_refl, rfl⟩, rfl, rfl, rfl, rfl⟩
  all_goals rw [Bool.not_eq_true] at hbusy
  · exact ⟨_, _, kickSpi_arms hbusy hcts, ⟨rfl, State.sameFtc_refl _, rfl⟩, rfl, rfl, rfl, rfl⟩
  all_goals rw [Bool.not_eq_false] at hcts
  · exact ⟨_, _, kickSpi_sends hbusy hcts hitem hq, ⟨rfl, startTransfer_poppedQ0 _, rfl⟩, rfl, rfl, rfl, rfl⟩
  · exact ⟨_, _, (kickSpi_noItem hbusy hcts hitem).trans (if_pos hmw), ⟨rfl, State.sameFtc_refl _, rfl⟩,
      rfl, rfl, rfl, rfl⟩
  · exact ⟨_, _, (kickSpi_noItem hbusy hcts hitem).trans (if_neg hmw), ⟨rfl, s.sameFtc_refl, rfl⟩,
      rfl, rfl, rfl, rfl⟩

theorem State.PoppedQ0.reply (h : s.PoppedQ0 t) (p : Port) (r : Response) : s.PoppedQ0 (t.reply p r) := by
  obtain ⟨hpopped, hothers, hunits, hmem⟩ := h
  exact ⟨(t.reply_queue r p _).trans hpopped, fun q hq => (t.reply_queue r p q).trans (hothers q hq),
    hunits.reply p r, hmem.reply p r⟩

/-- What an SPI kick did stands after the answer of the command that ran it. -/
theorem State.SpiKick.reply {started : Bool} (h : s.SpiKick started t) (p : Port) (r : Response) :
    s.SpiKick started (t.reply p r) := by
  unfold State.SpiKick at h ⊢
  split_ifs at h ⊢
  all_goals
    obtain ⟨hstarted, hchange, henv⟩ := h
    exact ⟨hstarted, hchange.reply p r, henv.reply p r⟩

/-! ### The handlers of the edges -/

/-- The handler of a latched edge: refused off the SPI link and when the latch is clear; else the latches and ARMED bits of
`after` are written and the kick runs in the same micro-step (43_spi_transport.md R277, R278, R280). -/
def edgeHandler (pend : Bool) (after : Spx) (s : State) : Host.Outcome State Fault Refusal :=
  if s.link ≠ .spi then .next (s.reply .event (.plain .badArg))
  else if !pend then .next (s.reply .event (.plain .badArg))
  else
    match kickSpi (s.setSpx after) with
    | .error f => .fault f
    | .ok (s1, _) => .next (s1.reply .event (.plain .ok))

theorem exec_evCtsEdge_eq (s : State) :
    exec .evCtsEdge s = edgeHandler s.spx.ctsPend { s.spx with ctsPend := false, ctsArmed := false } s := rfl

theorem exec_evMwEdge_eq (s : State) :
    exec .evMwEdge s = edgeHandler s.spx.mwPend { s.spx with mwPend := false, mwArmed := true } s := rfl

section edgeHandler

variable {pend : Bool} {after : Spx}

theorem edgeHandler_refused (h : s.link ≠ .spi ∨ pend = false) :
    edgeHandler pend after s = .next (s.reply .event (.plain .badArg)) := by
  unfold edgeHandler
  split_ifs with hlink hclear
  · rfl
  · rfl
  · exact absurd h (by rintro (h | h); exacts [hlink h, hclear (by simp [h])])

/-- Past the tests the kick runs, of a state whose Q0 the writes of the handler left in order (`kickSpi_spiKick`). -/
theorem edgeHandler_kicks (hlink : s.link = .spi) (hpend : pend = true) (hinv : Inv s) :
    ∃ t started, edgeHandler pend after s = .next t ∧ s.Ended .event ⟨.ok, 0, []⟩ t ∧
      (s.setSpx after).SpiKick started t := by
  obtain ⟨t, started, hkick, hdone, hcaller⟩ := kickSpi_spiKick (s := s.setSpx after) (hinv.queues .q0)
  refine ⟨t.reply .event (.plain .ok), started, ?_,
    (hcaller.reply_ended .event (.plain .ok)).of_contexts rfl rfl rfl rfl, hdone.reply .event (.plain .ok)⟩
  rw [edgeHandler, if_neg (not_not_intro hlink), if_neg (by simp [hpend]), hkick]

end edgeHandler

/-- Settles O42: both events are the handler of a latched edge, each with its own latch and ARMED bit
(`edgeHandler_refused`, `edgeHandler_kicks`). -/
theorem edgeHandlersKick : Obligations.EdgeHandlersKick := by
  refine ⟨encodedAs_of_opcode (o := .evCtsEdge) rfl (by decide), encodedAs_of_opcode (o := .evMwEdge) rfl (by decide),
    fun s => ⟨fun h => ?_, fun h => ?_, ?_, ?_⟩⟩
  · exact exec_onlyAnswered ((exec_evCtsEdge_eq s).trans (edgeHandler_refused h))
  · exact exec_onlyAnswered ((exec_evMwEdge_eq s).trans (edgeHandler_refused h))
  · rw [exec_evCtsEdge_eq]
    exact edgeHandler_kicks
  · rw [exec_evMwEdge_eq]
    exact edgeHandler_kicks

end Sys2Proof.Machine
end

section
/-! PROOFS. Link selection and the kick of the selected link: what LINK_INIT answers in each case, why no other step but a
reset writes LINK_SEL, and that KICK runs the kick of the selected transport and answers OK (44_comms.md R310, R311). -/

namespace Sys2Proof.Machine

variable {s t : State}

/-! ### LINK_INIT (44_comms.md R310) -/

section linkInit

variable {link : BitVec 2}

theorem exec_linkInit_badArg (h : link ≠ 1 ∧ link ≠ 2) :
    exec (.linkInit link) s = .next (s.reply .command (.plain .badArg)) := if_pos h

theorem exec_linkInit_denied (h : link = 1 ∨ link = 2) (hs : s.link ≠ .none) :
    exec (.linkInit link) s = .next (s.reply .command (.plain .denied)) :=
  (if_neg (by tauto)).trans (if_pos hs)

end linkInit

/-- Selecting SPI arms the message-waiting edge. -/
theorem exec_linkInit_spi (hs : s.link = .none) :
    exec (.linkInit 1) s =
      .next (((s.setLink .spi).setSpx { s.spx with mwArmed := true }).reply .command (.plain .ok)) :=
  if_neg (not_not_intro hs)

/-- Selecting UART resyncs the framer. -/
theorem exec_linkInit_uart (hs : s.link = .none) :
    exec (.linkInit 2) s =
      .next (((s.setLink .uart).setUfr (resync s.ufr)).reply .command (.plain .ok)) :=
  if_neg (not_not_intro hs)

/-! ### What keeps the selected link -/

/-- The outcome's next state, if it has one, has link v selected. -/
def KeepsLink (v : LinkSel) (o : Host.Outcome State Fault Refusal) : Prop := ∀ t, o = .next t → t.link = v

@[simp] theorem keepsLink_next {v : LinkSel} : KeepsLink v (.next t) ↔ t.link = v :=
  ⟨fun h => h t rfl, fun h u e => by cases e; exact h⟩

@[simp] theorem keepsLink_fault {v : LinkSel} {f : Fault} : KeepsLink v (.fault f) := fun _ e => by cases e

@[simp] theorem State.exitContext_link (s : State) (u : Level) : (s.exitContext u).link = s.link := rfl
@[simp] theorem startTransfer_link (s : State) (b : List Byte) : (startTransfer b s).link = s.link := rfl
@[simp] theorem State.emitUartTx_link (s : State) (b : List Byte) : (s.emitUartTx b).link = s.link := rfl

/-- E2, E4, D3 and D4 write counters, a fault bit and MASK only. -/
theorem Counted.link {q : QId} {r : Queue} {m : BitVec 4} (h : Counted q r m s t) : t.link = s.link := by
  rw [h.frame]

section procedures

variable {i : Instr} {q : QId}

theorem callEnqueue_link {item : List Byte} {ret : Status → State → State}
    (hret : ∀ st, (ret st s).link = s.link) : (callEnqueue i q item ret s).link = s.link := by
  rcases callEnqueue_cases s i q item ret with ⟨st, e, -⟩ | ⟨e, -⟩
  · rw [e, hret]
  · rw [e]; rfl

theorem resumeEnqueue_keepsLink {l : EnqLocals} {p : EnqPoint} {ret : Status → State → State}
    (hret : ∀ st m, (ret st m).link = m.link) : KeepsLink s.link (resumeEnqueue i l p ret s) := by
  intro t h
  rcases resumeEnqueue_cases s h with ⟨-, rfl⟩ | ⟨j, -, -, rfl⟩ | ⟨-, rfl⟩
  · exact (enqueueE2_counted s l).link
  · rfl
  · rw [hret, (enqueueE4_counted s l).link]

@[simp] theorem callDequeue_link : (callDequeue i q s).link = s.link := by
  rcases callDequeue_cases s i q with ⟨st, e, -⟩ | ⟨e, -⟩
  · rw [e, State.reply_link]
  · rw [e, State.goOn_link]

theorem resumeDequeue_keepsLink {l : DeqLocals} {p : DeqPoint} :
    KeepsLink s.link (resumeDequeue i l p s) := by
  intro t h
  rcases resumeDequeue_cases s h with ⟨j, l1, -, -, -, rfl⟩ | ⟨-, rfl⟩ | ⟨-, rfl⟩
  · rfl
  · exact (dequeueD3_counted s l.q).link
  · rw [State.reply_link, (dequeueD4_counted s l.q).link]

theorem dequeueAtomic_link {r : DeqResult} (h : dequeueAtomic q s = .ok (t, r)) : t.link = s.link := by
  rcases dequeueAtomic_cases s h with ⟨st, rfl, -⟩ | ⟨rfl, -⟩
  · rfl
  · rw [(dequeueD4_counted _ q).link, (dequeueD3_counted s q).link]

theorem callAccept_link {pkt : List Byte} {ret : Nat → State → State}
    (hret : ∀ a m, (ret a m).link = m.link) : (callAccept i pkt ret s).link = s.link := by
  rcases callAccept_cases s i pkt ret with ⟨e, -⟩ | ⟨e, -⟩ | ⟨e, -⟩
  · rw [e, hret]
  · rw [e, hret, State.setCrcFail_link]
  · rw [e, callEnqueue_link fun st => State.goOn_link s i _]

theorem acceptA2_link {st : Status} {ret : Nat → State → State} (hret : ∀ a m, (ret a m).link = m.link) :
    (acceptA2 st ret s).link = s.link := by
  unfold acceptA2
  split
  · exact hret _ _
  · exact hret _ _

@[simp] theorem uartAdmitted_link (a : Nat) : (uartAdmitted a s).link = s.link := s.reply_link _ _
@[simp] theorem spiAdmitted_link (rx : List Byte) (a : Nat) : (spiAdmitted rx a s).link = s.link := rfl

end procedures

/-- The kicks read LINK_SEL and do not write it. -/
theorem kickUart_keepsLink {b : Bool} (h : kickUart s = .ok (t, b)) : t.link = s.link := by
  rcases kickUart_cases s h with ⟨rfl, -⟩ | ⟨s1, r, -, hd, ⟨st, -, rfl, -⟩ | ⟨n, item, -, -, rfl⟩⟩
  · rfl
  · exact dequeueAtomic_link hd
  · rw [State.setUfr_link, State.emitUartTx_link, dequeueAtomic_link hd]

theorem kickSpi_keepsLink {b : Bool} (h : kickSpi s = .ok (t, b)) : t.link = s.link := by
  rcases kickSpi_cases s h with
    ⟨rfl, -⟩ | ⟨-, rfl, -⟩ | ⟨s1, r, -, hd, ⟨st, -, ⟨rfl, -⟩ | ⟨rfl, -⟩⟩ | ⟨n, item, -, -, rfl⟩⟩
  · rfl
  · rfl
  · rw [startTransfer_link, dequeueAtomic_link hd]
  · exact dequeueAtomic_link hd
  · rw [startTransfer_link, dequeueAtomic_link hd]

theorem kickLink_keepsLink {b : Bool} (h : kickLink s = .ok (t, b)) : t.link = s.link := by
  unfold kickLink at h
  split at h
  · exact kickSpi_keepsLink h
  · exact kickUart_keepsLink h
  · cases h; rfl

/-- The accumulator writes its own registers, the record of faults and the flash collaborator's requests. -/
theorem commitWrite_link (addr : BitVec 32) : (commitWrite addr s).1.link = s.link := by
  unfold commitWrite
  dsimp only
  split <;> rfl

theorem chunkCommit_link : (chunkCommit s).1.link = s.link := by
  unfold chunkCommit
  dsimp only
  split
  · split
    · exact commitWrite_link _
    · rfl
  · exact commitWrite_link _

@[simp] theorem chunkEffect_link (page : BitVec 16) (ci cc : BitVec 8) (payload : List Byte) :
    (chunkEffect page ci cc payload s).1.link = s.link := by
  simp only [chunkEffect]
  split
  · rfl
  split
  · rfl
  split
  · rfl
  · exact chunkCommit_link

/-! ### The commands -/

theorem execEnq_keepsLink (q : QId) (data : List Byte) : KeepsLink s.link (execEnq q data s) := by
  unfold execEnq
  split
  case h_1 =>
    split_ifs
    · simp
    · simp
    · simp
    · exact keepsLink_next.2 (callEnqueue_link fun st => s.reply_link _ _)
  case h_2 => exact resumeEnqueue_keepsLink fun st m => m.reply_link _ _
  all_goals exact keepsLink_fault

theorem execDeq_keepsLink (q : QId) : KeepsLink s.link (execDeq q s) := by
  unfold execDeq
  split
  case h_1 => simp
  case h_2 => exact resumeDequeue_keepsLink
  all_goals exact keepsLink_fault

theorem execRecv_keepsLink : KeepsLink s.link (execRecv s) := by
  unfold execRecv
  split
  case h_1 => simp
  case h_2 => exact resumeDequeue_keepsLink
  all_goals exact keepsLink_fault

/-- LINK_INIT finds the link taken. -/
theorem execLinkInit_keepsLink (link : BitVec 2) (hs : s.link ≠ .none) : KeepsLink s.link (execLinkInit link s) := by
  unfold execLinkInit
  split_ifs <;> simp

theorem execKick_keepsLink : KeepsLink s.link (execKick s) := by
  unfold execKick
  split
  · exact keepsLink_fault
  next hk => simp [kickLink_keepsLink hk]

theorem sendT2_keepsLink (st : Status) : KeepsLink s.link (sendT2 st s) := by
  unfold sendT2
  split
  · exact keepsLink_fault
  next hk =>
    rw [keepsLink_next, State.reply_link, kickLink_keepsLink hk]
    split <;> rfl

theorem execSend_keepsLink (payload : List Byte) : KeepsLink s.link (execSend payload s) := by
  unfold execSend
  split
  case h_1 =>
    split_ifs
    · simp
    · exact keepsLink_next.2 (callEnqueue_link fun st => s.goOn_link _ _)
  case h_2 => exact resumeEnqueue_keepsLink fun st m => m.goOn_link _ _
  case h_3 => exact sendT2_keepsLink _
  all_goals exact keepsLink_fault

theorem execEvUartRx_keepsLink (b : Byte) : KeepsLink s.link (execEvUartRx b s) := by
  unfold execEvUartRx
  split
  case h_1 =>
    split_ifs
    · simp
    split
    · simp
    · simp
    split
    · exact keepsLink_fault
    · simp
    · exact keepsLink_next.2 (callAccept_link fun a m => uartAdmitted_link a)
  case h_2 => exact resumeEnqueue_keepsLink fun st m => m.goOn_link _ _
  case h_3 => exact keepsLink_next.2 (acceptA2_link fun a m => uartAdmitted_link a)
  all_goals exact keepsLink_fault

theorem execEvUartTxDone_keepsLink : KeepsLink s.link (execEvUartTxDone s) := by
  unfold execEvUartTxDone
  split_ifs
  · simp
  · simp
  split
  · exact keepsLink_fault
  next hk => simp [kickUart_keepsLink hk]

theorem execEvSpiDone_keepsLink (rx : List Byte) : KeepsLink s.link (execEvSpiDone rx s) := by
  unfold execEvSpiDone
  split
  case h_1 =>
    dsimp only
    split_ifs
    · simp
    · simp
    · simp
    · exact keepsLink_next.2 (callAccept_link fun a m => spiAdmitted_link rx a)
  case h_2 => exact resumeEnqueue_keepsLink fun st m => m.goOn_link _ _
  case h_3 => exact keepsLink_next.2 (acceptA2_link fun a m => spiAdmitted_link rx a)
  case h_4 => simp
  all_goals exact keepsLink_fault

/-- The handler of either edge (`exec_evCtsEdge_eq`, `exec_evMwEdge_eq`). -/
theorem edgeHandler_keepsLink {pend : Bool} {after : Spx} : KeepsLink s.link (edgeHandler pend after s) := by
  unfold edgeHandler
  split_ifs
  · simp
  · simp
  split
  · exact keepsLink_fault
  next hk => simp [kickSpi_keepsLink hk]

/-- No micro-step of a command changes a link that is selected (44_comms.md R310). -/
theorem exec_keepsLink (i : Instr) (hs : s.link ≠ .none) : KeepsLink s.link (exec i s) := by
  cases i with
  | qinit q sp ceil itemSize cap base => simp only [exec, execQinit]; split_ifs <;> simp
  | enq q data => exact execEnq_keepsLink q data
  | deq q => exact execDeq_keepsLink q
  | qcount q => simp only [exec, execQcount]; split_ifs <;> simp
  | qfree q => simp only [exec, execQfree]; split_ifs <;> simp
  | crcCompute data => simp [exec, execCrcCompute]
  | crcAppend payload => simp only [exec, execCrcAppend]; split_ifs <;> simp
  | crcVerify data => simp [exec, execCrcVerify]
  | linkInit link => exact execLinkInit_keepsLink link hs
  | send payload => exact execSend_keepsLink payload
  | recv => exact execRecv_keepsLink
  | kick => exact execKick_keepsLink
  | chunk page ci cc payload => simp [exec, execChunk]
  | regRead reg => simp only [exec, execRegRead]; split <;> simp
  | evUartRx b => exact execEvUartRx_keepsLink b
  | evUartErr kind => simp only [exec, execEvUartErr]; split_ifs <;> simp
  | evUartTxDone => exact execEvUartTxDone_keepsLink
  | evSpiDone rx => exact execEvSpiDone_keepsLink rx
  | evCtsEdge => exact edgeHandler_keepsLink
  | evMwEdge => exact edgeHandler_keepsLink

/-! ### The steps of a run -/

theorem beginCommand_keepsLink (hs : s.link ≠ .none) : KeepsLink s.link (beginCommand s) := by
  unfold beginCommand
  split
  · split_ifs <;> simp
  · exact keepsLink_next.2 (State.reply_link _ _ _)
  next i rest _ => exact exec_keepsLink (s := s.setStream rest) i hs

theorem runStep_keepsLink (hs : s.link ≠ .none) : KeepsLink s.link (runStep s) := by
  unfold runStep
  split
  · exact exec_keepsLink _ hs
  · exact beginCommand_keepsLink hs
  · exact beginCommand_keepsLink hs

theorem enterStep_link : (enterStep s).link = s.link := by
  unfold enterStep
  split <;> rfl

/-- Of the environment's steps only a reset writes LINK_SEL (70_reset_and_hazards.md R450). -/
theorem environmentStep_link {a : Action} (ha : ∀ d, a ≠ .reset d) : (environmentStep a s).link = s.link := by
  cases a with
  | enter => exact enterStep_link
  | reset d => exact absurd rfl (ha d)
  | _ => rfl

theorem scheduledStep_keepsLink (hs : s.link ≠ .none) (hr : ∀ d tail, s.schedule ≠ .reset d :: tail) :
    KeepsLink s.link (scheduledStep s) := by
  unfold scheduledStep
  split
  · exact runStep_keepsLink hs
  next tail _ => exact runStep_keepsLink (s := s.setSchedule tail) hs
  next a tail _ hsched =>
    refine keepsLink_next.2 (environmentStep_link (s := s.setSchedule tail) fun d ha => hr d tail ?_)
    rw [hsched, ha]

/-- A selected link stays selected until a reset (44_comms.md R310). -/
theorem step_link (h : step s = .next t) (hs : s.link ≠ .none) (hr : ∀ d tail, s.schedule ≠ .reset d :: tail) :
    t.link = s.link := by
  by_cases hw : s.cfg.WF
  · exact scheduledStep_keepsLink hs hr t (step_of_wf hw ▸ h)
  · rw [step_of_not_wf hw] at h; cases h

/-- Settles O44: LINK_INIT refuses codes 0 and 3, then a second selection (`exec_linkInit_badArg`,
`exec_linkInit_denied`), so that no micro-step of a command changes a selected link, and of the other steps only a reset
does (`step_link`). -/
theorem linkIsSelectedOnce : Obligations.LinkIsSelectedOnce := by
  refine fun s => ⟨fun link => encodedAs_of_opcode (o := .linkInit) rfl (by decide), fun t => step_link,
    fun link h => ?_, fun link h hs => ?_, fun hs => ?_, fun hs => ?_⟩
  · exact exec_onlyAnswered (exec_linkInit_badArg (by decide +revert))
  · exact exec_onlyAnswered (exec_linkInit_denied (by decide +revert) hs)
  · exact ⟨_, exec_linkInit_spi hs, State.SameCaller.reply_ended ⟨rfl, rfl, rfl, rfl⟩ _ _,
      State.reply_sameFtc _ _ _, State.reply_sameEnv _ _ _⟩
  · exact ⟨_, exec_linkInit_uart hs, State.SameCaller.reply_ended ⟨rfl, rfl, rfl, rfl⟩ _ _,
      State.reply_sameFtc _ _ _, State.reply_sameEnv _ _ _⟩

/-! ### KICK (44_comms.md R311) -/

/-- The kick of the selected link, of a state whose Q0 meets the invariant: it ends, does what the transport's kick does,
or nothing when no link is selected, and leaves its caller alone. -/
theorem kickLink_linkKick (hq : (s.queue .q0).Inv s.cfg) :
    ∃ t started, kickLink s = .ok (t, started) ∧ s.LinkKick started t ∧ s.SameCaller t := by
  unfold kickLink State.LinkKick
  cases s.link with
  | none => exact ⟨s, false, rfl, ⟨rfl, s.sameFtc_refl, rfl⟩, rfl, rfl, rfl, rfl⟩
  | spi => exact kickSpi_spiKick hq
  | uart => exact kickUart_uartKick hq

/-- What the kick of the selected link did stands after the answer of the command that ran it. -/
theorem State.LinkKick.reply {started : Bool} (h : s.LinkKick started t) (p : Port) (r : Response) :
    s.LinkKick started (t.reply p r) := by
  unfold State.LinkKick at h ⊢
  cases hl : s.link with
  | none =>
    rw [hl] at h
    obtain ⟨hstarted, hftc, henv⟩ := h
    exact ⟨hstarted, hftc.reply p r, henv.reply p r⟩
  | spi =>
    rw [hl] at h
    exact State.SpiKick.reply h p r
  | uart =>
    rw [hl] at h
    exact State.UartKick.reply h p r

theorem exec_kick_of_kickLink {started : Bool} (h : kickLink s = .ok (t, started)) :
    exec .kick s = .next (t.reply .command (.valued .ok (if started then 1 else 0))) := by
  change execKick s = _
  rw [execKick, h]

/-- Settles O45: the invariant has Q0 in order, so that the kick ends and does what its transport's rule says
(`kickLink_linkKick`), and the answer touches nothing of that. -/
theorem kickRunsTheSelectedTransport : Obligations.KickRunsTheSelectedTransport := by
  refine ⟨encodedAs_of_opcode (o := .kick) rfl (by decide), fun s hinv => ?_⟩
  obtain ⟨t, started, hkick, hdone, hcaller⟩ := kickLink_linkKick (hinv.queues .q0)
  exact ⟨_, started, exec_kick_of_kickLink hkick, hcaller.reply_ended _ _, hdone.reply _ _⟩

end Sys2Proof.Machine
end

section
/-! PROOFS. The reassembly accumulator and its command CHUNK: what a chunk does in each of its cases, and why the chunks
of a page make the same page in any order (45_reassembly.md R340 to R350). -/

namespace Sys2Proof.Machine

variable {s : State} {page : BitVec 16} {ci cc : BitVec 8} {payload : List Byte}

/-! ### The cases of CHUNK (45_reassembly.md R345) -/

/-- The model's test of a chunk is the rule's three checks (45_reassembly.md R341). -/
theorem chunkValid_eq_decide (len : Nat) : chunkValid s page ci cc len = decide (s.ChunkOk page ci cc len) := by
  simp [chunkValid, State.ChunkOk, Bool.and_assoc]

theorem exec_chunk_of_effect {t : State} {r : Response} (h : chunkEffect page ci cc payload s = (t, r)) :
    exec (.chunk page ci cc payload) s = .next (t.reply .command r) := by
  change execChunk page ci cc payload s = _
  rw [execChunk, h]

theorem exec_chunk_fatal (h : s.accFatal = true) :
    exec (.chunk page ci cc payload) s = .next (s.reply .command (.valued .faulted 3)) :=
  exec_chunk_of_effect (if_pos h)

theorem exec_chunk_invalid (hlive : s.accFatal = false) (h : ¬ s.ChunkOk page ci cc payload.length) :
    exec (.chunk page ci cc payload) s = .next ((chunkAbort s).reply .command (.valued .ok 2)) := by
  apply exec_chunk_of_effect
  rw [chunkEffect, if_neg (by simp [hlive]), if_pos (by rw [chunkValid_eq_decide, decide_eq_false h]; rfl)]

/-- A chunk that passes the checks is copied; the page then waits for more, or is committed. -/
theorem chunkEffect_valid (hlive : s.accFatal = false) (h : s.ChunkOk page ci cc payload.length) :
    chunkEffect page ci cc payload s =
      let s1 := chunkAccept s page ci cc payload
      if s1.acc.bitmap ≠ 0 then (s1.setAcc { s1.acc with status := .none }, .valued .ok 0) else chunkCommit s1 := by
  rw [chunkEffect, if_neg (by simp [hlive]), if_neg (by rw [chunkValid_eq_decide, decide_eq_true h]; decide)]

/-- Writing the accumulator and answering changes nothing but the accumulator. -/
theorem State.setAcc_reply_frame (s : State) (a : Acc) (p : Port) (r : Response) :
    let t := (s.setAcc a).reply p r
    s.Ended p r t ∧ (s.setAcc a).SameFtc t ∧ s.SameEnv t :=
  ⟨((s.setAcc a).reply_ended p r).of_contexts rfl rfl rfl rfl, (s.setAcc a).reply_sameFtc p r,
    (s.setAcc a).reply_sameEnv p r⟩

/-- Settles O49: a stuck accumulator answers before the checks (`exec_chunk_fatal`), a failed check runs ABORT
(`exec_chunk_invalid`), and a chunk of another page fails check c3. -/
theorem fatalAndInvalidChunksWriteNothing : Obligations.FatalAndInvalidChunksWriteNothing := by
  intro s page ci cc payload
  refine ⟨fun hfatal => exec_onlyAnswered (exec_chunk_fatal hfatal),
    fun hlive hbad => ⟨_, exec_chunk_invalid hlive hbad, s.setAcc_reply_frame _ _ _⟩, fun hlive hpending hpage => ?_⟩
  have hbad : ¬ s.ChunkOk page ci cc payload.length := by
    rintro ⟨-, -, hsame | hclean⟩
    · exact hpage hsame
    · exact hpending hclean
  exact ⟨_, exec_chunk_invalid hlive hbad, (s.setAcc_reply_frame _ _ _).1, rfl, rfl⟩

/-! ### The bitmap (45_reassembly.md R344) -/

/-- The bitmap is wide enough for a page (00_scope.md R16). -/
theorem maxChunksPerPage_le {c : Config} (h : c.WF) : c.maxChunksPerPage ≤ 32 := by
  obtain ⟨-, -, -, -, -, -, -, -, ⟨-, hwidth⟩, -⟩ := h
  exact hwidth

theorem getLsbD_allPending {c : Config} (hwidth : c.maxChunksPerPage ≤ 32) (k : Nat) :
    c.allPending.getLsbD k = decide (k < c.maxChunksPerPage) := by
  rw [BitVec.getLsbD_ofNat, Nat.testBit_two_pow_sub_one, Bool.and_eq_right_iff_imp, decide_eq_true_iff,
    decide_eq_true_iff]
  omega

/-- The bitmap after a chunk, bit by bit. -/
theorem getLsbD_bitmapAfter (k : Nat) :
    (bitmapAfter s.cfg s.acc.bitmap ci cc).getLsbD k = s.pendingAfter ci cc k := by
  simp only [bitmapAfter, State.pendingAfter, BitVec.getLsbD_and, BitVec.getLsbD_not, ← BitVec.twoPow_eq,
    BitVec.getLsbD_twoPow, BitVec.getLsbD_ofNat, Nat.testBit_two_pow_sub_one]
  cases hbit : s.acc.bitmap.getLsbD k with
  | false => rfl
  | true =>
    have hk : k < 32 := BitVec.lt_of_getLsbD hbit
    rw [Bool.eq_iff_iff]
    simp [hk]
    omega

/-! ### The commit (45_reassembly.md R346) -/

@[simp] theorem Env.asked_flashLog (e : Env) (r : FlashRequest) : (e.asked r).flashLog = e.flashLog ++ [r] := by
  unfold Env.asked
  split <;> rfl

/-- The environment in which COMMIT asks for the write: before it, exactly for page 0, the erase was asked for. -/
def State.envAtWrite (s : State) : Env :=
  if s.acc.activePage = 0 then s.env.asked (.erase (Config.sectorOf (pageAddress s.cfg s.acc.activePage))) else s.env

/-- The accumulator after a commit. -/
def State.accCommitted (s : State) : Acc :=
  { s.acc with
    status := .writeSuccess
    activePage := BitVec.ofNat 16 ((s.acc.activePage.toNat + 1) % s.cfg.imagePageCount)
    bitmap := s.cfg.allPending }

/-- s after a commit whose requests were answered OK: the page buffer is written, and the next page is due. -/
def State.pageWritten (s : State) : State :=
  (s.setEnv (s.envAtWrite.asked
    (.write (pageAddress s.cfg s.acc.activePage) (s.acc.pageBuf.take s.cfg.pageSize)))).setAcc s.accCommitted

theorem commitWrite_of_answer (addr : BitVec 32) (h : s.env.nextAnswer = true) :
    commitWrite addr s =
      ((s.setEnv (s.env.asked (.write addr (s.acc.pageBuf.take s.cfg.pageSize)))).setAcc s.accCommitted,
        .valued .ok 1) :=
  if_pos h

theorem chunkCommit_of_answers (herase : s.acc.activePage = 0 → s.env.nextAnswer = true)
    (hwrite : s.envAtWrite.nextAnswer = true) :
    chunkCommit s = (s.pageWritten, .valued .ok 1) := by
  unfold State.pageWritten
  unfold State.envAtWrite at hwrite ⊢
  unfold chunkCommit
  split
  next hpage =>
    rw [if_pos hpage] at hwrite
    exact (if_pos (herase hpage)).trans (commitWrite_of_answer _ hwrite)
  next hpage =>
    rw [if_neg hpage] at hwrite
    exact commitWrite_of_answer _ hwrite

/-- The write is the last request of a commit. -/
theorem State.pageWritten_flashLog (s : State) :
    s.pageWritten.env.flashLog.getLast? =
      some (.write (pageAddress s.cfg s.acc.activePage) (s.acc.pageBuf.take s.cfg.pageSize)) := by
  change (Env.asked _ _).flashLog.getLast? = _
  rw [Env.asked_flashLog, List.getLast?_concat]

theorem pageAddress_eq (c : Config) (p : BitVec 16) :
    pageAddress c p = BitVec.ofNat 32 (c.imageFlashBase.toNat + p.toNat * c.pageSize) := by
  rw [pageAddress, BitVec.ofNat_add, BitVec.ofNat_toNat, BitVec.setWidth_eq]

/-! ### Copies into a buffer (45_reassembly.md R343) -/

theorem length_splice {buf xs : List Byte} {off : Nat} (h : off + xs.length ≤ buf.length) :
    (splice buf off xs).length = buf.length := by
  simp [splice]
  omega

/-- A copy just behind what is already in place makes it longer. -/
theorem splice_append (pre buf xs : List Byte) :
    splice (pre ++ buf) pre.length xs = pre ++ xs ++ buf.drop xs.length := by
  rw [splice, List.take_left, List.drop_length_add_append]

/-- A buffer with a copied stretch, byte by byte. -/
theorem getElem?_splice {buf xs : List Byte} {off : Nat} (h : off + xs.length ≤ buf.length) (i : Nat) :
    (splice buf off xs)[i]? = if off ≤ i ∧ i < off + xs.length then xs[i - off]? else buf[i]? := by
  have hlen : (buf.take off).length = off := by simp; omega
  rw [splice, List.append_assoc]
  rcases Nat.lt_or_ge i off with hi | hi
  · rw [List.getElem?_append_left (by omega), List.getElem?_take_of_lt hi, if_neg (by omega)]
  rw [List.getElem?_append_right (by omega), hlen]
  rcases Nat.lt_or_ge i (off + xs.length) with hi' | hi'
  · rw [List.getElem?_append_left (by omega), if_pos ⟨hi, hi'⟩]
  · rw [List.getElem?_append_right (by omega), List.getElem?_drop, if_neg (by omega)]
    congr 1
    omega

/-- Copies to disjoint stretches commute. -/
theorem splice_comm {buf xs ys : List Byte} {i j : Nat} (hij : i + xs.length ≤ j) (hj : j + ys.length ≤ buf.length) :
    splice (splice buf i xs) j ys = splice (splice buf j ys) i xs := by
  have hxs := length_splice (buf := buf) (xs := xs) (off := i) (by omega)
  have hys := length_splice hj
  apply List.ext_getElem?
  intro k
  rw [getElem?_splice (by omega), getElem?_splice (by omega), getElem?_splice (by omega), getElem?_splice hj]
  by_cases hk : i ≤ k ∧ k < i + xs.length
  · rw [if_pos hk, if_pos hk, if_neg (by omega)]
  · rw [if_neg hk, if_neg hk]

/-! ### The chunks of a page -/

/-- The payloads of the n chunks of a page fit it, all but the last are full, and the bitmap has a bit for each
(45_reassembly.md R349; 00_scope.md R16). -/
structure PageChunks (c : Config) (n : Nat) (payload : Nat → List Byte) : Prop where
  width : c.maxChunksPerPage ≤ 32
  count : n ≤ c.maxChunksPerPage
  full : ∀ k, k + 1 < n → (payload k).length = c.maxChunkSize
  last : (payload (n - 1)).length ≤ c.maxChunkSize

/-- The page buffer with chunk k of the page copied into its place. -/
def placeChunk (c : Config) (payload : Nat → List Byte) (buf : List Byte) (k : Nat) : List Byte :=
  splice buf (k * c.maxChunkSize) (payload k)

/-- The command that delivers chunk k of a page of n chunks. -/
def deliver (page : BitVec 16) (n : Nat) (payload : Nat → List Byte) (k : Nat) : Instr :=
  .chunk page (BitVec.ofNat 8 k) (BitVec.ofNat 8 n) (payload k)

section pageChunks

variable {c : Config} {n : Nat} {payload : Nat → List Byte} {buf : List Byte} {k : Nat}

/-- Check c2 of every chunk of the page (45_reassembly.md R341). -/
theorem PageChunks.lengthOk (h : PageChunks c n payload) (hk : k < n) :
    (payload k).length = c.maxChunkSize ∨ (k + 1 = n ∧ (payload k).length ≤ c.maxChunkSize) := by
  rcases Nat.lt_or_ge (k + 1) n with hlt | hge
  · exact .inl (h.full k hlt)
  · obtain rfl : k = n - 1 := by omega
    exact .inr ⟨by omega, h.last⟩

/-- A chunk ends before a later one begins. -/
theorem PageChunks.disjoint (h : PageChunks c n payload) {j : Nat} (hjk : j < k) (hk : k < n) :
    j * c.maxChunkSize + (payload j).length ≤ k * c.maxChunkSize := by
  rw [h.full j (by omega), ← Nat.succ_mul]
  exact Nat.mul_le_mul_right _ hjk

/-- No chunk reaches past the end of the page. -/
theorem PageChunks.fits (h : PageChunks c n payload) (hk : k < n) :
    k * c.maxChunkSize + (payload k).length ≤ c.pageSize := by
  have hlen : (payload k).length ≤ c.maxChunkSize := by
    rcases h.lengthOk hk with heq | ⟨-, hle⟩
    · exact heq.le
    · exact hle
  calc k * c.maxChunkSize + (payload k).length ≤ k * c.maxChunkSize + c.maxChunkSize := Nat.add_le_add_left hlen _
    _ = (k + 1) * c.maxChunkSize := (Nat.succ_mul _ _).symm
    _ ≤ c.maxChunksPerPage * c.maxChunkSize := Nat.mul_le_mul_right _ (by have := h.count; omega)
    _ = c.pageSize := Nat.mul_comm _ _

theorem length_placeChunk (h : PageChunks c n payload) (hbuf : buf.length = c.pageSize) (hk : k < n) :
    (placeChunk c payload buf k).length = c.pageSize :=
  (length_splice (hbuf ▸ h.fits hk)).trans hbuf

theorem placeChunk_comm (h : PageChunks c n payload) (hbuf : buf.length = c.pageSize) {j : Nat} (hj : j < n)
    (hk : k < n) :
    placeChunk c payload (placeChunk c payload buf j) k = placeChunk c payload (placeChunk c payload buf k) j := by
  rcases Nat.lt_trichotomy j k with hlt | rfl | hgt
  · exact splice_comm (h.disjoint hlt hk) (hbuf ▸ h.fits hk)
  · rfl
  · exact (splice_comm (h.disjoint hgt hj) (hbuf ▸ h.fits hj)).symm

/-- The order of arrival does not matter to the page buffer. -/
theorem foldl_placeChunk_perm (h : PageChunks c n payload) {order order' : List Nat} (hperm : order.Perm order')
    (hlt : ∀ k ∈ order, k < n) (hbuf : buf.length = c.pageSize) :
    order.foldl (placeChunk c payload) buf = order'.foldl (placeChunk c payload) buf := by
  induction hperm generalizing buf with
  | nil => rfl
  | cons k _ ih =>
    rw [List.forall_mem_cons] at hlt
    exact ih hlt.2 (length_placeChunk h hbuf hlt.1)
  | swap j k rest =>
    rw [List.forall_mem_cons, List.forall_mem_cons] at hlt
    obtain ⟨hk, hj, -⟩ := hlt
    simp only [List.foldl_cons, placeChunk_comm h hbuf hk hj]
  | trans hperm _ ih ih' => exact (ih hlt hbuf).trans (ih' (fun k hk => hlt k (hperm.mem_iff.2 hk)) hbuf)

/-- The chunks before a chunk of the page are full. -/
theorem length_flatMap_range (h : PageChunks c n payload) (hk : k < n) :
    ((List.range k).flatMap payload).length = k * c.maxChunkSize := by
  induction k with
  | zero => simp
  | succ k ih =>
    rw [List.range_succ, List.flatMap_append, List.length_append, ih (by omega), List.flatMap_singleton,
      h.full k hk, Nat.succ_mul]

/-- A chunk copied behind those before it. -/
theorem placeChunk_append (h : PageChunks c n payload) (hk : k < n) (rest : List Byte) :
    placeChunk c payload ((List.range k).flatMap payload ++ rest) k =
      (List.range (k + 1)).flatMap payload ++ rest.drop (payload k).length := by
  rw [placeChunk, ← length_flatMap_range h hk, splice_append, List.range_succ, List.flatMap_append,
    List.flatMap_singleton]

/-- In index order each chunk is copied just behind those before it. -/
theorem foldl_placeChunk_range (h : PageChunks c n payload) (hk : k < n) :
    (List.range (k + 1)).foldl (placeChunk c payload) buf =
      (List.range (k + 1)).flatMap payload ++ buf.drop (k * c.maxChunkSize + (payload k).length) := by
  induction k with
  | zero => simpa using placeChunk_append h hk buf
  | succ k ih =>
    calc (List.range (k + 1 + 1)).foldl (placeChunk c payload) buf
        = placeChunk c payload ((List.range (k + 1)).foldl (placeChunk c payload) buf) (k + 1) := by
          rw [List.range_succ, List.foldl_append, List.foldl_cons, List.foldl_nil]
      _ = _ := by rw [ih (by omega), placeChunk_append h hk, List.drop_drop, h.full k hk, Nat.succ_mul]

/-- After its last chunk, whatever the order was, the page buffer begins with the payloads in index order
(45_reassembly.md R349). -/
theorem foldl_placeChunk_order (h : PageChunks c n payload) (hn : 1 ≤ n) {order : List Nat}
    (hperm : order.Perm (List.range n)) (hbuf : buf.length = c.pageSize) :
    order.foldl (placeChunk c payload) buf =
      (List.range n).flatMap payload ++ buf.drop ((n - 1) * c.maxChunkSize + (payload (n - 1)).length) := by
  obtain ⟨k, rfl⟩ : ∃ k, n = k + 1 := ⟨n - 1, by omega⟩
  rw [foldl_placeChunk_perm h hperm (fun j hj => List.mem_range.1 (hperm.mem_iff.1 hj)) hbuf]
  exact foldl_placeChunk_range h (Nat.lt_succ_self k)

theorem length_flatMap_chunks (h : PageChunks c n payload) (hn : 1 ≤ n) :
    ((List.range n).flatMap payload).length = (n - 1) * c.maxChunkSize + (payload (n - 1)).length := by
  obtain ⟨k, rfl⟩ : ∃ k, n = k + 1 := ⟨n - 1, by omega⟩
  rw [List.range_succ, List.flatMap_append, List.length_append, length_flatMap_range h (Nat.lt_succ_self k),
    List.flatMap_singleton, Nat.add_sub_cancel]

end pageChunks

/-! ### Delivering the chunks (45_reassembly.md R349) -/

section delivery

variable {n : Nat} {payload : Nat → List Byte} {todo : List Nat} {k : Nat}

/-- The accumulator takes chunks of the page, and of the page's n chunks those in `todo`, each named once, are
pending. -/
structure State.AwaitsChunks (s : State) (page : BitVec 16) (n : Nat) (todo : List Nat) : Prop where
  live : s.accFatal = false
  samePage : page = s.acc.activePage ∨ s.acc.bitmap = s.cfg.allPending
  buffer : s.acc.pageBuf.length = s.cfg.pageSize
  lt : ∀ k ∈ todo, k < n
  nodup : todo.Nodup
  pending : ∀ k < n, s.acc.bitmap.getLsbD k = decide (k ∈ todo)

/-- s with chunk k of the page copied and its bit cleared (45_reassembly.md R343, R344). -/
def State.accepted (s : State) (page : BitVec 16) (n : Nat) (payload : Nat → List Byte) (k : Nat) : State :=
  chunkAccept s page (BitVec.ofNat 8 k) (BitVec.ofNat 8 n) (payload k)

/-- s after chunk k of the page arrived while others are pending. -/
def State.waited (s : State) (page : BitVec 16) (n : Nat) (payload : Nat → List Byte) (k : Nat) : State :=
  ((s.accepted page n payload k).setAcc { (s.accepted page n payload k).acc with status := .none }).reply .command
    (.valued .ok 0)

/-- s after chunk k of the page arrived as the last, and the flash took the page. -/
def State.finished (s : State) (page : BitVec 16) (n : Nat) (payload : Nat → List Byte) (k : Nat) : State :=
  (s.accepted page n payload k).pageWritten.reply .command (.valued .ok 1)

theorem PageChunks.toNat_ofNat {c : Config} (hc : PageChunks c n payload) (hk : k ≤ n) :
    (BitVec.ofNat 8 k).toNat = k := by
  have := hc.count
  have := hc.width
  rw [BitVec.toNat_ofNat]
  omega

theorem State.accepted_pageBuf (page : BitVec 16) (hc : PageChunks s.cfg n payload) (hk : k < n) :
    (s.accepted page n payload k).acc.pageBuf = placeChunk s.cfg payload s.acc.pageBuf k := by
  change splice _ ((BitVec.ofNat 8 k).toNat * _) _ = _
  rw [hc.toNat_ofNat hk.le]
  rfl

namespace State.AwaitsChunks

theorem head_lt (h : s.AwaitsChunks page n (k :: todo)) : k < n := h.lt k List.mem_cons_self

/-- Every chunk of the page passes the checks. -/
theorem chunkOk (h : s.AwaitsChunks page n todo) (hc : PageChunks s.cfg n payload) (hk : k < n) :
    s.ChunkOk page (BitVec.ofNat 8 k) (BitVec.ofNat 8 n) (payload k).length := by
  have := hc.count
  unfold State.ChunkOk
  rw [hc.toNat_ofNat hk.le, hc.toNat_ofNat le_rfl]
  exact ⟨by omega, hc.lengthOk hk, h.samePage⟩

/-- An accepted chunk is pending no more, and nothing past the page's chunks is. -/
theorem accepted_bitmap (h : s.AwaitsChunks page n (k :: todo)) (hc : PageChunks s.cfg n payload) (j : Nat) :
    (s.accepted page n payload k).acc.bitmap.getLsbD j = decide (j ∈ todo) := by
  have hnew : k ∉ todo := (List.nodup_cons.1 h.nodup).1
  refine (getLsbD_bitmapAfter j).trans ?_
  unfold State.pendingAfter
  rw [hc.toNat_ofNat h.head_lt.le, hc.toNat_ofNat le_rfl]
  by_cases hj : j < n
  · have hmax : j < s.cfg.maxChunksPerPage := hj.trans_le hc.count
    rw [h.pending j hj, Bool.eq_iff_iff]
    simp only [Bool.and_eq_true, decide_eq_true_eq, List.mem_cons, hj, hmax, and_true]
    exact ⟨fun ⟨hmem, hne⟩ => hmem.resolve_left hne, fun hmem => ⟨.inr hmem, fun e => hnew (e ▸ hmem)⟩⟩
  · have hout : j ∉ todo := fun hmem => hj (h.lt j (List.mem_cons_of_mem _ hmem))
    simp [hj, hout]

/-- The bitmap is empty once no chunk is left. -/
theorem accepted_bitmap_eq_zero_iff (h : s.AwaitsChunks page n (k :: todo)) (hc : PageChunks s.cfg n payload) :
    (s.accepted page n payload k).acc.bitmap = 0 ↔ todo = [] := by
  have hbit := h.accepted_bitmap hc
  constructor
  · intro hzero
    rw [List.eq_nil_iff_forall_not_mem]
    intro j hj
    simpa [hzero, hj] using hbit j
  · rintro rfl
    exact BitVec.eq_of_getLsbD_eq fun j _ => by simpa using hbit j

/-- A chunk that is not the last to arrive is answered NONE. -/
theorem exec_deliver (h : s.AwaitsChunks page n (k :: todo)) (hc : PageChunks s.cfg n payload) (hmore : todo ≠ []) :
    exec (deliver page n payload k) s = .next (s.waited page n payload k) := by
  apply exec_chunk_of_effect
  rw [chunkEffect_valid h.live (h.chunkOk hc h.head_lt)]
  exact if_pos (mt (h.accepted_bitmap_eq_zero_iff hc).1 hmore)

/-- After such a chunk the accumulator awaits the others. -/
theorem waited (h : s.AwaitsChunks page n (k :: todo)) (hc : PageChunks s.cfg n payload) :
    (s.waited page n payload k).AwaitsChunks page n todo where
  live := h.live
  samePage := .inl rfl
  buffer := by
    change (s.accepted page n payload k).acc.pageBuf.length = _
    rw [State.accepted_pageBuf page hc h.head_lt]
    exact length_placeChunk hc h.buffer h.head_lt
  lt j hj := h.lt j (List.mem_cons_of_mem _ hj)
  nodup := (List.nodup_cons.1 h.nodup).2
  pending j _ := h.accepted_bitmap hc j

/-- The last chunk to arrive commits the page; the erase and the write use up two answers at most. -/
theorem exec_deliver_last (h : s.AwaitsChunks page n [k]) (hc : PageChunks s.cfg n payload) {rest : List Bool}
    (hflash : s.env.flashAnswers = true :: true :: rest) :
    exec (deliver page n payload k) s = .next (s.finished page n payload k) := by
  have herase : (s.accepted page n payload k).env.nextAnswer = true := by
    change s.env.nextAnswer = true
    rw [Env.nextAnswer, hflash]
  have hwrite : (s.accepted page n payload k).envAtWrite.nextAnswer = true := by
    unfold State.envAtWrite
    split
    · change (s.env.asked _).nextAnswer = true
      rw [Env.asked, Env.nextAnswer, hflash]
    · exact herase
  apply exec_chunk_of_effect
  rw [chunkEffect_valid h.live (h.chunkOk hc h.head_lt)]
  exact (if_neg (not_not_intro ((h.accepted_bitmap_eq_zero_iff hc).2 rfl))).trans
    (chunkCommit_of_answers (fun _ => herase) hwrite)

end State.AwaitsChunks

/-- From s to t the chunks in `todo` arrived and made the page: the answers, the last flash request and the page
buffer. -/
structure State.PageMade (s : State) (page : BitVec 16) (payload : Nat → List Byte) (todo : List Nat) (t : State) :
    Prop where
  answers : (t.ctx s.running).responses =
    (s.ctx s.running).responses ++ List.replicate (todo.length - 1) (.valued .ok 0) ++ [.valued .ok 1]
  written : t.env.flashLog.getLast? = some (.write (pageAddress s.cfg page) t.acc.pageBuf)
  buffer : t.acc.pageBuf = todo.foldl (placeChunk s.cfg payload) s.acc.pageBuf

theorem State.reply_command_responses (s : State) (r : Response) :
    ((s.reply .command r).ctx s.running).responses = (s.ctx s.running).responses ++ [r] := by
  rw [State.reply_command_ctx, if_pos rfl]

theorem State.AwaitsChunks.pageMade_finished (h : s.AwaitsChunks page n [k]) (hc : PageChunks s.cfg n payload) :
    s.PageMade page payload [k] (s.finished page n payload k) where
  answers := by
    rw [List.length_singleton, List.replicate_zero, List.append_nil]
    exact (s.accepted page n payload k).pageWritten.reply_command_responses (.valued .ok 1)
  written := by
    have hlen : (s.accepted page n payload k).acc.pageBuf.length = (s.accepted page n payload k).cfg.pageSize :=
      (h.waited hc).buffer
    refine (State.pageWritten_flashLog _).trans ?_
    rw [List.take_of_length_le hlen.le]
    rfl
  buffer := State.accepted_pageBuf page hc h.head_lt

/-- A delivery that makes the page after its first chunk makes it with that chunk in front. -/
theorem State.PageMade.cons {t : State} (h : (s.waited page n payload k).PageMade page payload todo t)
    (hc : PageChunks s.cfg n payload) (hk : k < n) (hmore : todo ≠ []) : s.PageMade page payload (k :: todo) t where
  answers := by
    have hfirst : ((s.waited page n payload k).ctx s.running).responses =
        (s.ctx s.running).responses ++ [.valued .ok 0] :=
      ((s.accepted page n payload k).setAcc _).reply_command_responses (.valued .ok 0)
    have hrest := h.answers
    rw [show (s.waited page n payload k).running = s.running from State.reply_command_running _ _, hfirst] at hrest
    obtain ⟨m, hm⟩ : ∃ m, todo.length = m + 1 := Nat.exists_eq_succ_of_ne_zero (mt List.length_eq_zero_iff.1 hmore)
    simpa [hm, List.replicate_succ] using hrest
  written := h.written
  buffer := by
    rw [List.foldl_cons, ← State.accepted_pageBuf page hc hk]
    exact h.buffer

/-- The pending chunks, delivered in any order, make the page. -/
theorem State.AwaitsChunks.execAll_deliver (h : s.AwaitsChunks page n todo) (hc : PageChunks s.cfg n payload)
    (hne : todo ≠ []) {rest : List Bool} (hflash : s.env.flashAnswers = true :: true :: rest) :
    ∃ t, execAll (todo.map (deliver page n payload)) s = .next t ∧ s.PageMade page payload todo t := by
  induction todo generalizing s with
  | nil => exact absurd rfl hne
  | cons k todo ih =>
    rw [List.map_cons, execAll]
    by_cases hmore : todo = []
    · subst hmore
      rw [h.exec_deliver_last hc hflash]
      exact ⟨_, rfl, h.pageMade_finished hc⟩
    · obtain ⟨t, hrun, hmade⟩ := ih (h.waited hc) hc hmore hflash
      rw [h.exec_deliver hc hmore]
      exact ⟨t, hrun, hmade.cons hc h.head_lt hmore⟩

end delivery

/-- A clean boundary awaits all the chunks of any page (10_state.md R48). -/
theorem State.awaitsChunks_of_clean {n : Nat} {order : List Nat} (hinv : Inv s) (hlive : s.accFatal = false)
    (hclean : s.acc.bitmap = s.cfg.allPending) (hcount : n ≤ s.cfg.maxChunksPerPage)
    (hperm : order.Perm (List.range n)) : s.AwaitsChunks page n order := by
  obtain ⟨hbuf, -⟩ := hinv.acc
  refine ⟨hlive, .inr hclean, hbuf, fun k hk => List.mem_range.1 (hperm.mem_iff.1 hk),
    hperm.nodup_iff.2 List.nodup_range, fun k hk => ?_⟩
  rw [hclean, getLsbD_allPending (maxChunksPerPage_le hinv.config), decide_eq_true (hk.trans_le hcount),
    decide_eq_true (hperm.mem_iff.2 (List.mem_range.2 hk))]

/-- Settles O52: by induction on the order of arrival every chunk but the last is answered NONE and the last commits the
page (`State.AwaitsChunks.execAll_deliver`), and because the copies commute, the page buffer is the one that index order
makes (`foldl_placeChunk_order`). -/
theorem chunksInAnyOrderMakeThePage : Obligations.ChunksInAnyOrderMakeThePage := by
  rintro s page n payload order hinv hlive hclean hn hcount hperm hfull hlast ⟨rest, hflash⟩
  have hc : PageChunks s.cfg n payload := ⟨maxChunksPerPage_le hinv.config, hcount, hfull, hlast⟩
  have hawaits : s.AwaitsChunks page n order := State.awaitsChunks_of_clean hinv hlive hclean hcount hperm
  have hlen : order.length = n := by rw [hperm.length_eq, List.length_range]
  have hne : order ≠ [] := List.ne_nil_of_length_pos (by omega)
  obtain ⟨t, hrun, hanswers, hwritten, hbuffer⟩ := hawaits.execAll_deliver hc hne hflash
  rw [foldl_placeChunk_order hc hn hperm hawaits.buffer] at hbuffer
  have hpre := length_flatMap_chunks hc hn
  refine ⟨t, hrun, hlen ▸ hanswers, pageAddress_eq s.cfg page ▸ hwritten, ?_, ?_⟩
  · rw [hbuffer, List.take_left' hpre]
  · rw [hbuffer, List.drop_left' hpre]

end Sys2Proof.Machine
end

section
/-! PROOFS. The system command REG_READ: which indices the map holds, and what each kind of index is answered
(46_system.md R370). -/

namespace Sys2Proof.Machine

/-! ### The index map (10_state.md R54) -/

/-- The indices that R54 gives a register: all but the reserved ones of the system's block, and the first five of each
queue's eight. -/
abbrev IsMappedIndex (n : Nat) : Prop :=
  n ≤ 0x0A ∨ n = 0x0C ∨ (0x10 ≤ n ∧ n ≤ 0x12) ∨ (0x20 ≤ n ∧ n < 0x40 ∧ n % 8 ≤ 4)

theorem systemIndex_mem_regMap : ∀ n < 0x13, IsMappedIndex n → BitVec.ofNat 8 n ∈ regMap.map Prod.fst := by decide

/-- Register j of queue q stands at 0x20 + 8q + j. -/
theorem queueIndex_mem_regMap :
    ∀ q < nq, ∀ j < 5, BitVec.ofNat 8 (0x20 + 8 * q + j) ∈ regMap.map Prod.fst := by decide

theorem mem_regMap_iff (reg : BitVec 8) : reg ∈ regMap.map Prod.fst ↔ IsMappedIndex reg.toNat := by
  have listed : ∀ k ∈ regMap.map Prod.fst, IsMappedIndex k.toNat := by decide
  refine ⟨listed reg, fun h => ?_⟩
  have hself : BitVec.ofNat 8 reg.toNat = reg := by simp
  rw [← hself]
  by_cases hsys : reg.toNat < 0x13
  · exact systemIndex_mem_regMap _ hsys h
  · have hrow : reg.toNat = 0x20 + 8 * ((reg.toNat - 0x20) / 8) + reg.toNat % 8 := by omega
    rw [hrow]
    exact queueIndex_mem_regMap _ (by unfold nq; omega) _ (by omega)

theorem Reg.isSome_ofIndex_iff (reg : BitVec 8) : (Reg.ofIndex reg).isSome ↔ IsMappedIndex reg.toNat := by
  rw [← mem_regMap_iff]
  simp [Reg.ofIndex, List.lookup_isSome_iff]

/-! ### REG_READ (46_system.md R370) -/

variable {s : State} {reg : BitVec 8}

theorem exec_regRead_of_some {r : Reg} (h : Reg.ofIndex reg = some r) :
    exec (.regRead reg) s = .next (s.reply .command ⟨.ok, 0, bytesOfWord (s.regValue r)⟩) := by
  change execRegRead reg s = _
  rw [execRegRead, h]

theorem exec_regRead_of_none (h : Reg.ofIndex reg = none) :
    exec (.regRead reg) s = .next (s.reply .command (.valued .badArg (0#16 ++ reg))) := by
  change execRegRead reg s = _
  rw [execRegRead, h]

/-- The VALUE of the refusal holds the index as a number. -/
theorem toNat_zero_append_index (x : BitVec 8) : (0#16 ++ x).toNat = x.toNat := by
  rw [BitVec.toNat_append]
  simp

/-- Settles O54: the map has a register for exactly the indices of R54 (`Reg.isSome_ofIndex_iff`), and each of the two
outcomes of the lookup is one answer that changes nothing else. -/
theorem regReadAnswersTheMappedIndices : Obligations.RegReadAnswersTheMappedIndices := by
  refine fun s reg => ⟨encodedAs_of_opcode (o := .regRead) rfl (by decide), fun hmapped => ?_, fun hunmapped => ?_⟩
  · obtain ⟨r, hr⟩ := Option.isSome_iff_exists.1 ((Reg.isSome_ofIndex_iff reg).2 hmapped)
    exact ⟨_, r, exec_regRead_of_some hr, hr, s.reply_onlyAnswered _ _⟩
  · have hr : Reg.ofIndex reg = none :=
      Option.not_isSome_iff_eq_none.1 (mt (Reg.isSome_ofIndex_iff reg).1 hunmapped)
    exact ⟨_, _, exec_regRead_of_none hr, s.reply_onlyAnswered _ _, toNat_zero_append_index reg⟩

end Sys2Proof.Machine
end

section
/-! PROOFS. Decoding and encoding: a command is written in one way and read back from it, and which words are illegal
(30_encoding.md R110 to R134). -/

namespace Sys2Proof.Machine

/-! ### Words and their bytes (20_memory.md R84) -/

theorem wordOfBytes_bytes (w : Word) :
    wordOfBytes (w.extractLsb' 0 8) (w.extractLsb' 8 8) (w.extractLsb' 16 8) (w.extractLsb' 24 8) = w := by
  unfold wordOfBytes
  rw [BitVec.extractLsb'_append_extractLsb'_eq_extractLsb' (show 24 = 16 + 8 from rfl),
    BitVec.extractLsb'_append_extractLsb'_eq_extractLsb' (show 16 = 8 + 8 from rfl),
    BitVec.extractLsb'_append_extractLsb'_eq_extractLsb' (show 8 = 0 + 8 from rfl)]
  exact BitVec.extractLsb'_eq_self

theorem bytesOfWord_wordOfBytes (b0 b1 b2 b3 : Byte) : bytesOfWord (wordOfBytes b0 b1 b2 b3) = [b0, b1, b2, b3] := by
  simp (disch := omega) only [bytesOfWord, wordOfBytes, BitVec.extractLsb'_append_eq_of_add_le,
    BitVec.extractLsb'_append_eq_of_le]
  simp only [Nat.reduceSub, BitVec.extractLsb'_eq_self]

theorem length_flatMap_bytesOfWord (ws : List Word) : (ws.flatMap bytesOfWord).length = 4 * ws.length := by
  induction ws with
  | nil => rfl
  | cons w ws ih => rw [List.flatMap_cons, List.length_append, ih, List.length_cons]; simp [bytesOfWord]; omega

theorem takeWords_flatMap_append (ws : List Word) (rest : List Byte) :
    takeWords ws.length (ws.flatMap bytesOfWord ++ rest) = ws := by
  induction ws with
  | nil => simp [takeWords]
  | cons w ws ih =>
    show wordOfBytes _ _ _ _ :: takeWords ws.length (ws.flatMap bytesOfWord ++ rest) = _
    rw [ih, wordOfBytes_bytes]

/-- A stream that is long enough gives as many words as are asked for, and their bytes are its front. -/
theorem takeWords_spec : ∀ {n : Nat} {bytes : List Byte}, 4 * n ≤ bytes.length →
    (takeWords n bytes).length = n ∧ (takeWords n bytes).flatMap bytesOfWord = bytes.take (4 * n)
  | 0, bytes, _ => by simp [takeWords]
  | n + 1, b0 :: b1 :: b2 :: b3 :: rest, h => by
    obtain ⟨hlen, hbytes⟩ := takeWords_spec (n := n) (bytes := rest) (by simp only [List.length_cons] at h; omega)
    refine ⟨congrArg (· + 1) hlen, ?_⟩
    rw [takeWords, List.flatMap_cons, hbytes, bytesOfWord_wordOfBytes]
    rfl
  | n + 1, [], h | n + 1, [_], h | n + 1, [_, _], h | n + 1, [_, _, _], h => by
    simp only [List.length_cons, List.length_nil] at h; omega

/-! ### Opcodes and the queue field -/

@[simp] theorem Opcode.ofCode_code (o : Opcode) : Opcode.ofCode o.code = some o := by cases o <;> rfl

theorem Opcode.code_of_ofCode {code : BitVec 6} {o : Opcode} (h : Opcode.ofCode code = some o) : o.code = code :=
  beq_iff_eq.1 (List.find?_some h :)

@[simp] theorem QId.ofCode_code (q : QId) : QId.ofCode q.code = q := by cases q <;> rfl

@[simp] theorem QId.code_ofCode (v : BitVec 2) : (QId.ofCode v).code = v := by revert v; decide

@[simp] theorem Opcode.opcode_build (o : Opcode) (w w1 w2 : Word) (data : List Byte) :
    (o.build w w1 w2 data).opcode = o := by cases o <;> rfl

/-! ### Encoding what was decoded -/

/-- The bits of word0 that the mask of a format names are those of the match word, field by field. -/
theorem field_of_masked {w mask v : Word} (h : w &&& mask = v) {low width : Nat}
    (hm : field mask low width = BitVec.allOnes width) : field w low width = field v low width := by
  rw [← h, field, field, BitVec.extractLsb'_and, ← field, ← field, hm, BitVec.and_allOnes]

theorem field_append_field (w : Word) {low width low' high : Nat} (h : low' = low + width) :
    field w low' high ++ field w low width = field w low (high + width) :=
  BitVec.extractLsb'_append_extractLsb'_eq_extractLsb' h

theorem field_zero_self (w : Word) : field w 0 32 = w := BitVec.extractLsb'_eq_self

theorem ofNat_length_of_field {w : Word} {low width : Nat} {data : List Byte}
    (h : data.length = (field w low width).toNat) : BitVec.ofNat width data.length = field w low width := by
  rw [h, BitVec.ofNat_toNat, BitVec.setWidth_eq]

theorem ofBool_bit (v : BitVec 1) : BitVec.ofBool (v == 1) = v := by revert v; decide

/-- Below the opcode, the fields that a format names and its reserved bits, which are 0, are all there is in word0. -/
theorem Opcode.lowFields_build {c : Config} {o : Opcode} {w w1 w2 : Word} {data : List Byte}
    (h : w &&& o.format.mask = o.matchWord) (hdata : data.length = o.dataLen c w) :
    (o.build w w1 w2 data).lowFields = field w 0 26 := by
  have reserved : ∀ {low width : Nat}, field o.format.mask low width = BitVec.allOnes width →
      field w low width = field o.matchWord low width := field_of_masked h
  have noFields : o.format = .fz → field w 0 26 = 0 := fun hz =>
    (reserved (by rw [hz]; rfl)).trans (by cases o <;> rfl)
  cases o
  case qinit =>
    simp only [Opcode.build, Instr.lowFields, QId.code_ofCode, ofBool_bit]
    rw [← show field w 21 3 = 0#3 from reserved rfl, ← show field w 0 16 = 0#16 from reserved rfl]
    simp (disch := omega) only [field_append_field]
  case enq =>
    simp only [Opcode.build, Instr.lowFields, QId.code_ofCode]
    rw [← show field w 16 8 = 0#8 from reserved rfl, ofNat_length_of_field hdata]
    simp (disch := omega) only [field_append_field]
  case deq | qcount | qfree =>
    simp only [Opcode.build, Instr.lowFields, QId.code_ofCode]
    rw [← show field w 0 24 = 0#24 from reserved rfl]
    simp (disch := omega) only [field_append_field]
  case crcCompute | crcVerify =>
    simp only [Opcode.build, Instr.lowFields]
    rw [← show field w 16 10 = 0#10 from reserved rfl, ofNat_length_of_field hdata]
    simp (disch := omega) only [field_append_field]
  case crcAppend | send =>
    simp only [Opcode.build, Instr.lowFields]
    rw [← show field w 8 18 = 0#18 from reserved rfl, ofNat_length_of_field hdata]
    simp (disch := omega) only [field_append_field]
  case linkInit =>
    simp only [Opcode.build, Instr.lowFields]
    rw [← show field w 2 24 = 0#24 from reserved rfl]
    simp (disch := omega) only [field_append_field]
  case chunk =>
    simp only [Opcode.build, Instr.lowFields]
    rw [← show field w 24 2 = 0#2 from reserved rfl, ofNat_length_of_field hdata]
    simp (disch := omega) only [field_append_field]
  case regRead | evUartRx =>
    simp only [Opcode.build, Instr.lowFields]
    rw [← show field w 8 18 = 0#18 from reserved rfl]
    simp (disch := omega) only [field_append_field]
  case evUartErr =>
    simp only [Opcode.build, Instr.lowFields]
    rw [← show field w 3 23 = 0#23 from reserved rfl]
    simp (disch := omega) only [field_append_field]
  case recv | kick | evUartTxDone | evSpiDone | evCtsEdge | evMwEdge => exact (noFields rfl).symm

theorem Opcode.word0_build {c : Config} {o : Opcode} {w w1 w2 : Word} {data : List Byte}
    (h : w &&& o.format.mask = o.matchWord) (hop : opField w = o.code) (hdata : data.length = o.dataLen c w) :
    (o.build w w1 w2 data).word0 = w := by
  rw [Instr.word0, Opcode.opcode_build, Opcode.lowFields_build h hdata, ← hop]
  exact (field_append_field w (low := 0) (width := 26) rfl).trans (field_zero_self w)

/-- The extension words hold what the format names and nothing else. -/
theorem Opcode.extWords_build {o : Opcode} {w : Word} {ext : List Word} {data : List Byte}
    (hlen : ext.length = o.extCount)
    (h : ∀ k < o.extCount, ext.getD k 0 &&& o.format.extMasks.getD k 0 = 0) :
    (o.build w (ext.getD 0 0) (ext.getD 1 0) data).extWords = ext := by
  have upper : ∀ {v : Word}, v &&& 0xFFFF0000 = 0 → 0#16 ++ field v 0 16 = v := fun {v} hv => by
    rw [← show field v 16 16 = 0#16 from field_of_masked hv rfl]
    exact (field_append_field v rfl).trans (field_zero_self v)
  cases o
  case qinit =>
    obtain ⟨w1, w2, rfl⟩ := List.length_eq_two.1 hlen
    have h1 : field w1 16 16 ++ field w1 0 16 = w1 := (field_append_field w1 rfl).trans (field_zero_self w1)
    have h2 : 0#16 ++ field w2 0 16 = w2 := upper (h 1 (by decide))
    exact congrArg₂ (fun x y => [x, y]) h1 h2
  case chunk =>
    obtain ⟨w1, rfl⟩ := List.length_eq_one_iff.1 hlen
    exact congrArg ([·]) (upper (h 0 (by decide)))
  all_goals exact (List.length_eq_zero_iff.1 hlen).symm

theorem Opcode.data_build {c : Config} {o : Opcode} {w w1 w2 : Word} {data : List Byte}
    (h : data.length = o.dataLen c w) : (o.build w w1 w2 data).data = data := by
  cases o
  case enq | crcCompute | crcAppend | crcVerify | send | chunk | evSpiDone => rfl
  all_goals exact (List.length_eq_zero_iff.1 h).symm

theorem Opcode.wellFormed_build {c : Config} {o : Opcode} {w w1 w2 : Word} {data : List Byte}
    (h : data.length = o.dataLen c w) : (o.build w w1 w2 data).wellFormed c = true := by
  cases o
  case enq | crcCompute | crcVerify | crcAppend | send | chunk =>
    exact decide_eq_true (h.trans_lt (BitVec.isLt _))
  case evSpiDone => exact decide_eq_true h
  all_goals rfl

/-- A format reserves bits in as many extension words as its opcodes have. -/
theorem Opcode.length_extMasks (o : Opcode) : o.format.extMasks.length = o.extCount := by cases o <;> rfl

/-- The test of the reserved bits, word by word (30_encoding.md R129(c), R130). -/
theorem reservedClear_iff {o : Opcode} {w : Word} {ext : List Word} (hlen : ext.length = o.extCount) :
    reservedClear o w ext = true ↔
      w &&& o.format.mask = o.matchWord ∧ ∀ k < o.extCount, ext.getD k 0 &&& o.format.extMasks.getD k 0 = 0 := by
  rw [reservedClear, Bool.and_eq_true, beq_iff_eq]
  refine and_congr_right fun _ => ?_
  cases o
  case qinit =>
    obtain ⟨w1, w2, rfl⟩ := List.length_eq_two.1 hlen
    simp [Opcode.format, Format.extMasks, Opcode.extCount, Nat.le_one_iff_eq_zero_or_eq_one]
  case chunk =>
    obtain ⟨w1, rfl⟩ := List.length_eq_one_iff.1 hlen
    simp [Opcode.format, Format.extMasks, Opcode.extCount]
  all_goals simp [Opcode.format, Format.extMasks, Opcode.extCount]

/-! ### What is on a port's stream -/

/-- Where a command is decoded, a whole one of the port's own opcode stands, with its reserved bits 0. -/
theorem decode_command_inv {c : Config} {p : Port} {bytes : List Byte} {i : Instr} {rest : List Byte}
    (h : decode c p bytes = .command i rest) :
    ∃ b0 b1 b2 b3 tail o, bytes = b0 :: b1 :: b2 :: b3 :: tail ∧
      Opcode.ofCode (opField (wordOfBytes b0 b1 b2 b3)) = some o ∧ o.port = p ∧
      4 * o.extCount + o.dataLen c (wordOfBytes b0 b1 b2 b3) ≤ tail.length ∧
      reservedClear o (wordOfBytes b0 b1 b2 b3) (takeWords o.extCount tail) = true := by
  unfold decode at h
  split at h
  next b0 b1 b2 b3 tail =>
    simp only at h
    split at h
    · simp at h
    next o hop =>
      split at h
      · simp at h
      next hp =>
        split at h
        · simp at h
        next hlen =>
          split at h
          next hclear => exact ⟨b0, b1, b2, b3, tail, o, rfl, hop, by simpa using hp, not_lt.1 hlen, hclear⟩
          · simp at h
  · simp at h

theorem length_take_drop {α : Type} {xs : List α} {m n : Nat} (h : m + n ≤ xs.length) :
    ((xs.drop m).take n).length = n := by
  rw [List.length_take, List.length_drop]; omega

/-- Settles O2: the fields that the decoder reads, put back in their places with 0 in the reserved ones, are word0 and the
extension words (`Opcode.word0_build`, `Opcode.extWords_build`), and the rest of what it took is the data phase. -/
theorem encodeOfDecodeIsTheBytes : Obligations.EncodeOfDecodeIsTheBytes := by
  intro c p bytes i rest h
  obtain ⟨b0, b1, b2, b3, tail, o, rfl, hop, rfl, hlen, hclear⟩ := decode_command_inv h
  obtain ⟨hext, hextBytes⟩ := takeWords_spec (n := o.extCount) (bytes := tail) (by omega)
  obtain ⟨hmask, hextMask⟩ := (reservedClear_iff hext).1 hclear
  have hdata := length_take_drop hlen
  rw [decode_of_reservedClear hop hlen hclear] at h
  injection h with hi hrest
  refine ⟨?_, hi ▸ Opcode.wellFormed_build hdata, hi ▸ Opcode.build_port ..⟩
  rw [← hi, ← hrest, encode, encodeWords, Opcode.word0_build hmask (Opcode.code_of_ofCode hop).symm hdata,
    Opcode.extWords_build hext hextMask, Opcode.data_build hdata, List.flatMap_cons, bytesOfWord_wordOfBytes, hextBytes,
    List.append_assoc, List.append_assoc, List.take_append_drop, List.take_append_drop]
  rfl

/-! ### Decoding what was encoded -/

/-- The decoder reads each named field back out of the place it was written to. -/
theorem Instr.build_fields {c : Config} (i : Instr) (h : i.wellFormed c = true) :
    i.opcode.build i.word0 (i.extWords.getD 0 0) (i.extWords.getD 1 0) i.data = i := by
  cases i <;>
    simp (disch := omega) only [Opcode.build, Instr.word0, Instr.extWords, Instr.lowFields, Instr.opcode, Instr.data, field,
      List.getD_cons_zero, List.getD_cons_succ, BitVec.extractLsb'_append_eq_of_add_le,
      BitVec.extractLsb'_append_eq_of_le, Nat.reduceSub, BitVec.extractLsb'_eq_self, QId.ofCode_code]
  case qinit q sp ceil itemSize cap base => cases sp <;> rfl

/-- What the words of a command hold for the decoder, for every command (`Laws.Words.Statement`). -/
theorem Instr.words_statement (i : Instr) : Laws.Words.Statement i := by
  cases i
  case qinit => exact Laws.Words.qinit _ _ _ _ _ _
  case enq => exact Laws.Words.enq _ _
  case deq => exact Laws.Words.deq _
  case qcount => exact Laws.Words.qcount _
  case qfree => exact Laws.Words.qfree _
  case crcCompute => exact Laws.Words.crcCompute _
  case crcAppend => exact Laws.Words.crcAppend _
  case crcVerify => exact Laws.Words.crcVerify _
  case linkInit => exact Laws.Words.linkInit _
  case send => exact Laws.Words.send _
  case recv => exact Laws.Words.recv
  case kick => exact Laws.Words.kick
  case chunk => exact Laws.Words.chunk _ _ _ _
  case regRead => exact Laws.Words.regRead _
  case evUartRx => exact Laws.Words.evUartRx _
  case evUartErr => exact Laws.Words.evUartErr _
  case evUartTxDone => exact Laws.Words.evUartTxDone
  case evSpiDone => exact Laws.Words.evSpiDone _
  case evCtsEdge => exact Laws.Words.evCtsEdge
  case evMwEdge => exact Laws.Words.evMwEdge

/-- Settles O1: the words carry the opcode, no reserved bit and the length of the data phase (`Instr.words_statement`), so
the decoder takes the words and the data phase off and reads the fields back (`Instr.build_fields`). -/
theorem decodeOfEncodeIsTheCommand : Obligations.DecodeOfEncodeIsTheCommand := by
  intro c i rest hwf
  obtain ⟨hop, hclear, hlen, hext, hport⟩ := Instr.words_statement i c hwf
  have hwords : takeWords i.opcode.extCount (i.extWords.flatMap bytesOfWord ++ (i.data ++ rest)) = i.extWords := by
    rw [← hext, takeWords_flatMap_append]
  have hdrop : (i.extWords.flatMap bytesOfWord ++ (i.data ++ rest)).drop (4 * i.opcode.extCount) = i.data ++ rest := by
    rw [← hext, ← length_flatMap_bytesOfWord, List.drop_left]
  have hword := wordOfBytes_bytes i.word0
  have hread := decode_of_reservedClear (c := c) (o := i.opcode) (rest := i.extWords.flatMap bytesOfWord ++ (i.data ++ rest))
    (by rw [hword, hop, Opcode.ofCode_code])
    (by rw [hword, hlen, List.length_append, length_flatMap_bytesOfWord, hext, List.length_append]; omega)
    (by rw [hword, hwords]; exact hclear)
  simp only [hword, hwords, hdrop, hlen, List.take_left, List.drop_left, Instr.build_fields i hwf, hport] at hread
  rw [← hread, encode, encodeWords, List.flatMap_cons, List.append_assoc, List.append_assoc]
  rfl

/-! ### Illegal commands (30_encoding.md R129, R134) -/

/-- The codes that the table assigns to no command (30_encoding.md R127). -/
theorem Opcode.ofCode_eq_none_iff : ∀ code : BitVec 6, Opcode.ofCode code = none ↔
    code.toNat ∈ [0x00, 0x06, 0x07, 0x0B, 0x0C, 0x0D, 0x0E, 0x0F, 0x14, 0x15, 0x16, 0x17, 0x19, 0x1A, 0x1B, 0x1C,
      0x1D, 0x1E, 0x1F, 0x21, 0x22, 0x23, 0x24, 0x25, 0x26, 0x27, 0x28, 0x29, 0x2A, 0x2B, 0x2C, 0x2D, 0x2E, 0x2F,
      0x33, 0x37, 0x38, 0x39, 0x3A, 0x3B, 0x3C, 0x3D, 0x3E, 0x3F] := by decide

section illegal

variable {c : Config} {b0 b1 b2 b3 : Byte} {rest : List Byte}

theorem decode_unassigned {p : Port} (h : Opcode.ofCode (opField (wordOfBytes b0 b1 b2 b3)) = none) :
    decode c p (b0 :: b1 :: b2 :: b3 :: rest) = .illegal .unassignedOpcode (wordOfBytes b0 b1 b2 b3) rest := by
  simp only [decode, h]

theorem decode_wrongPort {p : Port} {o : Opcode} (h : Opcode.ofCode (opField (wordOfBytes b0 b1 b2 b3)) = some o)
    (hp : o.port ≠ p) :
    decode c p (b0 :: b1 :: b2 :: b3 :: rest) = .illegal .wrongPort (wordOfBytes b0 b1 b2 b3) rest := by
  simp only [decode, h, ne_eq, hp, not_false_eq_true, if_true]

theorem decode_reservedBit {o : Opcode} (hop : Opcode.ofCode (opField (wordOfBytes b0 b1 b2 b3)) = some o)
    (hlen : 4 * o.extCount + o.dataLen c (wordOfBytes b0 b1 b2 b3) ≤ rest.length)
    (h : ¬ reservedClear o (wordOfBytes b0 b1 b2 b3) (takeWords o.extCount rest) = true) :
    decode c o.port (b0 :: b1 :: b2 :: b3 :: rest) =
      .illegal .reservedBit (wordOfBytes b0 b1 b2 b3)
        (rest.drop (4 * o.extCount + o.dataLen c (wordOfBytes b0 b1 b2 b3))) := by
  simp only [decode, hop, ne_eq, not_true_eq_false, if_false, not_lt.2 hlen, h, Bool.false_eq_true, List.drop_drop]

end illegal

/-- Settles O4: each of the cases (a), (b) and (c) of R129 is one branch of the decoder (`decode_unassigned`,
`decode_wrongPort`, `decode_reservedBit`), and where none of them holds the word is read as its command. -/
theorem illegalExactlyInTheThreeCases : Obligations.IllegalExactlyInTheThreeCases := by
  intro c p b0 b1 b2 b3 rest w stream
  refine ⟨Opcode.ofCode_eq_none_iff, decode_unassigned, fun o hop => ⟨decode_wrongPort hop, ?_⟩⟩
  rintro rfl hlen ext after
  have hext : ext.length = o.extCount := (takeWords_spec (by omega)).1
  refine ⟨hext, Opcode.length_extMasks o, fun hbit => decode_reservedBit hop hlen fun hclear => ?_, fun hmask hclear => ?_⟩
  · obtain ⟨hmask, hclear⟩ := (reservedClear_iff hext).1 hclear
    rcases hbit with hbit | ⟨k, hk, hbit⟩
    · exact hbit hmask
    · exact hbit (hclear k hk)
  · have hread := decode_of_reservedClear hop hlen ((reservedClear_iff hext).2 ⟨hmask, hclear⟩)
    exact ⟨_, hread.trans (by rw [List.drop_drop]), Opcode.opcode_build ..⟩

end Sys2Proof.Machine
end

section
/-! PROOFS. A valid CHUNK in each of its cases: copied while others are pending, committed when it completes its page, for
every answer of the flash (45_reassembly.md R343 to R348), and what none of them depends on (section 3). -/

namespace Sys2Proof.Machine

variable {s : State} {page : BitVec 16} {ci cc : BitVec 8} {payload : List Byte}

/-! ### The copy and the bitmap (45_reassembly.md R343, R344) -/

/-- The payload of a valid chunk lies inside the page buffer (10_state.md R47; 45_reassembly.md R341). -/
theorem State.ChunkOk.fits (h : s.ChunkOk page ci cc payload.length) (hbuf : s.acc.pageBuf.length = s.cfg.pageSize) :
    ci.toNat * s.cfg.maxChunkSize + payload.length ≤ s.acc.pageBuf.length := by
  obtain ⟨hci, hlen, -⟩ := h
  have hle : payload.length ≤ s.cfg.maxChunkSize := hlen.elim le_of_eq And.right
  calc ci.toNat * s.cfg.maxChunkSize + payload.length
      ≤ (ci.toNat + 1) * s.cfg.maxChunkSize := by rw [Nat.succ_mul]; omega
    _ ≤ s.cfg.maxChunksPerPage * s.cfg.maxChunkSize := Nat.mul_le_mul_right _ hci
    _ = s.acc.pageBuf.length := by rw [hbuf, Config.pageSize, Nat.mul_comm]

theorem chunkCopied_splice (h : ci.toNat * s.cfg.maxChunkSize + payload.length ≤ s.acc.pageBuf.length) :
    s.ChunkCopied ci payload (splice s.acc.pageBuf (ci.toNat * s.cfg.maxChunkSize) payload) := by
  refine ⟨length_splice h, fun k => ?_⟩
  simp only [List.getD_eq_getElem?_getD, getElem?_splice h]
  split <;> rfl

/-- The page is complete when the chunk leaves none pending. -/
theorem bitmapAfter_eq_zero_iff :
    bitmapAfter s.cfg s.acc.bitmap ci cc = 0 ↔ ∀ k, s.pendingAfter ci cc k = false := by
  simp only [← getLsbD_bitmapAfter]
  exact ⟨fun h k => by rw [h]; exact BitVec.getLsbD_zero, fun h => BitVec.eq_of_getLsbD_eq fun k _ => by
    rw [h k]; exact BitVec.getLsbD_zero.symm⟩

/-- Settles O50: a chunk that passes the checks is copied (`chunkEffect_valid`), and the page waits for more while the bitmap
is not 0. -/
theorem validChunksAreCopied : Obligations.ValidChunksAreCopied := by
  rintro s page ci cc payload hinv hlive hok ⟨k, hk⟩
  have hpending : bitmapAfter s.cfg s.acc.bitmap ci cc ≠ 0 := fun h => by simp [bitmapAfter_eq_zero_iff.1 h k] at hk
  refine ⟨_, exec_chunk_of_effect ((chunkEffect_valid hlive hok).trans (if_pos hpending)),
    (s.setAcc_reply_frame _ _ _).1, rfl, rfl, chunkCopied_splice (hok.fits hinv.acc.1), getLsbD_bitmapAfter,
    s.setAcc_reply_frame _ _ _ |>.2⟩

/-! ### The commit, for every answer (45_reassembly.md R346, R348) -/

@[simp] theorem Env.asked_eventSink (e : Env) (r : FlashRequest) : (e.asked r).eventSink = e.eventSink := by
  unfold Env.asked; split <;> rfl

@[simp] theorem Env.asked_spiDone (e : Env) (r : FlashRequest) : (e.asked r).spiDone = e.spiDone := by
  unfold Env.asked; split <;> rfl

@[simp] theorem State.envAtWrite_eventSink (s : State) : s.envAtWrite.eventSink = s.env.eventSink := by
  unfold State.envAtWrite; split <;> simp

@[simp] theorem State.envAtWrite_spiDone (s : State) : s.envAtWrite.spiDone = s.env.spiDone := by
  unfold State.envAtWrite; split <;> simp

/-- The write that a commit asks for. -/
def State.writeRequest (s : State) : FlashRequest :=
  .write (pageAddress s.cfg s.acc.activePage) (s.acc.pageBuf.take s.cfg.pageSize)

theorem commitWrite_of_failure (h : s.env.nextAnswer = false) :
    commitWrite (pageAddress s.cfg s.acc.activePage) s = flashFailed (s.setEnv (s.env.asked s.writeRequest)) :=
  if_neg (by simp [h])

theorem chunkCommit_of_eraseFailure (hpage : s.acc.activePage = 0) (h : s.env.nextAnswer = false) :
    chunkCommit s = flashFailed (s.setEnv s.envAtWrite) := by
  unfold State.envAtWrite chunkCommit
  rw [if_pos hpage, if_pos hpage]
  exact if_neg (by simp [h])

theorem chunkCommit_of_writeFailure (herase : s.acc.activePage = 0 → s.env.nextAnswer = true)
    (hwrite : s.envAtWrite.nextAnswer = false) :
    chunkCommit s = flashFailed (s.setEnv (s.envAtWrite.asked s.writeRequest)) := by
  unfold State.envAtWrite at hwrite ⊢
  unfold chunkCommit
  split
  next hpage =>
    rw [if_pos hpage] at hwrite
    exact (if_pos (herase hpage)).trans (commitWrite_of_failure hwrite)
  next hpage =>
    rw [if_neg hpage] at hwrite
    exact commitWrite_of_failure hwrite

/-- Everything a commit can do: the erase fails, the write fails, or the page is written. -/
theorem chunkCommit_cases (s : State) :
    (∃ e, e.eventSink = s.env.eventSink ∧ e.spiDone = s.env.spiDone ∧ chunkCommit s = flashFailed (s.setEnv e)) ∨
      chunkCommit s = (s.pageWritten, .valued .ok 1) := by
  by_cases herase : s.acc.activePage = 0 → s.env.nextAnswer = true
  · cases hwrite : s.envAtWrite.nextAnswer with
    | true => exact .inr (chunkCommit_of_answers herase hwrite)
    | false => exact .inl ⟨_, by simp, by simp, chunkCommit_of_writeFailure herase hwrite⟩
  · obtain ⟨hpage, h⟩ := Classical.not_imp.1 herase
    exact .inl ⟨_, by simp, by simp, chunkCommit_of_eraseFailure hpage (by simpa using h)⟩

/-- s with the last chunk of a page copied, and no chunk pending. -/
def State.pageComplete (s : State) (page : BitVec 16) (ci : BitVec 8) (payload : List Byte) : State :=
  s.setAcc { activePage := page, bitmap := 0, status := s.acc.status,
             pageBuf := splice s.acc.pageBuf (ci.toNat * s.cfg.maxChunkSize) payload }

theorem chunkEffect_of_complete (hlive : s.accFatal = false) (hok : s.ChunkOk page ci cc payload.length)
    (h : bitmapAfter s.cfg s.acc.bitmap ci cc = 0) :
    chunkEffect page ci cc payload s = chunkCommit (s.pageComplete page ci payload) := by
  have haccept : chunkAccept s page ci cc payload = s.pageComplete page ci payload := by
    rw [chunkAccept, h]; rfl
  rw [chunkEffect_valid hlive hok, haccept]
  exact if_neg (by simp [State.pageComplete])

/-- An answer after changes of the accumulator, the fault bits and the flash log alone. -/
theorem reply_ended_of_asked {m : State} {e : Env} (hm : m = { s with
      env := e, acc := m.acc, accFatal := m.accFatal, faultEver := m.faultEver })
    (he : e.eventSink = s.env.eventSink) (r : Response) : s.Ended .command r (m.reply .command r) := by
  rw [hm]
  exact (State.reply_ended _ _ _).of_contexts rfl rfl rfl he

/-- Settles O51: the chunk completes its page (`chunkEffect_of_complete`), and each run of answers is one case of the
commit. -/
theorem completePagesAreCommitted : Obligations.CompletePagesAreCommitted := by
  intro s page ci cc payload hinv hlive hok hnone addr eraseReq erased
  have hfits := hok.fits hinv.acc.1
  have hcopied := chunkCopied_splice hfits
  have heff := chunkEffect_of_complete hlive hok (bitmapAfter_eq_zero_iff.2 hnone)
  have haddr : pageAddress s.cfg page = addr := pageAddress_eq s.cfg page
  have herased : (s.pageComplete page ci payload).envAtWrite = erased := by
    rw [State.envAtWrite]; simp only [State.pageComplete, State.setAcc_acc, State.setAcc_cfg, State.setAcc_env, haddr]; rfl
  have hwriteReq : (s.pageComplete page ci payload).writeRequest =
      .write addr (splice s.acc.pageBuf (ci.toNat * s.cfg.maxChunkSize) payload) := by
    rw [State.writeRequest]
    simp only [State.pageComplete, State.setAcc_acc, State.setAcc_cfg, haddr]
    rw [List.take_of_length_le (by rw [length_splice hfits]; exact hinv.acc.1.le)]
  have hsink : ∀ r, (erased.asked r).eventSink = s.env.eventSink := fun r => by
    simp only [erased]; split <;> simp
  let m := s.pageComplete page ci payload
  refine ⟨(chunkEffect page ci cc payload s).1.reply .command (chunkEffect page ci cc payload s).2, _,
    rfl, hcopied, fun hpage hfail => ?_, fun herase hfail => ?_, fun herase hans => ?_⟩
  · have hstop : chunkCommit m = flashFailed (m.setEnv erased) := by
      rw [chunkCommit_of_eraseFailure (s := m) hpage hfail, herased]
    have hasked : erased = s.env.asked eraseReq := if_pos hpage
    rw [heff, hstop, hasked]
    exact ⟨reply_ended_of_asked rfl (Env.asked_eventSink _ _) _, rfl, State.reply_sameFtc _ _ _⟩
  · have hstop : chunkCommit m =
        flashFailed (m.setEnv
          (erased.asked (.write addr (splice s.acc.pageBuf (ci.toNat * s.cfg.maxChunkSize) payload)))) := by
      rw [chunkCommit_of_writeFailure (s := m) herase (by rw [herased]; exact hfail), herased, hwriteReq]
    rw [heff, hstop]
    exact ⟨reply_ended_of_asked rfl (hsink _) _, rfl, State.reply_sameFtc _ _ _⟩
  · have hdone : chunkCommit m = (m.pageWritten, .valued .ok 1) :=
      chunkCommit_of_answers (s := m) herase (by rw [herased]; exact hans)
    have henv : m.pageWritten.env =
        erased.asked (.write addr (splice s.acc.pageBuf (ci.toNat * s.cfg.maxChunkSize) payload)) := by
      rw [← hwriteReq, ← herased]; rfl
    rw [heff, hdone]
    exact ⟨reply_ended_of_asked rfl (henv ▸ hsink _) _, henv, State.reply_sameFtc _ _ _⟩

/-! ### A clean boundary (45_reassembly.md section 3) -/

theorem exec_chunk_eq_of_effect {a b : State} (h : chunkEffect page ci cc payload a = chunkEffect page ci cc payload b) :
    exec (.chunk page ci cc payload) a = exec (.chunk page ci cc payload) b :=
  (exec_chunk_of_effect h).trans (exec_chunk_of_effect rfl).symm

/-- Settles O53: at a clean boundary check c3 holds of every page, and both the abort and the copy overwrite ACTIVE_PAGE. -/
theorem activePageIsUnobservableAtACleanBoundary : Obligations.ActivePageIsUnobservableAtACleanBoundary := by
  intro s other page ci cc payload hlive hclean
  have hsame : (s.setAcc { s.acc with activePage := other }).ChunkOk page ci cc payload.length ↔
      s.ChunkOk page ci cc payload.length :=
    and_congr_right fun _ => and_congr_right fun _ => iff_of_true (.inr hclean) (.inr hclean)
  by_cases hok : s.ChunkOk page ci cc payload.length
  · apply exec_chunk_eq_of_effect
    rw [chunkEffect_valid hlive hok, chunkEffect_valid (by exact hlive) (hsame.2 hok)]
    rfl
  · rw [exec_chunk_invalid hlive hok, exec_chunk_invalid (by exact hlive) (mt hsame.1 hok)]
    rfl

end Sys2Proof.Machine
end

section
/-! PROOFS. The invariant of the machine: every reset meets it, and from a state that meets it every step has a next state
that meets it (10_state.md; 20_memory.md section 8; 70_reset_and_hazards.md section 1). -/

namespace Sys2Proof.Machine

variable {s m : State} {i : Instr} {page : BitVec 16} {ci cc : BitVec 8} {payload : List Byte}

/-- The outcome is a next state that meets the invariant. -/
def GoesOn (o : Host.Outcome State Fault Refusal) : Prop := ∃ t, o = .next t ∧ Inv t

@[simp] theorem goesOn_next {t : State} : GoesOn (.next t) ↔ Inv t :=
  ⟨fun ⟨_, h, hi⟩ => by injection h with h; exact h ▸ hi, fun h => ⟨t, rfl, h⟩⟩

/-! ### The called procedures and the kicks -/

theorem ReadyFor.quiet (hR : ReadyFor i s) : QuietStep s s := .refl hR.inv.units

theorem ReadyFor.noWindow (hR : ReadyFor i s) (h : ∀ l, s.phase ≠ .enqueue l .e2) : s.record.windowSaved = none := by
  rw [hR.window]
  split
  next l hl => exact absurd hl (h l)
  · rfl

/-- A command that answers outside the claim window, after changes that keep the units in range. -/
theorem ReadyFor.answers (hR : ReadyFor i s) (hw : s.record.windowSaved = none) (hq : QuietStep s m) (p : Port)
    (r : Response) : GoesOn (.next (m.reply p r)) :=
  goesOn_next.2 (QuietStep.reply hR.inv hw hq p r)

theorem ReadyFor.enqueues {l : EnqLocals} {p : EnqPoint} {ret : Status → State → State} (hR : ReadyFor i s)
    (hph : s.phase = .enqueue l p)
    (hret : ∀ st m, UnitStep s m → m.ctxs = s.ctxs → m.mask = s.mask → s.record.windowSaved = none → Inv (ret st m)) :
    GoesOn (resumeEnqueue i l p ret s) := by
  have hfits := hR.fits (by simp [hph])
  rw [hph] at hfits
  obtain ⟨-, hl, hp⟩ := hfits
  obtain ⟨t, ht⟩ := resumeEnqueue_next s (i := i) (ret := ret) hl hp
  exact ⟨t, ht, Inv.resumeEnqueue hR hph hret ht⟩

theorem ReadyFor.dequeues {l : DeqLocals} {p : DeqPoint} (hR : ReadyFor i s) (hph : s.phase = .dequeue l p) :
    GoesOn (resumeDequeue i l p s) := by
  have hfits := hR.fits (by simp [hph])
  rw [hph] at hfits
  obtain ⟨-, hl, hp⟩ := hfits
  obtain ⟨t, ht⟩ := resumeDequeue_next s (i := i) hl hp
  exact ⟨t, ht, Inv.resumeDequeue hR hph ht⟩

/-- The ENQUEUE that SEND or ACCEPT called hands its status to the caller's next micro-step. -/
theorem ReadyFor.enqueues_then (hR : ReadyFor i s) {l : EnqLocals} {p : EnqPoint} (hph : s.phase = .enqueue l p)
    (hfit : ∀ st, (Phase.afterEnqueue st).Fits i) :
    GoesOn (resumeEnqueue i l p (fun st => State.goOn i (.afterEnqueue st)) s) :=
  hR.enqueues hph fun st m hu hc hm hw =>
    Inv.goOn hR hu hc (hfit st) trivial (handlerOnLink_mono hu (hR.link (by simp [hph]))) (.inl ⟨hm, hw.symm⟩)

/-! ### The units -/

/-- A queue that QINIT accepts is in range (40_queue.md R155, R167). -/
theorem Queue.initialised_inv {c : Config} {sp : Bool} {ceil : BitVec 4} {itemSize cap base : BitVec 16}
    (h : QinitAccepts c sp ceil itemSize cap base) : (Queue.initialised ceil itemSize cap base).Inv c := by
  obtain ⟨-, hcap, hceil, hregion⟩ := h
  have hpos : 1 ≤ cap.toNat := Nat.one_le_iff_ne_zero.2 fun h0 => hcap (BitVec.eq_of_toNat_eq h0)
  exact ⟨fun _ => ⟨rfl, hpos, hceil, hregion, hpos⟩, nofun, fun _ => by simp [Queue.countersOk, BitVec.le_def]⟩

theorem UnitsInv.setQueue_initialised (h : UnitsInv s) (q : QId) {r : Queue} (hr : r.Inv s.cfg) (hinit : r.init = true)
    (hq : r.qinv = false) : QuietStep s (s.setQueue q r) := by
  have hall : ∀ {P : Queue → Prop}, P r → (∀ p, P (s.queue p)) → ∀ p, P ((s.setQueue q r).queue p) := fun h0 h1 p => by
    rw [State.setQueue_queue]; split
    · exact h0
    · exact h1 p
  have hfaults : ∀ p, ((s.setQueue q r).queue p).qinv = true → s.faultEver = true :=
    hall (P := fun x => x.qinv = true → s.faultEver = true) (by simp [hq]) h.faults.2
  refine ⟨⟨⟨h.config, h.qsm, hall hr h.queues, ⟨h.faults.1, hfaults⟩, h.ufr, h.utx, h.spx, h.acc, h.buffers⟩, rfl,
    fun p hp => ?_, .inl rfl⟩, rfl, rfl⟩
  rw [State.setQueue_queue]; split
  · exact hinit
  · exact hp

theorem UnitsInv.setTxDrop (h : UnitsInv s) (n : BitVec 32) : QuietStep s (s.setTxDrop n) :=
  ⟨⟨⟨h.config, h.qsm, h.queues, h.faults, h.ufr, h.utx, h.spx, h.acc, h.buffers⟩, rfl, fun _ h => h, .inl rfl⟩, rfl, rfl⟩

/-- A framer in range, with UTX_BUSY as it was, on the same link. -/
theorem UnitsInv.setUfr_quiet (h : UnitsInv s) {f : Framer} (hf : f.Inv s.cfg)
    (hb : f.utxBusy = true → s.link = .uart) : QuietStep s (s.setUfr f) :=
  ⟨⟨⟨h.config, h.qsm, h.queues, h.faults, hf, hb, h.spx, h.acc, h.buffers⟩, rfl, fun _ h => h, .inl rfl⟩, rfl, rfl⟩

/-- LINK_INIT of the SPI link arms MW (44_comms.md R310). -/
theorem UnitsInv.selectSpi (h : UnitsInv s) (hl : s.link = .none) :
    QuietStep s ((s.setLink .spi).setSpx { s.spx with mwArmed := true }) := by
  obtain ⟨hbusy, htxbuf, -⟩ := h.spx
  exact ⟨⟨⟨h.config, h.qsm, h.queues, h.faults, h.ufr, fun hb => absurd (h.utx hb) (by simp [hl]),
    ⟨hbusy, htxbuf, fun hn => absurd rfl hn⟩, h.acc, h.buffers⟩, rfl, fun _ h => h, .inr hl⟩, rfl, rfl⟩

/-- LINK_INIT of the UART link resyncs the framer (44_comms.md R310). -/
theorem UnitsInv.selectUart (h : UnitsInv s) (hl : s.link = .none) :
    QuietStep s ((s.setLink .uart).setUfr (resync s.ufr)) := by
  obtain ⟨hbusy, htxbuf, hoff⟩ := h.spx
  exact ⟨⟨⟨h.config, h.qsm, h.queues, h.faults, resync_inv h.ufr, fun _ => rfl,
    ⟨hbusy, htxbuf, fun _ => hoff (by simp [hl])⟩, h.acc, h.buffers⟩, rfl, fun _ h => h, .inr hl⟩, rfl, rfl⟩

/-- The accumulator with all chunks pending and no flash failure is in range (10_state.md R47). -/
theorem Acc.inv_of_pending {c : Config} {a : Acc} (hbuf : a.pageBuf.length = c.pageSize)
    (hb : a.bitmap &&& c.allPending = a.bitmap) (hne : a.bitmap ≠ 0) (hst : a.status ≠ .fatal) : a.Inv c false :=
  ⟨hbuf, hb, iff_of_false (by simp) hne, iff_of_false (by simp) hst⟩

/-- The changes of CHUNK that keep the units in range: of the accumulator, with the fault bit where it belongs to it, and of
the flash requests. -/
theorem UnitsInv.chunk_quiet (h : UnitsInv s) {e : Env} {a : Acc} {fatal : Bool} (he : e.spiDone = s.env.spiDone)
    (ha : a.Inv s.cfg fatal) :
    QuietStep s { s with env := e, acc := a, accFatal := fatal, faultEver := s.faultEver || fatal } := by
  refine ⟨⟨⟨h.config, h.qsm, h.queues, ⟨fun hf => ?_, fun q hq => ?_⟩, h.ufr, h.utx, h.spx, ha, ?_⟩, rfl, fun _ h => h,
    .inl rfl⟩, rfl, rfl⟩
  · simp only at hf ⊢; rw [hf, Bool.or_true]
  · simp only [h.faults.2 q hq, Bool.true_or]
  · simp only [he]; exact h.buffers

/-- A commit keeps the units in range, whatever the flash answers (45_reassembly.md R346, R348). -/
theorem UnitsInv.commit (h : UnitsInv s) (hlive : s.accFatal = false) (hok : s.ChunkOk page ci cc payload.length) :
    QuietStep s (chunkCommit (s.pageComplete page ci payload)).1 := by
  have hlen := (length_splice (hok.fits h.acc.1)).trans h.acc.1
  rcases chunkCommit_cases (s.pageComplete page ci payload) with ⟨e, -, he, hc⟩ | hc
  · have q := h.chunk_quiet (fatal := true) he
      (a := { (s.pageComplete page ci payload).acc with status := .fatal })
      ⟨hlen, by simp [State.pageComplete], by simp [State.pageComplete], by simp⟩
    rw [Bool.or_true] at q
    rw [hc]
    exact q
  · have q := h.chunk_quiet (fatal := false) (e := (s.pageComplete page ci payload).pageWritten.env)
      (a := (s.pageComplete page ci payload).accCommitted) ((Env.asked_spiDone _ _).trans (State.envAtWrite_spiDone _))
      (Acc.inv_of_pending hlen (BitVec.and_self) (allPending_ne h.config) (by simp [State.accCommitted]))
    rw [Bool.or_false, ← hlive] at q
    rw [hc]
    exact q

theorem bitmapAfter_masked {c : Config} {bitmap : BitVec 32} (h : bitmap &&& c.allPending = bitmap) :
    bitmapAfter c bitmap ci cc &&& c.allPending = bitmapAfter c bitmap ci cc := by
  rw [bitmapAfter, BitVec.and_assoc bitmap, BitVec.and_assoc bitmap, BitVec.and_comm _ c.allPending, ← BitVec.and_assoc, h]

/-- ABORT, and a copy that leaves chunks pending, keep the units in range (45_reassembly.md R342 to R344). -/
theorem UnitsInv.chunk (h : UnitsInv s) : QuietStep s (chunkEffect page ci cc payload s).1 := by
  obtain ⟨hbuf, hbits, -⟩ := h.acc
  cases hlive : s.accFatal with
  | true => rw [chunkEffect, if_pos hlive]; exact .refl h
  | false =>
    by_cases hok : s.ChunkOk page ci cc payload.length
    · by_cases hdone : bitmapAfter s.cfg s.acc.bitmap ci cc = 0
      · rw [chunkEffect_of_complete hlive hok hdone]; exact h.commit hlive hok
      · rw [chunkEffect_valid hlive hok]
        refine (if_pos hdone : _ = _) ▸ h.setAcc (hlive ▸ Acc.inv_of_pending ?_ ?_ hdone (by simp))
        · exact (length_splice (hok.fits hbuf)).trans hbuf
        · exact bitmapAfter_masked hbits
    · rw [chunkEffect, if_neg (by simp [hlive]), if_pos (by rw [chunkValid_eq_decide, decide_eq_false hok]; rfl)]
      exact h.setAcc (hlive ▸ Acc.inv_of_pending hbuf (BitVec.and_self) (allPending_ne h.config) (by simp))

/-! ### The commands -/

/-- A command of one micro-step, in whose record nothing else can stand. -/
theorem ReadyFor.answersOnce (hR : ReadyFor i s) (hf : ∀ ph, ¬ Phase.Fits i ph) (hq : QuietStep s m) (p : Port)
    (r : Response) : GoesOn (.next (m.reply p r)) :=
  hR.answers (hR.window_first (hR.single hf)) hq p r

theorem execQinit_goesOn {q : QId} {sp : Bool} {ceil : BitVec 4} {itemSize cap base : BitVec 16}
    (hR : ReadyFor (.qinit q sp ceil itemSize cap base) s) : GoesOn (exec (.qinit q sp ceil itemSize cap base) s) := by
  have answers := fun {m : State} => hR.answersOnce (m := m) (fun ph => by cases ph <;> exact id)
  by_cases h : QinitAccepts s.cfg sp ceil itemSize cap base
  · rw [exec_qinit_of_accepts q h]
    exact answers (hR.inv.units.setQueue_initialised q (Queue.initialised_inv h) rfl rfl) _ _
  · rw [exec_qinit_of_not_accepts q h]
    exact answers hR.quiet _ _

theorem execEnq_goesOn {q : QId} {data : List Byte} (hR : ReadyFor (.enq q data) s) : GoesOn (execEnq q data s) := by
  have hfits := hR.fits
  unfold execEnq
  split
  case h_1 hph =>
    have answers := hR.answers (hR.window_first hph) hR.quiet
    split_ifs with _ _ hlen
    · exact answers _ _
    · exact answers _ _
    · exact answers _ _
    · exact goesOn_next.2 (Inv.callEnqueue hR hph (.refl hR.inv.units) rfl rfl trivial (fun _ _ h => h)
        (not_not.1 hlen) fun st => goesOn_next.1 (answers .command (.plain st)))
  case h_2 l p hph => exact hR.enqueues hph fun st m hu hc hm hw => Inv.reply hR.inv hu hc hm hw _ _
  all_goals next hph => rw [hph] at hfits; exact (hfits (by simp)).1.elim

theorem execDeq_goesOn {q : QId} (hR : ReadyFor (.deq q) s) : GoesOn (execDeq q s) := by
  have hfits := hR.fits
  unfold execDeq
  split
  case h_1 hph => exact goesOn_next.2 (Inv.callDequeue hR hph trivial fun _ _ h => h)
  case h_2 l p hph => exact hR.dequeues hph
  all_goals next hph => rw [hph] at hfits; exact (hfits (by simp)).1.elim

theorem execRecv_goesOn (hR : ReadyFor .recv s) : GoesOn (execRecv s) := by
  have hfits := hR.fits
  unfold execRecv
  split
  case h_1 hph => exact goesOn_next.2 (Inv.callDequeue hR hph trivial fun _ _ h => h)
  case h_2 l p hph => exact hR.dequeues hph
  all_goals next hph => rw [hph] at hfits; exact (hfits (by simp)).1.elim

theorem execLinkInit_goesOn {link : BitVec 2} (hR : ReadyFor (.linkInit link) s) : GoesOn (execLinkInit link s) := by
  have answers := fun {m : State} => hR.answersOnce (m := m) (fun ph => by cases ph <;> exact id)
  unfold execLinkInit
  split_ifs with _ hl
  · exact answers hR.quiet _ _
  · exact answers hR.quiet _ _
  · exact answers (hR.inv.units.selectSpi (not_not.1 hl)) _ _
  · exact answers (hR.inv.units.selectUart (not_not.1 hl)) _ _

/-- A kick of the selected link does not stop, and the command that ran it answers. -/
theorem ReadyFor.kicks (hR : ReadyFor i s) (hw : s.record.windowSaved = none) (hq : QuietStep s m)
    {kick : State → Except Fault (State × Bool)} (hok : ∃ t b, kick m = .ok (t, b))
    (hk : ∀ t b, kick m = .ok (t, b) → QuietStep m t) (p : Port) (r : Bool → Response) :
    GoesOn (match kick m with
      | .error f => .fault f
      | .ok (t, b) => .next (t.reply p (r b))) := by
  obtain ⟨t, b, h⟩ := hok
  rw [h]
  exact hR.answers hw (hq.trans (hk t b h)) _ _

theorem ReadyFor.kicksLink (hR : ReadyFor i s) (hw : s.record.windowSaved = none) (hq : QuietStep s m) (p : Port)
    (r : Bool → Response) :
    GoesOn (match kickLink m with
      | .error f => .fault f
      | .ok (t, b) => .next (t.reply p (r b))) :=
  hR.kicks hw hq (kickLink_ok hq.units) (fun _ _ => kickLink_quiet hq.units) p r

theorem execSend_goesOn {payload : List Byte} (hR : ReadyFor (.send payload) s) : GoesOn (execSend payload s) := by
  have hfits := hR.fits
  unfold execSend
  split
  case h_1 hph =>
    have hw := hR.window_first hph
    split_ifs
    · exact hR.answers hw (hR.inv.units.setTxDrop _) _ _
    · exact goesOn_next.2 (Inv.callEnqueue hR hph (.refl hR.inv.units) rfl rfl trivial (fun _ _ h => h)
        (length_fit _ _) fun st => Inv.goOn hR (.refl hR.inv.units) rfl trivial trivial trivial (.inl ⟨rfl, hw.symm⟩))
  case h_2 l p hph => exact hR.enqueues_then hph fun _ => trivial
  case h_3 st hph =>
    refine hR.kicksLink (hR.noWindow (by simp [hph])) (m := if st = .ok then s else s.setTxDrop (s.txDrop + 1)) ?_ _
      fun _ => .plain st
    split_ifs
    · exact hR.quiet
    · exact hR.inv.units.setTxDrop _
  all_goals next hph => rw [hph] at hfits; exact (hfits (by simp)).1.elim

theorem execKick_goesOn (hR : ReadyFor .kick s) : GoesOn (execKick s) :=
  hR.kicksLink (hR.window_first (hR.single fun ph => by cases ph <;> exact id)) hR.quiet _
    fun b => .valued .ok (if b then 1 else 0)

/-- The answer of EV_UART_RX for a packet handed to ACCEPT. -/
theorem ReadyFor.uartAdmits {b : Byte} (hR : ReadyFor (.evUartRx b) s) (hw : s.record.windowSaved = none) (a : Nat)
    (hq : QuietStep s m) : Inv (uartAdmitted a m) :=
  QuietStep.reply hR.inv hw hq _ _

theorem execEvUartRx_goesOn {b : Byte} (hR : ReadyFor (.evUartRx b) s) : GoesOn (execEvUartRx b s) := by
  have hfits := hR.fits
  have U := hR.inv.units
  unfold execEvUartRx
  split
  case h_1 hph =>
    have hw := hR.window_first hph
    split_ifs with hl
    · exact hR.answers hw hR.quiet _ _
    have hl : s.link = .uart := not_not.1 hl
    have framed : ∀ {f : Framer}, f.Inv s.cfg ∧ f.utxBusy = s.ufr.utxBusy → QuietStep s (s.setUfr f) :=
      fun h => U.setUfr_quiet h.1 fun _ => hl
    split
    next hst => exact hR.answers hw (framed (startByte_inv U.config U.ufr hst)) _ _
    next hst => exact hR.answers hw (framed (lengthByte_inv U.config U.ufr hst)) _ _
    next hst =>
      obtain ⟨hlen, -, -, hpay, -⟩ := U.ufr
      obtain ⟨-, hpos, hneed, -⟩ := hpay hst
      split
      next e he =>
        rw [payloadByte, if_pos (by rw [hlen]; exact lt_of_lt_of_le hpos hneed)] at he
        simp only at he
        split_ifs at he
      next f he => exact hR.answers hw (framed (payloadByte_inv U.config U.ufr hst he)) _ _
      next f pkt he =>
        exact goesOn_next.2 (Inv.callAccept hR hph (framed (payloadByte_inv U.config U.ufr hst he)) hl (fun _ _ h => h)
          (fun _ => trivial) fun a m' hq _ => hR.uartAdmits hw a hq)
  case h_2 l p hph => exact hR.enqueues_then hph fun _ => trivial
  case h_3 st hph =>
    exact goesOn_next.2 (Inv.acceptA2 U fun a m' hq _ => hR.uartAdmits (hR.noWindow (by simp [hph])) a hq)
  all_goals next hph => rw [hph] at hfits; exact (hfits (by simp)).1.elim

theorem execEvUartErr_goesOn {kind : BitVec 3} (hR : ReadyFor (.evUartErr kind) s) : GoesOn (execEvUartErr kind s) := by
  have answers := fun {m : State} => hR.answersOnce (m := m) (fun ph => by cases ph <;> exact id)
  have U := hR.inv.units
  unfold execEvUartErr
  split_ifs with hl
  · exact answers hR.quiet _ _
  · exact answers hR.quiet _ _
  · exact answers (U.setUfr_quiet (resync_inv U.ufr) fun _ => not_not.1 hl) _ _

theorem execEvUartTxDone_goesOn (hR : ReadyFor .evUartTxDone s) : GoesOn (execEvUartTxDone s) := by
  have hw := hR.window_first (hR.single fun ph => by cases ph <;> exact id)
  have U := hR.inv.units
  unfold execEvUartTxDone
  split_ifs with hl
  · exact hR.answers hw hR.quiet _ _
  · exact hR.answers hw hR.quiet _ _
  · have hq : QuietStep s (s.setUfr { s.ufr with utxBusy := false }) := U.setUfr_quiet U.ufr nofun
    exact hR.kicks hw hq (kickUart_ok hq.units) (fun _ _ => kickUart_quiet hq.units (not_not.1 hl)) _ fun _ => .plain .ok

theorem edgeHandler_goesOn {pend : Bool} {after : Spx} (hR : ReadyFor i s) (hf : ∀ ph, ¬ Phase.Fits i ph)
    (hb : after.busy = after.selected) (ht : after.txbuf = s.spx.txbuf) : GoesOn (edgeHandler pend after s) := by
  have hw := hR.window_first (hR.single hf)
  unfold edgeHandler
  split_ifs with hl
  · exact hR.answers hw hR.quiet _ _
  · exact hR.answers hw hR.quiet _ _
  · have hq := hR.inv.units.setSpx (not_not.1 hl) hb ht
    exact hR.kicks hw hq (kickSpi_ok hq.units) (fun _ _ => kickSpi_quiet hq.units (not_not.1 hl)) _ fun _ => .plain .ok

/-- S1 of EV_SPI_DONE goes on to its re-arm (43_spi_transport.md R276). -/
theorem ReadyFor.spiAdmits {rx : List Byte} (hR : ReadyFor (.evSpiDone rx) s) (hw : s.record.windowSaved = none)
    (v : BitVec 24) (hq : QuietStep s m) (hl : m.link = .spi) : Inv (m.goOn (.evSpiDone rx) (.spiRearm v)) :=
  Inv.goOn hR hq.toUnitStep hq.ctxs trivial trivial hl (.inl ⟨hq.mask, hw.symm⟩)

theorem execEvSpiDone_goesOn {rx : List Byte} (hR : ReadyFor (.evSpiDone rx) s) : GoesOn (execEvSpiDone rx s) := by
  have hfits := hR.fits
  have U := hR.inv.units
  have link : s.phase ≠ .first → s.link = .spi := hR.link
  unfold execEvSpiDone
  split
  case h_1 hph =>
    have hw := hR.window_first hph
    dsimp only
    split_ifs with hl
    · exact hR.answers hw hR.quiet _ _
    · exact hR.answers hw hR.quiet _ _
    · exact goesOn_next.2 (hR.spiAdmits hw 0 (U.setSpx (not_not.1 hl) rfl rfl) (not_not.1 hl))
    · exact goesOn_next.2 (Inv.callAccept hR hph (U.setSpx (not_not.1 hl) rfl rfl) (not_not.1 hl) (fun _ _ h => h)
        (fun _ => trivial) fun a m' hq hl' => hR.spiAdmits hw _ hq (hl'.trans (not_not.1 hl)))
  case h_2 l p hph => exact hR.enqueues_then hph fun _ => trivial
  case h_3 st hph =>
    exact goesOn_next.2 (Inv.acceptA2 U fun a m' hq hl' =>
      hR.spiAdmits (hR.noWindow (by simp [hph])) _ hq (hl'.trans (link (by simp [hph]))))
  case h_4 v hph =>
    exact hR.answers (hR.noWindow (by simp [hph]))
      (U.setSpx (x := { s.spx with ctsArmed := true }) (link (by simp [hph])) U.spx.1 rfl) _ _
  case h_5 hph => rw [hph] at hfits; exact (hfits (by simp)).1.elim

/-- A micro-step of a command has a next state, and keeps the invariant. -/
theorem exec_goesOn (hR : ReadyFor i s) : GoesOn (exec i s) := by
  cases i with
  | qinit q sp ceil itemSize cap base => exact execQinit_goesOn hR
  | enq q data => exact execEnq_goesOn hR
  | deq q => exact execDeq_goesOn hR
  | send payload => exact execSend_goesOn hR
  | recv => exact execRecv_goesOn hR
  | linkInit link => exact execLinkInit_goesOn hR
  | kick => exact execKick_goesOn hR
  | evUartRx b => exact execEvUartRx_goesOn hR
  | evUartErr kind => exact execEvUartErr_goesOn hR
  | evUartTxDone => exact execEvUartTxDone_goesOn hR
  | evSpiDone rx => exact execEvSpiDone_goesOn hR
  | evCtsEdge => exact edgeHandler_goesOn hR (fun ph => by cases ph <;> exact id) hR.inv.units.spx.1 rfl
  | evMwEdge => exact edgeHandler_goesOn hR (fun ph => by cases ph <;> exact id) hR.inv.units.spx.1 rfl
  | chunk page ci cc payload => exact hR.answersOnce (fun ph => by cases ph <;> exact id) hR.inv.units.chunk _ _
  | crcCompute data => exact hR.answersOnce (fun ph => by cases ph <;> exact id) hR.quiet _ _
  | crcVerify data => exact hR.answersOnce (fun ph => by cases ph <;> exact id) hR.quiet _ _
  | crcAppend payload =>
    simp only [exec, execCrcAppend]
    split_ifs <;> exact hR.answersOnce (fun ph => by cases ph <;> exact id) hR.quiet _ _
  | qcount q =>
    simp only [exec, execQcount]
    split_ifs <;> exact hR.answersOnce (fun ph => by cases ph <;> exact id) hR.quiet _ _
  | qfree q =>
    simp only [exec, execQfree]
    split_ifs <;> exact hR.answersOnce (fun ph => by cases ph <;> exact id) hR.quiet _ _
  | regRead reg =>
    simp only [exec, execRegRead]
    split <;> exact hR.answersOnce (fun ph => by cases ph <;> exact id) hR.quiet _ _

/-! ### The steps of a run -/

theorem Inv.noWindow_of_not_busy (hb : ∀ j ph, s.record ≠ .busy j ph) : s.record.windowSaved = none := by
  cases hr : s.record with
  | busy j ph => exact absurd hr (hb j ph)
  | idle | start p => rfl

/-- The exit of a software handler that has no further command (60_exceptions.md R420). -/
theorem Inv.exitContext (h : Inv s) (hb : ∀ j ph, s.record ≠ .busy j ph) : Inv (s.exitContext s.running) := by
  have U := h.units
  have hself : (s.exitContext s.running).ctx s.running =
      { s.ctx s.running with entered := false, record := .idle, stream := [] } := by
    rw [State.exitContext_ctx, if_pos rfl]
  refine Inv.of_unitStep h ⟨⟨U.config, U.qsm, U.queues, U.faults, U.ufr, U.utx, U.spx, U.acc, U.buffers⟩, rfl,
    fun _ h => h, .inl rfl⟩ (fun u hu => by rw [State.exitContext_ctx, if_neg hu]) ?_ ?_ ?_ ?_ ?_
  · rw [hself]; exact nofun
  · rw [hself]; exact fun hne => absurd rfl hne
  · rw [hself]; trivial
  · rw [hself]; exact fun _ => trivial
  · rw [hself]; exact .inl ⟨rfl, (Inv.noWindow_of_not_busy hb).symm⟩

theorem beginCommand_goesOn (h : Inv s) (hb : ∀ j ph, s.record ≠ .busy j ph) : GoesOn (beginCommand s) := by
  unfold beginCommand
  split
  · split_ifs
    · exact goesOn_next.2 h
    · exact goesOn_next.2 (h.exitContext hb)
  next why word0 rest _ =>
    have h' : Inv (s.setStream rest) := h.alike (.inr ⟨rest, rfl⟩)
    have hw : (s.setStream rest).record.windowSaved = none := by
      rw [State.setStream_record]; exact Inv.noWindow_of_not_busy hb
    exact goesOn_next.2 (QuietStep.reply h' hw (.refl h'.units) _ _)
  next i rest hd => exact exec_goesOn (.begin h hb hd)

theorem runStep_goesOn (h : Inv s) : GoesOn (runStep s) := by
  unfold runStep
  split
  next i ph hr => exact exec_goesOn (.resume h hr)
  next hr => exact beginCommand_goesOn h (by simp [hr])
  next hr => exact beginCommand_goesOn h (by simp [hr])

/-- A handler that is entered stands at its first micro-step, at a level that the configuration has. -/
theorem Inv.enterContext (h : Inv s) {u : Level} (hu : s.canEnter u = true) (p : Port) (st : List Byte) :
    Inv (s.enterContext u p st) := by
  obtain ⟨hlevel, -, -, hidle⟩ := (s.canEnter_iff u).1 hu
  have U : UnitsInv (s.enterContext u p st) := ⟨h.config, h.qsm, h.queues, h.faults, h.ufr, h.utx, h.spx, h.acc, h.buffers⟩
  have hi : UnitStep s (s.enterContext u p st) := ⟨U, rfl, fun _ h => h, .inl rfl⟩
  have hctx := s.enterContext_ctx (u := u) (p := p) (st := st)
  have hne : (0 : Level) ≠ u := fun h0 => absurd hlevel.1 (by simp [← h0])
  have hsaved : ∀ v, ((s.enterContext u p st).ctx v).record.windowSaved = (s.ctx v).record.windowSaved := fun v => by
    rw [hctx]; split
    next e => rw [e, hidle]; rfl
    · rfl
  refine ⟨U.config, U.qsm, U.queues, U.faults, U.ufr, U.utx, U.spx, U.acc, fun v => ?_, fun v => ?_, ?_,
    ⟨fun hall => h.mask.1 fun v => by rw [← hsaved]; exact hall v,
      fun v hv => by rw [hsaved]; exact h.mask.2 v fun w hw => by rw [← hsaved]; exact hv w hw⟩, U.buffers⟩
  · rw [hctx]; split
    next e => subst e; exact ⟨fun _ => hlevel, fun _ => .inl rfl⟩
    · exact h.contexts v
  · rw [hctx]; split
    · trivial
    · exact (h.records v).mono hi
  · rw [hctx, if_neg hne]; exact h.thread

theorem Inv.setEnv (h : Inv s) {e : Env} (he : ∀ rx ∈ e.spiDone, rx.length = s.cfg.maxPacketSize) : Inv (s.setEnv e) :=
  Inv.of_sameRecords h ⟨h.config, h.qsm, h.queues, h.faults, h.ufr, h.utx, h.spx, h.acc, he⟩ rfl (fun _ h => h) rfl rfl
    (fun _ => rfl) fun _ => rfl

theorem Inv.enterStep (h : Inv s) : Inv (enterStep s) := by
  unfold Sys2Proof.Machine.enterStep
  split
  · exact h
  next c hc =>
    obtain ⟨hmem, hadm⟩ := List.mem_filter.1 (highest_mem hc)
    exact (h.setEnv (candidates_buffers h hmem)).enterContext hadm _ _

/-- A pin that changes leaves the transactor in range: nothing is latched unless it is armed (43_spi_transport.md R271). -/
theorem Inv.drivePin (h : Inv s) {e : Env} (he : e.spiDone = s.env.spiDone) {cts mw : Bool}
    (hcts : cts = true → s.spx.ctsPend = true ∨ s.spx.ctsArmed = true)
    (hmw : mw = true → s.spx.mwPend = true ∨ s.spx.mwArmed = true) :
    Inv ((s.setEnv e).setSpx { s.spx with ctsPend := cts, mwPend := mw }) := by
  obtain ⟨hbusy, htxbuf, hoff⟩ := h.spx
  refine Inv.of_sameRecords h ⟨h.config, h.qsm, h.queues, h.faults, h.ufr, h.utx, ⟨hbusy, htxbuf, fun hl => ?_⟩, h.acc,
    fun rx hrx => h.buffers rx (he ▸ hrx)⟩ rfl (fun _ h => h) rfl rfl (fun _ => rfl) fun _ => rfl
  obtain ⟨hb, hca, hcp, hma, hmp⟩ := hoff hl
  refine ⟨hb, hca, Bool.eq_false_iff.2 fun hc => ?_, hma, Bool.eq_false_iff.2 fun hm => ?_⟩
  · rcases hcts hc with h1 | h1 <;> simp_all
  · rcases hmw hm with h1 | h1 <;> simp_all

theorem or_of_latched {pend armed : Bool} (rising : Bool) (h : (pend || (rising && armed)) = true) :
    pend = true ∨ armed = true := by
  rw [Bool.or_eq_true, Bool.and_eq_true] at h
  exact h.imp_right And.right

/-! ### Reset (70_reset_and_hazards.md R450) -/

theorem Queues.reset_get (q : QId) : Queues.get ⟨.reset, .reset, .reset, .reset⟩ q = .reset := by cases q <;> rfl

/-- A state whose FTC state is a reset one and whose contexts are idle meets the invariant. -/
theorem Inv.of_reset {c : Config} (hc : c.WF) {qsm : Memory} (hqsm : qsm.WF ∧ ∀ x ∈ qsm, x.1 < c.qsmBytes)
    {pageBuf : List Byte} (hbuf : pageBuf.length = c.pageSize) {ever : Bool} {ctxs : Vector Context 16}
    (hctx : ∀ u : Level, (ctxs[u]).record = .idle ∧ (ctxs[u]).entered = false) {env : Env} (henv : env.spiDone = [])
    {schedule : List Action} :
    Inv { State.resetWith c qsm pageBuf with faultEver := ever, ctxs := ctxs, env := env, schedule := schedule } := by
  have hq : ∀ q, State.queue { State.resetWith c qsm pageBuf with
      faultEver := ever, ctxs := ctxs, env := env, schedule := schedule } q = .reset := Queues.reset_get
  have hrec : ∀ u, (State.ctx { State.resetWith c qsm pageBuf with
      faultEver := ever, ctxs := ctxs, env := env, schedule := schedule } u).record = .idle := fun u => (hctx u).1
  have hent : ∀ u, (State.ctx { State.resetWith c qsm pageBuf with
      faultEver := ever, ctxs := ctxs, env := env, schedule := schedule } u).entered = false := fun u => (hctx u).2
  refine ⟨hc, hqsm, fun q => ?_, ⟨nofun, fun q => ?_⟩, ?_, nofun, ?_, ?_, fun u => ?_, fun u => ?_, ?_,
    ⟨fun _ => rfl, fun u _ => .inl ?_⟩, fun rx hrx => ?_⟩
  · rw [hq]; exact ⟨nofun, fun _ => rfl, fun _ => by decide⟩
  · rw [hq]; exact nofun
  · exact ⟨List.length_replicate, fun _ => rfl, nofun, nofun, Nat.zero_le _, rfl, fun _ => rfl⟩
  · exact ⟨rfl, List.length_replicate, fun _ => ⟨rfl, rfl, rfl, rfl, rfl⟩⟩
  · exact Acc.inv_of_pending hbuf BitVec.and_self (allPending_ne hc) (by simp [State.resetWith])
  · exact ⟨fun he => absurd he (by simp [hent]), fun hr => absurd (hrec u) hr⟩
  · rw [hrec]; trivial
  · rw [hrec]; trivial
  · rw [hrec]; rfl
  · rw [henv] at hrx; exact absurd hrx List.not_mem_nil

theorem State.windowsShut_of_idle (h : ∀ u, (s.ctx u).record = .idle) : s.WindowsShut := fun w q hw => by
  rw [h] at hw; exact absurd hw (by simp [Record.windowQueue])

theorem resetStep_ctx (d : ResetDraw) (s : State) (u : Level) :
    (resetStep d s).ctx u =
      { Context.reset with stream := if u = 0 then d.program else [], responses := (s.ctx u).responses } := by
  simp [resetStep, State.ctx]

theorem Inv.resetStep (hc : s.cfg.WF) (d : ResetDraw) : Inv (resetStep d s) := by
  refine Inv.of_reset hc ⟨Memory.WF.writeBytes (m := []) ⟨by simp, by simp⟩ _ _, fun x hx => ?_⟩ (length_fit _ _)
    (fun u => ?_) rfl
  · rcases Memory.mem_writeBytes hx with ⟨-, hlt⟩ | hx
    · exact lt_of_lt_of_le hlt (by simp)
    · exact absurd hx List.not_mem_nil
  · have := resetStep_ctx d s u
    exact ⟨congrArg Context.record this, congrArg Context.entered this⟩

/-- Settles O10: after a reset every context is idle, every queue is uninitialised, and the drawn contents are cut to
their sizes. -/
theorem invariantHoldsAfterReset : Obligations.InvariantHoldsAfterReset := by
  refine ⟨Inv.of_reset (by decide) ⟨⟨by simp, by simp⟩, by simp⟩ List.length_replicate (fun u => ?_) rfl,
    State.windowsShut_of_idle fun u => ?_, fun s d hc => ⟨.resetStep hc d, State.windowsShut_of_idle fun u => ?_⟩⟩
  · exact ⟨congrArg Context.record (Vector.getElem_replicate _), congrArg Context.entered (Vector.getElem_replicate _)⟩
  · exact congrArg Context.record (Vector.getElem_replicate _)
  · rw [resetStep_ctx]; rfl

/-! ### Every step -/

theorem Inv.environmentStep (h : Inv s) (a : Action) : Inv (environmentStep a s) := by
  cases a with
  | run => exact h
  | enter => exact h.enterStep
  | ctsPin level =>
    exact h.drivePin (e := { s.env with ctsPin := level })
      (cts := s.spx.ctsPend || (!s.env.ctsPin && level && s.spx.ctsArmed))
      rfl (or_of_latched _) .inl
  | mwPin level =>
    exact h.drivePin (e := { s.env with mwPin := level }) (mw := s.spx.mwPend || (!s.env.mwPin && level && s.spx.mwArmed))
      rfl .inl (or_of_latched _)
  | uartByte b => exact h.setEnv h.buffers
  | uartError kind => exact h.setEnv h.buffers
  | uartTxDone => exact h.setEnv h.buffers
  | spiDone rx =>
    refine h.setEnv fun x hx => ?_
    rcases List.mem_append.1 hx with hx | hx
    · exact h.buffers x hx
    · rw [List.mem_singleton.1 hx]; exact length_fit _ _
  | post p => exact h.setEnv h.buffers
  | supply u bytes =>
    have hctx := s.setCtx_ctx u (c := { s.ctx u with stream := (s.ctx u).stream ++ bytes })
    refine Inv.of_sameRecords h ⟨h.config, h.qsm, h.queues, h.faults, h.ufr, h.utx, h.spx, h.acc, h.buffers⟩ rfl
      (fun _ h => h) rfl rfl (fun v => ?_) fun v => ?_
    all_goals
      rw [Sys2Proof.Machine.environmentStep, hctx]
      split
      next e => rw [e]
      · rfl
  | flashAnswer ok => exact h.setEnv h.buffers
  | reset d => exact .resetStep h.config d

/-- From a state that meets the invariant a step has a next state, and that state meets it. -/
theorem step_goesOn (h : Inv s) : GoesOn (step s) := by
  rw [step_of_wf h.config, scheduledStep]
  split
  · exact runStep_goesOn h
  · exact runStep_goesOn (h.alike (.inl rfl))
  next a rest _ _ => exact goesOn_next.2 ((h.alike (k := s.setSchedule rest) (.inl rfl)).environmentStep a)

/-- Settles O11: every micro-step (`exec_goesOn`), the begin and the exit of a handler, and every step of the environment
keep the invariant (`step_goesOn`). -/
theorem everyStepKeepsTheInvariant : Obligations.EveryStepKeepsTheInvariant := fun _ _ h ht => by
  have hs := step_goesOn h
  rw [ht] at hs
  exact goesOn_next.1 hs

/-- Settles O12: under the invariant no micro-step forms an address outside its memory or meets a phase of another
command (`step_goesOn`). -/
theorem noStepStops : Obligations.NoStepStops := fun _ h =>
  have ⟨t, ht, _⟩ := step_goesOn h
  ⟨t, ht⟩

end Sys2Proof.Machine
end

section
/-! PROOFS. What a micro-step of a command can be, said once and without the invariant (`exec_microStep`), and what a step of
a run can be (`step_case`). From the two follow who steps, what is stored, how counters are checked, which fault bits stick
and that the claim windows stay shut. -/

namespace Sys2Proof.Machine

variable {s m t : State} {i : Instr}

/-! ### Changes of the units alone -/

/-- m is s after work of command i on the units, the counters and the environment: no queue register, no byte of QSM, no
context and not MASK is written, fault bits are only set, and at most one drop of a received packet is counted. -/
structure UnitWork (i : Instr) (s m : State) : Prop where
  frame : m = { s with
    link := m.link, accFatal := m.accFatal, txDrop := m.txDrop, rxDrop := m.rxDrop, crcFail := m.crcFail,
    faultEver := m.faultEver, ufr := m.ufr, spx := m.spx, acc := m.acc, env := m.env }
  accFatal : s.accFatal = true → m.accFatal = true
  faultEver : s.faultEver = true → m.faultEver = true
  txDrop : i.opcode ≠ .send → m.txDrop = s.txDrop
  rxDrop : (m.rxDrop = s.rxDrop ∧ m.crcFail = s.crcFail) ∨
    ((i.opcode = .evUartRx ∨ i.opcode = .evSpiDone) ∧
      ((m.rxDrop = s.rxDrop + 1 ∧ m.crcFail = s.crcFail) ∨ (m.rxDrop = s.rxDrop ∧ m.crcFail = s.crcFail + 1)))

namespace UnitWork

theorem refl (i : Instr) (s : State) : UnitWork i s s := ⟨rfl, id, id, fun _ => rfl, .inl ⟨rfl, rfl⟩⟩

variable (h : UnitWork i s m)
include h

theorem queues : m.queues = s.queues := by rw [h.frame]
theorem queue (q : QId) : m.queue q = s.queue q := by rw [State.queue, h.queues]; rfl
theorem qsm : m.qsm = s.qsm := by rw [h.frame]
theorem mask : m.mask = s.mask := by rw [h.frame]
theorem ctxs : m.ctxs = s.ctxs := by rw [h.frame]

end UnitWork

/-- A change that counts nothing. -/
theorem UnitWork.of_uncounted
    (h : m = { s with link := m.link, ufr := m.ufr, spx := m.spx, acc := m.acc, env := m.env }) : UnitWork i s m := by
  rw [h]; exact ⟨rfl, id, id, fun _ => rfl, .inl ⟨rfl, rfl⟩⟩

/-! ### The micro-steps -/

/-- From m the command i leaves its procedure: it answers, or goes on behind it. -/
def Leaves (i : Instr) (m t : State) : Prop :=
  (∃ p r, t = m.reply p r) ∨ (∃ st, t = m.goOn i (.afterEnqueue st)) ∨ ∃ v, t = m.goOn i (.spiRearm v)

/-- The commands that call ENQUEUE (40_queue.md R156; 44_comms.md R312, R314). -/
abbrev Instr.Enqueues (i : Instr) : Prop :=
  i.opcode = .enq ∨ i.opcode = .send ∨ i.opcode = .evUartRx ∨ i.opcode = .evSpiDone

/-- Everything that a micro-step of command i can be. -/
inductive MicroStep (i : Instr) (s t : State) : Prop
  | units (m : State) (hm : UnitWork i s m) (ht : Leaves i m t)
  | qinit (q : QId) (sp : Bool) (ceil : BitVec 4) (itemSize cap base : BitVec 16)
      (hi : i = .qinit q sp ceil itemSize cap base)
      (ht : Leaves i (s.setQueue q (.initialised ceil itemSize cap base)) t)
  | e1 (m : State) (q : QId) (item : List Byte) (hm : UnitWork i s m)
      (ht : t = (m.setMask (raisedMask m.mask (m.queue q).ceil)).goOn i (.enqueue (m.claim q item) .e2))
  | e2 (l : EnqLocals) (hph : s.phase = .enqueue l .e2) (ht : t = (enqueueE2 l s).goOn i (.enqueue l (l.copyFrom 0)))
  | e3 (l : EnqLocals) (j : Nat) (hi : Instr.Enqueues i) (hph : s.phase = .enqueue l (.e3 j))
      (ht : t = (s.setQsm (s.qsm.write (l.base + l.idx * l.size + j) (l.item.getD j 0))).goOn i
        (.enqueue l (l.copyFrom (j + 1))))
  | e4 (l : EnqLocals) (hph : s.phase = .enqueue l .e4) (ht : Leaves i (enqueueE4 l s).1 t)
  | reading (l : DeqLocals) (p : DeqPoint) (ht : t = s.goOn i (.dequeue l p))
  | d3 (l : DeqLocals) (hph : s.phase = .dequeue l .d3) (ht : t = (dequeueD3 l.q s).goOn i (.dequeue l .d4))
  | d4 (l : DeqLocals) (hph : s.phase = .dequeue l .d4) (ht : Leaves i (dequeueD4 l.q s) t)
  | pop (m k : State) (hm : UnitWork i s m) (hk : UnitWork i (dequeueD4 .q0 (dequeueD3 .q0 m)) k)
      (hrx : k.rxDrop = s.rxDrop ∧ k.crcFail = s.crcFail) (ht : Leaves i k t)

theorem Leaves.reply (i : Instr) (m : State) (p : Port) (r : Response) : Leaves i m (m.reply p r) := .inl ⟨p, r, rfl⟩

/-- Every next state of the outcome is a micro-step of i from s. -/
def IsMicroStep (i : Instr) (s : State) (o : Host.Outcome State Fault Refusal) : Prop :=
  ∀ t, o = .next t → MicroStep i s t

@[simp] theorem isMicroStep_next : IsMicroStep i s (.next t) ↔ MicroStep i s t :=
  ⟨fun h => h t rfl, fun h _ ht => by injection ht with ht; exact ht ▸ h⟩

@[simp] theorem isMicroStep_fault {f : Fault} : IsMicroStep i s (.fault f) := fun _ h => by simp at h

theorem isMicroStep_reply (hm : UnitWork i s m) (p : Port) (r : Response) : IsMicroStep i s (.next (m.reply p r)) :=
  isMicroStep_next.2 (.units m hm (.reply i m p r))

/-! ### The called procedures -/

theorem callEnqueue_microStep {q : QId} {item : List Byte} {ret : Status → State → State} (hm : UnitWork i s m)
    (hret : ∀ st, Leaves i m (ret st m)) : MicroStep i s (callEnqueue i q item ret m) := by
  rcases callEnqueue_cases m i q item ret with ⟨st, h, -⟩ | ⟨h, -⟩
  · rw [h]; exact .units m hm (hret st)
  · rw [h]; exact .e1 m q item hm rfl

theorem resumeEnqueue_microStep {l : EnqLocals} {p : EnqPoint} {ret : Status → State → State} (hi : Instr.Enqueues i)
    (hph : s.phase = .enqueue l p) (hret : ∀ st m, Leaves i m (ret st m)) :
    IsMicroStep i s (resumeEnqueue i l p ret s) := fun t h => by
  rcases resumeEnqueue_cases s h with ⟨rfl, rfl⟩ | ⟨j, rfl, -, rfl⟩ | ⟨rfl, rfl⟩
  · exact .e2 l hph rfl
  · exact .e3 l j hi hph rfl
  · exact .e4 l hph (hret _ _)

theorem callDequeue_microStep (q : QId) : MicroStep i s (callDequeue i q s) := by
  rcases callDequeue_cases s i q with ⟨st, h, -⟩ | ⟨h, -⟩
  · rw [h]; exact .units s (.refl i s) (.reply i s _ _)
  · rw [h]; exact .reading _ _ rfl

theorem resumeDequeue_microStep {l : DeqLocals} {p : DeqPoint} (hph : s.phase = .dequeue l p) :
    IsMicroStep i s (resumeDequeue i l p s) := fun t h => by
  rcases resumeDequeue_cases s h with ⟨j, l1, rfl, -, rfl, rfl⟩ | ⟨rfl, rfl⟩ | ⟨rfl, rfl⟩
  · exact .reading _ _ rfl
  · exact .d3 l hph rfl
  · exact .d4 l hph (.reply i _ _ _)

/-! ### The kicks and ACCEPT -/

/-- A kick changes units alone, or takes the front item of Q0 and then changes units alone. -/
def KickWork (m k : State) : Prop :=
  (k = { m with ufr := k.ufr, spx := k.spx, env := k.env }) ∨
    k = { dequeueD4 .q0 (dequeueD3 .q0 m) with ufr := k.ufr, spx := k.spx, env := k.env }

theorem kickUart_work {b : Bool} (h : kickUart s = .ok (t, b)) : KickWork s t := by
  rcases kickUart_cases s h with ⟨rfl, -⟩ | ⟨s1, r, -, hd, ⟨st, rfl, rfl, -⟩ | ⟨n, item, rfl, -, rfl⟩⟩
  · exact .inl rfl
  · rcases dequeueAtomic_cases s hd with ⟨st', rfl, -⟩ | ⟨rfl, -⟩
    · exact .inl rfl
    · exact .inr rfl
  · rcases dequeueAtomic_cases s hd with ⟨st', rfl, -⟩ | ⟨rfl, -⟩
    · exact .inl rfl
    · exact .inr rfl

theorem kickSpi_work {b : Bool} (h : kickSpi s = .ok (t, b)) : KickWork s t := by
  rcases kickSpi_cases s h with ⟨rfl, -⟩ | ⟨-, rfl, -⟩ |
    ⟨s1, r, -, hd, ⟨st, rfl, ⟨rfl, -⟩ | ⟨rfl, -⟩⟩ | ⟨n, item, rfl, -, rfl⟩⟩
  · exact .inl rfl
  · exact .inl rfl
  all_goals
    rcases dequeueAtomic_cases s hd with ⟨st', rfl, -⟩ | ⟨rfl, -⟩
    · exact .inl rfl
    · exact .inr rfl

theorem kickLink_work {b : Bool} (h : kickLink s = .ok (t, b)) : KickWork s t := by
  unfold kickLink at h
  split at h
  · exact kickSpi_work h
  · exact kickUart_work h
  · simp only [Except.ok.injEq, Prod.mk.injEq] at h
    exact .inl (h.1 ▸ rfl)

/-- A command that runs a kick after changes of the units, and answers. -/
theorem KickWork.microStep {k : State} (hk : KickWork m k) (hm : UnitWork i s m)
    (hrx : m.rxDrop = s.rxDrop ∧ m.crcFail = s.crcFail) (ht : Leaves i k t) : MicroStep i s t := by
  obtain ⟨hf, ha, he, htx, -⟩ := hm
  rcases hk with hk | hk
  · refine .units k ⟨?_, ?_, ?_, ?_, .inl ?_⟩ ht
    · rw [hk, hf]
    · rw [hk]; exact ha
    · rw [hk]; exact he
    · rw [hk]; exact htx
    · rw [hk]; exact hrx
  · refine .pop m k ⟨hf, ha, he, htx, .inl hrx⟩ (.of_uncounted ?_) ?_ ht
    · rw [hk]
    · rw [hk, (dequeueD4_counted (dequeueD3 .q0 m) .q0).frame, (dequeueD3_counted m .q0).frame]; exact hrx

theorem acceptA2_microStep {st : Status} {ret : Nat → State → State}
    (hi : i.opcode = .evUartRx ∨ i.opcode = .evSpiDone) (hret : ∀ a m, Leaves i m (ret a m)) :
    MicroStep i s (acceptA2 st ret s) := by
  unfold acceptA2
  split
  · exact .units s (.refl i s) (hret _ _)
  · exact .units (s.setRxDrop (s.rxDrop + 1)) ⟨rfl, id, id, fun _ => rfl, .inr ⟨hi, .inl ⟨rfl, rfl⟩⟩⟩ (hret _ _)

theorem callAccept_microStep {pkt : List Byte} {ret : Nat → State → State}
    (hi : i.opcode = .evUartRx ∨ i.opcode = .evSpiDone) (hret : ∀ a m, Leaves i m (ret a m))
    (hm : m = { s with ufr := m.ufr, spx := m.spx }) : MicroStep i s (callAccept i pkt ret m) := by
  have hw : UnitWork i s m := .of_uncounted (by rw [hm])
  have hrx : m.rxDrop = s.rxDrop ∧ m.crcFail = s.crcFail := by rw [hm]; exact ⟨rfl, rfl⟩
  rcases callAccept_cases m i pkt ret with ⟨h, -⟩ | ⟨h, -⟩ | ⟨h, -⟩
  · rw [h]; exact .units m hw (hret _ _)
  · rw [h]
    refine .units (m.setCrcFail (m.crcFail + 1)) ⟨?_, hw.accFatal, hw.faultEver, hw.txDrop,
      .inr ⟨hi, .inr ⟨hrx.1, congrArg (· + 1) hrx.2⟩⟩⟩ (hret _ _)
    rw [hm]; rfl
  · rw [h]; exact callEnqueue_microStep hw fun st => .inr (.inl ⟨st, rfl⟩)

/-! ### The commands -/

theorem execSend_microStep (payload : List Byte) : IsMicroStep (.send payload) s (execSend payload s) := by
  have counted : ∀ n, UnitWork (.send payload) s (s.setTxDrop n) := fun n =>
    ⟨rfl, id, id, fun h => absurd rfl h, .inl ⟨rfl, rfl⟩⟩
  unfold execSend
  split
  case h_1 =>
    split_ifs
    · exact isMicroStep_reply (counted _) _ _
    · exact isMicroStep_next.2 (callEnqueue_microStep (.refl _ _) fun st => .inr (.inl ⟨st, rfl⟩))
  case h_2 l p hph => exact resumeEnqueue_microStep (.inr (.inl rfl)) hph fun st m => .inr (.inl ⟨st, rfl⟩)
  case h_3 st hph =>
    unfold sendT2
    split
    · simp
    next k b hk =>
      refine isMicroStep_next.2 ((kickLink_work hk).microStep ?_ ?_ (.reply _ _ _ _)) <;> split_ifs
      · exact .refl _ _
      · exact counted _
      · exact ⟨rfl, rfl⟩
      · exact ⟨rfl, rfl⟩
  all_goals exact isMicroStep_fault

theorem execEvUartRx_microStep (b : Byte) : IsMicroStep (.evUartRx b) s (execEvUartRx b s) := by
  have admitted : ∀ a m, Leaves (.evUartRx b) m (uartAdmitted a m) := fun a m => .reply _ m _ _
  unfold execEvUartRx
  split
  case h_1 =>
    split_ifs
    · exact isMicroStep_reply (.refl _ _) _ _
    split
    · exact isMicroStep_reply (.of_uncounted rfl) _ _
    · exact isMicroStep_reply (.of_uncounted rfl) _ _
    · split
      · simp
      · exact isMicroStep_reply (.of_uncounted rfl) _ _
      · exact isMicroStep_next.2 (callAccept_microStep (.inl rfl) admitted rfl)
  case h_2 l p hph => exact resumeEnqueue_microStep (.inr (.inr (.inl rfl))) hph fun st m => .inr (.inl ⟨st, rfl⟩)
  case h_3 st hph => exact isMicroStep_next.2 (acceptA2_microStep (.inl rfl) admitted)
  all_goals exact isMicroStep_fault

theorem execEvSpiDone_microStep (rx : List Byte) : IsMicroStep (.evSpiDone rx) s (execEvSpiDone rx s) := by
  have admitted : ∀ a m, Leaves (.evSpiDone rx) m (spiAdmitted rx a m) := fun a m => .inr (.inr ⟨_, rfl⟩)
  unfold execEvSpiDone
  split
  case h_1 =>
    dsimp only
    split_ifs
    · exact isMicroStep_reply (.refl _ _) _ _
    · exact isMicroStep_reply (.refl _ _) _ _
    · exact isMicroStep_next.2 (.units (s.setSpx { s.spx with selected := false, busy := false }) (.of_uncounted rfl)
        (.inr (.inr ⟨0, rfl⟩)))
    · exact isMicroStep_next.2 (callAccept_microStep (.inr rfl) admitted rfl)
  case h_2 l p hph => exact resumeEnqueue_microStep (.inr (.inr (.inr rfl))) hph fun st m => .inr (.inl ⟨st, rfl⟩)
  case h_3 st hph => exact isMicroStep_next.2 (acceptA2_microStep (.inr rfl) admitted)
  case h_4 v hph => exact isMicroStep_reply (.of_uncounted rfl) _ _
  all_goals exact isMicroStep_fault

theorem edgeHandler_microStep {pend : Bool} {after : Spx} : IsMicroStep i s (edgeHandler pend after s) := by
  unfold edgeHandler
  split_ifs
  · exact isMicroStep_reply (.refl _ _) _ _
  · exact isMicroStep_reply (.refl _ _) _ _
  · split
    · simp
    next k b hk =>
      exact isMicroStep_next.2 ((kickSpi_work hk).microStep (.of_uncounted rfl) ⟨rfl, rfl⟩ (.reply _ _ _ _))

theorem chunkEffect_unitWork {page : BitVec 16} {ci cc : BitVec 8} {payload : List Byte} (i : Instr) (s : State) :
    UnitWork i s (chunkEffect page ci cc payload s).1 := by
  cases hlive : s.accFatal with
  | true => rw [chunkEffect, if_pos hlive]; exact .refl i s
  | false =>
    by_cases hok : s.ChunkOk page ci cc payload.length
    · by_cases hdone : bitmapAfter s.cfg s.acc.bitmap ci cc = 0
      · rw [chunkEffect_of_complete hlive hok hdone]
        rcases chunkCommit_cases (s.pageComplete page ci payload) with ⟨e, -, -, hc⟩ | hc
        · rw [hc]; exact ⟨rfl, fun _ => rfl, fun _ => rfl, fun _ => rfl, .inl ⟨rfl, rfl⟩⟩
        · rw [hc]; exact .of_uncounted rfl
      · rw [chunkEffect_valid hlive hok]
        exact (if_pos hdone : _ = _) ▸ .of_uncounted rfl
    · rw [chunkEffect, if_neg (by simp [hlive]), if_pos (by rw [chunkValid_eq_decide, decide_eq_false hok]; rfl)]
      exact .of_uncounted rfl

/-- What `exec` can do, for every command and from every state. -/
theorem exec_isMicroStep (i : Instr) (s : State) : IsMicroStep i s (exec i s) := by
  have answers := fun {m : State} => isMicroStep_reply (i := i) (s := s) (m := m)
  cases i with
  | qinit q sp ceil itemSize cap base =>
    by_cases h : QinitAccepts s.cfg sp ceil itemSize cap base
    · rw [exec_qinit_of_accepts q h]
      exact isMicroStep_next.2 (.qinit q sp ceil itemSize cap base rfl (.reply _ _ _ _))
    · rw [exec_qinit_of_not_accepts q h]; exact answers (.refl _ _) _ _
  | enq q data =>
    simp only [exec, execEnq]
    split
    case h_1 =>
      split_ifs
      · exact answers (.refl _ _) _ _
      · exact answers (.refl _ _) _ _
      · exact answers (.refl _ _) _ _
      · exact isMicroStep_next.2 (callEnqueue_microStep (.refl _ _) fun st => .reply _ _ _ _)
    case h_2 l p hph => exact resumeEnqueue_microStep (.inl rfl) hph fun st m => .reply _ _ _ _
    all_goals exact isMicroStep_fault
  | deq q =>
    simp only [exec, execDeq]
    split
    case h_1 => exact isMicroStep_next.2 (callDequeue_microStep q)
    case h_2 l p hph => exact resumeDequeue_microStep hph
    all_goals exact isMicroStep_fault
  | recv =>
    simp only [exec, execRecv]
    split
    case h_1 => exact isMicroStep_next.2 (callDequeue_microStep .q1)
    case h_2 l p hph => exact resumeDequeue_microStep hph
    all_goals exact isMicroStep_fault
  | qcount q => simp only [exec, execQcount]; split_ifs <;> exact answers (.refl _ _) _ _
  | qfree q => simp only [exec, execQfree]; split_ifs <;> exact answers (.refl _ _) _ _
  | crcCompute data => exact answers (.refl _ _) _ _
  | crcAppend payload => simp only [exec, execCrcAppend]; split_ifs <;> exact answers (.refl _ _) _ _
  | crcVerify data => exact answers (.refl _ _) _ _
  | linkInit link => simp only [exec, execLinkInit]; split_ifs <;> exact answers (.of_uncounted rfl) _ _
  | send payload => exact execSend_microStep payload
  | kick =>
    simp only [exec, execKick]
    split
    · simp
    next k b hk => exact isMicroStep_next.2 ((kickLink_work hk).microStep (.refl _ _) ⟨rfl, rfl⟩ (.reply _ _ _ _))
  | chunk page ci cc payload => exact answers (chunkEffect_unitWork _ s) _ _
  | regRead reg => simp only [exec, execRegRead]; split <;> exact answers (.refl _ _) _ _
  | evUartRx b => exact execEvUartRx_microStep b
  | evUartErr kind => simp only [exec, execEvUartErr]; split_ifs <;> exact answers (.of_uncounted rfl) _ _
  | evUartTxDone =>
    simp only [exec, execEvUartTxDone]
    split_ifs
    · exact answers (.refl _ _) _ _
    · exact answers (.refl _ _) _ _
    · split
      · simp
      next k b hk =>
        exact isMicroStep_next.2 ((kickUart_work hk).microStep (.of_uncounted rfl) ⟨rfl, rfl⟩ (.reply _ _ _ _))
  | evSpiDone rx => exact execEvSpiDone_microStep rx
  | evCtsEdge => exact edgeHandler_microStep
  | evMwEdge => exact edgeHandler_microStep

theorem exec_microStep (h : exec i s = .next t) : MicroStep i s t := exec_isMicroStep i s t h

/-! ### What a micro-step does to a queue, to QSM and to the contexts -/

namespace Leaves

variable (h : Leaves i m t)
include h

theorem queue (q : QId) : t.queue q = m.queue q := by
  obtain ⟨p, r, rfl⟩ | ⟨st, rfl⟩ | ⟨v, rfl⟩ := h
  · exact m.reply_queue _ _ q
  · rfl
  · rfl

theorem qsm : t.qsm = m.qsm := by
  obtain ⟨p, r, rfl⟩ | ⟨st, rfl⟩ | ⟨v, rfl⟩ := h
  · exact m.reply_qsm _ _
  · rfl
  · rfl

theorem mask : t.mask = m.mask := by
  obtain ⟨p, r, rfl⟩ | ⟨st, rfl⟩ | ⟨v, rfl⟩ := h
  · exact m.reply_mask _ _
  · rfl
  · rfl

end Leaves

/-- What a micro-step leaves the queues with. -/
inductive QueueStep (i : Instr) (q : QId) (s t : State) : Prop
  | same (h : t.queue q = s.queue q)
  | qinit (sp : Bool) (ceil : BitVec 4) (itemSize cap base : BitVec 16) (hi : i = .qinit q sp ceil itemSize cap base)
      (h : t.queue q = .initialised ceil itemSize cap base)
  | counted (r : Queue) (hq : (s.queue q).qinv = true → r.qinv = true)
      (h : t.queue q = { r with qinv := r.qinv || !decide r.countersOk })

theorem QueueStep.of_counted {p : QId} {r : Queue} {v : BitVec 4} (h : Counted p r v s m)
    (hr : (s.queue p).qinv = true → r.qinv = true) (hm : ∀ q, t.queue q = m.queue q) (q : QId) : QueueStep i q s t := by
  by_cases hq : q = p
  · subst hq; exact .counted r hr ((hm q).trans h.queue_self)
  · exact .same ((hm q).trans (h.queue_of_ne hq))

/-- A queue is left as it was, initialised anew, or has its counters checked after a write (40_queue.md R150). -/
theorem MicroStep.queueStep (h : MicroStep i s t) (q : QId) : QueueStep i q s t := by
  cases h with
  | units m hm ht => exact .same ((ht.queue q).trans (hm.queue q))
  | qinit p sp ceil itemSize cap base hi ht =>
    by_cases hq : q = p
    · subst hq; exact .qinit sp ceil itemSize cap base hi ((ht.queue q).trans (s.setQueue_queue_self q _))
    · exact .same ((ht.queue q).trans (s.setQueue_queue_of_ne _ hq))
  | e1 m p item hm ht => rw [ht]; exact .same (hm.queue q)
  | e2 l hph ht => exact .of_counted (enqueueE2_counted s l) id (ht ▸ State.goOn_queue _ _ _) q
  | e3 l j hi hph ht => rw [ht]; exact .same rfl
  | e4 l hph ht => exact .of_counted (enqueueE4_counted s l) id ht.queue q
  | reading l p ht => rw [ht]; exact .same rfl
  | d3 l hph ht => exact .of_counted (dequeueD3_counted s l.q) id (ht ▸ State.goOn_queue _ _ _) q
  | d4 l hph ht => exact .of_counted (dequeueD4_counted s l.q) id ht.queue q
  | pop m k hm hk hrx ht =>
    have hd3 := dequeueD3_counted m .q0
    have hd4 := dequeueD4_counted (dequeueD3 .q0 m) .q0
    have ht4 : t.queue q = (dequeueD4 .q0 (dequeueD3 .q0 m)).queue q := (ht.queue q).trans (hk.queue q)
    by_cases hq : q = .q0
    · subst hq
      refine .counted _ (fun h => ?_) (ht4.trans hd4.queue_self)
      simp only [hd3.queue_self, hm.queue, h, Bool.true_or]
    · exact .same (ht4.trans ((hd4.queue_of_ne hq).trans ((hd3.queue_of_ne hq).trans (hm.queue q))))

/-- Only E3.j stores to QSM (40_queue.md R152). -/
theorem MicroStep.qsm (h : MicroStep i s t) : t.qsm = s.qsm ∨
    ∃ l j, Instr.Enqueues i ∧ s.phase = .enqueue l (.e3 j) ∧
      t.qsm = s.qsm.write (l.base + l.idx * l.size + j) (l.item.getD j 0) := by
  cases h with
  | units m hm ht => exact .inl (ht.qsm.trans hm.qsm)
  | qinit p sp ceil itemSize cap base hi ht => exact .inl ht.qsm
  | e1 m p item hm ht => rw [ht]; exact .inl hm.qsm
  | e2 l hph ht => rw [ht]; exact .inl ((enqueueE2_counted s l).frame ▸ rfl)
  | e3 l j hi hph ht => rw [ht]; exact .inr ⟨l, j, hi, hph, rfl⟩
  | e4 l hph ht => exact .inl (ht.qsm.trans ((enqueueE4_counted s l).frame ▸ rfl))
  | reading l p ht => rw [ht]; exact .inl rfl
  | d3 l hph ht => rw [ht]; exact .inl ((dequeueD3_counted s l.q).frame ▸ rfl)
  | d4 l hph ht => exact .inl (ht.qsm.trans ((dequeueD4_counted s l.q).frame ▸ rfl))
  | pop m k hm hk hrx ht =>
    refine .inl (ht.qsm.trans (hk.qsm.trans ?_))
    rw [(dequeueD4_counted (dequeueD3 .q0 m) .q0).frame, (dequeueD3_counted m .q0).frame]
    exact hm.qsm

/-- Settles O16: a micro-step that writes QSM is E3.j, of a command that calls ENQUEUE (`MicroStep.qsm`). -/
theorem onlyTheCopyMicroStepStores : Obligations.OnlyTheCopyMicroStepStores := by
  intro i s t hwf h a ha
  rcases (exec_microStep h).qsm with hq | ⟨l, j, hi, hph, hq⟩
  · rw [hq]
  · rcases ha with ⟨h1, h2, h3, h4⟩ | ha
    · exact (hi.elim h1 fun hi => hi.elim h2 fun hi => hi.elim h3 h4).elim
    · rw [hq, Memory.read_write hwf, if_neg (ha l j hph)]

theorem Counted.accFatal {q : QId} {r : Queue} {v : BitVec 4} (h : Counted q r v s t) : t.accFatal = s.accFatal := by
  rw [h.frame]

theorem Counted.faultEver_of {q : QId} {r : Queue} {v : BitVec 4} (h : Counted q r v s t) (hs : s.faultEver = true) :
    t.faultEver = true := by
  rw [h.faultEver, hs, Bool.true_or]

theorem Leaves.faults (h : Leaves i m t) : t.accFatal = m.accFatal ∧ t.faultEver = m.faultEver := by
  obtain ⟨p, r, rfl⟩ | ⟨st, rfl⟩ | ⟨v, rfl⟩ := h
  · exact ⟨m.reply_accFatal _ _, m.reply_faultEver _ _⟩
  · exact ⟨rfl, rfl⟩
  · exact ⟨rfl, rfl⟩

/-- No micro-step clears ACC_FATAL or the record of faults (10_state.md R36). -/
theorem MicroStep.faults (h : MicroStep i s t) :
    (s.accFatal = true → t.accFatal = true) ∧ (s.faultEver = true → t.faultEver = true) := by
  have counted : ∀ {q r v m}, Counted q r v s m → (s.accFatal = true → m.accFatal = true) ∧
      (s.faultEver = true → m.faultEver = true) := fun hc => ⟨fun h => hc.accFatal.trans h, hc.faultEver_of⟩
  cases h with
  | units m hm ht => rw [ht.faults.1, ht.faults.2]; exact ⟨hm.accFatal, hm.faultEver⟩
  | qinit p sp ceil itemSize cap base hi ht => rw [ht.faults.1, ht.faults.2]; exact ⟨id, id⟩
  | e1 m p item hm ht => rw [ht]; exact ⟨hm.accFatal, hm.faultEver⟩
  | e2 l hph ht => have hc := counted (enqueueE2_counted s l); rw [ht]; exact hc
  | e3 l j hi hph ht => rw [ht]; exact ⟨id, id⟩
  | e4 l hph ht => rw [ht.faults.1, ht.faults.2]; exact counted (enqueueE4_counted s l)
  | reading l p ht => rw [ht]; exact ⟨id, id⟩
  | d3 l hph ht => have hc := counted (dequeueD3_counted s l.q); rw [ht]; exact hc
  | d4 l hph ht => rw [ht.faults.1, ht.faults.2]; exact counted (dequeueD4_counted s l.q)
  | pop m k hm hk hrx ht =>
    have hd3 := dequeueD3_counted m .q0
    have hd4 := dequeueD4_counted (dequeueD3 .q0 m) .q0
    rw [ht.faults.1, ht.faults.2]
    exact ⟨fun h => hk.accFatal (hd4.accFatal.trans (hd3.accFatal.trans (hm.accFatal h))),
      fun h => hk.faultEver (hd4.faultEver_of (hd3.faultEver_of (hm.faultEver h)))⟩

end Sys2Proof.Machine
end

section
/-! PROOFS. What a step of a run can be, and what follows from it and from `exec_microStep`: who steps, that counters are
checked when they are written, which fault bits stick, and that the claim windows stay shut (10_state.md sections 3 and 4;
20_memory.md section 8; 60_exceptions.md section 3). -/

namespace Sys2Proof.Machine

variable {s k m t : State} {i : Instr}

/-! ### The steps of a run -/

/-- Everything that a step of a run can be: a micro-step of a command, the answer to an illegal one or the exit of a handler,
in a state that differs in its stream and schedule alone; a step that changes nothing that FTC reads of queues and contexts;
an entry; a reset. -/
inductive StepCase (s t : State) : Prop
  | command (i : Instr) (k : State) (hk : Alike s k) (h : exec i k = .next t)
  | answer (k : State) (p : Port) (r : Response) (hk : Alike s k) (ht : t = k.reply p r)
  | exit (k : State) (hk : Alike s k) (ht : t = k.exitContext k.running)
  | still (ht : Alike s t)
  | enter (tail : List Action) (hs : s.schedule = .enter :: tail) (ht : t = enterStep (s.setSchedule tail))
  | reset (d : ResetDraw) (tail : List Action) (hs : s.schedule = .reset d :: tail)
      (ht : t = resetStep d (s.setSchedule tail))

theorem Alike.refl (s : State) : Alike s s := ⟨rfl, rfl, rfl, fun _ => rfl, fun _ => rfl, fun _ => rfl⟩

theorem beginCommand_case (hk : Alike s k) (h : beginCommand k = .next t) : StepCase s t := by
  unfold beginCommand at h
  split at h
  · simp only [Host.Outcome.next.injEq] at h
    split at h
    · exact .still (h ▸ hk)
    · exact .exit k hk h.symm
  next why word0 rest _ =>
    injection h with h
    exact .answer _ _ _ (hk.trans (Alike.setStream k rest)) h.symm
  next i rest _ => exact .command i _ (hk.trans (Alike.setStream k rest)) h

theorem runStep_case (hk : Alike s k) (h : runStep k = .next t) : StepCase s t := by
  unfold runStep at h
  split at h
  next i ph _ => exact .command i k hk h
  · exact beginCommand_case hk h
  · exact beginCommand_case hk h

/-- A step of the environment that is neither an entry nor a reset. -/
theorem environmentStep_alike (s : State) {a : Action} (he : a ≠ .enter) (hr : ∀ d, a ≠ .reset d) :
    Alike s (environmentStep a s) := by
  cases a with
  | enter => exact absurd rfl he
  | reset d => exact absurd rfl (hr d)
  | supply u bytes =>
    have hctx : ∀ v, (environmentStep (.supply u bytes) s).ctx v =
        if v = u then { s.ctx u with stream := (s.ctx u).stream ++ bytes } else s.ctx v := fun v => s.setCtx_ctx _ _ _
    refine ⟨rfl, rfl, rfl, fun v => ?_, fun v => ?_, fun v => ?_⟩ <;>
    · rw [hctx]; split
      next e => rw [e]
      · rfl
  | _ => exact ⟨rfl, rfl, rfl, fun _ => rfl, fun _ => rfl, fun _ => rfl⟩

theorem step_case (h : step s = .next t) : StepCase s t := by
  unfold step scheduledStep at h
  split at h
  · split at h
    · exact runStep_case (.refl s) h
    · exact runStep_case (.setSchedule s _) h
    next a rest hne hs =>
      injection h with h
      subst h
      by_cases he : a = .enter
      · subst he; exact .enter rest hs rfl
      by_cases hr : ∃ d, a = .reset d
      · obtain ⟨d, rfl⟩ := hr; exact .reset d rest hs rfl
      · exact .still ((Alike.setSchedule s rest).trans
          (environmentStep_alike _ he fun d hd => hr ⟨d, hd⟩))
  · simp at h

/-! ### Counters and fault bits -/

theorem Queue.checked_ok (r : Queue) (h : (r.qinv || !decide r.countersOk) = false) : r.countersOk := by
  simp only [Bool.or_eq_false_iff, Bool.not_eq_false', decide_eq_true_eq] at h
  exact h.2

/-- Settles O14: a step that writes a counter is QINIT or reset, which leave all counters 0, or checks them after the write
(`MicroStep.queueStep`). -/
theorem countersAreCheckedWhenWritten : Obligations.CountersAreCheckedWhenWritten := by
  intro s t q h hw
  have unchanged : t.queue q ≠ s.queue q := fun e => by simp [e] at hw
  cases step_case h with
  | command i k hk h =>
    cases (exec_microStep h).queueStep q with
    | same h => exact absurd (h.trans (hk.queue q)) unchanged
    | qinit sp ceil itemSize cap base hi h => left; rw [h]; simp [BitVec.le_def]
    | counted r hq h =>
      rw [h]
      cases hok : (r.qinv || !decide r.countersOk) with
      | true => exact .inr rfl
      | false => exact .inl (r.checked_ok hok)
  | answer k p r hk ht => exact absurd (ht ▸ (k.reply_queue r p q).trans (hk.queue q)) unchanged
  | exit k hk ht => exact absurd (ht ▸ hk.queue q) unchanged
  | still ht => exact absurd (ht.queue q) unchanged
  | enter tail hs ht => exact absurd (ht ▸ queue_congr (quiet_enter (s.setSchedule tail)).1 q) unchanged
  | reset d tail hs ht => left; rw [ht, show (resetStep d _).queue q = .reset from Queues.reset_get q]; decide

theorem enterStep_faults (s : State) :
    (enterStep s).accFatal = s.accFatal ∧ (enterStep s).faultEver = s.faultEver := by
  unfold enterStep; split <;> exact ⟨rfl, rfl⟩

/-- Settles O15: no micro-step clears ACC_FATAL or the record of faults (`MicroStep.faults`), a checked queue keeps its QINV,
and the environment writes none of them but by reset. -/
theorem faultBitsAreSticky : Obligations.FaultBitsAreSticky := by
  refine ⟨fun i s t h => ⟨(exec_microStep h).faults.1, (exec_microStep h).faults.2, fun q hq => ?_⟩,
    fun a s ha => ?_, fun d s => ⟨rfl, fun q => ?_, rfl⟩⟩
  · cases (exec_microStep h).queueStep q with
    | same h => exact .inl (h ▸ hq)
    | qinit sp ceil itemSize cap base hi h => exact .inr ⟨sp, ceil, itemSize, cap, base, hi⟩
    | counted r hr h => left; rw [h]; simp only [hr hq, Bool.true_or]
  · have hqueue := fun q => congrArg Queue.qinv (queue_congr (quiet_env s a ha).1 q)
    cases a with
    | reset d => exact absurd rfl (ha d)
    | enter => exact ⟨(enterStep_faults s).1, (enterStep_faults s).2, hqueue⟩
    | _ => exact ⟨rfl, rfl, hqueue⟩
  · exact congrArg Queue.qinv (Queues.reset_get q)

/-! ### The contexts -/

/-- Only the running context's record and flag change, and the flag is not set. -/
structure CtxStep (s t : State) : Prop where
  others : ∀ u, u ≠ s.running → t.ctx u = s.ctx u
  entered : (t.ctx s.running).entered = true → (s.ctx s.running).entered = true

theorem CtxStep.reply (hc : m.ctxs = s.ctxs) (p : Port) (r : Response) : CtxStep s (m.reply p r) := by
  have hr := State.running_of_ctxs hc
  refine ⟨fun u hu => ?_, fun he => ?_⟩
  · rw [(m.reply_ended p r).2.2.1 u (hr ▸ hu), State.ctx_of_ctxs hc]
  · rw [← State.ctx_of_ctxs hc]; exact (m.reply_ctx r p s.running).2 he

theorem CtxStep.goOn (hc : m.ctxs = s.ctxs) (i : Instr) (ph : Phase) : CtxStep s (m.goOn i ph) := by
  have hr := State.running_of_ctxs hc
  refine ⟨fun u hu => ?_, fun he => ?_⟩
  · rw [State.goOn_ctx, if_neg (hr ▸ hu), State.ctx_of_ctxs hc]
  · rw [State.goOn_ctx, if_pos hr.symm, hr, State.ctx_of_ctxs hc] at he; exact he

theorem goOn_record_of_ctxs (hc : m.ctxs = s.ctxs) (i : Instr) (ph : Phase) :
    ((m.goOn i ph).ctx s.running).record = .busy i ph := by
  rw [State.goOn_ctx, if_pos (State.running_of_ctxs hc).symm]

theorem Leaves.ctxStep (h : Leaves i m t) (hc : m.ctxs = s.ctxs) : CtxStep s t := by
  obtain ⟨p, r, rfl⟩ | ⟨st, rfl⟩ | ⟨v, rfl⟩ := h
  · exact .reply hc p r
  · exact .goOn hc i _
  · exact .goOn hc i _

theorem pop_ctxs (m : State) : (dequeueD4 .q0 (dequeueD3 .q0 m)).ctxs = m.ctxs :=
  (dequeueD4_counted _ _).ctxs.trans (dequeueD3_counted _ _).ctxs

theorem MicroStep.ctxStep (h : MicroStep i s t) : CtxStep s t := by
  cases h with
  | units m hm ht => exact ht.ctxStep hm.ctxs
  | qinit p sp ceil itemSize cap base hi ht => exact ht.ctxStep rfl
  | e1 m p item hm ht => rw [ht]; exact .goOn (m := m.setMask (raisedMask m.mask (m.queue p).ceil)) hm.ctxs _ _
  | e2 l hph ht => rw [ht]; exact .goOn (enqueueE2_counted s l).ctxs _ _
  | e3 l j hi hph ht => rw [ht]; exact .goOn (s := s) (State.setQsm_ctxs (s := s) _) _ _
  | e4 l hph ht => exact ht.ctxStep (enqueueE4_counted s l).ctxs
  | reading l p ht => rw [ht]; exact .goOn rfl _ _
  | d3 l hph ht => rw [ht]; exact .goOn (dequeueD3_counted s l.q).ctxs _ _
  | d4 l hph ht => exact ht.ctxStep (dequeueD4_counted s l.q).ctxs
  | pop m k hm hk hrx ht => exact ht.ctxStep (hk.ctxs.trans ((pop_ctxs m).trans hm.ctxs))

theorem CtxStep.exit (s : State) : CtxStep s (s.exitContext s.running) :=
  ⟨fun u hu => by rw [State.exitContext_ctx, if_neg hu], fun he => by
    rw [State.exitContext_ctx, if_pos rfl] at he; exact absurd he (by simp)⟩

/-- An entry enters one context that could be entered, or none. -/
theorem enterStep_ctx (s : State) (u : Level) : ((enterStep s).ctx u = s.ctx u) ∨
    (s.canEnter u = true ∧ ((enterStep s).ctx u).entered = true ∧ ∃ p, ((enterStep s).ctx u).record = .start p) := by
  unfold enterStep
  split
  · exact .inl rfl
  next c hc =>
    have hadm := (List.mem_filter.1 (highest_mem hc)).2
    by_cases hu : u = c.level
    · subst hu
      right
      rw [State.enterContext_ctx, if_pos rfl]
      exact ⟨hadm, rfl, c.port, rfl⟩
    · left; rw [State.enterContext_ctx, if_neg hu]; rfl

theorem Alike.otherContexts (hk : Alike s k) (h : CtxStep k t) {u : Level} (hu : u ≠ s.running) :
    (t.ctx u).record = (s.ctx u).record ∧ (t.ctx u).entered = (s.ctx u).entered := by
  rw [h.others u (hk.running ▸ hu)]
  exact ⟨hk.record u, hk.entered u⟩

/-- Settles O9: micro-steps, answers and exits write the running context alone (`CtxStep`), an entry writes the entered one
(`enterStep_ctx`), and no other step writes a record or a flag. -/
theorem otherContextsKeepTheirRecords : Obligations.OtherContextsKeepTheirRecords := by
  intro s t u h hu hreset
  cases step_case h with
  | command i k hk h => exact .inl (hk.otherContexts (exec_microStep h).ctxStep hu)
  | answer k p r hk ht => exact .inl (hk.otherContexts (ht ▸ .reply rfl p r) hu)
  | exit k hk ht => exact .inl (hk.otherContexts (ht ▸ .exit k) hu)
  | still ht => exact .inl ⟨ht.record u, ht.entered u⟩
  | enter tail hs ht =>
    rcases enterStep_ctx (s.setSchedule tail) u with hsame | ⟨hadm, hent, hrec⟩
    · exact .inl (by rw [ht, hsame]; exact ⟨rfl, rfl⟩)
    · exact .inr ⟨⟨tail, hs⟩, hadm, ht ▸ hent, ht ▸ hrec⟩
  | reset d tail hs ht => exact absurd hs (hreset d tail)

/-! ### The claim windows (20_memory.md R94; 60_exceptions.md R419) -/

theorem toNat_raisedMask (mask ceil : BitVec 4) : (raisedMask mask ceil).toNat = max mask.toNat ceil.toNat := by
  unfold raisedMask
  split
  next h => rw [BitVec.lt_def] at h; omega
  next h => rw [BitVec.lt_def] at h; omega

theorem le_raisedMask (mask ceil : BitVec 4) : mask ≤ raisedMask mask ceil ∧ ceil ≤ raisedMask mask ceil := by
  simp only [BitVec.le_def, toNat_raisedMask]; omega

theorem Record.windowSaved_eq_none {r : Record} (h : r.windowQueue = none) : r.windowSaved = none := by
  unfold Record.windowQueue at h
  unfold Record.windowSaved
  split at h
  · simp at h
  next => rfl

/-- What a step does to MASK and to the claim window of the running context (40_queue.md R152). -/
inductive WindowStep (s t : State) : Prop
  | none (hm : t.mask = s.mask) (hr : (t.ctx s.running).record.windowQueue = none)
  | opens (q : QId) (hm : t.mask = raisedMask s.mask (t.queue q).ceil)
      (hr : (t.ctx s.running).record.windowQueue = some q) (hsaved : (t.ctx s.running).record.windowSaved = some s.mask)
  | closes (hs : s.record.windowSaved = some t.mask) (hr : (t.ctx s.running).record.windowQueue = none)

theorem Leaves.window (h : Leaves i m t) (hc : m.ctxs = s.ctxs) :
    (t.ctx s.running).record.windowQueue = none := by
  obtain ⟨p, r, rfl⟩ | ⟨st, rfl⟩ | ⟨v, rfl⟩ := h
  · rw [(m.reply_ctx r p s.running).1, if_pos (State.running_of_ctxs hc).symm]; rfl
  · rw [goOn_record_of_ctxs hc]; rfl
  · rw [goOn_record_of_ctxs hc]; rfl

theorem windowQueue_copyFrom (i : Instr) (l : EnqLocals) (j : Nat) :
    (Record.busy i (.enqueue l (l.copyFrom j))).windowQueue = none := by
  unfold EnqLocals.copyFrom; split <;> rfl

theorem State.windowSaved_of_phase {l : EnqLocals} (h : s.phase = .enqueue l .e2) : s.record.windowSaved = some l.saved := by
  unfold State.phase at h
  split at h
  next i ph hr => rw [hr, h]; rfl
  · simp at h

theorem MicroStep.windowStep (h : MicroStep i s t) : WindowStep s t := by
  cases h with
  | units m hm ht => exact .none (ht.mask.trans hm.mask) (ht.window hm.ctxs)
  | qinit p sp ceil itemSize cap base hi ht => exact .none ht.mask (ht.window rfl)
  | e1 m q item hm ht =>
    have hrec := goOn_record_of_ctxs (m := m.setMask (raisedMask m.mask (m.queue q).ceil)) hm.ctxs i
      (.enqueue (m.claim q item) .e2)
    rw [ht]
    refine .opens q (congrArg (raisedMask · _) hm.mask) (by rw [hrec]; rfl) ?_
    rw [hrec, ← hm.mask]; rfl
  | e2 l hph ht =>
    rw [ht]
    refine .closes ?_ ?_
    · rw [State.windowSaved_of_phase hph]; exact congrArg some (enqueueE2_counted s l).mask.symm
    · rw [goOn_record_of_ctxs (enqueueE2_counted s l).ctxs]; exact windowQueue_copyFrom i l 0
  | e3 l j hi hph ht =>
    rw [ht]
    exact .none rfl (by rw [goOn_record_of_ctxs (State.setQsm_ctxs (s := s) _)]; exact windowQueue_copyFrom i l _)
  | e4 l hph ht =>
    exact .none (ht.mask.trans (enqueueE4_counted s l).mask) (ht.window (enqueueE4_counted s l).ctxs)
  | reading l p ht => rw [ht]; exact .none rfl (by rw [goOn_record_of_ctxs rfl]; rfl)
  | d3 l hph ht =>
    rw [ht]
    exact .none (dequeueD3_counted s l.q).mask (by rw [goOn_record_of_ctxs (dequeueD3_counted s l.q).ctxs]; rfl)
  | d4 l hph ht =>
    exact .none (ht.mask.trans (dequeueD4_counted s l.q).mask) (ht.window (dequeueD4_counted s l.q).ctxs)
  | pop m k hm hk hrx ht =>
    refine .none (ht.mask.trans (hk.mask.trans ?_)) (ht.window (hk.ctxs.trans ((pop_ctxs m).trans hm.ctxs)))
    exact (dequeueD4_counted _ _).mask.trans ((dequeueD3_counted _ _).mask.trans hm.mask)

/-- The step changes no CEIL under an open window. -/
abbrev State.KeepsCeilings (s t : State) : Prop :=
  ∀ (w : Level) (q : QId), (s.ctx w).record.windowQueue = some q → (t.queue q).ceil = (s.queue q).ceil

/-- A step of the running context keeps the windows shut: no context above it is entered or in progress, MASK goes up to CEIL
when a window opens, and is put back to a saved value that is still at least every lower CEIL when one closes. -/
theorem State.WindowsShut.step (hs : s.WindowsShut) (habove : ∀ u, s.running < u → (s.ctx u).record = .idle)
    (hc : CtxStep s t) (hw : WindowStep s t) (hceil : s.KeepsCeilings t) : t.WindowsShut := by
  intro w q hwq
  by_cases hwr : w = s.running
  · subst hwr
    cases hw with
    | none hm hr => rw [hr] at hwq; exact absurd hwq (by simp)
    | closes hs hr => rw [hr] at hwq; exact absurd hwq (by simp)
    | opens q' hm hr hsaved =>
      obtain rfl : q' = q := Option.some.inj (hr.symm.trans hwq)
      refine ⟨hm ▸ (le_raisedMask _ _).2, fun u hu => ?_⟩
      rw [hc.others u hu.ne']
      refine ⟨fun he => absurd (s.le_running he) (not_le.2 hu), fun m hm => ?_⟩
      rw [habove u hu] at hm
      exact absurd hm (by simp [Record.windowSaved])
  · rw [hc.others w hwr] at hwq
    rw [hceil w q hwq]
    obtain ⟨hmask, hup⟩ := hs w q hwq
    have hlt : w < s.running := by
      refine lt_of_le_of_ne (not_lt.1 fun h => ?_) hwr
      rw [habove w h] at hwq
      exact absurd hwq (by simp [Record.windowQueue])
    refine ⟨?_, fun u hu => ?_⟩
    · cases hw with
      | none hm hr => rw [hm]; exact hmask
      | opens q' hm hr hsaved => rw [hm]; exact BitVec.le_trans hmask (le_raisedMask _ _).1
      | closes hs hr => exact (hup _ hlt).2 _ hs
    · by_cases hur : u = s.running
      · subst hur
        refine ⟨fun he => (hup _ hu).1 (hc.entered he), fun m hsm => ?_⟩
        cases hw with
        | none hm hr => rw [Record.windowSaved_eq_none hr] at hsm; exact absurd hsm (by simp)
        | closes hs hr => rw [Record.windowSaved_eq_none hr] at hsm; exact absurd hsm (by simp)
        | opens q' hm hr hsaved => rw [← Option.some.inj (hsaved.symm.trans hsm)]; exact hmask
      · rw [hc.others u hur]; exact hup u hu

theorem Alike.windowsShut (hk : Alike s k) (hs : s.WindowsShut) : k.WindowsShut := by
  intro w q hwq
  rw [hk.record] at hwq
  rw [hk.queue, hk.mask]
  refine ⟨(hs w q hwq).1, fun u hu => ?_⟩
  rw [hk.entered, hk.record]
  exact (hs w q hwq).2 u hu

theorem State.WindowsShut.ceil_lt_of_canEnter (hs : s.WindowsShut) {w u : Level} {q : QId}
    (hw : (s.ctx w).record.windowQueue = some q) (hu : s.canEnter u = true) : (s.queue q).ceil.toNat < u.val :=
  lt_of_le_of_lt (BitVec.le_def.1 (hs w q hw).1) ((s.canEnter_iff u).1 hu).2.1

/-- An entry keeps the windows shut: the entered context is above MASK. -/
theorem State.WindowsShut.enterStep (hs : s.WindowsShut) : (enterStep s).WindowsShut := by
  have hmask : (Machine.enterStep s).mask = s.mask := by unfold Machine.enterStep; split <;> rfl
  have hqueue := queue_congr (quiet_enter s).1
  intro w q hwq
  rw [hqueue, hmask]
  have hws : (s.ctx w).record.windowQueue = some q := by
    rcases enterStep_ctx s w with h | ⟨-, -, p, hp⟩
    · rwa [h] at hwq
    · rw [hp] at hwq; exact absurd hwq (by simp [Record.windowQueue])
  refine ⟨(hs w q hws).1, fun u hu => ?_⟩
  rcases enterStep_ctx s u with h | ⟨hadm, -, p, hp⟩
  · rw [h]; exact (hs w q hws).2 u hu
  · exact ⟨fun _ => hs.ceil_lt_of_canEnter hws hadm, fun m hm => by rw [hp] at hm; exact absurd hm (by simp [Record.windowSaved])⟩

/-- Settles O13: a step of the running context opens a window under a raised MASK or closes one to the value it saved
(`State.WindowsShut.step`), and what is entered while one is open is above MASK (`State.WindowsShut.enterStep`). -/
theorem claimWindowsStayShut : Obligations.ClaimWindowsStayShut := by
  refine ⟨fun s t hinv hs h hceil => ?_, fun s w u q hs hw hu => hs.ceil_lt_of_canEnter hw hu⟩
  have turn : ∀ {k}, Alike s k → CtxStep k t → WindowStep k t → t.WindowsShut := fun {k} hk hc hw =>
    (hk.windowsShut hs).step (fun u hu => (hk.record u).trans (hinv.above (hk.running ▸ hu))) hc hw
      fun w q hwq => by rw [hk.record] at hwq; rw [hk.queue]; exact hceil w q hwq
  cases step_case h with
  | command i k hk h => exact turn hk (exec_microStep h).ctxStep (exec_microStep h).windowStep
  | answer k p r hk ht =>
    subst ht
    exact turn hk (.reply rfl p r) (.none (k.reply_mask r p) (by rw [(k.reply_ctx r p _).1, if_pos rfl]; rfl))
  | exit k hk ht =>
    subst ht
    exact turn hk (.exit k) (.none rfl (by rw [State.exitContext_ctx, if_pos rfl]; rfl))
  | still ht => exact ht.windowsShut hs
  | enter tail _ ht => exact ht ▸ ((Alike.setSchedule s tail).windowsShut hs).enterStep
  | reset d tail _ ht => exact ht ▸ State.windowsShut_of_idle fun u => by rw [resetStep_ctx]; rfl

end Sys2Proof.Machine
end

section
/-! PROOFS. Disciplined use of a queue under every interleaving: each move of a step, put together from what it keeps of
`QueueTidy` (40_queue.md section 3; 70_reset_and_hazards.md sections 2 and 3). -/

namespace Sys2Proof.Machine

variable {s t : State} {q : QId} {U : Usage}

/-- How the claimed items of queue q change in a step: not at all, E2 appends its item, D4 and a kick take the first off, reset
and QINIT empty the list. -/
abbrev State.ClaimsStep (s t : State) (q : QId) : Prop :=
  t.claims q = s.claims q ∨
  (∃ i l, s.turn = some i ∧ s.record = .busy i (.enqueue l .e2) ∧ l.q = q ∧ t.claims q = s.claims q ++ [l.item]) ∨
  (∃ i l, s.turn = some i ∧ s.record = .busy i (.dequeue l .d4) ∧ l.q = q ∧ s.claims q = l.out :: t.claims q ∧
    (t.ctx s.running).responses = (s.ctx s.running).responses ++ [⟨.ok, BitVec.ofNat 24 l.size, l.out⟩]) ∨
  (∃ i, s.turn = some i ∧ s.kicks i ∧ q = .q0 ∧ s.claims q = s.slot q (s.queue q).front.toNat :: t.claims q) ∨
  (t.claims q = [] ∧ ((∃ d tail, s.schedule = .reset d :: tail) ∨
    ∃ sp ceil itemSize cap base, s.turn = some (.qinit q sp ceil itemSize cap base)))

/-- A tidy queue after a step whose claimed items changed as they may. -/
abbrev State.StaysTidy (s t : State) (U : Usage) (q : QId) : Prop :=
  ((t.queue q).init = true → QueueTidy t U q) ∧ s.ClaimsStep t q

theorem State.staysTidy_of_kept (h : QueueTidy t U q ∧ t.claims q = s.claims q) : s.StaysTidy t U q :=
  ⟨fun _ => h.1, .inl h.2⟩

/-! ### Reset and QINIT -/

theorem State.claims_of_claimed_eq_zero (h : (s.queue q).claimed = 0) : s.claims q = [] := by
  unfold State.claims; rw [h]; rfl

theorem staysTidy_reset (hq : t.queue q = .reset) (hs : ∃ d tail, s.schedule = .reset d :: tail) : s.StaysTidy t U q :=
  ⟨fun hi => by rw [hq] at hi; simp [Queue.reset] at hi,
    .inr <| .inr <| .inr <| .inr ⟨State.claims_of_claimed_eq_zero (by rw [hq]; rfl), .inl hs⟩⟩

theorem staysTidy_qinit {sp : Bool} {ceil : BitVec 4} {itemSize cap base : BitVec 16}
    (hd : s.StepDisciplined U q) (ho : s.turn = some (.qinit q sp ceil itemSize cap base))
    (hq : t.queue q = .initialised ceil itemSize cap base) (hv : SameProcedures s t) : s.StaysTidy t U q := by
  obtain ⟨he, hdq⟩ := (hd _ ho).2 sp ceil itemSize cap base rfl
  obtain ⟨htidy, hclaims⟩ : QueueTidy t U q ∧ t.claims q = [] :=
    tidy_fresh (by rw [hq]) (by rw [hq]) (by rw [hq])
      (fun u l p h => he u l p ((hv.sameOn.enq u l p).1 h)) (fun u l p h => hdq u l p ((hv.sameOn.deq u l p).1 h))
  exact ⟨fun _ => htidy, .inr <| .inr <| .inr <| .inr ⟨hclaims, .inr ⟨sp, ceil, itemSize, cap, base, ho⟩⟩⟩

/-! ### Moves on another queue -/

/-- The running context's procedures are on queue p, before a step and after it. -/
structure ProceedsOn (p : QId) (s t : State) : Prop where
  others : ∀ u, u ≠ s.running → (t.ctx u).record = (s.ctx u).record
  enq : ∀ l n, s.record.enqueue? = some (l, n) ∨ (t.ctx s.running).record.enqueue? = some (l, n) → l.q = p
  deq : ∀ l n, s.record.dequeue? = some (l, n) ∨ (t.ctx s.running).record.dequeue? = some (l, n) → l.q = p

theorem ProceedsOn.sameOn {p : QId} (h : ProceedsOn p s t) (hp : p ≠ q) : SameOn q s t := by
  refine ⟨fun u l n => ?_, fun u l n => ?_⟩ <;> by_cases hu : u = s.running
  · subst hu
    exact ⟨fun ⟨a, b⟩ => absurd ((h.enq l n (.inr a)).symm.trans b) hp,
      fun ⟨a, b⟩ => absurd ((h.enq l n (.inl a)).symm.trans b) hp⟩
  · unfold State.Enqueuing; rw [h.others u hu]
  · subst hu
    exact ⟨fun ⟨a, b⟩ => absurd ((h.deq l n (.inr a)).symm.trans b) hp,
      fun ⟨a, b⟩ => absurd ((h.deq l n (.inl a)).symm.trans b) hp⟩
  · unfold State.Dequeuing; rw [h.others u hu]

/-- An ENQUEUE step of the running context, after none or an earlier step of it. -/
theorem Proceeds.onEnqueue {l : EnqLocals} {e : Option (EnqLocals × EnqPoint)} (h : Proceeds s t e none)
    (hs : s.record.enqueue? = none ∨ ∃ n, s.record.enqueue? = some (l, n)) (hd : s.record.dequeue? = none)
    (he : e = none ∨ ∃ n, e = some (l, n)) : ProceedsOn l.q s t := by
  refine ⟨h.others, ?_, ?_⟩
  · rintro m n (hm | hm)
    · rcases hs with hs | ⟨n', hs⟩ <;> rw [hs] at hm <;> simp only [Option.some.injEq, Prod.mk.injEq, reduceCtorEq] at hm
      rw [hm.1]
    · rw [h.enqueue] at hm
      rcases he with rfl | ⟨n', rfl⟩ <;> simp only [Option.some.injEq, Prod.mk.injEq, reduceCtorEq] at hm
      rw [hm.1]
  · rintro m n (hm | hm)
    · rw [hd] at hm; simp at hm
    · rw [h.dequeue] at hm; simp at hm

/-- A DEQUEUE step of the running context, after none or an earlier step of it. -/
theorem Proceeds.onDequeue {p : QId} {d : Option (DeqLocals × DeqPoint)} (h : Proceeds s t none d)
    (hs : ∀ l n, s.record.dequeue? = some (l, n) → l.q = p) (he : s.record.enqueue? = none)
    (hd : ∀ l n, d = some (l, n) → l.q = p) : ProceedsOn p s t := by
  refine ⟨h.others, ?_, ?_⟩
  · rintro m n (hm | hm)
    · rw [he] at hm; simp at hm
    · rw [h.enqueue] at hm; simp at hm
  · rintro m n (hm | hm)
    · exact hs m n hm
    · rw [h.dequeue] at hm; exact hd m n hm

/-- The byte that a copy micro-step on another queue stores is outside the region of queue q (R161(e)). -/
theorem Known.copy_outside (K : Known s U q) {i : Instr} {l : EnqLocals} {j : Nat} (hl : l.q ≠ q)
    (hr : s.record = .busy i (.enqueue l (.e3 j))) {x : Nat} (h1 : (s.queue q).base.toNat ≤ x)
    (h2 : x < (s.queue q).base.toNat + (s.queue q).cap.toNat * (s.queue q).itemSize.toNat) :
    x ≠ l.base + l.idx * l.size + j := by
  have henq : s.record.enqueue? = some (l, .e3 j) := by rw [hr]; rfl
  have hj : j < l.size := (K.enq_inv henq).2
  obtain ⟨-, -, -, -, hregion⟩ := K.disc K.init
  rcases hregion s.running l _ henq hl with h | h <;> omega

/-! ### Moves on a queue that is not initialised -/

theorem Inv.claimed_of_uninitialised (h : Inv s) (hi : (s.queue q).init = false) : s.claims q = [] :=
  State.claims_of_claimed_eq_zero (by rw [(h.queues q).2.1 hi]; rfl)

theorem Inv.enqueue_init (h : Inv s) {i : Instr} {l : EnqLocals} {p : EnqPoint} (hr : s.record = .busy i (.enqueue l p)) :
    (s.queue l.q).init = true := by
  have := h.records s.running
  rw [show (s.ctx s.running).record = _ from hr] at this
  exact this.2.1.1.1

theorem Inv.dequeue_init (h : Inv s) {i : Instr} {l : DeqLocals} {p : DeqPoint} (hr : s.record = .busy i (.dequeue l p)) :
    (s.queue l.q).init = true := by
  have := h.records s.running
  rw [show (s.ctx s.running).record = _ from hr] at this
  exact this.2.1.1.1

/-- A step leaves a queue that is not initialised as it is, unless it initialises it. -/
theorem staysTidy_uninitialised (h : Inv s) (hi : (s.queue q).init = false) (hd : s.StepDisciplined U q)
    (hm : Move s.turn s t) : s.StaysTidy t U q := by
  have same : t.queue q = s.queue q → s.StaysTidy t U q := fun e => by
    refine ⟨fun ht => absurd ht (by rw [e, hi]; simp), .inl ?_⟩
    rw [h.claimed_of_uninitialised hi]
    exact State.claims_of_claimed_eq_zero (by rw [e, (h.queues q).2.1 hi]; rfl)
  have apart : ∀ {p : QId}, (s.queue p).init = true → q ≠ p := by
    rintro p hp rfl; rw [hi] at hp; simp at hp
  cases hm with
  | quiet hq | e1 _ _ _ _ _ _ hq | e3 _ _ _ _ hq | d1 _ _ _ _ hq | d2 _ _ _ _ _ _ hq => exact same (queue_congr hq q)
  | reset ho hq hs => exact staysTidy_reset (hq q) hs
  | qinit p sp ceil itemSize cap base ho hq hm hv =>
    have hset : t.queue = (s.setQueue p (.initialised ceil itemSize cap base)).queue := funext fun r => queue_congr hq r
    by_cases hp : q = p
    · subst hp
      exact staysTidy_qinit hd ho (by rw [hset, State.setQueue_queue_self]) hv
    · exact same (by rw [hset, State.setQueue_queue_of_ne _ _ hp])
  | e2 i l ho hr hq hm hv =>
    exact same ((queue_congr hq q).trans ((enqueueE2_counted s l).queue_of_ne (apart (h.enqueue_init hr))))
  | e4 i l hr hq hm hv =>
    exact same ((queue_congr hq q).trans ((enqueueE4_counted s l).queue_of_ne (apart (h.enqueue_init hr))))
  | d3 i l hr hq hm hv =>
    exact same ((queue_congr hq q).trans ((dequeueD3_counted s l.q).queue_of_ne (apart (h.dequeue_init hr))))
  | d4 i l ho hr hq hm hv hresp =>
    exact same ((queue_congr hq q).trans ((dequeueD4_counted s l.q).queue_of_ne (apart (h.dequeue_init hr))))
  | pop i ho hk hn hu hc hq hm hv =>
    exact same ((queue_congr hq q).trans (((dequeueD4_counted _ _).queue_of_ne (apart hu.1)).trans
      ((dequeueD3_counted s _).queue_of_ne (apart hu.1))))

/-! ### Every move -/

theorem Known.kept (K : Known s U q) (hq : t.queue q = s.queue q) (ho : SameOn q s t)
    (hm : ∀ x, (s.queue q).base.toNat ≤ x →
      x < (s.queue q).base.toNat + (s.queue q).cap.toNat * (s.queue q).itemSize.toNat → t.qsm.read x = s.qsm.read x) :
    s.StaysTidy t U q :=
  State.staysTidy_of_kept (tidy_same K hq ho hm)

/-- A move on another queue that leaves QSM as it is. -/
theorem Known.elsewhere (K : Known s U q) {p : QId} (hp : q ≠ p) (hv : ProceedsOn p s t) (hq : t.queue q = s.queue q)
    (hm : t.qsm = s.qsm) : s.StaysTidy t U q :=
  K.kept hq (hv.sameOn (Ne.symm hp)) fun _ _ _ => by rw [hm]

theorem Known.staysTidy (K : Known s U q) (ht : t.Disciplined U q) (hd : s.StepDisciplined U q) (hm : Move s.turn s t) :
    s.StaysTidy t U q := by
  cases hm with
  | quiet hq hm hv => exact K.kept (queue_congr hq q) hv.sameOn fun _ _ _ => by rw [hm]
  | reset ho hq hs => exact staysTidy_reset (hq q) hs
  | qinit p sp ceil itemSize cap base ho hq hm hv =>
    have hset : t.queue = (s.setQueue p (.initialised ceil itemSize cap base)).queue := funext fun r => queue_congr hq r
    by_cases hp : q = p
    · subst hp
      exact staysTidy_qinit hd ho (by rw [hset, State.setQueue_queue_self]) hv
    · exact K.kept (by rw [hset, State.setQueue_queue_of_ne _ _ hp]) hv.sameOn fun _ _ _ => by rw [hm]
  | e1 p item hn hu hc hl hq hm hv =>
    by_cases hp : q = p
    · subst hp
      have hprod : U.producer s.running :=
        (ht (by rw [queue_congr hq]; exact K.init)).2.1 s.running _ _ ⟨hv.enqueue, rfl⟩
      exact State.staysTidy_of_kept (tidy_e1 K hn hc (queue_congr hq q) hm hv hprod)
    · exact K.elsewhere hp (hv.onEnqueue (l := s.claim p item) (.inl hn.1) hn.2 (.inr ⟨_, rfl⟩)) (queue_congr hq q) hm
  | e2 i l ho hr hq hm hv =>
    by_cases hp : q = l.q
    · obtain ⟨htidy, hclaims⟩ := tidy_e2 K hp.symm hr hq hm hv
      exact ⟨fun _ => htidy, .inr <| .inl ⟨i, l, ho, hr, hp.symm, hclaims⟩⟩
    · exact K.elsewhere hp (hv.onEnqueue (l := l) (.inr ⟨_, by rw [hr]; rfl⟩) (by rw [hr]; rfl) (.inr ⟨_, rfl⟩))
        ((queue_congr hq q).trans ((enqueueE2_counted s l).queue_of_ne hp)) hm
  | e3 i l j hr hq hm hv =>
    by_cases hp : q = l.q
    · exact State.staysTidy_of_kept (tidy_e3 K hp.symm hr (queue_congr hq q) hm hv)
    · have hon := hv.onEnqueue (l := l) (.inr ⟨_, by rw [hr]; rfl⟩) (by rw [hr]; rfl) (.inr ⟨_, rfl⟩)
      refine K.kept (queue_congr hq q) (hon.sameOn (Ne.symm hp)) fun x h1 h2 => ?_
      rw [hm, Memory.read_write K.inv.qsm.1, if_neg (K.copy_outside (Ne.symm hp) hr h1 h2)]
  | e4 i l hr hq hm hv =>
    by_cases hp : q = l.q
    · exact State.staysTidy_of_kept (tidy_e4 K hp.symm hr hq hm hv)
    · exact K.elsewhere hp (hv.onEnqueue (l := l) (.inr ⟨_, by rw [hr]; rfl⟩) (by rw [hr]; rfl) (.inl rfl))
        ((queue_congr hq q).trans ((enqueueE4_counted s l).queue_of_ne hp)) hm
  | d1 p hn hu hc hq hm hv =>
    by_cases hp : q = p
    · subst hp
      have hcons : U.consumer s.running :=
        (ht (by rw [queue_congr hq]; exact K.init)).2.2.1 s.running _ _ ⟨hv.dequeue, rfl⟩
      exact State.staysTidy_of_kept (tidy_d1 K hn hc (queue_congr hq q) hm hv hcons)
    · refine K.elsewhere hp (hv.onDequeue (fun l n h => by rw [hn.2] at h; simp at h) hn.1 fun l n h => ?_)
        (queue_congr hq q) hm
      simp only [Option.some.injEq, Prod.mk.injEq] at h
      rw [← h.1]; rfl
  | d2 i l l1 j hr hl hq hm hv =>
    by_cases hp : q = l.q
    · exact State.staysTidy_of_kept (tidy_d2 K hp.symm hr hl (queue_congr hq q) hm hv)
    · refine K.elsewhere hp (hv.onDequeue (p := l.q) (fun m n h => ?_) (by rw [hr]; rfl) fun m n h => ?_)
        (queue_congr hq q) hm
      · rw [hr] at h; simp only [Record.dequeue?, Option.some.injEq, Prod.mk.injEq] at h; rw [h.1]
      · simp only [Option.some.injEq, Prod.mk.injEq] at h; rw [← h.1, hl]
  | d3 i l hr hq hm hv =>
    by_cases hp : q = l.q
    · exact State.staysTidy_of_kept (tidy_d3 K hp.symm hr hq hm hv)
    · refine K.elsewhere hp (hv.onDequeue (p := l.q) (fun m n h => ?_) (by rw [hr]; rfl) fun m n h => ?_)
        ((queue_congr hq q).trans ((dequeueD3_counted s l.q).queue_of_ne hp)) hm
      · rw [hr] at h; simp only [Record.dequeue?, Option.some.injEq, Prod.mk.injEq] at h; rw [h.1]
      · simp only [Option.some.injEq, Prod.mk.injEq] at h; rw [← h.1]
  | d4 i l ho hr hq hm hv hresp =>
    by_cases hp : q = l.q
    · obtain ⟨htidy, hclaims, hsound, -⟩ := tidy_d4 K hp.symm hr hq hm hv
      refine ⟨fun _ => htidy, .inr <| .inr <| .inl ⟨i, l, ho, hr, hp.symm, hclaims, hresp.trans ?_⟩⟩
      rw [dequeueResult, if_neg (by rw [hsound]; simp)]; rfl
    · refine K.elsewhere hp (hv.onDequeue (p := l.q) (fun m n h => ?_) (by rw [hr]; rfl) fun m n h => by simp at h)
        ((queue_congr hq q).trans ((dequeueD4_counted s l.q).queue_of_ne hp)) hm
      rw [hr] at h; simp only [Record.dequeue?, Option.some.injEq, Prod.mk.injEq] at h; rw [h.1]
  | pop i ho hk hn hu hc hq hm hv =>
    by_cases hp : q = .q0
    · subst hp
      obtain ⟨hcons, hdq⟩ := (hd i ho).1 hk rfl
      obtain ⟨htidy, hclaims⟩ := tidy_pop K hn hc hq hm hv hcons hdq
      exact ⟨fun _ => htidy, .inr <| .inr <| .inr <| .inl ⟨i, ho, hk, rfl, hclaims⟩⟩
    · exact K.kept ((queue_congr hq q).trans (((dequeueD4_counted _ _).queue_of_ne hp).trans
        ((dequeueD3_counted s _).queue_of_ne hp))) hv.sameOn fun _ _ _ => by rw [hm]

/-! ### Boot -/

theorem State.BootOk.sendUsage_ok {sender receiver : Level} (h : s.BootOk sender receiver) :
    (s.sendUsage sender).Ok (s.queue .q0).ceil := by
  obtain ⟨-, -, -, -, ⟨hsender, hspi, huart⟩, -⟩ := h
  refine ⟨fun u hu => hu ▸ hsender, fun u hu => ?_, .inl ⟨sender, fun u hu => hu⟩⟩
  rcases hu with rfl | ⟨hl, rfl⟩ | ⟨hl, rfl⟩
  · exact hsender
  · exact hspi hl
  · exact huart hl

theorem State.BootOk.receiveUsage_ok {sender receiver : Level} (h : s.BootOk sender receiver) :
    (s.receiveUsage receiver).Ok (s.queue .q1).ceil := by
  obtain ⟨-, -, -, -, -, ⟨hreceiver, hspi, huart⟩, -⟩ := h
  refine ⟨fun u hu => ?_, fun u hu => hu ▸ hreceiver, .inl ?_⟩
  · rcases hu with ⟨hl, rfl⟩ | ⟨hl, rfl⟩
    · exact hspi hl
    · exact huart hl
  · cases hl : s.link with
    | spi =>
      exact ⟨s.cfg.prioSpi, fun u hu => hu.elim And.right fun h => absurd (hl.symm.trans h.1) (by simp)⟩
    | _ =>
      exact ⟨s.cfg.prioUart, fun u hu => hu.elim (fun h => absurd (hl.symm.trans h.1) (by simp)) And.right⟩

/-- Settles O60: every move of a step (`move_step`) keeps an initialised queue tidy (`Known.staysTidy`), and leaves one that is
not initialised as it is or initialises it (`staysTidy_uninitialised`). -/
theorem disciplinedUseKeepsEveryItemInOrder : Obligations.DisciplinedUseKeepsEveryItemInOrder := by
  refine ⟨fun s t q U hinv hshut hdisc ht hstep htidy h => ?_, fun s _ _ hb => ⟨hb.sendUsage_ok, hb.receiveUsage_ok⟩⟩
  cases hi : (s.queue q).init with
  | true => exact Known.staysTidy ⟨hinv, hshut, hdisc, hi, htidy hi⟩ ht hstep (move_step hinv h)
  | false => exact staysTidy_uninitialised hinv hi hstep (move_step hinv h)

end Sys2Proof.Machine
end

section
/-! PROOFS. The turn of the running context: a step begins the command at the front of its stream, goes on with the command in
progress, or refuses an illegal word (46_system.md section 1; 60_exceptions.md section 3). -/

namespace Sys2Proof.Machine

variable {s : State} {i : Instr} {ph : Phase}

theorem State.phase_of_record (h : s.record = .busy i ph) : s.phase = ph := by
  rw [State.phase, h]

theorem State.phase_of_not_busy (h : ∀ j ph, s.record ≠ .busy j ph) : s.phase = .first := by
  unfold State.phase
  split
  next hr => exact absurd hr (h _ _)
  · rfl

theorem step_of_quiet (hc : s.cfg.WF) (hs : s.schedule = []) : step s = runStep s := by
  rw [step_of_wf hc, scheduledStep, hs]

theorem step_of_run {tail : List Action} (hc : s.cfg.WF) (hs : s.schedule = .run :: tail) :
    step s = runStep (s.setSchedule tail) := by
  rw [step_of_wf hc, scheduledStep, hs]

theorem runStep_of_busy (h : s.record = .busy i ph) : runStep s = exec i s := by
  rw [runStep, h]

theorem runStep_of_not_busy (h : ∀ j ph, s.record ≠ .busy j ph) : runStep s = beginCommand s := by
  unfold runStep
  split
  next hr => exact absurd hr (h _ _)
  · rfl
  · rfl

theorem beginCommand_of_command {rest : List Byte} (h : s.nextCommand = .command i rest) :
    beginCommand s = exec i (s.setStream rest) := by
  rw [beginCommand, h]

theorem beginCommand_of_illegal {why : IllegalReason} {w : Word} {rest : List Byte}
    (h : s.nextCommand = .illegal why w rest) :
    beginCommand s = .next ((s.setStream rest).reply s.record.port (.valued .illegal (w.extractLsb' 8 24))) := by
  rw [beginCommand, h]; rfl

/-- A turn of a busy context takes the next micro-step of its command. -/
theorem step_of_busy (hc : s.cfg.WF) (hs : s.schedule = []) (h : s.record = .busy i ph) : step s = exec i s :=
  (step_of_quiet hc hs).trans (runStep_of_busy h)

/-- Settles O5: the turn decodes (`beginCommand_of_command`), and what is decoded is well formed
(`encodeOfDecodeIsTheBytes`). -/
theorem stepRunsTheDecodedCommand : Obligations.StepRunsTheDecodedCommand := by
  intro s i rest hc hb hdec
  refine ⟨(encodeOfDecodeIsTheBytes _ _ _ _ _ hdec).2.1, fun hs => ?_, fun tail hs => ?_, ?_⟩
  · rw [step_of_quiet hc hs, runStep_of_not_busy hb, beginCommand_of_command hdec]
  · rw [step_of_run hc hs, runStep_of_not_busy (s := s.setSchedule tail) hb,
      beginCommand_of_command (s := s.setSchedule tail) hdec]
  · exact State.phase_of_not_busy fun j ph => by rw [State.setStream_record]; exact hb j ph

/-- Settles O6: a turn of a busy context is its command's micro-step (`runStep_of_busy`). -/
theorem stepGoesOnWithTheCommandInProgress : Obligations.StepGoesOnWithTheCommandInProgress := by
  intro s i ph hc h
  refine ⟨fun hs => step_of_busy hc hs h, fun tail hs => ?_, State.phase_of_record h⟩
  rw [step_of_run hc hs, runStep_of_busy (s := s.setSchedule tail) h]

/-- Settles O7: the turn answers an illegal word at once (`beginCommand_of_illegal`). -/
theorem illegalCommandIsRefused : Obligations.IllegalCommandIsRefused := by
  intro s why w rest hc hs hb hdec
  refine ⟨_, ?_, (s.setStream rest).reply_onlyAnswered s.record.port (.valued .illegal (w.extractLsb' 8 24))⟩
  rw [step_of_quiet hc hs, runStep_of_not_busy hb, beginCommand_of_illegal hdec]

end Sys2Proof.Machine
end

section
/-! PROOFS. The queue commands, micro-step by micro-step: ENQ, SEND and ACCEPT on ENQUEUE, DEQ and RECV on DEQUEUE, and the
counters of dropped packets (40_queue.md sections 1 and 2; 44_comms.md sections 2 to 4). -/

namespace Sys2Proof.Machine

variable {s m t : State} {i : Instr} {q : QId}

/-! ### What a counted micro-step leaves as it was -/

theorem State.SameCaller.refl (s : State) : s.SameCaller s := ⟨rfl, rfl, rfl, rfl⟩

theorem State.SameCaller.wentOn (h : s.SameCaller m) (i : Instr) (ph : Phase) : s.WentOn i ph (m.goOn i ph) := by
  obtain ⟨hcfg, hsched, hctx, hsink⟩ := h
  exact (m.goOn_wentOn i ph).of_contexts hcfg hsched hctx hsink

namespace Counted

variable {r : Queue} {v : BitVec 4} (h : Counted q r v s m)
include h

theorem sameCaller : s.SameCaller m := by rw [h.frame]; exact .refl s

theorem qsm : m.qsm = s.qsm := by rw [h.frame]

theorem env : m.env = s.env := by rw [h.frame]

theorem sameUnits : ((s.setMask v).setFaultEver m.faultEver).SameUnits m := by
  rw [h.frame]; exact ⟨rfl, rfl, rfl, rfl, rfl, rfl, rfl, rfl, rfl, rfl⟩

theorem qinv_iff : (m.queue q).qinv = true ↔ r.qinv = true ∨ ¬ r.countersOk := by
  rw [h.queue_self, Bool.or_eq_true, Bool.not_eq_true', decide_eq_false_iff_not]

theorem faultEver_iff : m.faultEver = true ↔ s.faultEver = true ∨ ¬ r.countersOk := by
  rw [h.faultEver, Bool.or_eq_true, Bool.not_eq_true', decide_eq_false_iff_not]

theorem queue_eq : m.queue q = { r with qinv := (m.queue q).qinv } := by rw [h.queue_self]

theorem front : (m.queue q).front = r.front := by rw [h.queue_self]

/-- Counters in order: nothing is raised. -/
theorem of_ok (hok : r.countersOk) : m = (s.setQueue q r).setMask v := by
  rw [h.eq, State.checkInv, State.setMask_queue, State.setQueue_queue_self, if_pos hok]

end Counted

/-- What a micro-step of a queue command on q leaves as it was: all but MASK, the record of faults, QSM and the counters and
QINV of q, and the running context. -/
structure QueueFrame (q : QId) (s t : State) : Prop where
  units : ((s.setMask t.mask).setFaultEver t.faultEver).SameUnits t
  env : s.SameEnv t
  cfg : t.cfg = s.cfg
  schedule : t.schedule = s.schedule
  contexts : ∀ u, u ≠ s.running → t.ctx u = s.ctx u
  others : ∀ p, p ≠ q → t.queue p = s.queue p
  registers : t.queue q = { s.queue q with
    front := (t.queue q).front, claimed := (t.queue q).claimed, ready := (t.queue q).ready, qinv := (t.queue q).qinv }

namespace QueueFrame

theorem refl (q : QId) (s : State) : QueueFrame q s s :=
  ⟨⟨rfl, rfl, rfl, rfl, rfl, rfl, rfl, rfl, rfl, rfl⟩, rfl, rfl, rfl, fun _ _ => rfl, fun _ _ => rfl, rfl⟩

theorem setMask (q : QId) (s : State) (v : BitVec 4) : QueueFrame q s (s.setMask v) :=
  ⟨⟨rfl, rfl, rfl, rfl, rfl, rfl, rfl, rfl, rfl, rfl⟩, rfl, rfl, rfl, fun _ _ => rfl, fun _ _ => rfl, rfl⟩

theorem setQsm (q : QId) (s : State) (mem : Memory) : QueueFrame q s (s.setQsm mem) :=
  ⟨⟨rfl, rfl, rfl, rfl, rfl, rfl, rfl, rfl, rfl, rfl⟩, rfl, rfl, rfl, fun _ _ => rfl, fun _ _ => rfl, rfl⟩

theorem of_counted {r : Queue} {v : BitVec 4} (h : Counted q r v s m)
    (hr : r = { s.queue q with front := r.front, claimed := r.claimed, ready := r.ready }) : QueueFrame q s m where
  units := by rw [h.mask]; exact h.sameUnits
  env := by rw [State.SameEnv, h.env]
  cfg := h.cfg
  schedule := h.sameCaller.2.1
  contexts u _ := State.ctx_of_ctxs h.ctxs u
  others p hp := h.queue_of_ne hp
  registers := by rw [h.queue_self, hr]

variable (h : QueueFrame q s m)
include h

theorem reply (hc : m.ctxs = s.ctxs) (p : Port) (r : Response) : QueueFrame q s (m.reply p r) where
  units := by rw [State.reply_mask, State.reply_faultEver]; exact h.units.reply p r
  env := h.env.reply p r
  cfg := (State.reply_cfg m r p).trans h.cfg
  schedule := (State.reply_schedule m r p).trans h.schedule
  contexts u hu := ((m.reply_ended p r).2.2.1 u (State.running_of_ctxs hc ▸ hu)).trans (h.contexts u hu)
  others p' hp := (m.reply_queue _ _ p').trans (h.others p' hp)
  registers := by rw [State.reply_queue]; exact h.registers

theorem goOn (hc : m.ctxs = s.ctxs) (i : Instr) (ph : Phase) : QueueFrame q s (m.goOn i ph) where
  units := h.units
  env := h.env
  cfg := h.cfg
  schedule := h.schedule
  contexts u hu := ((m.goOn_wentOn i ph).2.2.1 u (State.running_of_ctxs hc ▸ hu)).trans (h.contexts u hu)
  others := h.others
  registers := h.registers

end QueueFrame

/-! ### The micro-steps of ENQUEUE in its callers -/

/-- How command i goes on when its ENQUEUE returns: ENQ answers, the others go on behind it. -/
def Instr.enqueueReturn (i : Instr) (st : Status) : State → State :=
  match i with
  | .enq .. => State.reply .command (.plain st)
  | _ => State.goOn i (.afterEnqueue st)

theorem Instr.enqueueReturn_of_ne (h : i.opcode ≠ .enq) (st : Status) :
    Instr.enqueueReturn i st = State.goOn i (.afterEnqueue st) := by
  cases i with
  | enq => exact absurd rfl h
  | _ => rfl

/-- The four callers of ENQUEUE resume it alike. -/
theorem exec_enqueuing {l : EnqLocals} {p : EnqPoint} (hi : Instr.Enqueues i) (hph : s.phase = .enqueue l p) :
    exec i s = resumeEnqueue i l p (Instr.enqueueReturn i) s := by
  cases i with
  | enq q data => simp only [exec, execEnq, hph]; rfl
  | send payload => simp only [exec, execSend, hph]; rfl
  | evUartRx b => simp only [exec, execEvUartRx, hph]; rfl
  | evSpiDone rx => simp only [exec, execEvSpiDone, hph]; rfl
  | _ => rcases hi with h | h | h | h <;> exact absurd h nofun

theorem exec_e2 {l : EnqLocals} (hi : Instr.Enqueues i) (hph : s.phase = .enqueue l .e2) :
    exec i s = .next ((enqueueE2 l s).goOn i (.enqueue l (l.copyFrom 0))) := by
  rw [exec_enqueuing hi hph]; rfl

theorem exec_e3 {l : EnqLocals} {j : Nat} (hi : Instr.Enqueues i) (hph : s.phase = .enqueue l (.e3 j))
    (ha : l.base + l.idx * l.size + j < s.cfg.qsmBytes) :
    exec i s = .next ((s.setQsm (s.qsm.write (l.base + l.idx * l.size + j) (l.item.getD j 0))).goOn i
      (.enqueue l (l.copyFrom (j + 1)))) := by
  rw [exec_enqueuing hi hph, resumeEnqueue, enqueueMicro, enqueueE3_ok s ha]

theorem exec_e4 {l : EnqLocals} (hi : Instr.Enqueues i) (hph : s.phase = .enqueue l .e4) :
    exec i s = .next (Instr.enqueueReturn i (if ((enqueueE4 l s).1.queue l.q).qinv then .faulted else .ok)
      (enqueueE4 l s).1) := by
  rw [exec_enqueuing hi hph]; rfl

theorem Instr.enqueues_of_caller {q : QId} (h : (∃ data, i = .enq q data) ∨ (∃ payload, i = .send payload) ∨
    (∃ b, i = .evUartRx b) ∨ (∃ rx, i = .evSpiDone rx)) : Instr.Enqueues i := by
  rcases h with ⟨_, rfl⟩ | ⟨_, rfl⟩ | ⟨_, rfl⟩ | ⟨_, rfl⟩
  exacts [.inl rfl, .inr (.inl rfl), .inr (.inr (.inl rfl)), .inr (.inr (.inr rfl))]

/-- Settles O19: E2 is one counted write of CLAIMED and MASK (`enqueueE2_counted`), and the command goes on. -/
theorem claimWriteUsesTheValueReadInE1 : Obligations.ClaimWriteUsesTheValueReadInE1 := by
  intro s i l hcaller hph
  have hc := enqueueE2_counted s l
  refine ⟨_, exec_e2 (Instr.enqueues_of_caller hcaller) hph, hc.sameCaller.wentOn _ _, ?_, hc.mask, hc.qinv_iff,
    hc.queue_eq, fun p hp => hc.queue_of_ne hp, fun a => congrArg (·.read a) hc.qsm, ?_, hc.sameUnits⟩
  · exact congrArg Queue.claimed hc.queue_eq
  · rw [State.SameEnv, State.goOn_env, hc.env]

/-- What E4 does and returns, in every caller (40_queue.md R152). -/
theorem publish_and_return {l : EnqLocals} (hi : Instr.Enqueues i) (hph : s.phase = .enqueue l .e4) :
    let r := s.queue l.q
    let breach := ¬ (r.ready + 1 ≤ r.claimed ∧ r.claimed ≤ r.cap)
    ∃ t, exec i s = .next t ∧
      t.queue l.q = { r with ready := r.ready + 1, qinv := (t.queue l.q).qinv } ∧
      ((t.queue l.q).qinv = true ↔ r.qinv = true ∨ breach) ∧ (t.faultEver = true ↔ s.faultEver = true ∨ breach) ∧
      (∀ p, p ≠ l.q → t.queue p = s.queue p) ∧ s.SameMemory t ∧ s.SameEnv t ∧
      (s.setFaultEver t.faultEver).SameUnits t ∧
      (let st : Status := if (t.queue l.q).qinv = true then .faulted else .ok
       if i.opcode = .enq then s.Ended .command ⟨st, 0, []⟩ t else s.WentOn i (.afterEnqueue st) t) := by
  have hc := enqueueE4_counted s l
  have hunits : (s.setFaultEver (enqueueE4 l s).1.faultEver).SameUnits (enqueueE4 l s).1 := hc.sameUnits
  have henv : s.SameEnv (enqueueE4 l s).1 := by rw [State.SameEnv, hc.env]
  refine ⟨_, exec_e4 hi hph, ?_⟩
  by_cases ho : i.opcode = .enq
  · obtain ⟨q, data, rfl⟩ : ∃ q data, i = .enq q data := by
      cases i with
      | enq q data => exact ⟨q, data, rfl⟩
      | _ => exact absurd ho nofun
    simp only [Instr.enqueueReturn, State.reply_queue, State.reply_faultEver, State.SameMemory, State.reply_qsm, hc.qsm]
    refine ⟨hc.queue_eq, hc.qinv_iff, hc.faultEver_iff, fun p hp => hc.queue_of_ne hp, fun _ => trivial, henv.reply _ _,
      hunits.reply _ _, ?_⟩
    rw [if_pos ho]; exact hc.sameCaller.reply_ended _ _
  · rw [Instr.enqueueReturn_of_ne ho]
    refine ⟨hc.queue_eq, hc.qinv_iff, hc.faultEver_iff, fun p hp => hc.queue_of_ne hp,
      fun a => congrArg (·.read a) hc.qsm, henv, hunits, ?_⟩
    rw [if_neg ho]; exact hc.sameCaller.wentOn _ _

/-! ### The first micro-step of ENQUEUE in its callers -/

theorem callEnqueue_refused {item : List Byte} {ret : Status → State → State} {st : Status}
    (h : s.claimRefusal q = some st) : callEnqueue i q item ret s = ret st s := by
  unfold State.claimRefusal at h
  split_ifs at h with hinv hinit hfull <;> injection h with h <;> subst h
  · rw [callEnqueue, enqueueE1_faulted s item hinv]
  · rw [callEnqueue, enqueueE1_notInit s item (by simpa using hinv) (by simpa using hinit)]
  · rw [callEnqueue, enqueueE1_full s item ⟨by simpa using hinit, by simpa using hinv⟩ hfull]

/-- s after E1 claimed in command i. -/
def State.claiming (s : State) (i : Instr) (q : QId) (item : List Byte) : State :=
  (s.setMask (raisedMask s.mask (s.queue q).ceil)).goOn i (.enqueue (s.claim q item) .e2)

theorem callEnqueue_claims {item : List Byte} {ret : Status → State → State} (hu : s.usable q)
    (hc : (s.queue q).claimed < (s.queue q).cap) : callEnqueue i q item ret s = s.claiming i q item := by
  rw [callEnqueue, enqueueE1_claims s item hu hc]; rfl

theorem State.of_claimRefusal_eq_none (h : s.claimRefusal q = none) :
    s.usable q ∧ (s.queue q).claimed < (s.queue q).cap := by
  unfold State.claimRefusal at h
  split_ifs at h with hinv hinit hfull
  exact ⟨⟨by simpa using hinit, by simpa using hinv⟩, BitVec.not_le.1 hfull⟩

/-- What E1 does where it claims (40_queue.md R152). -/
theorem State.claiming_frame (s : State) (i : Instr) (q : QId) (item : List Byte) :
    let t := s.claiming i q item
    t.mask.toNat = max s.mask.toNat (s.queue q).ceil.toNat ∧ (s.setMask t.mask).SameFtc t ∧ s.SameEnv t ∧
      s.ClaimLocals q item (s.claim q item) ∧ s.WentOn i (.enqueue (s.claim q item) .e2) t :=
  ⟨toNat_raisedMask _ _, (s.setMask _).goOn_sameFtc _ _, rfl, ⟨rfl, rfl, rfl, rfl, rfl, rfl, rfl, rfl⟩,
    State.SameCaller.wentOn (m := s.setMask _) ⟨rfl, rfl, rfl, rfl⟩ _ _⟩

/-- A command that goes on behind its ENQUEUE begins it as `State.EnqueueBegun` says. -/
theorem callEnqueue_begun (s : State) (i : Instr) (q : QId) (item : List Byte) :
    s.EnqueueBegun i q item (callEnqueue i q item (fun st => State.goOn i (.afterEnqueue st)) s) := by
  unfold State.EnqueueBegun
  split
  next st h =>
    rw [callEnqueue_refused h]
    exact ⟨s.goOn_wentOn _ _, s.goOn_sameFtc _ _, rfl⟩
  next h =>
    obtain ⟨hu, hc⟩ := State.of_claimRefusal_eq_none h
    rw [callEnqueue_claims hu hc]
    obtain ⟨hmask, hftc, henv, hlocals, hwent⟩ := s.claiming_frame i q item
    exact ⟨hmask, hftc, henv, _, hlocals, hwent⟩

theorem State.EnqueueBegun.wentOn {item : List Byte} (h : s.EnqueueBegun i q item t) :
    ∃ ph, s.WentOn i ph t ∧ t.txDrop = s.txDrop := by
  unfold State.EnqueueBegun at h
  split at h
  · obtain ⟨hwent, ⟨⟨-, -, -, -, htx, -⟩, -⟩, -⟩ := h
    exact ⟨_, hwent, htx⟩
  · obtain ⟨-, ⟨⟨-, -, -, -, htx, -⟩, -⟩, -, l, -, hwent⟩ := h
    exact ⟨_, hwent, htx⟩

/-! ### ENQ -/

section enq

variable {data : List Byte} (hp : s.phase = .first)
include hp

theorem exec_enq_faulted (h : (s.queue q).qinv = true) :
    exec (.enq q data) s = .next (s.reply .command (.plain .faulted)) := by
  simp only [exec, execEnq, hp, h, if_true]

theorem exec_enq_notInit (h : (s.queue q).qinv = false) (hi : (s.queue q).init = false) :
    exec (.enq q data) s = .next (s.reply .command (.plain .notInit)) := by
  simp [exec, execEnq, hp, h, hi]

theorem exec_enq_badArg (h : s.usable q) (hl : data.length ≠ (s.queue q).itemSize.toNat) :
    exec (.enq q data) s = .next (s.reply .command (.plain .badArg)) := by
  simp [exec, execEnq, hp, h.1, h.2, hl]

theorem exec_enq_calls (h : s.usable q) (hl : data.length = (s.queue q).itemSize.toNat) :
    exec (.enq q data) s =
      .next (callEnqueue (.enq q data) q data (fun st => State.reply .command (.plain st)) s) := by
  simp [exec, execEnq, hp, h.1, h.2, hl]

theorem exec_enq_full (h : s.usable q) (hl : data.length = (s.queue q).itemSize.toNat)
    (hc : (s.queue q).cap ≤ (s.queue q).claimed) :
    exec (.enq q data) s = .next (s.reply .command (.plain .full)) := by
  rw [exec_enq_calls hp h hl, callEnqueue, enqueueE1_full s data h hc]

theorem exec_enq_claims (h : s.usable q) (hl : data.length = (s.queue q).itemSize.toNat)
    (hc : (s.queue q).claimed < (s.queue q).cap) :
    exec (.enq q data) s = .next (s.claiming (.enq q data) q data) := by
  rw [exec_enq_calls hp h hl, callEnqueue_claims h hc]

end enq

/-- Settles O18: the tests of ENQ and of E1 in their order, each by its equation of `exec`. -/
theorem enqIsRefusedOrClaims : Obligations.EnqIsRefusedOrClaims := by
  intro s q data hp
  refine ⟨fun h => exec_onlyAnswered (exec_enq_faulted hp h), fun h hi => exec_onlyAnswered (exec_enq_notInit hp h hi),
    fun hu hl => exec_onlyAnswered (exec_enq_badArg hp hu hl),
    fun hu hl hc => exec_onlyAnswered (exec_enq_full hp hu hl hc), fun hu hl hc => ?_⟩
  obtain ⟨hmask, hftc, henv, hlocals, hwent⟩ := s.claiming_frame (.enq q data) q data
  exact ⟨_, _, exec_enq_claims hp hu hl hc, hwent, hlocals, hmask, hftc, henv⟩

/-- Every micro-step of ENQ keeps the frame of its queue, and FRONT. -/
theorem exec_enq_frame {data : List Byte} (h : exec (.enq q data) s = .next t)
    (hl : ∀ l p, s.phase = .enqueue l p → l.q = q) : QueueFrame q s t ∧ (t.queue q).front = (s.queue q).front := by
  have answered : ∀ r, QueueFrame q s (s.reply .command r) ∧
      ((s.reply .command r).queue q).front = (s.queue q).front := fun r =>
    ⟨(QueueFrame.refl q s).reply rfl _ _, congrArg Queue.front (s.reply_queue _ _ q)⟩
  simp only [exec, execEnq] at h
  split at h
  case h_1 =>
    split_ifs at h <;> injection h with h <;> subst h
    · exact answered _
    · exact answered _
    · exact answered _
    · rcases callEnqueue_cases s (.enq q data) q data fun st => State.reply .command (.plain st) with
        ⟨st, e, -⟩ | ⟨e, -⟩ <;> rw [e]
      · exact answered _
      · exact ⟨(QueueFrame.setMask q s _).goOn (State.setMask_ctxs (s := s) _) _ _, rfl⟩
  case h_2 l p hph =>
    obtain rfl := hl l p hph
    rcases resumeEnqueue_cases s h with ⟨rfl, rfl⟩ | ⟨j, rfl, -, rfl⟩ | ⟨rfl, rfl⟩
    · have hc := enqueueE2_counted s l
      exact ⟨(QueueFrame.of_counted hc rfl).goOn hc.ctxs _ _, hc.front⟩
    · exact ⟨(QueueFrame.setQsm _ s _).goOn (State.setQsm_ctxs (s := s) _) _ _, rfl⟩
    · have hc := enqueueE4_counted s l
      exact ⟨(QueueFrame.of_counted hc rfl).reply hc.ctxs _ _, by
        rw [State.reply_queue]; exact hc.front⟩
  all_goals simp at h

/-- Settles O22: the frame of every micro-step of ENQ (`exec_enq_frame`), and the byte that E3.j stores
(`onlyTheCopyMicroStepStores`). -/
theorem enqFrame : Obligations.EnqFrame := by
  intro s t q data hwf h hl
  obtain ⟨hf, hfront⟩ := exec_enq_frame h hl
  have hregisters := hf.registers
  rw [hfront] at hregisters
  exact ⟨hf.units, hf.env, hf.cfg, hf.schedule, hf.contexts, hf.others, hregisters,
    fun a ha => onlyTheCopyMicroStepStores _ s t hwf h a (.inr ha)⟩

/-! ### DEQ and RECV -/

/-- The two commands that answer what DEQUEUE returns, with their queue (40_queue.md R157; 44_comms.md R313). -/
abbrev Instr.TakesFrom (i : Instr) (q : QId) : Prop := i = .deq q ∨ (i = .recv ∧ q = .q1)

theorem Instr.TakesFrom.not_enqueues (hi : Instr.TakesFrom i q) : ¬ Instr.Enqueues i := by
  rintro (h | h | h | h) <;> rcases hi with rfl | ⟨rfl, -⟩ <;> exact absurd h nofun

theorem exec_takesFrom_first (hi : Instr.TakesFrom i q) (hp : s.phase = .first) :
    exec i s = .next (callDequeue i q s) ∧ i.port = .command := by
  rcases hi with rfl | ⟨rfl, rfl⟩
  · exact ⟨by simp only [exec, execDeq, hp], rfl⟩
  · exact ⟨by simp only [exec, execRecv, hp], rfl⟩

theorem exec_takesFrom_dequeuing {l : DeqLocals} {p : DeqPoint} (hi : Instr.TakesFrom i q)
    (hp : s.phase = .dequeue l p) : exec i s = resumeDequeue i l p s ∧ i.port = .command := by
  rcases hi with rfl | ⟨rfl, rfl⟩
  · exact ⟨by simp only [exec, execDeq, hp], rfl⟩
  · exact ⟨by simp only [exec, execRecv, hp], rfl⟩

theorem exec_takesFrom_refused {st : Status} (hi : Instr.TakesFrom i q) (hp : s.phase = .first)
    (h : dequeueD1 q s = .inl st) : exec i s = .next (s.reply .command (.plain st)) := by
  obtain ⟨he, hport⟩ := exec_takesFrom_first hi hp
  rw [he, callDequeue, h, hport]

theorem exec_takesFrom_d1 (hi : Instr.TakesFrom i q) (hp : s.phase = .first) (h : s.hasItem q) :
    exec i s = .next (s.goOn i (.dequeue (s.take q) ((s.take q).copyFrom 0))) := by
  rw [(exec_takesFrom_first hi hp).1, callDequeue, dequeueD1, if_neg (by simp [h.1.2]), if_neg (by simp [h.1.1]),
    if_neg h.2]
  rfl

theorem exec_d2 {l : DeqLocals} {j : Nat} (hi : Instr.TakesFrom i q) (hp : s.phase = .dequeue l (.d2 j))
    (ha : l.base + l.f * l.size + j < s.cfg.qsmBytes) :
    exec i s =
      .next (s.goOn i (.dequeue { l with out := l.out ++ [s.qsm.read (l.base + l.f * l.size + j)] }
        (l.copyFrom (j + 1)))) := by
  rw [(exec_takesFrom_dequeuing hi hp).1, resumeDequeue, dequeueMicro, dequeueD2_ok s ha]
  rfl

theorem exec_d3 {l : DeqLocals} (hi : Instr.TakesFrom i q) (hp : s.phase = .dequeue l .d3) :
    exec i s = .next ((dequeueD3 l.q s).goOn i (.dequeue l .d4)) := by
  rw [(exec_takesFrom_dequeuing hi hp).1]; rfl

theorem exec_d4 {l : DeqLocals} (hi : Instr.TakesFrom i q) (hp : s.phase = .dequeue l .d4) :
    exec i s = .next ((dequeueD4 l.q s).reply .command (dequeueResult l (dequeueD4 l.q s)).response) := by
  obtain ⟨he, hport⟩ := exec_takesFrom_dequeuing hi hp
  rw [he, ← hport]; rfl

/-- Settles O23: D1 tests in the order FAULTED, NOT_INIT, EMPTY. -/
theorem deqAndRecvRefusalsChangeNothing : Obligations.DeqAndRecvRefusalsChangeNothing := by
  intro s i q hi hp
  refine ⟨fun h => exec_onlyAnswered (exec_takesFrom_refused hi hp ?_),
    fun h hinit => exec_onlyAnswered (exec_takesFrom_refused hi hp ?_),
    fun hu hr => exec_onlyAnswered (exec_takesFrom_refused hi hp ?_)⟩
  · rw [dequeueD1, if_pos h]
  · rw [dequeueD1, if_neg (by simp [h]), if_pos (by simp [hinit])]
  · rw [dequeueD1, if_neg (by simp [hu.2]), if_neg (by simp [hu.1]), if_pos hr]

theorem exec_takesFrom_frame (hi : Instr.TakesFrom i q) (h : exec i s = .next t)
    (hl : ∀ l p, s.phase = .dequeue l p → l.q = q) : QueueFrame q s t ∧ t.mask = s.mask := by
  have answered : ∀ p r, QueueFrame q s (s.reply p r) ∧ (s.reply p r).mask = s.mask := fun p r =>
    ⟨(QueueFrame.refl q s).reply rfl _ _, s.reply_mask _ _⟩
  have reading : ∀ ph, QueueFrame q s (s.goOn i ph) ∧ (s.goOn i ph).mask = s.mask := fun ph =>
    ⟨(QueueFrame.refl q s).goOn rfl _ _, rfl⟩
  have hcases : s.phase = .first ∨ ∃ l p, s.phase = .dequeue l p := by
    cases hp : s.phase with
    | first => exact .inl rfl
    | dequeue l p => exact .inr ⟨l, p, rfl⟩
    | _ => rcases hi with rfl | ⟨rfl, -⟩ <;> simp [exec, execDeq, execRecv, hp] at h
  rcases hcases with hp | ⟨l, p, hp⟩
  · rw [(exec_takesFrom_first hi hp).1] at h
    injection h with h
    subst h
    rcases callDequeue_cases s i q with ⟨st, e, -⟩ | ⟨e, -⟩ <;> rw [e]
    · exact answered _ _
    · exact reading _
  · rw [(exec_takesFrom_dequeuing hi hp).1] at h
    obtain rfl := hl l p hp
    rcases resumeDequeue_cases s h with ⟨j, l1, rfl, -, -, rfl⟩ | ⟨rfl, rfl⟩ | ⟨rfl, rfl⟩
    · exact reading _
    · have hc := dequeueD3_counted s l.q
      exact ⟨(QueueFrame.of_counted hc rfl).goOn hc.ctxs _ _, hc.mask⟩
    · have hc := dequeueD4_counted s l.q
      exact ⟨(QueueFrame.of_counted hc rfl).reply hc.ctxs _ _, (State.reply_mask _ _ _).trans hc.mask⟩

/-- Settles O25: the frame of every micro-step (`exec_takesFrom_frame`); only a command on ENQUEUE stores to QSM
(`MicroStep.qsm`). -/
theorem deqAndRecvFrame : Obligations.DeqAndRecvFrame := by
  intro s t i q hi h hl
  obtain ⟨hf, hmask⟩ := exec_takesFrom_frame hi h hl
  refine ⟨?_, fun a => ?_, hf.env, hf.cfg, hf.schedule, hf.contexts, hf.others, hf.registers⟩
  · have := hf.units
    rwa [hmask] at this
  · rcases (exec_microStep h).qsm with hq | ⟨l, j, henq, -⟩
    · rw [hq]
    · exact absurd henq (Instr.TakesFrom.not_enqueues hi)

/-- What D3 does (40_queue.md R153). -/
theorem dequeueD3_does {l : DeqLocals} (hi : Instr.TakesFrom i l.q) (hp : s.phase = .dequeue l .d3) :
    let r := s.queue l.q
    let breach := ¬ (r.ready - 1 ≤ r.claimed ∧ r.claimed ≤ r.cap)
    ∃ t, exec i s = .next t ∧ s.WentOn i (.dequeue l .d4) t ∧
      t.queue l.q = { r with ready := r.ready - 1, qinv := (t.queue l.q).qinv } ∧
      ((t.queue l.q).qinv = true ↔ r.qinv = true ∨ breach) ∧ (t.faultEver = true ↔ s.faultEver = true ∨ breach) ∧
      (∀ p, p ≠ l.q → t.queue p = s.queue p) ∧ s.SameMemory t ∧ s.SameEnv t ∧
      (s.setFaultEver t.faultEver).SameUnits t := by
  have hc := dequeueD3_counted s l.q
  refine ⟨_, exec_d3 hi hp, hc.sameCaller.wentOn _ _, hc.queue_eq, hc.qinv_iff, hc.faultEver_iff,
    fun p hp => hc.queue_of_ne hp, fun a => congrArg (·.read a) hc.qsm, ?_, hc.sameUnits⟩
  rw [State.SameEnv, State.goOn_env, hc.env]

/-- What D4 does and returns (40_queue.md R153). -/
theorem dequeueD4_does {l : DeqLocals} (hi : Instr.TakesFrom i l.q) (hp : s.phase = .dequeue l .d4) :
    let r := s.queue l.q
    let breach := ¬ (r.ready ≤ r.claimed - 1 ∧ r.claimed - 1 ≤ r.cap)
    ∃ t, exec i s = .next t ∧
      s.Ended .command
        (if (t.queue l.q).qinv = true then ⟨.faulted, 0, []⟩ else ⟨.ok, BitVec.ofNat 24 l.size, l.out⟩) t ∧
      t.queue l.q = { r with front := BitVec.ofNat 16 ((r.front.toNat + 1) % r.cap.toNat), claimed := r.claimed - 1,
                             qinv := (t.queue l.q).qinv } ∧
      ((t.queue l.q).qinv = true ↔ r.qinv = true ∨ breach) ∧ (t.faultEver = true ↔ s.faultEver = true ∨ breach) ∧
      (∀ p, p ≠ l.q → t.queue p = s.queue p) ∧ s.SameMemory t ∧ s.SameEnv t ∧
      (s.setFaultEver t.faultEver).SameUnits t := by
  have hc := dequeueD4_counted s l.q
  have hunits : (s.setFaultEver (dequeueD4 l.q s).faultEver).SameUnits (dequeueD4 l.q s) := hc.sameUnits
  have henv : s.SameEnv (dequeueD4 l.q s) := by rw [State.SameEnv, hc.env]
  have hresponse : (dequeueResult l (dequeueD4 l.q s)).response =
      if ((dequeueD4 l.q s).queue l.q).qinv = true then ⟨.faulted, 0, []⟩ else ⟨.ok, BitVec.ofNat 24 l.size, l.out⟩ := by
    unfold dequeueResult; split <;> rfl
  refine ⟨_, exec_d4 hi hp, ?_⟩
  simp only [State.reply_queue, State.reply_faultEver, State.SameMemory, State.reply_qsm, hc.qsm]
  refine ⟨hresponse ▸ hc.sameCaller.reply_ended _ _, hc.queue_eq, hc.qinv_iff, hc.faultEver_iff,
    fun p hp => hc.queue_of_ne hp, fun _ => trivial, henv.reply _ _, hunits.reply _ _⟩

end Sys2Proof.Machine
end

section
/-! PROOFS. SEND and ACCEPT around their ENQUEUE, the framer byte by byte, the completion of an SPI transfer, and the counters of
dropped packets (42_uart_framer.md sections 1 and 2; 43_spi_transport.md section 4; 44_comms.md sections 2 to 4). -/

namespace Sys2Proof.Machine

variable {s m t : State} {i : Instr} {q : QId}

/-! ### The kicks leave their caller alone -/

theorem dequeueAtomic_sameCaller {r : DeqResult} (h : dequeueAtomic q s = .ok (t, r)) : s.SameCaller t := by
  rcases dequeueAtomic_cases s h with ⟨st, rfl, -⟩ | ⟨rfl, -⟩
  · exact .refl _
  · rw [(dequeueD4_counted (dequeueD3 q s) q).frame, (dequeueD3_counted s q).frame]; exact .refl s

theorem kickUart_sameCaller {b : Bool} (h : kickUart s = .ok (t, b)) : s.SameCaller t := by
  rcases kickUart_cases s h with ⟨rfl, -⟩ | ⟨s1, r, -, hd, ⟨st, rfl, rfl, -⟩ | ⟨n, item, rfl, -, rfl⟩⟩
  · exact .refl _
  · exact dequeueAtomic_sameCaller hd
  · exact (dequeueAtomic_sameCaller hd :)

theorem kickSpi_sameCaller {b : Bool} (h : kickSpi s = .ok (t, b)) : s.SameCaller t := by
  rcases kickSpi_cases s h with ⟨rfl, -⟩ | ⟨-, rfl, -⟩ |
    ⟨s1, r, -, hd, ⟨st, rfl, ⟨rfl, -⟩ | ⟨rfl, -⟩⟩ | ⟨n, item, rfl, -, rfl⟩⟩
  · exact .refl _
  · exact .refl s
  all_goals exact (dequeueAtomic_sameCaller hd :)

theorem kickLink_sameCaller {b : Bool} (h : kickLink s = .ok (t, b)) : s.SameCaller t := by
  unfold kickLink at h
  split at h
  · exact kickSpi_sameCaller h
  · exact kickUart_sameCaller h
  · simp only [Except.ok.injEq, Prod.mk.injEq] at h
    exact h.1 ▸ .refl s

theorem KickWork.txDrop {k : State} (h : KickWork m k) : k.txDrop = m.txDrop := by
  rcases h with h | h
  · rw [h]
  · rw [h, (dequeueD4_counted (dequeueD3 .q0 m) .q0).frame, (dequeueD3_counted m .q0).frame]

theorem Counted.counters {r : Queue} {v : BitVec 4} (h : Counted q r v s m) :
    m.txDrop = s.txDrop ∧ m.rxDrop = s.rxDrop ∧ m.crcFail = s.crcFail := by
  rw [h.frame]; exact ⟨rfl, rfl, rfl⟩

/-! ### SEND (44_comms.md R312) -/

section send

variable {payload : List Byte}

theorem exec_send_oversize (hp : s.phase = .first) (h : s.cfg.maxMessageSize < payload.length) :
    exec (.send payload) s = .next ((s.setTxDrop (s.txDrop + 1)).reply .command
      (.valued .oversize (BitVec.ofNat 24 payload.length))) := by
  simp only [exec, execSend, hp, if_pos h]

theorem exec_send_calls (hp : s.phase = .first) (h : payload.length ≤ s.cfg.maxMessageSize) :
    exec (.send payload) s = .next (callEnqueue (.send payload) .q0
      (fit (s.queue .q0).itemSize.toNat (packet s.cfg payload))
      (fun st => State.goOn (.send payload) (.afterEnqueue st)) s) := by
  simp only [exec, execSend, hp, if_neg (not_lt.2 h)]

/-- s with the drop of a SEND that ENQUEUE answered with `st` counted. -/
def State.sendCounted (s : State) (st : Status) : State := if st = .ok then s else s.setTxDrop (s.txDrop + 1)

theorem State.sendCounted_sameCaller (s : State) (st : Status) : s.SameCaller (s.sendCounted st) := by
  unfold State.sendCounted; split <;> exact .refl s

theorem exec_send_t2 {st : Status} {k : State} {b : Bool} (hp : s.phase = .afterEnqueue st)
    (h : kickLink (s.sendCounted st) = .ok (k, b)) :
    exec (.send payload) s = .next (k.reply .command (.plain st)) := by
  unfold State.sendCounted at h
  simp only [exec, execSend, hp, sendT2, h]

theorem State.SameCaller.trans {k : State} (h : s.SameCaller m) (h' : m.SameCaller k) : s.SameCaller k := by
  obtain ⟨a, b, c, d⟩ := h
  obtain ⟨a', b', c', d'⟩ := h'
  exact ⟨a'.trans a, b'.trans b, c'.trans c, d'.trans d⟩

/-- Settles O46: T1 counts an oversize or begins the ENQUEUE (`callEnqueue_begun`), T2 runs the kick of the selected link
(`kickLink_linkKick`) and answers. -/
theorem sendBeginsAndEnds : Obligations.SendBeginsAndEnds := by
  intro s payload
  refine ⟨fun hp h => ?_, fun hp h => ⟨_, exec_send_calls hp h, callEnqueue_begun s _ _ _⟩, fun st hp hinv => ?_⟩
  · exact ⟨_, exec_send_oversize hp h, State.SameCaller.reply_ended (t := s.setTxDrop _) ⟨rfl, rfl, rfl, rfl⟩ _ _,
      (s.setTxDrop _).reply_sameFtc _ _, (s.setTxDrop _).reply_sameEnv _ _⟩
  · have hq : ((s.sendCounted st).queue .q0).Inv (s.sendCounted st).cfg := by
      unfold State.sendCounted; split <;> exact hinv.queues .q0
    obtain ⟨k, started, hk, hkick, hcaller⟩ := kickLink_linkKick hq
    exact ⟨_, started, exec_send_t2 hp hk, ((s.sendCounted_sameCaller st).trans hcaller).reply_ended _ _, hkick.reply _ _⟩

/-- What a micro-step of SEND does to TX_DROP (44_comms.md R312, R316). -/
theorem exec_send_txDrop (h : exec (.send payload) s = .next t) :
    (∃ r, s.Ended .command r t ∧ t.txDrop = if r.status = .ok then s.txDrop else s.txDrop + 1) ∨
    ∃ ph, s.WentOn (.send payload) ph t ∧ t.txDrop = s.txDrop := by
  cases hp : s.phase with
  | first =>
    by_cases hl : payload.length ≤ s.cfg.maxMessageSize
    · rw [exec_send_calls hp hl] at h
      injection h with h
      exact .inr (h ▸ (callEnqueue_begun s _ _ _).wentOn)
    · rw [exec_send_oversize hp (not_le.1 hl)] at h
      injection h with h
      subst h
      exact .inl ⟨_, State.SameCaller.reply_ended (t := s.setTxDrop _) ⟨rfl, rfl, rfl, rfl⟩ _ _, rfl⟩
  | enqueue l p =>
    rw [exec_enqueuing (.inr (.inl rfl)) hp] at h
    right
    rcases resumeEnqueue_cases s h with ⟨rfl, rfl⟩ | ⟨j, rfl, -, rfl⟩ | ⟨rfl, rfl⟩
    · have hc := enqueueE2_counted s l
      exact ⟨_, hc.sameCaller.wentOn _ _, hc.counters.1⟩
    · exact ⟨_, State.SameCaller.wentOn (m := s.setQsm _) ⟨rfl, rfl, rfl, rfl⟩ _ _, rfl⟩
    · have hc := enqueueE4_counted s l
      exact ⟨_, hc.sameCaller.wentOn _ _, hc.counters.1⟩
  | afterEnqueue st =>
    cases hk : kickLink (s.sendCounted st) with
    | error f =>
      unfold State.sendCounted at hk
      simp only [exec, execSend, hp, sendT2, hk, reduceCtorEq] at h
    | ok r =>
      obtain ⟨k, b⟩ := r
      rw [exec_send_t2 hp hk] at h
      injection h with h
      subst h
      refine .inl ⟨_, ((s.sendCounted_sameCaller st).trans (kickLink_sameCaller hk)).reply_ended _ _, ?_⟩
      rw [State.reply_txDrop, (kickLink_work hk).txDrop, State.sendCounted]
      show _ = if st = .ok then _ else _
      split <;> rfl
  | dequeue l p => simp [exec, execSend, hp] at h
  | spiRearm v => simp [exec, execSend, hp] at h

end send

/-! ### The counters of received packets (44_comms.md R316, R317) -/

theorem Leaves.counters (h : Leaves i m t) : t.txDrop = m.txDrop ∧ t.rxDrop = m.rxDrop ∧ t.crcFail = m.crcFail := by
  obtain ⟨p, r, rfl⟩ | ⟨st, rfl⟩ | ⟨v, rfl⟩ := h
  · exact ⟨m.reply_txDrop _ _, m.reply_rxDrop _ _, m.reply_crcFail _ _⟩
  · exact ⟨rfl, rfl, rfl⟩
  · exact ⟨rfl, rfl, rfl⟩

/-- What a micro-step of command i counts. -/
structure Counts (i : Instr) (s t : State) : Prop where
  tx : i.opcode ≠ .send → t.txDrop = s.txDrop
  rx : (t.rxDrop = s.rxDrop ∧ t.crcFail = s.crcFail) ∨
    ((i.opcode = .evUartRx ∨ i.opcode = .evSpiDone) ∧ ((t.rxDrop = s.rxDrop + 1 ∧ t.crcFail = s.crcFail) ∨
      (t.rxDrop = s.rxDrop ∧ t.crcFail = s.crcFail + 1 ∧ s.SameQueues t ∧ s.SameMemory t)))

theorem Counts.of_same (h : t.txDrop = s.txDrop ∧ t.rxDrop = s.rxDrop ∧ t.crcFail = s.crcFail) : Counts i s t :=
  ⟨fun _ => h.1, .inl h.2⟩

theorem UnitWork.counts (hm : UnitWork i s m) (hq : t.queue = m.queue) (hmem : t.qsm = m.qsm)
    (hc : t.txDrop = m.txDrop ∧ t.rxDrop = m.rxDrop ∧ t.crcFail = m.crcFail) : Counts i s t := by
  obtain ⟨htx, hrx, hcrc⟩ := hc
  refine ⟨fun h => htx.trans (hm.txDrop h), ?_⟩
  rw [hrx, hcrc]
  rcases hm.rxDrop with h | ⟨hi, h | ⟨hdrop, hfail⟩⟩
  · exact .inl h
  · exact .inr ⟨hi, .inl h⟩
  · exact .inr ⟨hi, .inr ⟨hdrop, hfail, fun p => (congrFun hq p).trans (hm.queue p), fun a => by rw [hmem, hm.qsm]⟩⟩

theorem MicroStep.counts (h : MicroStep i s t) : Counts i s t := by
  cases h with
  | units m hm ht => exact hm.counts (funext ht.queue) ht.qsm ht.counters
  | qinit p sp ceil itemSize cap base hi ht => exact .of_same ht.counters
  | e1 m p item hm ht => rw [ht]; exact hm.counts rfl rfl ⟨rfl, rfl, rfl⟩
  | e2 l hph ht => rw [ht]; exact .of_same (enqueueE2_counted s l).counters
  | e3 l j hi hph ht => rw [ht]; exact .of_same ⟨rfl, rfl, rfl⟩
  | e4 l hph ht =>
    have hc := (enqueueE4_counted s l).counters
    obtain ⟨htx, hrx, hcrc⟩ := ht.counters
    exact .of_same ⟨htx.trans hc.1, hrx.trans hc.2.1, hcrc.trans hc.2.2⟩
  | reading l p ht => rw [ht]; exact .of_same ⟨rfl, rfl, rfl⟩
  | d3 l hph ht => rw [ht]; exact .of_same (dequeueD3_counted s l.q).counters
  | d4 l hph ht =>
    have hc := (dequeueD4_counted s l.q).counters
    obtain ⟨htx, hrx, hcrc⟩ := ht.counters
    exact .of_same ⟨htx.trans hc.1, hrx.trans hc.2.1, hcrc.trans hc.2.2⟩
  | pop m k hm hk hrx ht =>
    obtain ⟨htx, hrx', hcrc⟩ := ht.counters
    refine ⟨fun h => ?_, .inl ⟨hrx'.trans hrx.1, hcrc.trans hrx.2⟩⟩
    rw [htx, hk.txDrop h, (dequeueD4_counted _ _).counters.1, (dequeueD3_counted _ _).counters.1, hm.txDrop h]

/-- Settles O48: what each micro-step counts (`MicroStep.counts`), and for SEND the status it ends with
(`exec_send_txDrop`). -/
theorem eachDropIsCountedOnce : Obligations.EachDropIsCountedOnce := by
  intro s t i h
  obtain ⟨htx, hrx⟩ := (exec_microStep h).counts
  refine ⟨htx, fun hi => ?_, fun hu hs => ?_, ?_⟩
  · cases i with
    | send payload => exact exec_send_txDrop h
    | _ => exact absurd hi nofun
  · exact hrx.elim id fun h => (h.1.elim hu hs).elim
  · rcases hrx with h | ⟨-, h | h⟩
    · exact .inl h
    · exact .inr (.inl h)
    · exact .inr (.inr h)

/-! ### ACCEPT (44_comms.md R314) -/

theorem callAccept_crcFail {pkt : List Byte} {ret : Nat → State → State} (h : pkt.headD 0 ≠ 0)
    (hv : verify s.cfg pkt = false) : callAccept i pkt ret s = ret 1 (s.setCrcFail (s.crcFail + 1)) := by
  rw [callAccept, if_neg (by rw [Bool.and_eq_true, beq_iff_eq]; exact fun e => h e.2), if_pos (by simp [hv])]

theorem callAccept_verified {pkt : List Byte} {ret : Nat → State → State} (h : pkt.headD 0 ≠ 0)
    (hv : verify s.cfg pkt = true) :
    callAccept i pkt ret s = callEnqueue i .q1 (acceptItem s pkt) (fun st => State.goOn i (.afterEnqueue st)) s := by
  rw [callAccept, if_neg (by rw [Bool.and_eq_true, beq_iff_eq]; exact fun e => h e.2), if_neg (by simp [hv])]

/-- Settles O38: A2 counts a drop for any status but OK, and each caller goes on with the admission code. -/
theorem acceptCountsADropOnce : Obligations.AcceptCountsADropOnce := by
  intro s st hp
  by_cases h : st = .ok
  · subst h
    refine ⟨fun b => ⟨s.reply .event (.valued .ok 4), ?_, s.reply_ended _ _, s.reply_sameFtc _ _, s.reply_sameEnv _ _⟩,
      fun rx => ⟨s.goOn (.evSpiDone rx) (.spiRearm 4), ?_, s.goOn_wentOn _ _, s.goOn_sameFtc _ _, rfl⟩⟩
    · simp only [exec, execEvUartRx, hp]; rfl
    · simp only [exec, execEvSpiDone, hp]; rfl
  · have hs : (if st = .ok then s else s.setRxDrop (s.rxDrop + 1)) = s.setRxDrop (s.rxDrop + 1) := if_neg h
    have hv : (if st = .ok then 4 else 36 : BitVec 24) = 36 := if_neg h
    have hc : s.SameCaller (s.setRxDrop (s.rxDrop + 1)) := ⟨rfl, rfl, rfl, rfl⟩
    simp only [hs, hv]
    refine ⟨fun b => ⟨_, ?_, hc.reply_ended _ _, (s.setRxDrop _).reply_sameFtc _ _, (s.setRxDrop _).reply_sameEnv _ _⟩,
      fun rx => ⟨_, ?_, hc.wentOn _ _, (s.setRxDrop _).goOn_sameFtc _ _, rfl⟩⟩
    · simp only [exec, execEvUartRx, hp, acceptA2, if_neg h]; rfl
    · simp only [exec, execEvSpiDone, hp, acceptA2, if_neg h]; rfl

/-! ### EV_SPI_DONE (43_spi_transport.md R276) -/

section spiDone

variable {rx : List Byte}

/-- s after S1 took the completed transfer. -/
def State.transferTaken (s : State) : State := s.setSpx { s.spx with busy := false, selected := false }

theorem exec_evSpiDone_idle (hl : s.link = .spi) (hp : s.phase = .first) (h : s.spx.busy = false) :
    exec (.evSpiDone rx) s = .next (s.reply .event (.plain .badArg)) := by
  simp [exec, execEvSpiDone, hp, hl, h]

theorem exec_evSpiDone_probe (hl : s.link = .spi) (hp : s.phase = .first) (h : s.spx.busy = true) (hz : rx.headD 0 = 0) :
    exec (.evSpiDone rx) s = .next (s.transferTaken.goOn (.evSpiDone rx) (.spiRearm 0)) := by
  simp only [exec, execEvSpiDone, hp, hl, h, hz, ne_eq, not_true_eq_false, if_false, if_true, Bool.not_true,
    Bool.false_eq_true]
  rfl

theorem exec_evSpiDone_accepts (hl : s.link = .spi) (hp : s.phase = .first) (h : s.spx.busy = true)
    (hz : rx.headD 0 ≠ 0) :
    exec (.evSpiDone rx) s = .next (callAccept (.evSpiDone rx) rx (spiAdmitted rx) s.transferTaken) := by
  simp only [exec, execEvSpiDone, hp, hl, h, hz, ne_eq, not_true_eq_false, if_false, Bool.not_true,
    Bool.false_eq_true]
  rfl

theorem exec_evSpiDone_rearm {v : BitVec 24} (hp : s.phase = .spiRearm v) :
    exec (.evSpiDone rx) s =
      .next ((s.setSpx { s.spx with ctsArmed := true }).reply .event (.valued .ok v)) := by
  simp only [exec, execEvSpiDone, hp]

/-- Settles O41: each outcome of S1 by its equation of `exec`, with ACCEPT's calls for a packet, and S2. -/
theorem spiCompletionAcceptsAndRearms : Obligations.SpiCompletionAcceptsAndRearms := by
  intro s rx
  refine ⟨fun hl hp h => exec_onlyAnswered (exec_evSpiDone_idle hl hp h), fun hl hp h hz => ?_,
    fun hl hp h hz hv => ?_, fun hl hp h hz hv => ?_, fun v hp => ?_⟩
  · exact ⟨_, exec_evSpiDone_probe hl hp h hz, State.SameCaller.wentOn (m := s.transferTaken) ⟨rfl, rfl, rfl, rfl⟩ _ _,
      s.transferTaken.goOn_sameFtc _ _, rfl⟩
  · refine ⟨_, exec_evSpiDone_accepts hl hp h hz, ?_⟩
    rw [callAccept_crcFail (s := s.transferTaken) hz hv]
    exact ⟨State.SameCaller.wentOn (m := s.transferTaken.setCrcFail _) ⟨rfl, rfl, rfl, rfl⟩ _ _,
      (s.transferTaken.setCrcFail _).goOn_sameFtc _ _, rfl⟩
  · refine ⟨_, exec_evSpiDone_accepts hl hp h hz, ?_⟩
    rw [callAccept_verified (s := s.transferTaken) hz hv]
    exact callEnqueue_begun s.transferTaken _ _ _
  · exact ⟨_, exec_evSpiDone_rearm hp, State.SameCaller.reply_ended (t := s.setSpx _) ⟨rfl, rfl, rfl, rfl⟩ _ _,
      (s.setSpx _).reply_sameFtc _ _, (s.setSpx _).reply_sameEnv _ _⟩

end spiDone

/-! ### EV_UART_RX (42_uart_framer.md R232 to R234, R238) -/

section uartRx

variable {b : Byte} {f : Framer} {c : Config}

theorem exec_evUartRx_start (hl : s.link = .uart) (hp : s.phase = .first) (h : s.ufr.state = .awaitingStart) :
    exec (.evUartRx b) s = .next ((s.setUfr (startByte s.cfg b s.ufr)).reply .event
      (.valued .ok (if (startByte s.cfg b s.ufr).state = .awaitingLength then 1 else 0))) := by
  simp only [exec, execEvUartRx, hp, hl, h, ne_eq, not_true_eq_false, if_false]

theorem exec_evUartRx_length (hl : s.link = .uart) (hp : s.phase = .first) (h : s.ufr.state = .awaitingLength) :
    exec (.evUartRx b) s = .next ((s.setUfr (lengthByte s.cfg b s.ufr)).reply .event
      (.valued .ok (if (lengthByte s.cfg b s.ufr).state = .awaitingPayload then 2 else 3))) := by
  simp only [exec, execEvUartRx, hp, hl, h, ne_eq, not_true_eq_false, if_false]

/-- The window and the byte behind it. -/
def Framer.seen (f : Framer) (b : Byte) : List Byte := (if f.winCount = 0 then [] else [f.win0]) ++ [b]

theorem Framer.Inv.winCount_le (h : f.Inv c) (hc : c.WF) : f.winCount.toNat ≤ c.startCode.length - 1 ∧
    c.startCode.length ≤ 2 := by
  obtain ⟨-, -, -, -, hw, -⟩ := h
  obtain ⟨-, ⟨-, hcode⟩, -⟩ := hc
  exact ⟨hw, hcode⟩

theorem Framer.Inv.window (h : f.Inv c) (hc : c.WF) (b : Byte) :
    [f.win0, f.win1].take f.winCount.toNat ++ [b] = f.seen b := by
  obtain ⟨hw, hcode⟩ := h.winCount_le hc
  unfold Framer.seen
  split
  next h0 => rw [h0]; rfl
  next h0 =>
    have : f.winCount.toNat = 1 := by
      have : f.winCount.toNat ≠ 0 := fun h => h0 (BitVec.eq_of_toNat_eq h)
      omega
    rw [this]; rfl

theorem startByte_found (h : f.Inv c) (hc : c.WF) (hs : f.seen b = c.startCode) :
    startByte c b f = { f with state := .awaitingLength, win0 := 0, winCount := 0 } := by
  have hwindow := Framer.Inv.window h hc b
  obtain ⟨-, -, -, -, -, hwin1, -⟩ := h
  rw [startByte, hwindow, if_pos ⟨congrArg List.length hs, hs⟩, ← hwin1]

theorem startByte_dropped (h : f.Inv c) (hc : c.WF) (hs : f.seen b ≠ c.startCode) (hlen : c.startCode.length = 1) :
    startByte c b f = f := by
  have hwindow := Framer.Inv.window h hc b
  obtain ⟨hw, -⟩ := h.winCount_le hc
  obtain ⟨-, -, -, -, -, hwin1, hwin0⟩ := h
  have hcount : f.winCount = 0 := BitVec.eq_of_toNat_eq (by rw [hlen] at hw; exact Nat.le_zero.1 hw)
  rw [startByte, hwindow, if_neg fun h => hs h.2, Config.startCodeLen, hlen]
  simp only [Nat.sub_self, Nat.min_zero, Nat.sub_zero, List.drop_length]
  rw [show (fit 2 ([] : List Byte)).getD 0 0 = f.win0 from (hwin0 hcount).symm,
    show (fit 2 ([] : List Byte)).getD 1 0 = f.win1 from hwin1.symm,
    show BitVec.ofNat 2 ([] : List Byte).length = f.winCount from hcount.symm]

theorem Framer.drop_seen (f : Framer) (b : Byte) : (f.seen b).drop ((f.seen b).length - 1) = [b] := by
  unfold Framer.seen; split <;> rfl

theorem startByte_kept (h : f.Inv c) (hc : c.WF) (hs : f.seen b ≠ c.startCode) (hlen : c.startCode.length = 2) :
    startByte c b f = { f with win0 := b, winCount := 1 } := by
  have hwindow := Framer.Inv.window h hc b
  obtain ⟨-, -, -, -, -, hwin1, -⟩ := h
  have hn : min (f.seen b).length 1 = 1 := by simp [Framer.seen]
  rw [startByte, hwindow, if_neg fun h => hs h.2, Config.startCodeLen, hlen]
  simp only [Nat.add_one_sub_one, hn, Framer.drop_seen]
  rw [show (fit 2 [b]).getD 0 0 = b from rfl, show (fit 2 [b]).getD 1 0 = f.win1 from hwin1.symm]
  rfl

theorem lengthByte_accepted (h : 1 ≤ b.toNat) (hm : b.toNat ≤ c.maxMessageSize) :
    lengthByte c b f = { f with
      state := .awaitingPayload, fbuf := f.fbuf.set 0 b, pos := 1, need := BitVec.ofNat 8 (1 + b.toNat + crcWidth) } :=
  if_pos ⟨h, hm⟩

theorem lengthByte_refused (h : b = 0 ∨ c.maxMessageSize < b.toNat) : lengthByte c b f = resync f := by
  refine if_neg ?_
  rcases h with rfl | h
  · simp
  · omega

/-- A length that fits leaves room for the packet in a byte (42_uart_framer.md R233). -/
theorem toNat_need (hc : c.WF) (hm : b.toNat ≤ c.maxMessageSize) :
    (BitVec.ofNat 8 (1 + b.toNat + crcWidth)).toNat = 3 + b.toNat := by
  obtain ⟨⟨hmin, hmax⟩, -⟩ := hc
  rw [Config.maxMessageSize, show crcWidth = 2 from rfl] at hm
  rw [BitVec.toNat_ofNat, show crcWidth = 2 from rfl]
  omega

/-- Settles O36: the framer's procedures START_BYTE and LENGTH_BYTE in each of their cases. -/
theorem startCodeAndLengthAreRead : Obligations.StartCodeAndLengthAreRead := by
  intro s b hinv hl hp
  have hf := hinv.ufr
  have hc := hinv.config
  refine ⟨fun h hs => ?_, fun h hs hlen => ?_, fun h hs hlen => ?_, fun h h1 hm => ?_, fun h hb => ?_⟩
  · have he := exec_evUartRx_start (b := b) hl hp h
    rw [startByte_found hf hc hs] at he
    exact ⟨_, he, s.setUfr_reply_frame _ _ _⟩
  · have he := exec_evUartRx_start (b := b) hl hp h
    rw [startByte_dropped hf hc hs hlen, if_neg (by simp [h])] at he
    exact ⟨_, he, s.setUfr_reply_frame _ _ _⟩
  · have he := exec_evUartRx_start (b := b) hl hp h
    rw [startByte_kept hf hc hs hlen, if_neg (by simp [h])] at he
    exact ⟨_, he, s.setUfr_reply_frame _ _ _⟩
  · have he := exec_evUartRx_length (b := b) hl hp h
    rw [lengthByte_accepted h1 hm] at he
    obtain ⟨hended, hftc, henv⟩ := s.setUfr_reply_frame
      { s.ufr with
        state := .awaitingPayload, fbuf := s.ufr.fbuf.set 0 b, pos := 1, need := BitVec.ofNat 8 (1 + b.toNat + crcWidth) } .event (.valued .ok 2)
    exact ⟨_, he, hended, toNat_need hc hm, hftc, henv⟩
  · have he := exec_evUartRx_length (b := b) hl hp h
    rw [lengthByte_refused hb] at he
    exact ⟨_, he, s.setUfr_reply_frame _ _ _⟩

/-- The framer with one more byte of the payload. -/
def Framer.stored (f : Framer) (b : Byte) : Framer := { f with fbuf := f.fbuf.set f.pos.toNat b, pos := f.pos + 1 }

theorem exec_evUartRx_stored (hl : s.link = .uart) (hp : s.phase = .first) (h : s.ufr.state = .awaitingPayload)
    (hpos : s.ufr.pos.toNat < s.ufr.fbuf.length) (hne : s.ufr.pos + 1 ≠ s.ufr.need) :
    exec (.evUartRx b) s = .next ((s.setUfr (s.ufr.stored b)).reply .event (.valued .ok 0)) := by
  simp only [exec, execEvUartRx, hp, hl, h, ne_eq, not_true_eq_false, if_false, payloadByte, if_pos hpos, if_neg hne,
    Framer.stored]

theorem exec_evUartRx_completes (hl : s.link = .uart) (hp : s.phase = .first) (h : s.ufr.state = .awaitingPayload)
    (hpos : s.ufr.pos.toNat < s.ufr.fbuf.length) (he : s.ufr.pos + 1 = s.ufr.need) :
    exec (.evUartRx b) s = .next (callAccept (.evUartRx b) ((s.ufr.fbuf.set s.ufr.pos.toNat b).take s.ufr.need.toNat)
      uartAdmitted (s.setUfr (resync (s.ufr.stored b)))) := by
  simp only [exec, execEvUartRx, hp, hl, h, ne_eq, not_true_eq_false, if_false, payloadByte, if_pos hpos, if_pos he]
  rfl

theorem fit_take_self {pkt : List Byte} {n : Nat} (h : pkt.length = n) (k : Nat) : fit k (pkt.take n) = fit k pkt := by
  rw [← h, List.take_length]

/-- Settles O37: PAYLOAD_BYTE stores (`exec_evUartRx_stored`) or completes the packet and hands it to ACCEPT
(`exec_evUartRx_completes`). -/
theorem payloadByteCompletesAPacket : Obligations.PayloadByteCompletesAPacket := by
  intro s b hinv hl hp h
  obtain ⟨hbuf, -, -, hpayload, -⟩ := hinv.ufr
  obtain ⟨hpos1, hposneed, hneed, -, hlen, hlen1⟩ := hpayload h
  rw [BitVec.lt_def] at hposneed
  have hpos : s.ufr.pos.toNat < s.ufr.fbuf.length := by omega
  have hsucc : (s.ufr.pos + 1).toNat = s.ufr.pos.toNat + 1 := by
    have := s.ufr.need.isLt
    rw [BitVec.toNat_add]
    exact Nat.mod_eq_of_lt (by simp; omega)
  refine ⟨fun hlt => ?_, fun he => ?_⟩
  · have hne : s.ufr.pos + 1 ≠ s.ufr.need := fun e => by rw [← e, hsucc] at hlt; omega
    exact ⟨_, exec_evUartRx_stored hl hp h hpos hne, s.setUfr_reply_frame _ _ _⟩
  · have hlast : s.ufr.pos + 1 = s.ufr.need := BitVec.eq_of_toNat_eq (hsucc.trans he)
    have hhead : ((s.ufr.fbuf.set s.ufr.pos.toNat b).take s.ufr.need.toNat).headD 0 = s.ufr.fbuf.getD 0 0 := by
      rw [List.headD_eq_head?_getD, List.head?_take, if_neg (by omega), List.head?_eq_getElem?,
        List.getElem?_set_ne (by omega)]
      rfl
    have hpkt : ((s.ufr.fbuf.set s.ufr.pos.toNat b).take s.ufr.need.toNat).length = 3 + (s.ufr.fbuf.getD 0 0).toNat := by
      rw [List.length_take, List.length_set]; omega
    have hmax : (s.ufr.fbuf.getD 0 0).toNat ≤ s.cfg.maxMessageSize := by
      rw [Config.maxMessageSize, show crcWidth = 2 from rfl]; omega
    have hne : ((s.ufr.fbuf.set s.ufr.pos.toNat b).take s.ufr.need.toNat).headD 0 ≠ 0 := by
      rw [hhead]
      intro h0
      rw [h0] at hlen1
      exact absurd hlen1 (by decide)
    refine ⟨by rw [hhead]; exact hpkt, by rw [hhead]; exact hlen1, by rw [hhead]; exact hmax, fun hv => ?_, fun hv => ?_⟩
    · refine ⟨_, exec_evUartRx_completes hl hp h hpos hlast, ?_⟩
      rw [callAccept_crcFail (s := s.setUfr (resync (s.ufr.stored b))) hne hv]
      exact ⟨State.SameCaller.reply_ended (t := (s.setUfr (resync (s.ufr.stored b))).setCrcFail _) ⟨rfl, rfl, rfl, rfl⟩ _ _,
        ((s.setUfr (resync (s.ufr.stored b))).setCrcFail _).reply_sameFtc _ _,
        ((s.setUfr (resync (s.ufr.stored b))).setCrcFail _).reply_sameEnv _ _⟩
    · refine ⟨_, exec_evUartRx_completes hl hp h hpos hlast, ?_⟩
      rw [callAccept_verified (s := s.setUfr (resync (s.ufr.stored b))) hne hv, acceptItem, hhead, fit_take_self hpkt]
      exact callEnqueue_begun (s.setUfr (resync (s.ufr.stored b))) _ _ _

end uartRx

end Sys2Proof.Machine
end

section
/-! PROOFS. Whole commands that no other step interrupts: the copy into a claimed slot, ENQ, SEND, DEQ and RECV from their first
micro-step to their last, and the order in which items leave (40_queue.md sections 1 to 3; 44_comms.md section 2). -/

namespace Sys2Proof.Machine

variable {s m t u : State} {i : Instr} {q : QId}

/-! ### Steps one after another -/

theorem steps_succ (h : step s = .next t) (n : Nat) : steps (n + 1) s = steps n t := by
  rw [steps, h]

theorem steps_add {k : Nat} (h : steps k s = .next t) (n : Nat) : steps (k + n) s = steps n t := by
  induction k generalizing s with
  | zero => injection h with h; rw [h, Nat.zero_add]
  | succ k ih =>
    rw [steps] at h
    rw [Nat.add_right_comm]
    split at h
    next m hs => rw [steps_succ hs]; exact ih h
    · simp at h
    · simp at h

theorem steps_snoc {k : Nat} (h : steps k s = .next t) (ht : step t = .next u) : steps (k + 1) s = .next u := by
  rw [steps_add h, steps_succ ht]; rfl

theorem State.SameUnits.trans (h : s.SameUnits m) (h' : m.SameUnits t) : s.SameUnits t := by
  obtain ⟨a1, a2, a3, a4, a5, a6, a7, a8, a9, a10⟩ := h
  obtain ⟨b1, b2, b3, b4, b5, b6, b7, b8, b9, b10⟩ := h'
  exact ⟨b1.trans a1, b2.trans a2, b3.trans a3, b4.trans a4, b5.trans a5, b6.trans a6, b7.trans a7, b8.trans a8,
    b9.trans a9, b10.trans a10⟩

theorem State.SameUnits.refl (s : State) : s.SameUnits s := s.sameFtc_refl.1

theorem State.SameEnv.trans (h : s.SameEnv m) (h' : m.SameEnv t) : s.SameEnv t := by
  have e : { t.env with eventSink := s.env.eventSink } =
      { { t.env with eventSink := m.env.eventSink } with eventSink := s.env.eventSink } := rfl
  rw [State.SameEnv, e, show { t.env with eventSink := m.env.eventSink } = m.env from h']
  exact h

theorem State.wentOn_refl {ph : Phase} (h : s.record = .busy i ph) : s.WentOn i ph s :=
  ⟨rfl, rfl, fun _ _ => rfl, by rw [← h]; rfl, rfl⟩

namespace State.WentOn

variable {ph : Phase} (h : s.WentOn i ph m)
include h

theorem running : m.running = s.running := by
  obtain ⟨-, -, hothers, hself, -⟩ := h
  refine State.running_congr fun u => ?_
  by_cases hu : u = s.running
  · rw [hu, hself]
  · rw [hothers u hu]

theorem record : m.record = .busy i ph := by
  have hr := h.running
  obtain ⟨-, -, -, hself, -⟩ := h
  rw [State.record, hr, hself]

theorem trans {j : Instr} {ph' : Phase} (h' : m.WentOn j ph' t) : s.WentOn j ph' t := by
  have hr := h.running
  obtain ⟨hcfg, hsched, hothers, hself, hsink⟩ := h
  obtain ⟨hcfg', hsched', hothers', hself', hsink'⟩ := h'
  rw [hr] at hothers' hself'
  exact ⟨hcfg'.trans hcfg, hsched'.trans hsched, fun u hu => (hothers' u hu).trans (hothers u hu),
    by rw [hself', hself], hsink'.trans hsink⟩

theorem ended {p : Port} {r : Response} (h' : m.Ended p r t) : s.Ended p r t := by
  have hr := h.running
  obtain ⟨hcfg, hsched, hothers, hself, hsink⟩ := h
  obtain ⟨hcfg', hsched', hothers', hcommand, hevent⟩ := h'
  rw [hr, hself, hsink] at hcommand hevent
  rw [hr] at hothers'
  exact ⟨hcfg'.trans hcfg, hsched'.trans hsched, fun u hu => (hothers' u hu).trans (hothers u hu), hcommand, hevent⟩

end State.WentOn

/-! ### ENQUEUE from E2 on (40_queue.md R152) -/

/-- The copy micro-steps from byte j on. -/
theorem copy_run {l : EnqLocals} (hi : Instr.Enqueues i) (hlen : l.item.length = l.size) (n j : Nat)
    (hn : j + n = l.size) (s : State) (hc : s.cfg.WF) (hs : s.schedule = [])
    (hr : s.record = .busy i (.enqueue l (l.copyFrom j)))
    (hb : l.base + l.idx * l.size + l.size ≤ s.cfg.qsmBytes) :
    ∃ t, steps n s = .next t ∧ s.WentOn i (.enqueue l .e4) t ∧
      t.qsm = s.qsm.writeBytes (l.base + l.idx * l.size + j) (l.item.drop j) ∧ t.queues = s.queues ∧ s.SameUnits t ∧
      s.SameEnv t := by
  induction n generalizing j s with
  | zero =>
    have hj : l.copyFrom j = .e4 := if_neg (by omega)
    rw [hj] at hr
    refine ⟨s, rfl, State.wentOn_refl hr, ?_, rfl, .refl s, rfl⟩
    rw [List.drop_eq_nil_of_le (by omega)]; rfl
  | succ n ih =>
    have hj : l.copyFrom j = .e3 j := if_pos (by omega)
    rw [hj] at hr
    have hstep := step_of_busy hc hs hr
    rw [exec_e3 hi (State.phase_of_record hr) (by omega)] at hstep
    obtain ⟨k, hk, hwent, hkqsm, hkqueues, hkunits, hkenv⟩ : ∃ k, step s = .next k ∧
        s.WentOn i (.enqueue l (l.copyFrom (j + 1))) k ∧
        k.qsm = s.qsm.write (l.base + l.idx * l.size + j) (l.item.getD j 0) ∧ k.queues = s.queues ∧ s.SameUnits k ∧
        s.SameEnv k :=
      ⟨_, hstep, State.SameCaller.wentOn (m := s.setQsm _) ⟨rfl, rfl, rfl, rfl⟩ _ _, rfl, rfl, .refl s, rfl⟩
    obtain ⟨t, ht, hwent', hqsm, hqueues, hunits, henv⟩ :=
      ih (j + 1) (by omega) k (hwent.1 ▸ hc) (hwent.2.1.trans hs) hwent.record (hwent.1 ▸ hb)
    refine ⟨t, (steps_succ hk n).trans ht, hwent.trans hwent', hqsm.trans ?_, hqueues.trans hkqueues,
      hkunits.trans hunits, hkenv.trans henv⟩
    have hdrop : l.item.drop j = l.item.getD j 0 :: l.item.drop (j + 1) := by
      rw [List.drop_eq_getElem_cons (by omega), List.getD_eq_getElem _ _ (by omega)]
    rw [hdrop, hkqsm]; rfl

/-- E2 and the copy, with the counters in order. -/
theorem claimed_run {l : EnqLocals} (hi : Instr.Enqueues i) (hlen : l.item.length = l.size) (hc : s.cfg.WF)
    (hs : s.schedule = []) (hr : s.record = .busy i (.enqueue l .e2))
    (hb : l.base + l.idx * l.size + l.size ≤ s.cfg.qsmBytes) (hready : (s.queue l.q).ready ≤ l.c)
    (hcap : l.c < (s.queue l.q).cap) :
    ∃ t, steps (l.size + 1) s = .next t ∧ s.WentOn i (.enqueue l .e4) t ∧
      t.qsm = s.qsm.writeBytes (l.base + l.idx * l.size) l.item ∧
      t.queue l.q = { s.queue l.q with claimed := l.c + 1 } ∧ (∀ p, p ≠ l.q → t.queue p = s.queue p) ∧
      (s.setMask l.saved).SameUnits t ∧ s.SameEnv t := by
  have hok : ({ s.queue l.q with claimed := l.c + 1 } : Queue).countersOk := by
    rw [BitVec.le_def] at hready
    rw [BitVec.lt_def] at hcap
    have := (s.queue l.q).cap.isLt
    constructor <;> rw [BitVec.le_def, BitVec.toNat_add_of_lt (by simp; omega)] <;> simp <;> omega
  have he2 : enqueueE2 l s = (s.setQueue l.q { s.queue l.q with claimed := l.c + 1 }).setMask l.saved :=
    (enqueueE2_counted s l).of_ok hok
  have hstep := step_of_busy hc hs hr
  rw [exec_e2 hi (State.phase_of_record hr), he2] at hstep
  obtain ⟨k, hk, hwent, hkqsm, hkself, hkothers, hkunits, hkenv⟩ : ∃ k, step s = .next k ∧
      s.WentOn i (.enqueue l (l.copyFrom 0)) k ∧ k.qsm = s.qsm ∧
      k.queue l.q = { s.queue l.q with claimed := l.c + 1 } ∧ (∀ p, p ≠ l.q → k.queue p = s.queue p) ∧
      (s.setMask l.saved).SameUnits k ∧ s.SameEnv k :=
    ⟨_, hstep, State.SameCaller.wentOn (m := (s.setQueue l.q _).setMask _) ⟨rfl, rfl, rfl, rfl⟩ _ _, rfl,
      s.setQueue_queue_self l.q _, fun p hp => s.setQueue_queue_of_ne _ hp, .refl (s.setMask l.saved), rfl⟩
  obtain ⟨t, ht, hwent', hqsm, hqueues, hunits, henv⟩ :=
    copy_run hi hlen l.size 0 (Nat.zero_add _) k (hwent.1 ▸ hc) (hwent.2.1.trans hs) hwent.record (hwent.1 ▸ hb)
  refine ⟨t, (steps_succ hk l.size).trans ht, hwent.trans hwent', hkqsm ▸ hqsm, ?_, fun p hp => ?_,
    hkunits.trans hunits, hkenv.trans henv⟩
  · rw [queue_congr hqueues, hkself]
  · rw [queue_congr hqueues, hkothers p hp]

theorem Memory.readBytes_written {mem : Memory} (h : mem.WF) (a : Nat) {bytes : List Byte} {n : Nat}
    (hn : bytes.length = n) : (mem.writeBytes a bytes).readBytes a n = bytes := by
  rw [← hn]; exact Memory.readBytes_writeBytes h a bytes

theorem Memory.read_outside {mem : Memory} (h : mem.WF) {a n x : Nat} {bytes : List Byte} (hn : bytes.length = n)
    (hx : x < a ∨ a + n ≤ x) : (mem.writeBytes a bytes).read x = mem.read x := by
  rw [Memory.read_writeBytes h, if_neg (by omega)]

/-- Settles O20: E2 writes the claim and the copy follows byte by byte (`claimed_run`). -/
theorem uninterruptedCopyFillsTheSlot : Obligations.UninterruptedCopyFillsTheSlot := by
  intro s i l hinv hs hr _ hready hcap
  obtain ⟨hfits, ⟨⟨-, hlen, hb⟩, -⟩, -⟩ : (Phase.enqueue l .e2).Fits i ∧ _ := by
    have := hinv.records s.running
    rwa [show (s.ctx s.running).record = _ from hr] at this
  have hi : Instr.Enqueues i := by
    cases i with
    | enq => exact .inl rfl
    | send => exact .inr (.inl rfl)
    | evUartRx => exact .inr (.inr (.inl rfl))
    | evSpiDone => exact .inr (.inr (.inr rfl))
    | _ => exact absurd hfits id
  obtain ⟨t, ht, hwent, hqsm, hqueue, hothers, hunits, henv⟩ := claimed_run hi hlen hinv.config hs hr hb hready hcap
  refine ⟨t, ht, hwent, ?_, fun a ha => ?_, hqueue, hothers, hunits, henv⟩
  · rw [hqsm, Memory.readBytes_written hinv.qsm.1 _ hlen]
  · rw [hqsm, Memory.read_outside hinv.qsm.1 hlen ha]

/-! ### A whole ENQUEUE -/

/-- The address of slot k of queue q (40_queue.md R151). -/
abbrev State.slotAddress (s : State) (q : QId) (k : Nat) : Nat :=
  (s.queue q).base.toNat + k * (s.queue q).itemSize.toNat

/-- m is s with `item` in the next free slot of queue q, claimed and published. -/
structure State.Enqueued (s : State) (q : QId) (item : List Byte) (m : State) : Prop where
  qsm : m.qsm = s.qsm.writeBytes
    (s.slotAddress q (((s.queue q).front.toNat + (s.queue q).claimed.toNat) % (s.queue q).cap.toNat)) item
  queue : m.queue q = { s.queue q with claimed := (s.queue q).claimed + 1, ready := (s.queue q).ready + 1 }
  others : ∀ p, p ≠ q → m.queue p = s.queue p
  units : s.SameUnits m
  env : s.SameEnv m

theorem slot_end_le {c n k : Nat} (hk : k < c) : k * n + n ≤ c * n := by
  rw [← Nat.succ_mul]; exact Nat.mul_le_mul_right n hk

/-- A queue with room that has its counters in order has them in order after one more item. -/
theorem Queue.countersOk_pushed {r : Queue} (h : r.countersOk) (hc : r.claimed < r.cap) :
    ({ r with claimed := r.claimed + 1, ready := r.ready + 1 } : Queue).countersOk := by
  obtain ⟨h1, h2⟩ := h
  rw [BitVec.le_def] at h1 h2
  rw [BitVec.lt_def] at hc
  have := r.cap.isLt
  have hclaimed : (r.claimed + 1).toNat = r.claimed.toNat + 1 := BitVec.toNat_add_of_lt (by simp; omega)
  have hready : (r.ready + 1).toNat = r.ready.toNat + 1 := BitVec.toNat_add_of_lt (by simp; omega)
  constructor <;> rw [BitVec.le_def] <;> simp only [hclaimed, hready] <;> omega

/-- From its claim on, an uninterrupted ENQUEUE takes a step for E2, one for each byte, and one for E4, in which it returns
OK. -/
theorem enqueue_run {item : List Byte} (hi : Instr.Enqueues i) (hinv : Inv s) (hs : s.schedule = []) (hu : s.usable q)
    (hlen : item.length = (s.queue q).itemSize.toNat) (hc : (s.queue q).claimed < (s.queue q).cap) :
    ∃ k m ph, steps ((s.queue q).itemSize.toNat + 2) (s.claiming i q item) = .next (Instr.enqueueReturn i .ok m) ∧
      s.WentOn i ph k ∧ k.SameCaller m ∧ s.Enqueued q item m := by
  obtain ⟨-, -, -, -, hwent⟩ := s.claiming_frame i q item
  obtain ⟨-, hcap1, -, hregion, -⟩ := (hinv.queues q).1 hu.1
  have hok := hinv.countersOk_of_usable hu
  have hidx := slot_end_le (n := (s.queue q).itemSize.toNat)
    (Nat.mod_lt ((s.queue q).front.toNat + (s.queue q).claimed.toNat) hcap1)
  obtain ⟨k, hk, hwent', hqsm, hqueue, hothers, hunits, henv⟩ :=
    claimed_run (s := s.claiming i q item) (l := s.claim q item) hi hlen hinv.config hs hwent.record
      (by simp only [State.claim]; show _ ≤ s.cfg.qsmBytes; omega) hok.1 hc
  have hkwent := hwent.trans hwent'
  have hstep := step_of_busy (hkwent.1 ▸ hinv.config) (hkwent.2.1.trans hs) hkwent.record
  have hkqueue : k.queue q = { s.queue q with claimed := (s.queue q).claimed + 1 } := hqueue
  have he4 : (enqueueE4 (s.claim q item) k).1 =
      (k.setQueue q { k.queue q with ready := (k.queue q).ready + 1 }).setMask k.mask :=
    (enqueueE4_counted k (s.claim q item)).of_ok (by
      show ({ k.queue q with ready := (k.queue q).ready + 1 } : Queue).countersOk
      rw [hkqueue]; exact Queue.countersOk_pushed hok hc)
  have hqinv : ((enqueueE4 (s.claim q item) k).1.queue q).qinv = false := by
    rw [he4, State.setMask_queue, State.setQueue_queue_self, hkqueue]; exact hu.2
  rw [exec_e4 hi (State.phase_of_record hkwent.record), if_neg (by rw [show (s.claim q item).q = q from rfl, hqinv]; simp),
    he4] at hstep
  refine ⟨k, _, _, steps_snoc hk hstep, hkwent, ⟨rfl, rfl, rfl, rfl⟩, hqsm, ?_, fun p hp => ?_, hunits, henv⟩
  · rw [State.setMask_queue, State.setQueue_queue_self, hkqueue]
  · rw [State.setMask_queue, State.setQueue_queue_of_ne _ _ hp]; exact hothers p hp

/-- Settles O21: ENQ claims (`exec_enq_claims`) and runs to its answer (`enqueue_run`); E4 by itself is
`publish_and_return`. -/
theorem enqStoresTheItemAndPublishesIt : Obligations.EnqStoresTheItemAndPublishesIt := by
  refine ⟨fun s q data hinv hs hp hu hlen hc => ?_,
    fun s i l hp hcaller => publish_and_return (Instr.enqueues_of_caller hcaller) hp⟩
  obtain ⟨k, m, ph, hsteps, hwent, hcaller, hm⟩ := enqueue_run (i := .enq q data) (.inl rfl) hinv hs hu hlen hc
  refine ⟨_, m.reply .command (.plain .ok), exec_enq_claims hp hu hlen hc, hsteps,
    hwent.ended (hcaller.reply_ended _ _), ?_, fun a ha => ?_, ?_, fun p hp => ?_, hm.units.reply _ _, hm.env.reply _ _⟩
  · rw [State.reply_qsm, hm.qsm, Memory.readBytes_written hinv.qsm.1 _ hlen]
  · rw [State.reply_qsm, hm.qsm, Memory.read_outside hinv.qsm.1 hlen ha]
  · rw [State.reply_queue, hm.queue]
  · rw [State.reply_queue, hm.others p hp]

/-! ### A whole SEND (44_comms.md R312) -/

theorem State.Enqueued.queueInv {item : List Byte} (h : s.Enqueued q item m) (hinv : Inv s) (hu : s.usable q)
    (hc : (s.queue q).claimed < (s.queue q).cap) : (m.queue q).Inv s.cfg := by
  rw [h.queue]
  exact ⟨(hinv.queues q).1, fun hi => absurd (hi.symm.trans hu.1) (by simp),
    fun _ => Queue.countersOk_pushed (hinv.countersOk_of_usable hu) hc⟩

section send

variable {payload : List Byte}

theorem exec_send_claims (hp : s.phase = .first) (h : payload.length ≤ s.cfg.maxMessageSize) (hu : s.usable .q0)
    (hc : (s.queue .q0).claimed < (s.queue .q0).cap) :
    exec (.send payload) s = .next (s.claiming (.send payload) .q0
      (fit (s.queue .q0).itemSize.toNat (packet s.cfg payload))) := by
  rw [exec_send_calls hp h, callEnqueue_claims hu hc]

/-- A whole SEND up to its kick, and the kick. -/
theorem send_run (hinv : Inv s) (hs : s.schedule = []) (hu : s.usable .q0)
    (hc : (s.queue .q0).claimed < (s.queue .q0).cap) :
    ∃ m u started, steps ((s.queue .q0).itemSize.toNat + 2) (s.claiming (.send payload) .q0
        (fit (s.queue .q0).itemSize.toNat (packet s.cfg payload))) = .next m ∧
      s.Enqueued .q0 (fit (s.queue .q0).itemSize.toNat (packet s.cfg payload)) m ∧
      (m.queue .q0).Inv m.cfg ∧ step m = .next u ∧ s.Ended .command ⟨.ok, 0, []⟩ u ∧ m.LinkKick started u := by
  obtain ⟨k, e, ph, hsteps, hwent, hcaller, he⟩ :=
    enqueue_run (i := .send payload) (.inr (.inl rfl)) hinv hs hu (length_fit _ (packet s.cfg payload)) hc
  have hmwent : s.WentOn (.send payload) (.afterEnqueue .ok) (e.goOn (.send payload) (.afterEnqueue .ok)) :=
    hwent.trans (hcaller.wentOn _ _)
  have hqueue : (e.queue .q0).Inv (e.goOn (.send payload) (.afterEnqueue .ok)).cfg :=
    hmwent.1 ▸ he.queueInv hinv hu hc
  obtain ⟨u, started, hk, hkick, hsame⟩ := kickLink_linkKick (s := e.goOn (.send payload) (.afterEnqueue .ok)) hqueue
  have hstep := step_of_busy (hmwent.1 ▸ hinv.config) (hmwent.2.1.trans hs) hmwent.record
  rw [exec_send_t2 (State.phase_of_record hmwent.record) hk] at hstep
  exact ⟨_, _, started, hsteps, ⟨he.qsm, he.queue, he.others, he.units, he.env⟩, hqueue, hstep,
    hmwent.ended (hsame.reply_ended _ _), hkick.reply _ _⟩

end send

/-- Settles O47: SEND claims (`exec_send_claims`), and runs to its kick and its answer (`send_run`). -/
theorem sendEnqueuesThePacketAndKicks : Obligations.SendEnqueuesThePacketAndKicks := by
  intro s payload hinv hs hp hu hl hc
  obtain ⟨m, u, started, hsteps, hm, -, hstep, hended, hkick⟩ := send_run (payload := payload) hinv hs hu hc
  have hlen := length_fit (s.queue .q0).itemSize.toNat (packet s.cfg payload)
  refine ⟨_, m, u, started, exec_send_claims hp hl hu hc, hsteps, ?_, fun a ha => ?_, hm.queue, hm.others, hm.units,
    hm.env, hstep, hended, hkick⟩
  · rw [hm.qsm, Memory.readBytes_written hinv.qsm.1 _ hlen]; rfl
  · rw [hm.qsm, Memory.read_outside hinv.qsm.1 hlen ha]

/-! ### A whole DEQUEUE (40_queue.md R153) -/

/-- The copy-out micro-steps from byte j on. -/
theorem copyOut_run (hi : Instr.TakesFrom i q) (n j : Nat) (l : DeqLocals) (hn : j + n = l.size) (s : State)
    (hc : s.cfg.WF) (hs : s.schedule = []) (hr : s.record = .busy i (.dequeue l (l.copyFrom j)))
    (hb : l.base + l.f * l.size + l.size ≤ s.cfg.qsmBytes) :
    ∃ t, steps n s = .next t ∧
      s.WentOn i (.dequeue { l with out := l.out ++ s.qsm.readBytes (l.base + l.f * l.size + j) n } .d3) t ∧
      t.qsm = s.qsm ∧ t.queues = s.queues ∧ s.SameUnits t ∧ s.SameEnv t := by
  induction n generalizing j l s with
  | zero =>
    have hj : l.copyFrom j = .d3 := if_neg (by omega)
    rw [hj] at hr
    refine ⟨s, rfl, ?_, rfl, rfl, .refl s, rfl⟩
    rw [Memory.readBytes, List.append_nil]
    exact State.wentOn_refl hr
  | succ n ih =>
    have hj : l.copyFrom j = .d2 j := if_pos (by omega)
    rw [hj] at hr
    have hstep := step_of_busy hc hs hr
    rw [exec_d2 hi (State.phase_of_record hr) (by omega)] at hstep
    obtain ⟨l1, hl1⟩ : ∃ l1, l1 = { l with out := l.out ++ [s.qsm.read (l.base + l.f * l.size + j)] } := ⟨_, rfl⟩
    have hcopy : l.copyFrom (j + 1) = l1.copyFrom (j + 1) := by rw [hl1]; rfl
    rw [← hl1, hcopy] at hstep
    obtain ⟨k, hk, hwent, hkqsm, hkqueues, hkunits, hkenv⟩ : ∃ k, step s = .next k ∧
        s.WentOn i (.dequeue l1 (l1.copyFrom (j + 1))) k ∧ k.qsm = s.qsm ∧ k.queues = s.queues ∧ s.SameUnits k ∧
        s.SameEnv k :=
      ⟨_, hstep, s.goOn_wentOn _ _, rfl, rfl, .refl s, rfl⟩
    obtain ⟨t, ht, hwent', hqsm, hqueues, hunits, henv⟩ :=
      ih (j + 1) l1 (by rw [hl1]; show _ = l.size; omega) k (hwent.1 ▸ hc) (hwent.2.1.trans hs) hwent.record
        (by rw [hwent.1, hl1]; exact hb)
    refine ⟨t, (steps_succ hk n).trans ht, ?_, hqsm.trans hkqsm, hqueues.trans hkqueues, hkunits.trans hunits,
      hkenv.trans henv⟩
    have hout : l1.out ++ k.qsm.readBytes (l1.base + l1.f * l1.size + (j + 1)) n =
        l.out ++ s.qsm.readBytes (l.base + l.f * l.size + j) (n + 1) := by
      rw [hl1, hkqsm, Memory.readBytes, List.append_assoc]; rfl
    rw [hout, hl1] at hwent'
    exact hwent.trans hwent'

/-- u is s with the item at the front of queue q taken off. -/
structure State.Dequeued (s : State) (q : QId) (u : State) : Prop where
  queue : u.queue q = (s.queue q).popped
  others : ∀ p, p ≠ q → u.queue p = s.queue p
  units : s.SameUnits u
  qsm : u.qsm = s.qsm
  env : s.SameEnv u

/-- What DEQ and RECV answer with the item at the front of queue q. -/
abbrev State.frontResponse (s : State) (q : QId) : Response :=
  ⟨.ok, BitVec.ofNat 24 (s.queue q).itemSize.toNat, s.slot q (s.queue q).front.toNat⟩

theorem Queue.countersOk_taken {r : Queue} (h : r.countersOk) (hr : r.ready ≠ 0) :
    ({ r with ready := r.ready - 1 } : Queue).countersOk ∧ r.popped.countersOk := by
  obtain ⟨h1, h2⟩ := h
  have hpos : r.ready.toNat ≠ 0 := fun e => hr (BitVec.eq_of_toNat_eq e)
  rw [BitVec.le_def] at h1 h2
  have hready : (r.ready - 1).toNat = r.ready.toNat - 1 :=
    BitVec.toNat_sub_of_le (by rw [BitVec.le_def]; simp; omega)
  have hclaimed : (r.claimed - 1).toNat = r.claimed.toNat - 1 :=
    BitVec.toNat_sub_of_le (by rw [BitVec.le_def]; simp; omega)
  refine ⟨⟨?_, ?_⟩, ?_, ?_⟩ <;> rw [BitVec.le_def] <;> simp only [hready, hclaimed] <;> omega

/-- An uninterrupted DEQ or RECV takes a step for D1, one for each byte, one for D3, and one for D4, in which it answers. -/
theorem dequeue_run (hi : Instr.TakesFrom i q) (hinv : Inv s) (hs : s.schedule = []) (hp : s.phase = .first)
    (h : s.hasItem q) :
    ∃ t u, exec i s = .next t ∧ steps ((s.queue q).itemSize.toNat + 2) t = .next u ∧
      s.Ended .command (s.frontResponse q) u ∧ s.Dequeued q u := by
  obtain ⟨-, -, -, hregion, hfront⟩ := (hinv.queues q).1 h.1.1
  obtain ⟨hok3, hok4⟩ := Queue.countersOk_taken (hinv.countersOk_of_usable h.1) h.2
  have hslot := slot_end_le (n := (s.queue q).itemSize.toNat) hfront
  have hwent0 := s.goOn_wentOn i (.dequeue (s.take q) ((s.take q).copyFrom 0))
  obtain ⟨l, hl⟩ : ∃ l : DeqLocals, l = { s.take q with out := s.slot q (s.queue q).front.toNat } := ⟨_, rfl⟩
  obtain ⟨t, ht, hwent1, hqsm, hqueues, hunits, henv⟩ :=
    copyOut_run hi (s.queue q).itemSize.toNat 0 (s.take q) (Nat.zero_add _)
      (s.goOn i (.dequeue (s.take q) ((s.take q).copyFrom 0))) hinv.config hs hwent0.record
      (by simp only [State.take]; show _ ≤ s.cfg.qsmBytes; omega)
  have hwent : s.WentOn i (.dequeue l .d3) t := by rw [hl]; exact hwent0.trans hwent1
  have hself : t.queue q = s.queue q := queue_congr hqueues q
  have hlq : l.q = q := by rw [hl]; rfl
  -- D3
  have hstep3 := step_of_busy (hwent.1 ▸ hinv.config) (hwent.2.1.trans hs) hwent.record
  have hd3 : dequeueD3 q t = (t.setQueue q { s.queue q with ready := (s.queue q).ready - 1 }).setMask t.mask := by
    rw [← hself]; exact (dequeueD3_counted t q).of_ok (hself ▸ hok3)
  rw [exec_d3 hi (State.phase_of_record hwent.record), hlq, hd3] at hstep3
  obtain ⟨k, hk, hwent3, hkqsm, hkself, hkothers, hkunits, hkenv⟩ : ∃ k, step t = .next k ∧
      t.WentOn i (.dequeue l .d4) k ∧ k.qsm = t.qsm ∧
      k.queue q = { s.queue q with ready := (s.queue q).ready - 1 } ∧ (∀ p, p ≠ q → k.queue p = t.queue p) ∧
      t.SameUnits k ∧ t.SameEnv k :=
    ⟨_, hstep3, State.SameCaller.wentOn (m := (t.setQueue q _).setMask _) ⟨rfl, rfl, rfl, rfl⟩ _ _, rfl,
      t.setQueue_queue_self q _, fun p hp => t.setQueue_queue_of_ne _ hp, .refl t, rfl⟩
  have hkwent := hwent.trans hwent3
  -- D4
  have hstep4 := step_of_busy (hkwent.1 ▸ hinv.config) (hkwent.2.1.trans hs) hkwent.record
  have hd4 : dequeueD4 q k = (k.setQueue q (s.queue q).popped).setMask k.mask := by
    have hc := (dequeueD4_counted k q).of_ok
    rw [hkself] at hc; exact hc hok4
  have hanswer : (dequeueResult l (dequeueD4 q k)).response = s.frontResponse q := by
    rw [dequeueResult, hlq, hd4, State.setMask_queue, State.setQueue_queue_self, if_neg (by simp [h.1.2]), hl]; rfl
  rw [exec_d4 hi (State.phase_of_record hkwent.record), hlq, hanswer, hd4] at hstep4
  refine ⟨_, _, exec_takesFrom_d1 hi hp h, steps_snoc (steps_snoc ht hk) hstep4,
    hkwent.ended (State.SameCaller.reply_ended (t := (k.setQueue q _).setMask _) ⟨rfl, rfl, rfl, rfl⟩ _ _), ?_⟩
  have hunits' : s.SameUnits ((k.setQueue q (s.queue q).popped).setMask k.mask) := hunits.trans hkunits
  have henv' : s.SameEnv ((k.setQueue q (s.queue q).popped).setMask k.mask) := henv.trans hkenv
  refine ⟨?_, fun p hp => ?_, hunits'.reply _ _, ?_, henv'.reply _ _⟩
  · rw [State.reply_queue, State.setMask_queue, State.setQueue_queue_self]
  · rw [State.reply_queue, State.setMask_queue, State.setQueue_queue_of_ne _ _ hp, hkothers p hp, queue_congr hqueues]
    rfl
  · rw [State.reply_qsm]; exact hkqsm.trans hqsm

theorem Queue.toNat_popped_front {r : Queue} (h : r.front.toNat < r.cap.toNat) :
    r.popped.front.toNat = (r.front.toNat + 1) % r.cap.toNat := by
  rw [BitVec.toNat_ofNat]
  exact Nat.mod_eq_of_lt (lt_trans (Nat.mod_lt _ (by omega)) r.cap.isLt)

/-- Settles O24: the whole command by `dequeue_run`, D3 and D4 by themselves by `dequeueD3_does` and `dequeueD4_does`. -/
theorem deqAndRecvReturnTheFrontSlot : Obligations.DeqAndRecvReturnTheFrontSlot := by
  refine ⟨fun s i q hi hinv hs hp hu hr => ?_,
    fun s i l hi => ⟨fun hp => dequeueD3_does hi hp, fun hp => dequeueD4_does hi hp⟩⟩
  obtain ⟨t, u, ht, hu', hended, hd⟩ := dequeue_run hi hinv hs hp ⟨hu, hr⟩
  obtain ⟨-, -, -, -, hfront⟩ := (hinv.queues q).1 hu.1
  refine ⟨t, u, ht, hu', hended, ?_, ?_, hd.others, hd.units, fun a => by rw [hd.qsm], hd.env⟩
  · rw [hd.queue]; exact Queue.toNat_popped_front hfront
  · rw [hd.queue]

/-! ### First in, first out (40_queue.md R160, R163) -/

theorem State.slot_congr (hb : (t.queue q).base = (s.queue q).base) (hn : (t.queue q).itemSize = (s.queue q).itemSize)
    (hm : s.SameMemory t) (k : Nat) : t.slot q k = s.slot q k := by
  rw [State.slot, State.slot, hb, hn]
  exact Memory.readBytes_congr fun x _ _ => hm x

theorem State.items_congr (hq : t.queue q = s.queue q) (hm : s.SameMemory t) : t.items q = s.items q := by
  rw [State.items, State.items, hq]
  exact List.map_congr_left fun k _ => State.slot_congr (by rw [hq]) (by rw [hq]) hm _

/-- An enqueued item leaves the bytes of every other slot of its queue. -/
theorem State.Enqueued.slot_of_ne {item : List Byte} (h : s.Enqueued q item m) (hwf : s.qsm.WF)
    (hlen : item.length = (s.queue q).itemSize.toNat) {k : Nat}
    (hk : k ≠ ((s.queue q).front.toNat + (s.queue q).claimed.toNat) % (s.queue q).cap.toNat) :
    m.slot q k = s.slot q k := by
  have hb : (m.queue q).base = (s.queue q).base := by rw [h.queue]
  have hn : (m.queue q).itemSize = (s.queue q).itemSize := by rw [h.queue]
  rw [State.slot, State.slot, hb, hn]
  refine Memory.readBytes_congr fun x h1 h2 => ?_
  rw [h.qsm]
  refine Memory.read_outside hwf hlen ?_
  by_contra hx
  have hin := slot_lt (n := (s.queue q).itemSize.toNat) (i := x - s.slotAddress q k)
    (j := x - s.slotAddress q (((s.queue q).front.toNat + (s.queue q).claimed.toNat) % (s.queue q).cap.toNat)) hk
  simp only [State.slotAddress] at hin hx
  omega

/-- ENQUEUE appends its item where no other procedure is in progress. -/
theorem State.Enqueued.items {item : List Byte} (h : s.Enqueued q item m) (hinv : Inv s)
    (hlen : item.length = (s.queue q).itemSize.toNat) (hready : (s.queue q).ready = (s.queue q).claimed)
    (hc : (s.queue q).claimed < (s.queue q).cap) : m.items q = s.items q ++ [item] := by
  rw [BitVec.lt_def] at hc
  have hsucc : ((s.queue q).ready + 1).toNat = (s.queue q).ready.toNat + 1 := by
    have := (s.queue q).cap.isLt
    rw [hready]; exact BitVec.toNat_add_of_lt (by simp; omega)
  rw [State.items, State.items, h.queue, hsucc, List.range_succ, List.map_append]
  congr 1
  · refine List.map_congr_left fun k hk => h.slot_of_ne hinv.qsm.1 hlen fun e => ?_
    rw [List.mem_range, hready] at hk
    have := mod_inj (by omega) hc e
    omega
  · rw [List.map_singleton, hready, State.slot, h.queue, h.qsm]
    exact congrArg ([·]) (Memory.readBytes_written hinv.qsm.1 _ hlen)

/-- ENQUEUE leaves the items of a queue whose region is apart. -/
theorem State.Enqueued.items_of_apart {item : List Byte} (h : s.Enqueued q item m) (hinv : Inv s) (hu : s.usable q)
    (hlen : item.length = (s.queue q).itemSize.toNat) {p : QId} (hp : p ≠ q) (hi : (s.queue p).init = true)
    (ha : (s.queue p).Apart (s.queue q)) : m.items p = s.items p := by
  obtain ⟨-, hcap, -⟩ := (hinv.queues q).1 hu.1
  obtain ⟨-, hcap', -⟩ := (hinv.queues p).1 hi
  rw [State.items, State.items, h.others p hp]
  refine List.map_congr_left fun k _ => ?_
  rw [State.slot, State.slot, h.others p hp]
  refine Memory.readBytes_congr fun x h1 h2 => ?_
  rw [h.qsm]
  refine Memory.read_outside hinv.qsm.1 hlen ?_
  have hslot := slot_end_le (n := (s.queue q).itemSize.toNat)
    (Nat.mod_lt ((s.queue q).front.toNat + (s.queue q).claimed.toNat) hcap)
  have hslot' := slot_end_le (n := (s.queue p).itemSize.toNat) (Nat.mod_lt ((s.queue p).front.toNat + k) hcap')
  simp only [State.slotAddress]
  rcases ha with ha | ha <;> omega

/-- Taking the front item leaves the others, in order. -/
theorem State.items_popped (hq : t.queue q = (s.queue q).popped) (hm : s.SameMemory t) (hr : (s.queue q).ready ≠ 0)
    (hf : (s.queue q).front.toNat < (s.queue q).cap.toNat) :
    s.items q = s.slot q (s.queue q).front.toNat :: t.items q := by
  have hpos : (s.queue q).ready.toNat ≠ 0 := fun e => hr (BitVec.eq_of_toNat_eq e)
  have hready : (s.queue q).ready.toNat = ((s.queue q).ready - 1).toNat + 1 := by
    rw [BitVec.toNat_sub_of_le (by rw [BitVec.le_def]; simp; omega)]; simp; omega
  rw [State.items, State.items, hq, hready, List.range_succ_eq_map, List.map_cons, List.map_map]
  congr 1
  · rw [Nat.add_zero, Nat.mod_eq_of_lt hf]
  · refine List.map_congr_left fun k _ => ?_
    show s.slot q (((s.queue q).front.toNat + (k + 1)) % (s.queue q).cap.toNat) =
      t.slot q (((s.queue q).popped.front.toNat + k) % (s.queue q).cap.toNat)
    rw [Queue.toNat_popped_front hf, Nat.mod_add_mod, Nat.add_right_comm, ← Nat.add_assoc]
    exact (State.slot_congr (by rw [hq]) (by rw [hq]) hm _).symm

/-- The kick takes the first item of Q0 off or none, and leaves the items of the other queues. -/
theorem State.LinkKick.items {started : Bool} (h : s.LinkKick started t) (hq : (s.queue .q0).Inv s.cfg) :
    (t.items .q0 = s.items .q0 ∨ ∃ item, s.items .q0 = item :: t.items .q0) ∧
      ∀ p, p ≠ .q0 → t.items p = s.items p := by
  have same : ∀ {m : State}, m.SameFtc t → m.queue = s.queue → m.qsm = s.qsm →
      (t.items .q0 = s.items .q0 ∨ ∃ item, s.items .q0 = item :: t.items .q0) ∧
        ∀ p, p ≠ .q0 → t.items p = s.items p := fun ⟨_, hqueues, hmem⟩ hmq hmm =>
    have hitems := fun p => State.items_congr ((hqueues p).trans (congrFun hmq p)) fun a => (hmem a).trans (by rw [hmm])
    ⟨.inl (hitems .q0), fun p _ => hitems p⟩
  have popped : ∀ {m : State}, s.hasItem .q0 → m.PoppedQ0 t → m.queue = s.queue → m.qsm = s.qsm →
      (t.items .q0 = s.items .q0 ∨ ∃ item, s.items .q0 = item :: t.items .q0) ∧
        ∀ p, p ≠ .q0 → t.items p = s.items p := fun hitem ⟨hself, hothers, _, hmem⟩ hmq hmm => by
    have hm : s.SameMemory t := fun a => (hmem a).trans (by rw [hmm])
    rw [hmq] at hself hothers
    exact ⟨.inr ⟨_, State.items_popped hself hm hitem.2 (hq.1 hitem.1.1).2.2.2.2⟩,
      fun p hp => State.items_congr (hothers p hp) hm⟩
  unfold State.LinkKick at h
  split at h
  · exact same h.2.1 rfl rfl
  · unfold State.SpiKick at h
    dsimp only at h
    split_ifs at h with hbusy hcts hitem hmw
    · exact same h.2.1 rfl rfl
    · exact same h.2.1 rfl rfl
    · exact popped hitem h.2.1 rfl rfl
    · exact same h.2.1 rfl rfl
    · exact same h.2.1 rfl rfl
  · unfold State.UartKick at h
    split_ifs at h with hidle
    · exact same h.2.1 rfl rfl
    · exact popped (not_not.1 (not_or.1 hidle).2) h.2.1 rfl rfl

/-- Settles O28: the runs of ENQ, SEND and of DEQ and RECV are determined, and what they do to the queue appends its item or
takes the first off. -/
theorem itemsLeaveInTheOrderTheyCame : Obligations.ItemsLeaveInTheOrderTheyCame := by
  refine ⟨fun s t u q data hinv hs hp hu hlen hready hc ht hsteps => ?_,
    fun s t m u payload hinv hs hp hu hl hready hc ht hsteps hstep => ?_,
    fun s t u i q hi hinv hs hp hu hr ht hsteps => ?_⟩
  · obtain ⟨k, e, ph, hrun, -, -, he⟩ := enqueue_run (i := .enq q data) (.inl rfl) hinv hs hu hlen hc
    rw [exec_enq_claims hp hu hlen hc] at ht
    injection ht with ht
    rw [← ht, hrun] at hsteps
    injection hsteps with hsteps
    have hitems : ∀ p, u.items p = e.items p := fun p => hsteps ▸
      State.items_congr (e.reply_queue _ _ p) fun a => congrArg (·.read a) (e.reply_qsm _ _)
    exact ⟨(hitems q).trans (he.items hinv hlen hready hc),
      fun p hp hi ha => (hitems p).trans (he.items_of_apart hinv hu hlen hp hi ha)⟩
  · obtain ⟨m', u', started, hrun, he, hqueue, hstep', -, hkick⟩ := send_run (payload := payload) hinv hs hu hc
    rw [exec_send_claims hp hl hu hc] at ht
    injection ht with ht
    rw [← ht, hrun] at hsteps
    injection hsteps with hsteps
    subst hsteps
    rw [hstep'] at hstep
    injection hstep with hstep
    subst hstep
    have hlen := length_fit (s.queue .q0).itemSize.toNat (packet s.cfg payload)
    obtain ⟨hself, hothers⟩ := State.LinkKick.items hkick hqueue
    refine ⟨he.items hinv hlen hready hc, hself, fun p hp hi ha => ?_⟩
    have hapart := he.items_of_apart hinv hu hlen hp hi ha
    exact ⟨hapart, (hothers p hp).trans hapart⟩
  · obtain ⟨t', u', ht', hrun, hended, hd⟩ := dequeue_run hi hinv hs hp ⟨hu, hr⟩
    rw [ht'] at ht
    injection ht with ht
    rw [← ht, hrun] at hsteps
    injection hsteps with hsteps
    subst hsteps
    have hmem : s.SameMemory u' := fun a => by rw [hd.qsm]
    obtain ⟨-, -, -, hcommand, -⟩ := hended
    refine ⟨_, _, State.items_popped hd.queue hmem hr ((hinv.queues q).1 hu.1).2.2.2.2, rfl, ?_,
      fun p hp => State.items_congr (hd.others p hp) hmem⟩
    rw [(hcommand rfl).1]

end Sys2Proof.Machine
end

section
/-! PROOFS. DEQUEUE_ATOMIC as the micro-steps of DEQUEUE run together (40_queue.md R154), the packet CRC bit by bit
(41_crc.md section 1), and a whole frame on the UART (42_uart_framer.md section 4). -/

namespace Sys2Proof.Machine

variable {s m t : State} {q : QId} {c : Config}

/-! ### DEQUEUE_ATOMIC -/

/-- The micro-steps of DEQUEUE from D2.j on, with nothing in between. -/
theorem dequeueRun_copy (n j : Nat) (l : DeqLocals) (hn : j + n = l.size)
    (hb : l.base + l.f * l.size + l.size ≤ s.cfg.qsmBytes) :
    dequeueRun (n + 2) l (l.copyFrom j) s =
      .ok (some (dequeueD4 l.q (dequeueD3 l.q s), dequeueResult
        { l with out := l.out ++ s.qsm.readBytes (l.base + l.f * l.size + j) n } (dequeueD4 l.q (dequeueD3 l.q s)))) := by
  induction n generalizing j l with
  | zero =>
    have hj : l.copyFrom j = .d3 := if_neg (by omega)
    rw [hj, Memory.readBytes, List.append_nil]; rfl
  | succ n ih =>
    have hj : l.copyFrom j = .d2 j := if_pos (by omega)
    have hstep : dequeueRun (n + 1 + 2) l (.d2 j) s = dequeueRun (n + 2)
        { l with out := l.out ++ [s.qsm.read (l.base + l.f * l.size + j)] } (l.copyFrom (j + 1)) s := by
      rw [dequeueRun, dequeueMicro, dequeueD2_ok s (by omega)]; rfl
    rw [hj, hstep]
    refine (ih (j + 1) { l with out := l.out ++ [s.qsm.read (l.base + l.f * l.size + j)] }
      (by show _ = l.size; omega) hb).trans ?_
    rw [Memory.readBytes, List.append_assoc]; rfl

/-- Settles O27: DEQUEUE_ATOMIC and the micro-steps run the same D3 and D4 on the same bytes (`dequeueRun_copy`), and each
counter write is checked (`Counted.queue_self`). -/
theorem atomicDequeueIsTheMicroSteps : Obligations.AtomicDequeueIsTheMicroSteps := by
  intro s q hgeo
  refine ⟨fun st h => by rw [dequeueAtomic, h], fun l h => ?_⟩
  obtain ⟨hl, hu, -⟩ : l = s.take q ∧ s.usable q ∧ (s.queue q).ready ≠ 0 := by
    rcases dequeueD1_cases s q with ⟨st, hd, -⟩ | ⟨hd, hu, hr⟩
    · rw [hd] at h; simp at h
    · rw [hd] at h; injection h with h; exact ⟨h.symm, hu, hr⟩
  subst hl
  obtain ⟨-, -, -, hregion, hfront⟩ := hgeo hu.1
  have hslot := slot_end_le (n := (s.queue q).itemSize.toNat) hfront
  obtain ⟨t, r, hatomic⟩ := dequeueAtomic_ok s hgeo
  obtain ⟨rfl, -, -, hr⟩ : t = dequeueD4 q (dequeueD3 q s) ∧ _ := by
    rcases dequeueAtomic_cases s hatomic with ⟨st, -, -, -, hd⟩ | hd
    · rw [hd] at h; simp at h
    · exact hd
  have hd3 := (dequeueD3_counted s q).queue_self
  have hd4 := (dequeueD4_counted (dequeueD3 q s) q).queue_self
  rw [hd3] at hd4
  refine ⟨_, r, hatomic, ?_, ?_, ?_, hr⟩
  · refine (dequeueRun_copy (s.queue q).itemSize.toNat 0 (s.take q) (Nat.zero_add _)
      (by simp only [State.take]; omega)).trans ?_
    rw [hr, dequeueResult]; rfl
  · rw [hd4]
  · rw [hd4]
    simp only [hu.2, Bool.false_or, Bool.or_eq_true, Bool.not_eq_true', decide_eq_false_iff_not]

/-! ### The CRC register (41_crc.md R200) -/

theorem crcShift_eq (p r : BitVec 16) : crcShift p r =
    if r.getLsbD 15 then BitVec.ofNat 16 (r.toNat * 2) ^^^ p else BitVec.ofNat 16 (r.toNat * 2) := by
  have hshift : r <<< 1 = BitVec.ofNat 16 (r.toNat * 2) := by
    apply BitVec.eq_of_toNat_eq
    rw [BitVec.toNat_shiftLeft, BitVec.toNat_ofNat, Nat.shiftLeft_eq]
  rw [crcShift, hshift, BitVec.msb_eq_getLsbD_last]

theorem crcShifts_eq_foldl (p r : BitVec 16) (n : Nat) :
    crcShifts p n r = (List.range n).foldl (fun r _ => crcShift p r) r := by
  induction n with
  | zero => rfl
  | succ n ih => rw [crcShifts_add, ih, List.range_succ, List.foldl_append]; rfl

/-- One byte is eight shifts after it is added to the high half of the register. -/
theorem crcByte_eq_foldl (r : BitVec 16) (b : Byte) :
    crcByte c r b = (List.range 8).foldl
      (fun r _ => if r.getLsbD 15 then BitVec.ofNat 16 (r.toNat * 2) ^^^ c.crcPoly else BitVec.ofNat 16 (r.toNat * 2))
      (r ^^^ BitVec.ofNat 16 ((if c.crcReflect then reflect8 b else b).toNat * 256)) := by
  have hhigh : ∀ x : Byte, x ++ 0#8 = BitVec.ofNat 16 (x.toNat * 256) := fun x => by
    apply BitVec.eq_of_toNat_eq
    rw [BitVec.toNat_append, BitVec.toNat_ofNat, Nat.shiftLeft_eq]
    have := x.isLt
    simp only [BitVec.toNat_ofNat, Nat.zero_mod, Nat.or_zero]
    omega
  rw [crcByte, crcShifts_eq_foldl, hhigh]
  simp only [crcShift_eq]

theorem crc16_snoc (bytes : List Byte) (b : Byte) :
    (bytes ++ [b]).foldl (crcByte c) 0 = crcByte c (bytes.foldl (crcByte c) 0) b := by
  rw [List.foldl_append]; rfl

/-- Settles O31: `crcByte` is eight shifts (`crcByte_eq_foldl`), and the output is the register, reflected where
CRC_REFLECT says so, XOR CRC_XOROUT. -/
theorem crcOfOneMoreByte : Obligations.CrcOfOneMoreByte := by
  have register : ∀ (c : Config) (bytes : List Byte), crc16 c bytes ^^^ c.crcXorOut =
      if c.crcReflect then reflect16 (bytes.foldl (crcByte c) 0) else bytes.foldl (crcByte c) 0 := fun c bytes => by
    rw [crc16, BitVec.xor_assoc, BitVec.xor_self, BitVec.xor_zero]
  refine ⟨fun c => ?_, fun c bytes b h => ?_, fun c bytes b h => ?_, by decide +kernel⟩
  · rw [crc16, List.foldl_nil, show reflect16 0 = 0 by decide, ite_self]
    exact BitVec.zero_xor
  · rw [register, register, h, if_neg (by simp), if_neg (by simp), crc16_snoc, crcByte_eq_foldl, h]; rfl
  · rw [register, register, h, if_pos rfl, if_pos rfl, crc16_snoc, crcByte_eq_foldl, h]
    rw [reflect16, reflect16, BitVec.reverse_reverse_eq, BitVec.reverse_reverse_eq]; rfl

/-! ### A whole frame -/

theorem execAll_cons {i : Instr} (h : exec i s = .next t) (rest : List Instr) :
    execAll (i :: rest) s = execAll rest t := by
  rw [execAll, h]

theorem execAll_append {xs ys : List Instr} (h : execAll xs s = .next t) : execAll (xs ++ ys) s = execAll ys t := by
  induction xs generalizing s with
  | nil => injection h with h; rw [h]; rfl
  | cons x xs ih =>
    rw [execAll] at h
    rw [List.cons_append, execAll]
    split at h
    · exact ih h
    · simp at h
    · simp at h

/-- t is s, with every context idle, after bytes that left the framer at f. -/
structure State.Framed (s : State) (f : Framer) (t : State) : Prop where
  cfg : t.cfg = s.cfg
  idle : ∀ u, (t.ctx u).record = .idle
  ftc : (s.setUfr f).SameFtc t

namespace State.Framed

variable {f : Framer} (h : s.Framed f t)
include h

theorem ufr : t.ufr = f := by
  obtain ⟨-, -, -, -, -, -, -, hufr, -⟩ := h.ftc.1
  exact hufr

theorem link : t.link = s.link := h.ftc.1.1

theorem phase : t.phase = .first := State.phase_of_not_busy fun j ph e => by
  rw [State.record, h.idle] at e; simp at e

/-- A byte that the framer takes in one micro-step. -/
theorem step (g : Framer) (r : Response) : s.Framed g ((t.setUfr g).reply .event r) where
  cfg := (State.reply_cfg _ _ _).trans h.cfg
  idle u := by
    rw [(State.reply_ctx _ _ _ u).1]
    split
    · rfl
    · exact h.idle u
  ftc := by
    obtain ⟨⟨h1, h2, h3, h4, h5, h6, h7, -, h9, h10⟩, hq, hm⟩ := h.ftc
    have hftc : (s.setUfr g).SameFtc (t.setUfr g) := ⟨⟨h1, h2, h3, h4, h5, h6, h7, rfl, h9, h10⟩, hq, hm⟩
    exact hftc.reply _ _

end State.Framed

theorem Framer.Inv.window_one {f : Framer} (h : f.Inv c) (hs : f.state = .awaitingStart)
    (hlen : c.startCode.length = 2) (b : Byte) : Framer.Inv c { f with win0 := b, winCount := 1 } := by
  obtain ⟨hbuf, hstart, -, -, -, hwin1, -⟩ := h
  exact ⟨hbuf, fun _ => hstart hs, fun e => absurd (hs.symm.trans e) (by simp),
    fun e => absurd (hs.symm.trans e) (by simp), by show 1 ≤ c.startCode.length - 1; omega, hwin1,
    fun e => absurd (show (1 : BitVec 2) = 0 from e) (by decide)⟩

/-- The start code. -/
theorem startCode_run (hinv : Inv s) (hl : s.link = .uart) (hs : s.ufr.state = .awaitingStart)
    (hw : s.ufr.winCount = 0) (hidle : ∀ u, (s.ctx u).record = .idle) :
    ∃ t f, execAll (s.cfg.startCode.map Instr.evUartRx) s = .next t ∧ s.Framed f t ∧ f.state = .awaitingLength ∧
      f.fbuf = s.ufr.fbuf := by
  have hf := hinv.ufr
  have hc := hinv.config
  have h0 : s.Framed s.ufr s := ⟨rfl, hidle, s.sameFtc_refl⟩
  have hseen : ∀ b, s.ufr.seen b = [b] := fun b => by rw [Framer.seen, if_pos hw]; rfl
  obtain ⟨-, hcode, -⟩ := hc
  match hcodes : s.cfg.startCode with
  | [] => rw [hcodes] at hcode; exact absurd hcode.1 (by decide)
  | [b] =>
    have he := exec_evUartRx_start (b := b) hl h0.phase hs
    rw [startByte_found hf hinv.config ((hseen b).trans hcodes.symm)] at he
    exact ⟨_, _, execAll_cons he [], h0.step _ _, rfl, rfl⟩
  | [b, b'] =>
    have hlen : s.cfg.startCode.length = 2 := by rw [hcodes]; rfl
    have he := exec_evUartRx_start (b := b) hl h0.phase hs
    rw [startByte_kept hf hinv.config (by rw [hseen, hcodes]; simp) hlen] at he
    have h1 := h0.step { s.ufr with win0 := b, winCount := 1 } (.valued .ok (if s.ufr.state = .awaitingLength then 1 else 0))
    have he' := exec_evUartRx_start (b := b') (h1.link.trans hl) h1.phase (by rw [h1.ufr]; exact hs)
    rw [h1.cfg, h1.ufr, startByte_found (hf.window_one hs hlen b) hinv.config hcodes.symm] at he'
    exact ⟨_, _, (execAll_cons he [.evUartRx b']).trans (execAll_cons he' []), h1.step _ _, rfl, rfl⟩
  | _ :: _ :: _ :: _ => rw [hcodes] at hcode; exact absurd hcode.2 (by simp)

/-- The framer holds the bytes `pre` of a packet of n bytes. -/
structure Framer.Holds (f : Framer) (n : Nat) (pre : List Byte) : Prop where
  state : f.state = .awaitingPayload
  pos : f.pos.toNat = pre.length
  need : f.need.toNat = n
  room : n ≤ f.fbuf.length
  bytes : f.fbuf.take pre.length = pre

theorem take_set_succ {α : Type} {xs : List α} {n : Nat} (h : n < xs.length) (x : α) :
    (xs.set n x).take (n + 1) = xs.take n ++ [x] := by
  rw [List.take_set, List.take_succ_eq_append_getElem h, List.set_append_right _ _ (by simp)]
  simp [Nat.min_eq_left h.le]

theorem Framer.Holds.stored {f : Framer} {n : Nat} {pre : List Byte} (h : f.Holds n pre) {b : Byte}
    (hn : pre.length < n) : (f.stored b).Holds n (pre ++ [b]) where
  state := h.state
  pos := by
    have := f.need.isLt
    have := h.need
    rw [Framer.stored, BitVec.toNat_add_of_lt (by rw [h.pos]; simp; omega), h.pos, List.length_append]; rfl
  need := h.need
  room := by rw [Framer.stored, List.length_set]; exact h.room
  bytes := by
    rw [Framer.stored, h.pos, List.length_append, List.length_singleton,
      take_set_succ (lt_of_lt_of_le hn h.room), h.bytes]

/-- The framer behind a length byte that fits. -/
def Framer.started (f : Framer) (len : Byte) : Framer :=
  { f with
    state := .awaitingPayload, fbuf := f.fbuf.set 0 len, pos := 1, need := BitVec.ofNat 8 (1 + len.toNat + crcWidth) }

theorem Framer.holds_started (f : Framer) {len : Byte} (hc : c.WF) (hm : len.toNat ≤ c.maxMessageSize)
    (hf : f.fbuf.length = c.maxPacketSize) : (f.started len).Holds (3 + len.toNat) [len] := by
  have hroom : 3 + len.toNat ≤ f.fbuf.length := by
    obtain ⟨⟨hmin, -⟩, -⟩ := hc
    rw [Config.maxMessageSize, show crcWidth = 2 from rfl] at hm
    omega
  exact ⟨rfl, rfl, toNat_need hc hm, by rw [Framer.started, List.length_set]; exact hroom,
    take_set_succ (n := 0) (by omega) len⟩

/-- The bytes of a packet before its last one. -/
theorem payload_run {n : Nat} (hl : s.link = .uart) (bytes : List Byte) {pre : List Byte} {f : Framer}
    (hf : s.Framed f t) (h : f.Holds n pre) (hn : pre.length + bytes.length < n) :
    ∃ u g, execAll (bytes.map Instr.evUartRx) t = .next u ∧ s.Framed g u ∧ g.Holds n (pre ++ bytes) := by
  induction bytes generalizing pre f t with
  | nil => exact ⟨t, f, rfl, hf, (List.append_nil pre).symm ▸ h⟩
  | cons b bytes ih =>
    rw [List.length_cons] at hn
    have hstored := h.stored (b := b) (by omega)
    have hne : t.ufr.pos + 1 ≠ t.ufr.need := fun e => by
      have hpos := hstored.pos
      rw [hf.ufr] at e
      rw [show (f.stored b).pos = f.pos + 1 from rfl, e, h.need, List.length_append, List.length_singleton] at hpos
      omega
    have he := exec_evUartRx_stored (b := b) (hf.link.trans hl) hf.phase (by rw [hf.ufr]; exact h.state)
      (by rw [hf.ufr, h.pos]; have := h.room; omega) hne
    rw [hf.ufr] at he
    obtain ⟨u, g, hu, hg, hholds⟩ := ih (hf.step (f.stored b) (.valued .ok 0)) hstored (by simp; omega)
    exact ⟨u, g, (execAll_cons he _).trans hu, hg, by simpa using hholds⟩

theorem State.EnqueueBegun.ufr {i : Instr} {item : List Byte} (h : s.EnqueueBegun i q item t) : t.ufr = s.ufr := by
  unfold State.EnqueueBegun at h
  split at h
  · obtain ⟨-, ⟨⟨-, -, -, -, -, -, -, hufr, -⟩, -⟩, -⟩ := h
    exact hufr
  · obtain ⟨-, ⟨⟨-, -, -, -, -, -, -, hufr, -⟩, -⟩, -⟩ := h
    exact hufr

/-- The last byte of a packet that verifies. -/
theorem exec_lastByte {f : Framer} {pre : List Byte} {b : Byte} (hl : s.link = .uart) (hf : s.Framed f t)
    (h : f.Holds (pre.length + 1) pre) (hne : (pre ++ [b]).headD 0 ≠ 0) (hv : verify s.cfg (pre ++ [b]) = true)
    (hlen : (pre ++ [b]).length = 3 + ((pre ++ [b]).headD 0).toNat) :
    ∃ u, exec (.evUartRx b) t = .next u ∧ u.ufr = resync (f.stored b) ∧
      (t.setUfr u.ufr).EnqueueBegun (.evUartRx b) .q1 (fit (s.queue .q1).itemSize.toNat (pre ++ [b])) u := by
  have hstored := h.stored (b := b) (Nat.lt_succ_self _)
  have hlast : t.ufr.pos + 1 = t.ufr.need := by
    apply BitVec.eq_of_toNat_eq
    rw [hf.ufr, h.need, show f.pos + 1 = (f.stored b).pos from rfl, hstored.pos, List.length_append]; rfl
  have hpkt : (t.ufr.fbuf.set t.ufr.pos.toNat b).take t.ufr.need.toNat = pre ++ [b] := by
    have := hstored.bytes
    rw [hf.ufr, h.need]
    rwa [List.length_append] at this
  have he := exec_evUartRx_completes (b := b) (hf.link.trans hl) hf.phase (by rw [hf.ufr]; exact h.state)
    (by rw [hf.ufr, h.pos]; have := h.room; omega) hlast
  rw [hpkt, callAccept_verified (s := t.setUfr (resync (t.ufr.stored b))) hne (hf.cfg ▸ hv), acceptItem,
    fit_take_self hlen, hf.ufr] at he
  have hbegun := callEnqueue_begun (t.setUfr (resync (f.stored b))) (.evUartRx b) .q1
    (fit (s.queue .q1).itemSize.toNat (pre ++ [b]))
  have hq : (t.setUfr (resync (f.stored b))).queue .q1 = s.queue .q1 := hf.ftc.2.1 .q1
  rw [hq] at he
  have hufr := State.EnqueueBegun.ufr hbegun
  exact ⟨_, he, hufr, by rw [hufr]; exact hbegun⟩

/-- Settles O39: the start code (`startCode_run`), the length byte, the bytes of the packet but the last (`payload_run`), and
the last one (`exec_lastByte`); the packet verifies (`builtPacketsVerify`). -/
theorem oneFrameDeliversOnePacket : Obligations.OneFrameDeliversOnePacket := by
  intro s payload hinv hl hs hw hidle h1 hmax
  have hc := hinv.config
  obtain ⟨t1, f1, ht1, hf1, hstate1, hfbuf1⟩ := startCode_run hinv hl hs hw hidle
  obtain ⟨len, hlen⟩ : ∃ len, len = BitVec.ofNat 8 payload.length := ⟨_, rfl⟩
  have hlength : len.toNat = payload.length := hlen ▸ toNat_lengthByte hc hmax
  have he := exec_evUartRx_length (b := len) (hf1.link.trans hl) hf1.phase (by rw [hf1.ufr]; exact hstate1)
  rw [hf1.cfg, lengthByte_accepted (by omega) (by omega), hf1.ufr] at he
  have hf2 := hf1.step (f1.started len) (.valued .ok 2)
  have hholds := f1.holds_started (len := len) hc (by omega) (by rw [hfbuf1]; exact hinv.ufr.1)
  obtain ⟨low, high, hpacket⟩ : ∃ low high, packet s.cfg payload = len :: (payload ++ [low, high]) :=
    ⟨_, _, hlen ▸ packet_eq_cons s.cfg payload⟩
  obtain ⟨t, f, ht, hf, hh⟩ := payload_run hl (payload ++ [low]) hf2 hholds (by simp; omega)
  have hpre : ([len] ++ (payload ++ [low])) ++ [high] = packet s.cfg payload := by rw [hpacket]; simp
  have hhead : (packet s.cfg payload).headD 0 = len := by rw [hpacket]; rfl
  have hverify := builtPacketsVerify s.cfg payload [] hc hmax
  rw [List.append_nil] at hverify
  have hcount : ([len] ++ (payload ++ [low])).length + 1 = 3 + len.toNat := by simp; omega
  obtain ⟨u, hu, hufr, hbegun⟩ := exec_lastByte (b := high) hl hf (hcount ▸ hh)
    (by rw [hpre, hhead]; intro h0; rw [h0] at hlength; simp at hlength; omega) (hpre ▸ hverify)
    (by rw [hpre, hhead, hpacket]; simp; omega)
  refine ⟨s.cfg.startCode ++ ([len] ++ (payload ++ [low])), high, t, u, ?_, ?_, hf.ufr ▸ hf.ftc, hf.ufr ▸ hh.state, hu,
    by rw [hufr]; rfl, by rw [hufr]; rfl, ?_⟩
  · rw [List.append_assoc, hpre]
  · rw [List.map_append, execAll_append ht1, List.map_append]
    exact (execAll_cons he _).trans ht
  · rw [hpre] at hbegun; exact hbegun

end Sys2Proof.Machine
end

section
/-! PROOFS. The registers as numbers (10_state.md section 10), the entry of a handler and the sources it comes from
(60_exceptions.md section 3), and reset (70_reset_and_hazards.md section 1). -/

namespace Sys2Proof.Machine

variable {s m t : State} {i : Instr} {q : QId}

/-! ### Registers -/

theorem toNat_append_eq {a b : Nat} (x : BitVec a) (y : BitVec b) : (x ++ y).toNat = x.toNat * 2 ^ b + y.toNat := by
  rw [BitVec.toNat_append, ← Nat.shiftLeft_add_eq_or_of_lt y.isLt, Nat.shiftLeft_eq]

theorem toNat_bit (b : Bool) : (bit b).toNat = b.toNat := BitVec.toNat_ofBool b

section registers

variable (s)

theorem toNat_config (hc : s.cfg.WF) : (s.regValue .config).toNat =
    s.cfg.maxPacketSize + 2 ^ 8 * (s.cfg.maxPacketSize - 3) + 2 ^ 16 * (s.cfg.nprio - 1) + 2 ^ 20 * 3 +
      2 ^ 24 * s.cfg.startCode.length := by
  obtain ⟨⟨hmin, hmax⟩, ⟨hcode1, hcode2⟩, -, ⟨hprio1, hprio2⟩, -⟩ := hc
  have hmessage : s.cfg.maxMessageSize = s.cfg.maxPacketSize - 3 := rfl
  have hcode : s.cfg.startCodeLen = s.cfg.startCode.length := rfl
  simp only [State.regValue, toNat_append_eq, BitVec.toNat_ofNat, hmessage, hcode, nq]
  omega

theorem toNat_link : (s.regValue .link).toNat = match s.link with | .none => 0 | .spi => 1 | .uart => 2 := by
  simp only [State.regValue, toNat_append_eq]
  cases s.link <;> rfl

theorem toNat_faultr : (s.regValue .faultr).toNat =
    s.accFatal.toNat + 2 ^ 4 * (s.queue .q0).qinv.toNat + 2 ^ 5 * (s.queue .q1).qinv.toNat +
      2 ^ 6 * (s.queue .q2).qinv.toNat + 2 ^ 7 * (s.queue .q3).qinv.toNat := by
  simp only [State.regValue, toNat_append_eq, toNat_bit, BitVec.toNat_ofNat]
  omega

theorem toNat_ufrstat : (s.regValue .ufrstat).toNat =
    (match s.ufr.state with | .awaitingStart => 0 | .awaitingLength => 1 | .awaitingPayload => 2) +
      2 ^ 4 * s.ufr.winCount.toNat + 2 ^ 8 * s.ufr.pos.toNat + 2 ^ 16 * s.ufr.need.toNat := by
  have hcode : s.ufr.state.code.toNat =
      match s.ufr.state with | .awaitingStart => 0 | .awaitingLength => 1 | .awaitingPayload => 2 := by
    cases s.ufr.state <;> rfl
  simp only [State.regValue, toNat_append_eq, BitVec.toNat_ofNat, hcode]
  omega

theorem toNat_spxstat : (s.regValue .spxstat).toNat =
    s.spx.busy.toNat + 2 * s.spx.selected.toNat + 2 ^ 2 * s.spx.ctsArmed.toNat + 2 ^ 3 * s.spx.ctsPend.toNat +
      2 ^ 4 * s.spx.mwArmed.toNat + 2 ^ 5 * s.spx.mwPend.toNat + 2 ^ 6 * s.env.ctsPin.toNat +
      2 ^ 7 * s.env.mwPin.toNat + 2 ^ 8 * s.ufr.utxBusy.toNat := by
  simp only [State.regValue, toNat_append_eq, toNat_bit, BitVec.toNat_ofNat]
  omega

theorem toNat_accstat : (s.regValue .accstat).toNat =
    match s.acc.status with | .none => 0 | .writeSuccess => 1 | .writeFail => 2 | .fatal => 3 := by
  simp only [State.regValue, toNat_append_eq]
  cases s.acc.status <;> rfl

theorem toNat_qcfg (q : QId) : (s.regValue (.qcfg q)).toNat =
    (s.queue q).init.toNat + 2 * (s.queue q).sp.toNat + 2 ^ 4 * (s.queue q).ceil.toNat +
      2 ^ 16 * (s.queue q).itemSize.toNat := by
  simp only [State.regValue, toNat_append_eq, toNat_bit, BitVec.toNat_ofNat]
  omega

/-- A register that holds one field, or two. -/
theorem toNat_zero_append {a b : Nat} (y : BitVec b) : (0#a ++ y).toNat = y.toNat := by
  rw [toNat_append_eq]; simp

theorem toNat_pair {a b : Nat} (x : BitVec a) (y : BitVec b) : (x ++ y).toNat = y.toNat + 2 ^ b * x.toNat := by
  rw [toNat_append_eq, Nat.mul_comm, Nat.add_comm]

theorem toNat_zero_append_pair {a b c : Nat} (x : BitVec b) (y : BitVec c) :
    (0#a ++ x ++ y).toNat = y.toNat + 2 ^ c * x.toNat := by
  rw [toNat_pair, toNat_zero_append]

end registers

/-- Settles O55: each index of the map names its register, and each register is the number its fields make. -/
theorem registersHoldTheirFields : Obligations.RegistersHoldTheirFields := by
  intro s hinv
  have index : ∀ q : QId,
      Reg.ofIndex (BitVec.ofNat 8 (0x20 + 8 * q.code.toNat)) = some (.qcfg q) ∧
      Reg.ofIndex (BitVec.ofNat 8 (0x21 + 8 * q.code.toNat)) = some (.qgeom q) ∧
      Reg.ofIndex (BitVec.ofNat 8 (0x22 + 8 * q.code.toNat)) = some (.qfront q) ∧
      Reg.ofIndex (BitVec.ofNat 8 (0x23 + 8 * q.code.toNat)) = some (.qclaimed q) ∧
      Reg.ofIndex (BitVec.ofNat 8 (0x24 + 8 * q.code.toNat)) = some (.qready q) := by
    intro q; cases q <;> decide
  constructor
  · simp only [List.forall_mem_cons, List.not_mem_nil, false_implies, implies_true, and_true]
    exact ⟨⟨.id, rfl, rfl⟩, ⟨.config, rfl, toNat_config s hinv.config⟩, ⟨.link, rfl, toNat_link s⟩,
      ⟨.maskr, rfl, toNat_zero_append _⟩, ⟨.faultr, rfl, toNat_faultr s⟩, ⟨.txdrop, rfl, rfl⟩, ⟨.rxdrop, rfl, rfl⟩,
      ⟨.crcfail, rfl, rfl⟩, ⟨.ufrstat, rfl, toNat_ufrstat s⟩, ⟨.ufrwin, rfl, toNat_zero_append_pair _ _⟩,
      ⟨.startcode, rfl, toNat_zero_append_pair _ _⟩, ⟨.spxstat, rfl, toNat_spxstat s⟩,
      ⟨.accpage, rfl, toNat_zero_append _⟩, ⟨.accbitmap, rfl, congrArg BitVec.toNat hinv.acc.2.1⟩,
      ⟨.accstat, rfl, toNat_accstat s⟩⟩
  · intro q
    obtain ⟨hcfg, hgeom, hfront, hclaimed, hready⟩ := index q
    simp only [List.forall_mem_cons, List.not_mem_nil, false_implies, implies_true, and_true]
    exact ⟨⟨_, hcfg, toNat_qcfg s q⟩, ⟨_, hgeom, toNat_pair _ _⟩, ⟨_, hfront, toNat_zero_append _⟩,
      ⟨_, hclaimed, toNat_zero_append _⟩, ⟨_, hready, toNat_zero_append _⟩⟩

/-! ### Entry (60_exceptions.md R415, R418) -/

theorem highest_append_cons {before after : List Candidate} {c : Candidate} (hb : ∀ d ∈ before, d.level < c.level)
    (ha : ∀ d ∈ after, d.level ≤ c.level) : highest (before ++ c :: after) = some c := by
  induction before with
  | nil =>
    rw [List.nil_append, highest]
    split
    · rfl
    next d hd => rw [if_neg (not_lt.2 (ha d (highest_mem hd)))]
  | cons x before ih =>
    obtain ⟨hx, hbefore⟩ := List.forall_mem_cons.1 hb
    rw [List.cons_append, highest, ih hbefore]
    exact if_pos hx

/-- Settles O56: the admitted handlers are those that `canEnter` lets in, and of these the first of the highest level is
entered (`highest_append_cons`). -/
theorem entryTakesTheHighestAdmittedHandler : Obligations.EntryTakesTheHighestAdmittedHandler := by
  intro s tail hc hs s1 admitted
  have hadmitted : ∀ c, s1.canEnter c.level = true ↔ admitted c := fun c => by
    rw [State.canEnter_iff, and_assoc]; exact Iff.rfl
  have hstep : step s = .next (enterStep s1) := step_of_environment hc hs (by simp)
  refine ⟨fun h => ?_, fun before c after hsplit hadm hbefore hafter => ?_⟩
  · have hnone : (candidates s1).filter (fun c => s1.canEnter c.level) = [] :=
      List.filter_eq_nil_iff.2 fun c hmem he => h c hmem ((hadmitted c).1 he)
    rw [hstep, enterStep, hnone]; rfl
  · have hhighest : highest ((candidates s1).filter (fun c => s1.canEnter c.level)) = some c := by
      rw [hsplit, List.filter_append, List.filter_cons_of_pos (p := fun c : Candidate => s1.canEnter c.level)
        ((hadmitted c).2 hadm)]
      refine highest_append_cons (fun d hd => ?_) fun d hd => ?_ <;> rw [List.mem_filter] at hd
      · exact hbefore d hd.1 ((hadmitted d).1 hd.2)
      · exact hafter d hd.1 ((hadmitted d).1 hd.2)
    have hctx := fun u => (s1.setEnv c.env).enterContext_ctx (p := c.port) c.level u c.stream
    obtain ⟨-, -, -, habove, -⟩ := hadm
    refine ⟨(s1.setEnv c.env).enterContext c.level c.port c.stream, ?_, State.running_enterContext _ _ habove, rfl,
      s.sameFtc_refl, rfl, rfl, (hctx c.level).trans (if_pos rfl), fun u hu => (hctx u).trans (if_neg hu)⟩
    rw [hstep, enterStep, hhighest]

/-! ### The sources (60_exceptions.md R411, R412) -/

theorem decode_encode_event {c : Config} (hp : i.port = .event) (hw : i.wellFormed c = true) :
    decode c .event (encode i) = .command i [] := by
  have h := decodeOfEncodeIsTheCommand c i [] hw
  rwa [List.append_nil, hp] at h

/-- The candidates of a list of posted handlers that stand from place `n` on. -/
def postedFrom (s : State) (n : Nat) (hs : List Posted) : List Candidate :=
  (hs.zipIdx n).filterMap fun (h, k) =>
    if h.deliverable s.cfg then
      some ⟨h.level, h.port, h.stream, { s.env with posted := s.env.posted.eraseIdx k }⟩
    else none

theorem postedCandidates_eq (s : State) : postedCandidates s = postedFrom s 0 s.env.posted := rfl

theorem postedFrom_cons (s : State) (n : Nat) (h : Posted) (hs : List Posted) : postedFrom s n (h :: hs) =
    (if h.deliverable s.cfg then [⟨h.level, h.port, h.stream, { s.env with posted := s.env.posted.eraseIdx n }⟩]
      else []) ++ postedFrom s (n + 1) hs := by
  rw [postedFrom, List.zipIdx_cons, List.filterMap_cons]
  by_cases hd : h.deliverable s.cfg = true
  · simp only [if_pos hd]; rfl
  · simp only [if_neg hd]; rfl

theorem postedFrom_append (s : State) (n : Nat) (hs ks : List Posted) :
    postedFrom s n (hs ++ ks) = postedFrom s n hs ++ postedFrom s (n + hs.length) ks := by
  rw [postedFrom, List.zipIdx_append, List.filterMap_append]; rfl

theorem length_postedFrom (s : State) (n : Nat) (hs : List Posted) :
    (postedFrom s n hs).length = (hs.filter (Posted.deliverable s.cfg)).length := by
  induction hs generalizing n with
  | nil => rfl
  | cons h hs ih =>
    rw [postedFrom_cons, List.length_append, ih]
    by_cases hd : h.deliverable s.cfg = true
    · rw [if_pos hd, List.filter_cons_of_pos hd, List.length_cons, Nat.add_comm]; rfl
    · rw [if_neg hd, List.filter_cons_of_neg hd, List.length_nil, Nat.zero_add]

/-- The candidate of a posted handler stands behind those of the handlers posted before it, and entry takes it alone off the
list. -/
theorem postedCandidates_getElem? {before after : List Posted} {h : Posted} (hs : s.env.posted = before ++ h :: after)
    (hd : h.deliverable s.cfg = true) :
    (postedCandidates s)[(before.filter (Posted.deliverable s.cfg)).length]? =
      some ⟨h.level, h.port, h.stream, { s.env with posted := before ++ after }⟩ := by
  have herase : s.env.posted.eraseIdx (0 + before.length) = before ++ after := by
    rw [hs, Nat.zero_add, List.eraseIdx_append_of_length_le le_rfl, Nat.sub_self]; rfl
  rw [postedCandidates_eq, congrArg (postedFrom s 0) hs, postedFrom_append, postedFrom_cons, if_pos hd,
    ← length_postedFrom s 0 before, List.getElem?_append_right le_rfl, Nat.sub_self, herase]
  rfl

/-- Settles O57: each source's candidate carries its event command's encoding (`decode_encode_event`), and the posted
handlers keep their order (`postedCandidates_getElem?`). -/
theorem eachSourceDeliversItsEvent : Obligations.EachSourceDeliversItsEvent := by
  intro s hinv
  refine ⟨uartRxCandidate s, uartTxDoneCandidate s, spiDoneCandidate s, ctsCandidate s, mwCandidate s,
    postedCandidates s, rfl, ?_, ?_, ?_, ?_, ?_, ?_⟩
  · intro pending
    have hpending : pending = Posted.deliverable s.cfg := funext fun ⟨level, port, stream⟩ => by
      cases port with
      | command => cases hd : decode s.cfg .command stream <;> simp only [pending, Posted.deliverable, hd]
      | event => cases hd : decode s.cfg .event stream <;> simp only [pending, Posted.deliverable, hd]
    rw [hpending]
    exact ⟨length_postedFrom s 0 s.env.posted, fun before h after hs hd => postedCandidates_getElem? hs hd⟩
  · unfold uartRxCandidate
    cases s.env.uartRx with
    | nil => rfl
    | cons e rest =>
      refine ⟨_, rfl, rfl, rfl, rfl, ?_⟩
      cases e with
      | byte b => exact decode_encode_event rfl rfl
      | error kind => exact decode_encode_event rfl rfl
  · unfold uartTxDoneCandidate
    cases s.env.uartTxDone with
    | zero => rfl
    | succ n => exact ⟨_, rfl, rfl, rfl, rfl, decode_encode_event rfl rfl⟩
  · unfold spiDoneCandidate
    cases h : s.env.spiDone with
    | nil => rfl
    | cons rx rest =>
      have hlen := hinv.buffers rx (h ▸ List.mem_cons_self)
      exact ⟨_, rfl, rfl, rfl, rfl, decode_encode_event rfl (decide_eq_true hlen)⟩
  · unfold ctsCandidate
    split
    · exact ⟨_, rfl, rfl, rfl, rfl, decode_encode_event rfl rfl⟩
    · rfl
  · unfold mwCandidate
    split
    · exact ⟨_, rfl, rfl, rfl, rfl, decode_encode_event rfl rfl⟩
    · rfl

/-! ### Reset (70_reset_and_hazards.md R450, R451) -/

theorem fit_of_length {n : Nat} {xs : List Byte} (h : xs.length = n) : fit n xs = xs := by
  rw [fit, List.take_append_of_le_length (le_of_eq h.symm), ← h, List.take_length]

/-- Settles O58: `resetStep` writes every element, with the contexts' records cleared (`resetStep_ctx`). -/
theorem resetSetsEveryElement : Obligations.ResetSetsEveryElement := by
  intro s d tail hc hs
  have hchunks := maxChunksPerPage_le hc
  have hctx := resetStep_ctx d (s.setSchedule tail)
  refine ⟨resetStep d (s.setSchedule tail), step_of_environment hc hs (by simp), rfl, rfl, rfl, rfl, rfl, rfl, rfl,
    Queues.reset_get, rfl, rfl, rfl, getLsbD_allPending hchunks, rfl, length_fit _ _, fun u => ?_, ?_, ?_, rfl, rfl,
    rfl, rfl, rfl, rfl, rfl, rfl, fun hlen a ha => ?_, fun hlen => fit_of_length hlen⟩
  · rw [hctx]; exact ⟨rfl, rfl⟩
  · exact State.running_eq _ (.inl rfl) fun v hv => by rw [hctx] at hv; exact absurd hv (by simp [Context.reset])
  · rw [hctx]; rfl
  · show (Memory.writeBytes [] 0 (d.qsm.take s.cfg.qsmBytes)).read a = _
    rw [← hlen, List.take_length, Memory.read_writeBytes ⟨by simp, by simp⟩, if_pos (by omega), Nat.sub_zero]

section afterReset

variable (d : ResetDraw) (s0 : State)

theorem resetStep_phase : (resetStep d s0).phase = .first := State.phase_of_not_busy fun j ph h => by
  rw [State.record, resetStep_ctx] at h; simp [Context.reset] at h

theorem resetStep_queue (q : QId) : (resetStep d s0).queue q = .reset := Queues.reset_get q

/-- After a reset an ENQUEUE is refused with NOT_INIT. -/
theorem resetStep_claimRefusal (q : QId) : (resetStep d s0).claimRefusal q = some .notInit := by
  rw [State.claimRefusal, resetStep_queue]; rfl

theorem exec_event_of_no_link (h : s.link = .none) (hp : s.phase = .first) (hi : i.port = .event) :
    exec i s = .next (s.reply .event (.plain .badArg)) := by
  have huart : s.link ≠ .uart := by simp [h]
  have hspi : s.link ≠ .spi := by simp [h]
  cases i with
  | evUartRx b => exact exec_evUartRx_of_link_ne b huart hp
  | evUartErr kind => exact exec_evUartErr_refused (.inl huart)
  | evUartTxDone => exact exec_evUartTxDone_refused (.inl huart)
  | evSpiDone rx => exact exec_evSpiDone_of_link_ne rx hspi hp
  | evCtsEdge => exact exec_evCtsEdge_of_link_ne hspi
  | evMwEdge => exact exec_evMwEdge_of_link_ne hspi
  | _ => exact absurd hi nofun

theorem kickLink_of_no_link (h : s.link = .none) : kickLink s = .ok (s, false) := by
  rw [kickLink, h]

end afterReset

/-- Settles O59: every queue command finds its queue uninitialised, a SEND that fits ends with NOT_INIT and its drop, and
with no link the kick and the events do nothing. -/
theorem nothingIsSetUpAfterReset : Obligations.NothingIsSetUpAfterReset := by
  intro s0 d s
  have hphase : s.phase = .first := resetStep_phase d s0
  have hqueue : ∀ q, s.queue q = .reset := resetStep_queue d s0
  have hlink : s.link = .none := rfl
  have hdrop : s.txDrop = 0 := rfl
  have hrefusal : s.claimRefusal .q0 = some .notInit := resetStep_claimRefusal d s0 .q0
  clear_value s
  have hinit : ∀ q, (s.queue q).init = false := fun q => by rw [hqueue]; rfl
  have hqinv : ∀ q, (s.queue q).qinv = false := fun q => by rw [hqueue]; rfl
  have hd1 : ∀ q, dequeueD1 q s = .inl .notInit := fun q => by
    rw [dequeueD1, if_neg (by simp [hqinv]), if_pos (by simp [hinit])]
  refine ⟨fun q data => ?_, fun payload hfits => ?_, ?_, fun i hi => ?_⟩
  · simp only [List.forall_mem_cons, List.not_mem_nil, false_implies, implies_true, and_true]
    exact ⟨exec_onlyAnswered (exec_enq_notInit hphase (hqinv q) (hinit q)),
      exec_onlyAnswered (exec_takesFrom_refused (.inl rfl) hphase (hd1 q)),
      exec_onlyAnswered (exec_counter_notInit (.inl rfl) (hqinv q) (hinit q)),
      exec_onlyAnswered (exec_counter_notInit (.inr rfl) (hqinv q) (hinit q)),
      exec_onlyAnswered (exec_takesFrom_refused (.inr ⟨rfl, rfl⟩) hphase (hd1 .q1))⟩
  · have hfirst := exec_send_calls hphase hfits
    rw [callEnqueue_refused hrefusal] at hfirst
    have hwent := s.goOn_wentOn (.send payload) (.afterEnqueue .notInit)
    have hcount : (s.goOn (.send payload) (.afterEnqueue .notInit)).sendCounted .notInit =
        (s.goOn (.send payload) (.afterEnqueue .notInit)).setTxDrop 1 := by
      rw [State.sendCounted, if_neg (by simp), State.goOn_txDrop, hdrop]; rfl
    have hlast := exec_send_t2 (payload := payload) (State.phase_of_record hwent.record)
      (kickLink_of_no_link (s := (s.goOn (.send payload) (.afterEnqueue .notInit)).sendCounted .notInit)
        (by rw [hcount]; exact hlink))
    refine ⟨_, _, hfirst, hlast, hwent.ended ((State.sendCounted_sameCaller _ _).reply_ended _ _), ?_, ?_⟩ <;> rw [hcount]
    · have hftc : (s.setTxDrop 1).SameFtc ((s.goOn (.send payload) (.afterEnqueue .notInit)).setTxDrop 1) :=
        (s.setTxDrop 1).sameFtc_refl
      exact hftc.reply _ _
    · exact State.reply_sameEnv _ _ _
  · exact exec_onlyAnswered (exec_kick_of_kickLink (kickLink_of_no_link hlink))
  · exact exec_onlyAnswered (exec_event_of_no_link hlink hphase hi)

end Sys2Proof.Machine
end
